-- ==== Sys2Proof/Word.lean ====
section
/-! DEFINITION. The word types of the Delfra 2418 and the bundle of four things, one per panel.
Conventions: 00_scope.md "Conventions". -/

namespace Sys2Proof

/-- One byte of the sign memory or of a bus transaction. -/
abbrev Byte := BitVec 8

/-- A monotonic second, and the sequence counter: 32-bit wrapping counts (R38, R152). -/
abbrev Count32 := BitVec 32

/-- A panel number, 0 to 3; a port number is the same number (R123). -/
abbrev PanelNo := Fin 4

/-- Four things of one kind, one per panel (or per arbiter level 1 to 4, R147). -/
structure Quad (α : Type) where
  p0 : α
  p1 : α
  p2 : α
  p3 : α
  deriving DecidableEq, Repr

/-- The four panel numbers in ascending order. -/
def panelNos : List PanelNo := [0, 1, 2, 3]

end Sys2Proof
end

