-- ==== Sys2Proof/Syntax.lean ====
section
/-! DEFINITION. The commands of the Delfra 2418: one constructor per row of spec/opcode_table.json, with the
operands the row's event brings from outside the part. -/

namespace Sys2Proof

/-- The command a host transaction opens with (R143): array reads and writes are tapped, every other command (the
sign memory's own configuration register accesses) is forwarded under its own opcode and not tapped. -/
inductive HostCommand where
  | arrayRead
  | arrayWrite
  | other (opcode : Byte)
  deriving DecidableEq, Repr

/-- The data that a host transaction has moved when it ends (R143): the length of an array read, and the two runs of a
transaction with another command (log 27). The bytes of an array write come by the rows of the classified bytes. -/
structure HostData where
  /-- how many bytes an array read has returned -/
  bytesRead : Nat
  /-- the bytes the host has sent with another command -/
  written : List Byte
  /-- the bytes the sign memory has returned to another command -/
  supplied : List Byte
  deriving DecidableEq, Repr

/-- The per-second tests that one SECOND drives (R151), and the walk among them. A SECOND names the order in which
those that meet are taken, where the spec says that either may be first (log 6). -/
inductive SecondTask where
  /-- the epoch event at the Zone Tracker (R28) -/
  | epochZones
  /-- the epoch event at the Job Planner: the surplus sweep test while the level is SURPLUS (R76, R154) -/
  | epochSweeps
  /-- EPOCH_LEAD at a lead second (R155) -/
  | epochLead
  /-- the quiet-hours end event (R29, R156); the start event does nothing to zones -/
  | quietEnd
  /-- the sweep-time event (R75, R157) -/
  | sweepTime
  /-- the maximum hold test (R30) -/
  | maximumHold
  /-- polls falling due (R84) -/
  | polls
  /-- staleness steps (R85) -/
  | staleness
  /-- the STARVED test of the second (R103) -/
  | starved
  /-- the Energy Monitor's sample (R88) -/
  | sample
  /-- a walk of the queue, taken here if a cause of R46 has been met -/
  | walk
  deriving DecidableEq, Repr

/-- The commands. Each constructor's docstring gives the row's mnemonic and its operands. -/
inductive Instr where
  /-- HARDWARE_RESET: the reset line is asserted, or power comes up. `landed` is how many bytes of the part's own
  write burst in progress had reached the sign memory when it was cut (R150). -/
  | hardwareReset (landed : Nat)
  /-- RESET_END: the reset ends with the two window-base straps as given (R159). -/
  | resetEnd (second first : Bool)
  /-- HOST_TRANSACTION_START: select is asserted on the inbound port with this command and start address. -/
  | hostTransactionStart (command : HostCommand) (addr : Nat)
  /-- HOST_TRANSACTION_END: select is negated; `data` is what the transaction has moved (log 27). `grantFirst` says
  whether the grant that the end brings is taken before the order that the end gives, where it gives one (log 7). -/
  | hostTransactionEnd (data : HostData) (grantFirst : Bool)
  /-- TARGET_TOUCH: a forwarded host byte `data` at `addr`, in a TARGET pixel area. -/
  | targetTouch (addr : Nat) (data : Byte)
  /-- SHOWN_TOUCH: a forwarded host byte in a SHOWN pixel area. -/
  | shownTouch (addr : Nat) (data : Byte)
  /-- STAGE_TOUCH: a forwarded host byte in a STAGE pixel area. -/
  | stageTouch (addr : Nat) (data : Byte)
  /-- ORDER_BLOCK_WRITE: a forwarded host byte in the order block. -/
  | orderBlockWrite (addr : Nat) (data : Byte)
  /-- SETUP_EDIT: a forwarded host byte in a setup area. -/
  | setupEdit (addr : Nat) (data : Byte)
  /-- UNTAPPED_WRITE: a forwarded host byte of any other class of R145. -/
  | untappedWrite (addr : Nat) (data : Byte)
  /-- APPLY: order code 1. -/
  | apply
  /-- RUN: order code 2. -/
  | run
  /-- HALT: order code 3. -/
  | halt
  /-- REFRESH_ZONE: order code 4 with the order block's target, mode and class. -/
  | refreshZone (target mode cls : Byte)
  /-- REFRESH_PANEL: order code 5. -/
  | refreshPanel (target mode cls : Byte)
  /-- SWEEP: order code 6 with its panel mask. -/
  | sweep (mask : Byte)
  /-- SET_CLOCK: order code 7 with its two arguments, the second of day and the day count. -/
  | setClock (arg1 arg2 : BitVec 32)
  /-- CLEAR_ATTN: order code 8 with its first argument, a mask of causes. -/
  | clearAttn (mask : BitVec 32)
  /-- RESTORE_PORT: order code 9. -/
  | restorePort (target : Byte)
  /-- UNKNOWN_ORDER: an order whose code lies outside 1 to 9. -/
  | unknownOrder (code : Byte)
  /-- CAPTURE_BURST_END: the capture burst in progress ends. -/
  | captureBurstEnd
  /-- FEED_BURST_END: the feed burst in progress ends. -/
  | feedBurstEnd
  /-- COMMIT_READ_END: the commit's STAGE read burst in progress ends. -/
  | commitReadEnd
  /-- COMMIT_WRITE_END: the commit's SHOWN write burst in progress ends. -/
  | commitWriteEnd
  /-- SETUP_READ_END: the setup read burst in progress ends. -/
  | setupReadEnd
  /-- STATUS_POST_END: the posting burst in progress ends. -/
  | statusPostEnd
  /-- TICK: a tick of the Time Base ends. -/
  | tick
  /-- SETTLE_EXPIRY: the settle timer of zone `zone`, which the last TICK brought to 0, expires. -/
  | settleExpiry (zone : Fin 64)
  /-- SECOND: the second event, with the two monitor inputs in millivolts as measured and the order in which the
  tests of the second are taken. -/
  | second (storage solar : Int) (order : List SecondTask)
  /-- DRIVE_START: the POISED job of this panel starts its drive. -/
  | driveStart (panel : PanelNo)
  /-- FRAME_START: the port sends its next FRAME_START. -/
  | frameStart (panel : PanelNo)
  /-- LINE_SLOT: the next line slot of the frame begins. `busy` is the panel's BUSY line when the port begins to
  watch it, which it does at the end of the frame's last slot (R125). -/
  | lineSlot (panel : PanelNo) (busy : Bool)
  /-- CLOSE: the port sends CLOSE; `busy` is the BUSY line at its end. -/
  | close (panel : PanelNo) (busy : Bool)
  /-- WAKE: the rest hold has passed and the port sends WAKE; `busy` is the BUSY line at its end. -/
  | wake (panel : PanelNo) (busy : Bool)
  /-- BUSY_NEGATED: the panel negates BUSY. -/
  | busyNegated (panel : PanelNo)
  /-- IDENT: an IDENT reply with the panel's width and height arrives. -/
  | ident (panel : PanelNo) (width height : Nat)
  /-- TEMP_QUERY: the port sends TEMP_QUERY. -/
  | tempQuery (panel : PanelNo)
  /-- TEMP: a TEMP reply with this temperature arrives. -/
  | temp (panel : PanelNo) (degrees : Int)
  /-- WAKE_BUSY_LIMIT: the wake BUSY limit passes. -/
  | wakeBusyLimit (panel : PanelNo)
  /-- IDENT_REPLY_TIMEOUT: the IDENT reply timeout passes. -/
  | identReplyTimeout (panel : PanelNo)
  /-- TEMP_REPLY_TIMEOUT: the TEMP reply timeout passes. -/
  | tempReplyTimeout (panel : PanelNo)
  /-- FRAME_BUSY_LIMIT: the frame BUSY limit passes. -/
  | frameBusyLimit (panel : PanelNo)
  /-- CLOSE_BUSY_LIMIT: the close BUSY limit passes. -/
  | closeBusyLimit (panel : PanelNo)
  /-- REST: the rest delay expires. -/
  | rest (panel : PanelNo)
  /-- RETRY_WAKE: the port retry timer expires. `holdPassed` says whether the rest hold has gone by since the last
  REST, if there was one and the hold is not 0 (R127, log 11); `busy` is the BUSY line at the end of the WAKE that is then sent. -/
  | retryWake (panel : PanelNo) (holdPassed busy : Bool)
  /-- RAIL_RAISE: with demand and the minimum off time passed, the rail is raised. -/
  | railRaise
  /-- RAIL_GOOD_ASSERTED: rail-good is asserted. -/
  | railGoodAsserted
  /-- RAIL_GOOD_NEGATED: rail-good is negated. -/
  | railGoodNegated
  /-- RISE_LIMIT: the rise limit passes. -/
  | riseLimit
  /-- LINGER_EXPIRY: the linger time expires. -/
  | lingerExpiry
  /-- DISCHARGE_END: the 50 ms discharge ends. -/
  | dischargeEnd
  /-- RAIL_RETRY: the rail retry timer expires. -/
  | railRetry
  deriving DecidableEq, Repr

end Sys2Proof
end

