-- ==== Sys2Proof/Decode.lean ====
section
/-! DEFINITION. The commands a word spells by spec/opcode_table.json. No row of the table gives a command bits (its
"fields" are empty and it has no "fixed" bits), so no word spells a command. -/

namespace Sys2Proof

/-- The command whose bits are `w`, for the rows of the table that give bits: there are none. -/
def decodeTableWord (_nbits _w : Nat) : Option Instr := none

end Sys2Proof
end

