-- ==== Sys2Proof/Config.lean ====
section
/-! DEFINITION. What every Delfra 2418 fixes, and the values the spec leaves open (constants without a body:
nothing can be proved about their value). -/

namespace Sys2Proof

namespace Config

/-- The sign memory's address space is 24 bits, 16 MiB (00_scope.md, Units). -/
def memoryEnd : Nat := 0x1000000

/-- The control window is 4 KiB (R159). -/
def windowBytes : Nat := 0x1000

/-- The window base the two straps choose, second strap first (R159). -/
def windowBase (second first : Bool) : Nat :=
  match second, first with
  | false, false => 0x0FF000
  | false, true => 0x1FF000
  | true, false => 0x3FF000
  | true, true => 0x7FF000

/-- What a byte of sign memory that nothing has written reads as. DESIGN CHOICE (log 2), unsafe: the spec gives
no contents at power-up. -/
def unwrittenByte : Byte := 0

/-- The Tile Table's capacity (R7). -/
def maxTiles : Nat := 4096

/-- The job slots of the pool (R37). -/
def slots : Nat := 32

/-- Tile row segments in a full group of a burst (R108): 16 segments of 8 bytes. -/
def groupTiles : Nat := 16

/-- The longest burst, in bytes (R146). -/
def burstBytes : Nat := 128

/-- The setup reads of one APPLY (R162). -/
def setupReads : Nat := 21

/-- The last second of day plus one (R152). -/
def daySeconds : Nat := 86400

/-- Ticks in a second, and seconds in a compensation window (R151). -/
def ticksPerSecond : Nat := 32

/-- Oscillator periods in an unadjusted tick (R151). -/
def tickPeriods : Nat := 1024

/-- The wake BUSY limit, in microseconds (R125). -/
def wakeBusyMicros : Nat := 500000

/-- The IDENT reply timeout, in microseconds (R125). -/
def identReplyMicros : Nat := 20000

/-- The TEMP reply timeout, in microseconds (R125): it runs exactly while TEMP is outstanding. -/
def tempReplyMicros : Nat := 20000

/-- The close BUSY limit, in microseconds (R125). -/
def closeBusyMicros : Nat := 100000

/-- The rail's discharge time, in milliseconds (R139). -/
def dischargeMillis : Nat := 50

/-- FREE VALUE (log 9): what the sign memory returns to a host read at or beyond 1000000h, an address it does not
have; the spec says only that the part passes back what the memory supplies (R143). -/
opaque byteBeyondMemory : Nat → Byte

/-- FREE VALUE (log 10): whether a bit 4 to 7 of a SWEEP order's target names a panel that is not enabled. The
spec gives the mask one bit for each of panels 0 to 3 and does not say what the byte's other bits do (R77, R160). -/
opaque sweepHighBitsName : Bool

end Config

end Sys2Proof
end

