-- ==== Sys2Proof/Machine/State.lean ====
section
/-! DEFINITION. The state of the Delfra 2418 as plain data: everything the spec gives the part, the sign memory
behind it, and the queue of waiting commands. Nothing here is an operation (those are in Machine/Ops.lean and the
files after it). -/

namespace Sys2Proof.Machine

/-- A meaning never stops: no rule of the spec gives a condition in which the part stops taking steps, so no
constructor stands here (port faults, rail faults and refused orders are states of the part). Safe. -/
inductive Fault where
  deriving DecidableEq, Repr

/-- Why a command has no meaning in the model. -/
inductive Refusal where
  /-- Raised by an arm of `exec` whose command has no meaning yet; no arm is one. Safe: the model stops. -/
  | notModelled (mnemonic : String)
  deriving DecidableEq, Repr

/-- The sign memory, or a part of it: (address, byte) pairs, addresses rising, none with the byte an unlisted
address reads as (`Memory.wf`). -/
abbrev Memory := List Host.Cell

/-! ### Settings (R165) -/

/-- The classes of zones and jobs, most urgent first (R15, R36); SWEEP is a class of jobs only. -/
inductive RefreshClass where
  | urgent
  | timed
  | routine
  | sweep
  deriving DecidableEq, Repr

/-- A zone's mode policy (R15). -/
inductive ModePolicy where
  | auto
  | partialOnly
  | fullAlways
  deriving DecidableEq, Repr

/-- The global settings (R165), as clamped. Voltages in mV, energies in mJ, the boost in µJ, times as named. -/
structure GlobalSettings where
  /-- the most jobs running at once, 1 to 4 (R48) -/
  runningLimit : Nat
  /-- row pairs held below which a feed is urgent, 1 to 3 (R114) -/
  feedThreshold : Nat
  /-- feed stall on (R148) -/
  feedStall : Bool
  /-- hysteresis H of the bands, 0 to 7 °C (R79) -/
  bandHysteresis : Nat
  /-- policy hysteresis Hp, 0 to 255 mV (R89) -/
  policyHysteresis : Nat
  /-- capacitance C, units of 0.1 F (R89) -/
  capacitance : Nat
  vFloor : Nat
  vFreeze : Nat
  vLean : Nat
  vSurplus : Nat
  darkThreshold : Nat
  lightThreshold : Nat
  /-- boost cost B, µJ (R97) -/
  boost : Nat
  holdbackDay : Nat
  holdbackNight : Nat
  /-- starvation limit, s (R103) -/
  starvationLimit : Nat
  /-- sweep spacing, hours (R76) -/
  sweepSpacing : Nat
  /-- compensation c, −255 to +255 periods (R151) -/
  compensation : Int
  /-- epoch period E, s (R154) -/
  epochPeriod : Nat
  epochOffset : Nat
  /-- epoch lead L, s; 0 means none (R155) -/
  epochLead : Nat
  quietStart : Nat
  quietEnd : Nat
  /-- the sweep time, or none (R157) -/
  sweepTime : Option Nat
  /-- rise limit, ms (R139) -/
  riseLimit : Nat
  /-- linger time, ms (R139) -/
  lingerTime : Nat
  /-- minimum off time, ms (R139) -/
  minimumOff : Nat
  /-- rail retry interval, s (R139) -/
  railRetryInterval : Nat
  deriving DecidableEq, Repr

/-- A band record in use (R79). -/
structure Band where
  /-- lower bound, °C -/
  lower : Int
  /-- Fp -/
  partialFrames : Nat
  /-- Ff -/
  fullFrames : Nat
  /-- frame period P, ms -/
  period : Nat
  /-- ghost weight w -/
  weight : Nat
  deriving DecidableEq, Repr

/-- The descriptor of an enabled panel (R165). -/
structure PanelCfg where
  /-- busy margin, ms (R125) -/
  busyMargin : Nat
  /-- W and H, pixels (R3) -/
  width : Nat
  height : Nat
  /-- bytes from one pixel row of a plane to the next (R3) -/
  stride : Nat
  targetBase : Nat
  shownBase : Nat
  stageBase : Nat
  /-- line period, µs (R124) -/
  linePeriod : Nat
  /-- rest hold, ms (R127) -/
  restHold : Nat
  /-- retry interval, s (R136) -/
  retryInterval : Nat
  /-- poll period, s (R84) -/
  pollPeriod : Nat
  /-- rest delay, s (R129) -/
  restDelay : Nat
  debtSoft : Nat
  debtHard : Nat
  /-- pixel-frame coefficient k, nJ (R97) -/
  pixelCost : Nat
  /-- static cost s, µJ per frame (R97) -/
  frameCost : Nat
  deriving DecidableEq, Repr

/-- A rectangle of tiles by its corners; both belong to it. -/
structure Rect where
  tx0 : Nat
  tx1 : Nat
  ty0 : Nat
  ty1 : Nat
  deriving DecidableEq, Repr

/-- The record of an enabled zone (R15). -/
structure ZoneCfg where
  /-- the zone's index, 0 to 63 -/
  index : Nat
  panel : PanelNo
  rect : Rect
  cls : RefreshClass
  policy : ModePolicy
  /-- settle time, ticks -/
  settle : Nat
  /-- maximum hold, s; 0 means none -/
  hold : Nat
  deriving DecidableEq, Repr

/-- The applied setup (R164): the settings, the bands in use in ascending index, the enabled panels and the
enabled zones in ascending index. -/
structure Setup where
  globals : GlobalSettings
  bands : List Band
  panels : Quad (Option PanelCfg)
  zones : List ZoneCfg
  deriving DecidableEq, Repr

/-! ### The Tile Table and the Zone Tracker -/

/-- Where a tile stands on its path from a host write to the glass (R8). -/
inductive TileState where
  | clean
  | dirty
  | queued
  | active
  deriving DecidableEq, Repr

/-- A tile record (R7); its place in the table gives its panel and coordinates. -/
structure Tile where
  state : TileState
  /-- ghost debt, 0 to 255 (R9) -/
  debt : Nat
  /-- UNKNOWN (R10) -/
  untrusted : Bool
  /-- REDIRTY (R11) -/
  redirty : Bool
  /-- the enabled zone covering the tile; none is LOOSE (R12) -/
  zone : Option Nat
  deriving DecidableEq, Repr

/-- What first placed a job (R36). -/
inductive Origin where
  | settle
  | epoch
  | hold
  | order
  | sweepTime
  | surplus
  | retire
  deriving DecidableEq, Repr

/-- The runtime record of an enabled zone (R16). -/
structure Zone where
  index : Nat
  /-- DIRTY count (R17) -/
  dirtyCount : Nat
  /-- settle timer: ticks remaining, or stopped (R26) -/
  timer : Option Nat
  /-- the last TICK brought the timer to 0 and SETTLE_EXPIRY has not handled it yet (R26) -/
  expired : Bool
  dirtySince : Option Count32
  /-- slot of the zone's queued job -/
  queuedJob : Option Nat
  /-- slot of the zone's running job -/
  runningJob : Option Nat
  /-- HELD with its held origin (R31) -/
  held : Option Origin
  /-- EPOCH_WAIT (R28) -/
  epochWait : Bool
  deriving DecidableEq, Repr

/-! ### Jobs (R36) -/

inductive JobScope where
  | zone (index : Nat)
  | panel (p : PanelNo)
  deriving DecidableEq, Repr

inductive JobState where
  | queued
  | capturing
  | poised
  | driving
  | committing
  deriving DecidableEq, Repr

inductive DriveMode where
  | part
  | full
  deriving DecidableEq, Repr

/-- The fields a job holds from its admission and has absent while QUEUED (R36). -/
structure RunFields where
  mode : DriveMode
  /-- band index -/
  band : Nat
  /-- current cost, mJ: the estimate, and from the capture end the actual cost (R96) -/
  cost : Nat
  /-- n of the estimate, kept for the actual cost (R100) -/
  estimatePixels : Nat
  /-- frame index, while one is shown (R51) -/
  frame : Option Nat
  /-- carried set: the tile table indices of the marked tiles -/
  carried : List Nat
  deriving DecidableEq, Repr

/-- A job record (R36); its slot is its place in the pool. -/
structure Job where
  panel : PanelNo
  scope : JobScope
  rect : Rect
  cls : RefreshClass
  origin : Origin
  fullRequest : Bool
  sequence : Count32
  enqueued : Count32
  state : JobState
  running : Option RunFields
  urgentCarried : Bool
  starvedReported : Bool
  deriving DecidableEq, Repr

/-! ### The Thermal Selector and the Energy Monitor -/

/-- The Thermal Selector's state of an enabled panel (R81). -/
structure Selector where
  band : Nat
  /-- last clamped reading, °C, or none -/
  reading : Option Int
  reference : Count32
  staleSteps : Nat
  stale : Bool
  pollDue : Bool
  deriving DecidableEq, Repr

/-- The policy levels, lowest first (R93). -/
inductive PolicyLevel where
  | frozen
  | lean
  | normal
  | surplus
  deriving DecidableEq, Repr

/-- The Energy Monitor's state (R95). -/
structure Energy where
  /-- Vs and Vsol, mV, as clamped by the last sample (R88) -/
  vs : Nat
  vsol : Nat
  /-- a sample has been taken since the reset (R95) -/
  sampled : Bool
  /-- U, mJ (R90) -/
  usable : Nat
  /-- DARK rather than LIGHT (R91) -/
  dark : Bool
  /-- run count of the light and dark detection -/
  runCount : Nat
  level : PolicyLevel
  deriving DecidableEq, Repr

/-! ### The Transfer Engine (R106 to R119) -/

/-- What a burst of the part's own moves (R146). -/
inductive BurstKind where
  | captureTarget
  | captureShown
  | captureStage
  | feedShown
  | feedStage
  | commitRead
  | commitWrite
  | setupRead
  | statusPost
  deriving DecidableEq, Repr

/-- A burst, requested or in progress. For an engine burst `row` is the pixel row, `tx` the group's first tile
column and `tiles` its width in tiles (R108); for a setup read `row` is its number, 0 to 20. `data` are the bytes a
write burst carries (for the SHOWN read of a capture, the TARGET bytes to be compared and then staged). -/
structure Burst where
  kind : BurstKind
  panel : PanelNo
  row : Nat
  tx : Nat
  tiles : Nat
  addr : Nat
  data : List Byte
  deriving DecidableEq, Repr

/-- An entry of a job context (R106). -/
structure TileContext where
  changed : Nat
  tainted : Bool
  underrun : Bool
  lateShown : Bool
  deriving DecidableEq, Repr

/-- A row pair of a row buffer (R112): the frame and pixel row it is for, and its runs. -/
structure RowPair where
  frame : Nat
  row : Nat
  /-- SHOWN run, for a PARTIAL job -/
  shown : List Byte
  /-- STAGE run -/
  stage : List Byte
  deriving DecidableEq, Repr

/-- The commit position (R107): the row and group whose bursts are in hand, and whether the group's STAGE read has
ended, so that its SHOWN write is in hand. -/
structure CommitPos where
  row : Nat
  tx : Nat
  tiles : Nat
  writing : Bool
  deriving DecidableEq, Repr

/-- The Transfer Engine's context, progress record and row buffer of one running job (R106, R107, R112). -/
structure Engine where
  /-- the job's slot -/
  slot : Nat
  /-- context entries, in row order of the rectangle -/
  context : List TileContext
  cursor : Nat
  /-- first tile column of the capture group in hand -/
  group : Nat
  /-- feed position: frame and pixel row of the next row pair to be fed -/
  feed : Option (Nat × Nat)
  /-- row in fill, with the bytes read so far -/
  fill : Option RowPair
  /-- the full places, head first -/
  buffer : List RowPair
  /-- the port has reported the early end of the frame (R117) -/
  feedStopped : Bool
  commit : Option CommitPos
  /-- the request waiting for the memory port -/
  request : Option Burst
  /-- the burst in progress is this engine's (R108) -/
  inFlight : Bool
  /-- that burst's data is no longer wanted and is discarded when the burst ends (R112, R116) -/
  discard : Bool
  deriving DecidableEq, Repr

/-! ### The Panel Ports and the Rail (R123 to R142) -/

/-- Drive codes (R68). -/
inductive DriveCode where
  | keep
  | blackward
  | whiteward
  deriving DecidableEq, Repr

/-- The messages of the panel drive link (R124). -/
inductive Message where
  | wake
  | tempQuery
  | openWindow (x0 x1 y0 y1 frames linePeriod : Nat)
  | frameStart (frame : Nat)
  | row (y : Nat) (codes : List DriveCode)
  | close
  | rest
  deriving DecidableEq, Repr

inductive PortState where
  | unused
  | off
  | waking
  | ready
  | driving
  | closing
  | fault
  deriving DecidableEq, Repr

inductive FaultCause where
  | none
  | noReply
  | busyStuck
  | geometry
  deriving DecidableEq, Repr

/-- The limits of R125 that exclude one another (the TEMP reply timeout runs beside them, with TEMP outstanding). -/
inductive LimitKind where
  | wakeBusy
  | identReply
  | frameBusy
  | closeBusy
  deriving DecidableEq, Repr

/-- A running limit with the length it was started with. -/
structure Limit where
  kind : LimitKind
  micros : Nat
  deriving DecidableEq, Repr

/-- An open window of a port (R124, R130 to R133). -/
structure Window where
  /-- pixel columns and rows -/
  x0 : Nat
  x1 : Nat
  y0 : Nat
  y1 : Nat
  /-- frame count F -/
  frames : Nat
  /-- line period, µs -/
  linePeriod : Nat
  /-- frame spacing P, µs (R132) -/
  spacing : Nat
  /-- index of the last frame started -/
  frame : Option Nat
  /-- slots of that frame that have begun -/
  slots : Nat
  /-- no settle is awaited: no frame yet, or BUSY negated after the frame (R132) -/
  settled : Bool
  /-- the frame in progress is being ended early (R117, R135, R142) -/
  ending : Bool
  deriving DecidableEq, Repr

/-- A moment, by the Time Base: the monotonic second and the tick within the second. -/
structure Stamp where
  second : Count32
  tick : Nat
  deriving DecidableEq, Repr

/-- A panel port's record (R126). -/
structure Port where
  state : PortState
  cause : FaultCause
  held : Bool
  attempts : Nat
  wakePending : Bool
  /-- a retry wake waits for the rest hold (R136) -/
  retryWake : Bool
  tempOutstanding : Bool
  queryDue : Bool
  lastRest : Option Stamp
  /-- the limit of R125 in force -/
  limit : Option Limit
  /-- retry timer: the interval it was started with, s (R136) -/
  retry : Option Nat
  /-- BUSY as the port last saw it -/
  busy : Bool
  window : Option Window
  /-- CLOSING carried over an accepted APPLY: REST follows the close (R138) -/
  closingOver : Bool
  /-- a RESTORE_PORT waits for the last null row (R137) -/
  restoreWaits : Bool
  /-- the last message sent -/
  sent : Option Message
  deriving DecidableEq, Repr

inductive RailState where
  | off
  | rising
  | up
  | linger
  | falling
  | fault
  deriving DecidableEq, Repr

/-- The Rail Controller's state (R139). -/
structure Rail where
  state : RailState
  /-- the timer in force (rise limit, linger, discharge or retry, by the state), ms it was started with -/
  timer : Option Nat
  /-- the last negation of the enable -/
  lastNegation : Option Stamp
  /-- the minimum off time running from it, ms -/
  minimumOff : Nat
  deriving DecidableEq, Repr

/-! ### The Time Base (R151, R152) -/

structure Clock where
  secondOfDay : Nat
  dayCount : Nat
  mono : Count32
  /-- tick within the second, 0 to 31 -/
  tick : Nat
  /-- second within the compensation window, 0 to 31 -/
  windowSecond : Nat
  /-- oscillator periods of the tick in progress -/
  tickLength : Int
  /-- the 32nd tick has ended and SECOND has not been taken yet -/
  secondDue : Bool
  deriving DecidableEq, Repr

/-! ### The Control Window unit (R159 to R167) -/

inductive RunState where
  | noSetup
  | applying
  | stopped
  | running
  | halting
  deriving DecidableEq, Repr

inductive SetupResult where
  | none
  | accepted
  | rejected
  deriving DecidableEq, Repr

inductive SetupCause where
  | none
  | badGeometry
  | planeOverlap
  | tileCapacity
  | zoneOverlap
  | zoneOutside
  | bandOrder
  | energyOrder
  | editedDuringApply
  deriving DecidableEq, Repr

/-- The attention causes, in bit order (R167). -/
inductive Cause where
  | setupResult
  | halted
  | urgentShown
  | portFault
  | railFault
  | starved
  | policyChanged
  | planeIntrusion
  | looseWrite
  | queueFull
  | underrun
  | tempStale
  | epochLead
  deriving DecidableEq, Repr

/-- The Control Window unit: orders, run state, setup reads and results, attention, posting (R149, R159 to R167). -/
structure WindowUnit where
  base : Nat
  /-- order capture copy, 16 bytes -/
  orderCopy : List Byte
  ordersTaken : BitVec 16
  lastOrder : Byte
  /-- last result, by its code of R160 -/
  lastResult : Byte
  runState : RunState
  /-- the run state the APPLY in progress left -/
  leftState : RunState
  editMark : Bool
  setupEdited : Bool
  setupResult : SetupResult
  setupCause : SetupCause
  setupIndex : Nat
  fieldsClamped : Nat
  /-- the 13 attention causes by bit: the detail of a latched one -/
  causes : List (Option Nat)
  /-- attention mask -/
  mask : BitVec 13
  postingOwed : Bool
  /-- a level-6 request waits -/
  postWaiting : Bool
  /-- the setup read whose level-5 request waits -/
  setupRequest : Option Nat
  /-- the setup data read so far, by window offset -/
  setupData : Memory
  deriving DecidableEq, Repr

/-! ### The whole part -/

/-- Everything inside the part but the memory path. -/
structure Part where
  unit : WindowUnit
  /-- the applied setup, none in NO_SETUP -/
  setup : Option Setup
  tiles : List Tile
  /-- runtime records of the enabled zones, in ascending index -/
  zones : List Zone
  /-- the 32 slots -/
  pool : List (Option Job)
  sequence : Count32
  runningCount : Nat
  /-- K, mJ -/
  committed : Nat
  /-- the stop mark's slot (R102) -/
  stopMark : Option Nat
  /-- MODEL's own (log 8): a walk cause of R46 has been met in the step in hand -/
  walkOwed : Bool
  /-- last sweep second per panel (R74) -/
  lastSweep : Quad (Option Count32)
  selectors : Quad (Option Selector)
  engines : Quad (Option Engine)
  ports : Quad Port
  rail : Rail
  energy : Energy
  clock : Clock
  deriving DecidableEq, Repr

/-- How far the host's transaction has come on the path (R144, R148, R150). -/
inductive HostPhase where
  /-- held by the ready strobe behind a burst of the part's own -/
  | held
  /-- being forwarded on the memory port -/
  | forwarding
  /-- begun while reset was asserted, or cut by it: nothing of it is forwarded -/
  | dropped
  deriving DecidableEq, Repr

/-- The host transaction on the inbound port. -/
structure HostTransaction where
  command : HostCommand
  start : Nat
  /-- address of the next data byte -/
  next : Nat
  phase : HostPhase
  /-- it has had its inserted burst (R148) -/
  inserted : Bool
  /-- it has covered window offset 10Fh (R160) -/
  givesOrder : Bool
  deriving DecidableEq, Repr

/-- A host transaction with a command other than an array read or an array write, as it was forwarded (R143). -/
structure ForwardedOther where
  opcode : Byte
  start : Nat
  /-- its write bytes, in order -/
  written : List Byte
  deriving DecidableEq, Repr

/-- The memory path (R143 to R150); the waiting requests stand with the units that make them. -/
structure Path where
  /-- the reset line is asserted -/
  inReset : Bool
  host : Option HostTransaction
  /-- the burst of the part's own in progress -/
  burst : Option Burst
  /-- last-served panel of levels 1 to 4 (R147) -/
  lastServed : Quad PanelNo
  /-- the bytes that the last array read, or transaction with another command, returned (R143) -/
  hostRead : List Byte
  /-- the last transaction with another command forwarded whole (R143, log 4) -/
  forwarded : Option ForwardedOther
  deriving DecidableEq, Repr

/-- The whole state. -/
structure State where
  /-- the waiting commands, first in, first out -/
  pending : List Instr
  memory : Memory
  path : Path
  part : Part
  deriving DecidableEq, Repr

/-! ### Reset -/

/-- Four of the same. -/
def Quad.all {α : Type} (a : α) : Quad α := ⟨a, a, a, a⟩

/-- A port after a hardware reset (R126). -/
def Port.reset : Port where
  state := .unused
  cause := .none
  held := false
  attempts := 0
  wakePending := false
  retryWake := false
  tempOutstanding := false
  queryDue := false
  lastRest := none
  limit := none
  retry := none
  busy := false
  window := none
  closingOver := false
  restoreWaits := false
  sent := none

/-- The rail after a hardware reset (R139). -/
def Rail.reset : Rail where
  state := .off
  timer := none
  lastNegation := none
  minimumOff := 0

/-- The Energy Monitor after a hardware reset (R95). -/
def Energy.reset : Energy where
  vs := 0
  vsol := 0
  sampled := false
  usable := 0
  dark := false
  runCount := 0
  level := .frozen

/-- The Time Base after a hardware reset (R151, R152). -/
def Clock.reset : Clock where
  secondOfDay := 0
  dayCount := 0
  mono := 0
  tick := 0
  windowSecond := 0
  tickLength := Config.tickPeriods
  secondDue := false

/-- The Control Window unit after a hardware reset (R160, R162, R164, R167), its posting owed cleared at the
assertion (R150). The base is sampled at the end of the reset; until then nothing reads it (log 1). -/
def WindowUnit.reset : WindowUnit where
  base := Config.windowBase false false
  orderCopy := List.replicate 16 0
  ordersTaken := 0
  lastOrder := 0
  lastResult := 0
  runState := .noSetup
  leftState := .noSetup
  editMark := false
  setupEdited := false
  setupResult := .none
  setupCause := .none
  setupIndex := 0
  fieldsClamped := 0
  causes := List.replicate 13 none
  mask := 1
  postingOwed := false
  postWaiting := false
  setupRequest := none
  setupData := []

/-- The part after a hardware reset (R13, R16, R60, R74, R81, R95, R102, R121, R126, R139). -/
def Part.reset : Part where
  unit := WindowUnit.reset
  setup := none
  tiles := []
  zones := []
  pool := List.replicate Config.slots none
  sequence := 0
  runningCount := 0
  committed := 0
  stopMark := none
  walkOwed := false
  lastSweep := Quad.all none
  selectors := Quad.all none
  engines := Quad.all none
  ports := Quad.all Port.reset
  rail := Rail.reset
  energy := Energy.reset
  clock := Clock.reset

/-- The memory path while reset is asserted (R147, R150). -/
def Path.reset : Path where
  inReset := true
  host := none
  burst := none
  lastServed := Quad.all 3
  hostRead := []
  forwarded := none

/-- The machine right after the assertion of reset, no command waiting: RESET_END is the command that ends the
reset (log 1). -/
def State.reset : State where
  pending := []
  memory := []
  path := Path.reset
  part := Part.reset

end Sys2Proof.Machine
end

