-- ==== Sys2Proof/Machine/Ops.lean ====
section
/-! DEFINITION. The named operations over the state that every unit uses: the four-fold bundle, the sign memory,
byte order, attention latches, and the lookups and updates of tiles, zones, jobs, ports and engines. -/

namespace Sys2Proof

/-- The thing of panel `p`. -/
def Quad.get {α : Type} (q : Quad α) (p : PanelNo) : α :=
  match p.val with
  | 0 => q.p0
  | 1 => q.p1
  | 2 => q.p2
  | _ => q.p3

/-- The bundle with panel `p`'s thing replaced. -/
def Quad.set {α : Type} (q : Quad α) (p : PanelNo) (a : α) : Quad α :=
  match p.val with
  | 0 => { q with p0 := a }
  | 1 => { q with p1 := a }
  | 2 => { q with p2 := a }
  | _ => { q with p3 := a }

/-- The bundle computed panel by panel. -/
def Quad.ofPanels {α : Type} (f : PanelNo → α) : Quad α := ⟨f 0, f 1, f 2, f 3⟩

end Sys2Proof

namespace Sys2Proof.Machine

/-! ### Arithmetic -/

/-- Division rounding up (00_scope.md, Numbers). -/
def ceilDiv (n d : Nat) : Nat := (n + d - 1) / d

/-- A number moved to the nearer end of a range (R88, R163). -/
def clampNat (lo hi n : Nat) : Nat := max lo (min hi n)

/-! ### The sign memory -/

/-- The byte at an address; an unlisted address reads as `Config.unwrittenByte` (log 2). -/
def Memory.read : Memory → Nat → Byte
  | [], _ => Config.unwrittenByte
  | (a, b) :: m, x => if a = x then b else Memory.read m x

/-- A cell put at its place among rising addresses. -/
def Memory.insert (c : Host.Cell) : Memory → Memory
  | [] => [c]
  | d :: m => if c.1 < d.1 then c :: d :: m else d :: Memory.insert c m

/-- The memory with one byte written, in canonical form. -/
def Memory.write (m : Memory) (a : Nat) (b : Byte) : Memory :=
  let rest := m.filter fun c => c.1 != a
  if b = Config.unwrittenByte then rest else Memory.insert (a, b) rest

/-- A linear run of bytes. -/
def Memory.readRun (m : Memory) (a : Nat) : Nat → List Byte
  | 0 => []
  | n + 1 => Memory.read m a :: Memory.readRun m (a + 1) n

/-- A linear run of bytes written. -/
def Memory.writeRun (m : Memory) (a : Nat) : List Byte → Memory
  | [] => m
  | b :: bs => Memory.writeRun (Memory.write m a b) (a + 1) bs

/-- The listed cells of [lo, lo + n), their addresses moved to start at `to'`. -/
def Memory.window (m : Memory) (lo n to' : Nat) : Memory :=
  (m.filter fun c => decide (lo ≤ c.1) && decide (c.1 < lo + n)).map fun c => (c.1 - lo + to', c.2)

/-- Canonical form: addresses strictly rising, and no cell with the byte an unlisted address reads as. -/
def Memory.wf : Memory → Bool
  | [] => true
  | [c] => c.2 != Config.unwrittenByte
  | c :: d :: m => c.2 != Config.unwrittenByte && decide (c.1 < d.1) && Memory.wf (d :: m)

/-! ### Byte order (R159): least significant byte first -/

/-- The low `n` bytes of a number. -/
def leBytes : Nat → Nat → List Byte
  | 0, _ => []
  | n + 1, v => BitVec.ofNat 8 v :: leBytes n (v / 256)

/-- The number that bytes spell. -/
def leNat : List Byte → Nat
  | [] => 0
  | b :: bs => b.toNat + 256 * leNat bs

/-- The signed number that bytes spell, two's complement. -/
def leInt (bs : List Byte) : Int :=
  let v := leNat bs
  if 2 * v < 256 ^ bs.length then (v : Int) else (v : Int) - (256 ^ bs.length : Nat)

/-- A byte of a signed value, two's complement. -/
def signedByte (i : Int) : Byte := BitVec.ofInt 8 i

/-! ### Attention (R167) -/

/-- A cause's bit number. -/
def Cause.bit : Cause → Nat
  | .setupResult => 0
  | .halted => 1
  | .urgentShown => 2
  | .portFault => 3
  | .railFault => 4
  | .starved => 5
  | .policyChanged => 6
  | .planeIntrusion => 7
  | .looseWrite => 8
  | .queueFull => 9
  | .underrun => 10
  | .tempStale => 11
  | .epochLead => 12

/-- The detail of a latched cause (R167). -/
def WindowUnit.detail? (u : WindowUnit) (c : Cause) : Option Nat := (u.causes[c.bit]?).join

/-- A block raises a cause: an unlatched one is latched with the detail, a latched one keeps its own (R167). -/
def Part.latch (part : Part) (c : Cause) (detail : Nat) : Part :=
  match part.unit.detail? c with
  | some _ => part
  | none => { part with unit := { part.unit with causes := part.unit.causes.set c.bit (some detail) } }

/-- A scope as the status block and the details write it (R166): n for ZONE n, 80h + p for PANEL p. -/
def JobScope.code : JobScope → Nat
  | .zone n => n
  | .panel p => 0x80 + p.val

/-! ### Time -/

/-- The present moment. -/
def Part.now (part : Part) : Stamp := ⟨part.clock.mono, part.clock.tick⟩

/-- Seconds from a recorded monotonic second to the current one, modulo 2³² (R152). -/
def Part.age (part : Part) (since : Count32) : Nat := (part.clock.mono - since).toNat

/-! ### Geometry (R3, R4, R7) -/

/-- Tiles of a panel across and down. -/
def PanelCfg.cols (c : PanelCfg) : Nat := c.width / 32
def PanelCfg.rows (c : PanelCfg) : Nat := c.height / 32
def PanelCfg.tileCount (c : PanelCfg) : Nat := c.cols * c.rows

/-- The whole panel as a rectangle of tiles (R36). -/
def PanelCfg.whole (c : PanelCfg) : Rect := ⟨0, c.cols - 1, 0, c.rows - 1⟩

/-- Tile count of a panel, 0 when it is disabled. -/
def Setup.tilesOf (g : Setup) (p : PanelNo) : Nat :=
  match g.panels.get p with
  | some c => c.tileCount
  | none => 0

/-- first(p): the index of a panel's first record (R7). -/
def Setup.firstTile (g : Setup) (p : PanelNo) : Nat :=
  (panelNos.filter fun q => decide (q < p)).foldl (fun n q => n + g.tilesOf q) 0

/-- The index of tile (tx, ty) of an enabled panel (R7). -/
def Setup.tileIndex (g : Setup) (p : PanelNo) (c : PanelCfg) (tx ty : Nat) : Nat :=
  g.firstTile p + ty * c.cols + tx

/-- A tile lies in a rectangle. -/
def Rect.contains (r : Rect) (tx ty : Nat) : Bool :=
  decide (r.tx0 ≤ tx) && decide (tx ≤ r.tx1) && decide (r.ty0 ≤ ty) && decide (ty ≤ r.ty1)

/-- The bounding box of two rectangles (R43). -/
def Rect.join (a b : Rect) : Rect :=
  ⟨min a.tx0 b.tx0, max a.tx1 b.tx1, min a.ty0 b.ty0, max a.ty1 b.ty1⟩

/-- Tiles across a rectangle. -/
def Rect.cols (r : Rect) : Nat := r.tx1 + 1 - r.tx0

/-- Tile rows of a rectangle. -/
def Rect.rows (r : Rect) : Nat := r.ty1 + 1 - r.ty0

/-- The tiles of a rectangle in row order. -/
def Rect.tiles (r : Rect) : List (Nat × Nat) :=
  (List.range' r.ty0 r.rows).flatMap fun ty => (List.range' r.tx0 r.cols).map fun tx => (tx, ty)

/-- The bounding box of a list of tiles. -/
def boundingBox : List (Nat × Nat) → Option Rect
  | [] => none
  | (tx, ty) :: ts =>
    match boundingBox ts with
    | none => some ⟨tx, tx, ty, ty⟩
    | some r => some (r.join ⟨tx, tx, ty, ty⟩)

/-! ### Tiles -/

/-- The record of tile (tx, ty) of panel `p`. -/
def Part.tileAt? (part : Part) (g : Setup) (p : PanelNo) (tx ty : Nat) : Option Tile :=
  match g.panels.get p with
  | some c => if tx < c.cols ∧ ty < c.rows then part.tiles[g.tileIndex p c tx ty]? else none
  | none => none

/-- The records of a rectangle's tiles, each with its coordinates, in row order. -/
def Part.tilesIn (part : Part) (g : Setup) (p : PanelNo) (r : Rect) : List ((Nat × Nat) × Tile) :=
  r.tiles.filterMap fun xy => (part.tileAt? g p xy.1 xy.2).map fun t => (xy, t)

/-- The records from index `i` on, with `f` applied to those of the rectangle of the panel whose records start at
`first` and lie `cols` to a row. -/
def mapTilesFrom (first cols count : Nat) (r : Rect) (f : Nat → Nat → Tile → Tile) : Nat → List Tile → List Tile
  | _, [] => []
  | i, t :: ts =>
    (if first ≤ i ∧ i < first + count ∧ r.contains ((i - first) % cols) ((i - first) / cols)
      then f ((i - first) % cols) ((i - first) / cols) t else t)
      :: mapTilesFrom first cols count r f (i + 1) ts

/-- Every record of a rectangle changed by `f`, which sees the tile's coordinates; the others stay. -/
def Part.mapTiles (part : Part) (g : Setup) (p : PanelNo) (r : Rect) (f : Nat → Nat → Tile → Tile) : Part :=
  match g.panels.get p with
  | some c => { part with tiles := mapTilesFrom (g.firstTile p) c.cols c.tileCount r f 0 part.tiles }
  | none => part

/-- One record changed. -/
def Part.setTile (part : Part) (g : Setup) (p : PanelNo) (tx ty : Nat) (f : Tile → Tile) : Part :=
  part.mapTiles g p ⟨tx, tx, ty, ty⟩ fun _ _ t => f t

/-! ### Zones -/

/-- The applied record of an enabled zone. -/
def Setup.zone? (g : Setup) (n : Nat) : Option ZoneCfg := g.zones.find? fun z => z.index == n

/-- The enabled zones of a panel, in ascending index. -/
def Setup.zonesOf (g : Setup) (p : PanelNo) : List ZoneCfg := g.zones.filter fun z => z.panel == p

/-- The runtime record of an enabled zone. -/
def Part.zone? (part : Part) (n : Nat) : Option Zone := part.zones.find? fun z => z.index == n

/-- The runtime record of zone `n` changed. -/
def Part.updateZone (part : Part) (n : Nat) (f : Zone → Zone) : Part :=
  { part with zones := part.zones.map fun z => if z.index = n then f z else z }

/-- The number of zone `n`'s tiles in state DIRTY. -/
def dirtyTiles (tiles : List Tile) (n : Nat) : Nat :=
  tiles.countP fun t => t.zone == some n && t.state == .dirty

/-- A zone's DIRTY count follows its tiles (R17): when it rises from 0, dirty-since takes the current second; at 0
dirty-since is none and HELD is cleared. -/
def Zone.follow (tiles : List Tile) (now : Count32) (z : Zone) : Zone :=
  let n := dirtyTiles tiles z.index
  { z with
    dirtyCount := n
    dirtySince := if n = 0 then none else if z.dirtyCount = 0 then some now else z.dirtySince
    held := if n = 0 then none else z.held }

/-- Every zone's DIRTY count brought into step with the tiles (R17). -/
def Part.followTiles (part : Part) : Part :=
  { part with zones := part.zones.map (Zone.follow part.tiles part.clock.mono) }

/-- A zone's settle timer restarted with its full settle time (R22, R34); an expiry that a tick has brought and that
has not been handled does not occur, as the restart came first (R26, log 16). -/
def Part.restartTimer (part : Part) (c : ZoneCfg) : Part :=
  part.updateZone c.index fun z => { z with timer := some c.settle, expired := false }

/-! ### Jobs -/

/-- The job in a slot. -/
def Part.job? (part : Part) (slot : Nat) : Option Job := (part.pool[slot]?).join

/-- A job put into a slot. -/
def Part.setJob (part : Part) (slot : Nat) (j : Job) : Part :=
  { part with pool := part.pool.set slot (some j) }

/-- A slot freed. The stop mark ceases to name it; every such event causes a walk that sets the mark again (R102). -/
def Part.freeSlot (part : Part) (slot : Nat) : Part :=
  { part with
    pool := part.pool.set slot none
    stopMark := if part.stopMark = some slot then none else part.stopMark }

/-- The slots that are occupied (R37). -/
def Part.occupied (part : Part) : Nat := part.pool.countP Option.isSome

/-- The lowest-numbered free slot (R37). -/
def Part.lowestFree? (part : Part) : Option Nat := part.pool.findIdx? fun j => j.isNone

/-- The first slot from `i` on whose job satisfies `f`. -/
def findJob (f : Job → Bool) : Nat → List (Option Job) → Option (Nat × Job)
  | _, [] => none
  | i, none :: js => findJob f (i + 1) js
  | i, some j :: js => if f j then some (i, j) else findJob f (i + 1) js

/-- The QUEUED PANEL job of a panel (R37). -/
def Part.queuedPanelJob? (part : Part) (p : PanelNo) : Option (Nat × Job) :=
  findJob (fun j => j.state == .queued && j.scope == .panel p) 0 part.pool

/-- The running job of a panel: its slot, its record and its admitted fields (R48 allows one per panel). -/
def Part.running? (part : Part) (p : PanelNo) : Option (Nat × Job × RunFields) :=
  match findJob (fun j => j.state != .queued && j.panel == p) 0 part.pool with
  | some (slot, j) =>
    match j.running with
    | some r => some (slot, j, r)
    | none => none
  | none => none

/-- The state of a panel's running job. -/
def Part.stage? (part : Part) (p : PanelNo) : Option JobState :=
  (part.running? p).map fun x => x.2.1.state

/-- The class rank of R38, URGENT first. -/
def RefreshClass.rank : RefreshClass → Nat
  | .urgent => 0
  | .timed => 1
  | .routine => 2
  | .sweep => 3

/-- The more urgent of two classes (R43). -/
def RefreshClass.moreUrgent (a b : RefreshClass) : RefreshClass := if b.rank < a.rank then b else a

/-- A job's age: the sequence numbers issued since its own, modulo 2³² (R38). -/
def Part.jobAge (part : Part) (j : Job) : Nat := (part.sequence - j.sequence).toNat

/-- Queue order (R38): class rank, then greater age first. -/
def Part.queuedBefore (part : Part) (a b : Job) : Bool :=
  decide (a.cls.rank < b.cls.rank) || (a.cls.rank == b.cls.rank && decide (part.jobAge b < part.jobAge a))

/-- A slot put into its place of a queue in order. -/
def Part.enqueueSlot (part : Part) (x : Nat × Job) : List (Nat × Job) → List (Nat × Job)
  | [] => [x]
  | y :: ys => if part.queuedBefore x.2 y.2 then x :: y :: ys else y :: Part.enqueueSlot part x ys

/-- The QUEUED jobs of a pool with their slots, from slot `i` on. -/
def queuedJobs : Nat → List (Option Job) → List (Nat × Job)
  | _, [] => []
  | i, none :: js => queuedJobs (i + 1) js
  | i, some j :: js => if j.state = .queued then (i, j) :: queuedJobs (i + 1) js else queuedJobs (i + 1) js

/-- The refresh queue (R38). -/
def Part.queue (part : Part) : List (Nat × Job) :=
  (queuedJobs 0 part.pool).foldl (fun q x => part.enqueueSlot x q) []

/-! ### Ports, engines, selectors -/

def Part.port (part : Part) (p : PanelNo) : Port := part.ports.get p

def Part.setPort (part : Part) (p : PanelNo) (x : Port) : Part := { part with ports := part.ports.set p x }

def Part.engine? (part : Part) (p : PanelNo) : Option Engine := part.engines.get p

def Part.setEngine (part : Part) (p : PanelNo) (e : Option Engine) : Part :=
  { part with engines := part.engines.set p e }

def Part.selector? (part : Part) (p : PanelNo) : Option Selector := part.selectors.get p

def Part.setSelector (part : Part) (p : PanelNo) (x : Selector) : Part :=
  { part with selectors := part.selectors.set p (some x) }

/-- A cause of R46 has been met: a walk is owed before the step ends (log 8). -/
def Part.oweWalk (part : Part) : Part := { part with walkOwed := true }

/-- REST is sent at a moment and the port takes OFF (R129). -/
def Port.rest (x : Port) (now : Stamp) : Port :=
  { x with state := .off, lastRest := some now, sent := some .rest }

/-- The port's own conditions for the rest delay timer (R129): READY, query due and TEMP outstanding clear. -/
def Port.idle (x : Port) : Bool := x.state == .ready && !x.queryDue && !x.tempOutstanding

/-- A port's state changes, which causes a walk (R46, R126). -/
def Part.changePort (part : Part) (p : PanelNo) (x : Port) : Part := (part.setPort p x).oweWalk

/-- Panel `p` is enabled in the applied setup. -/
def Part.panelCfg? (part : Part) (p : PanelNo) : Option PanelCfg :=
  match part.setup with
  | some g => g.panels.get p
  | none => none

/-- Quiet hours under the installed settings (R156): none when Qs equals Qe, a period that wraps when Qs is above Qe. -/
def GlobalSettings.quietAt (g : GlobalSettings) (s : Nat) : Bool :=
  if g.quietStart = g.quietEnd then false
  else if g.quietStart < g.quietEnd then decide (g.quietStart ≤ s) && decide (s < g.quietEnd)
  else decide (g.quietStart ≤ s) || decide (s < g.quietEnd)

/-- The second of day that the next second event makes current (R152). -/
def Clock.nextSecond (k : Clock) : Nat := if k.secondOfDay + 1 = Config.daySeconds then 0 else k.secondOfDay + 1

/-- The Time Base's report of quiet hours: at once with the second of day and the settings (R156). Where the tick that
ends the last quiet second has ended and its second event has not been taken yet, quiet hours are over, as R29 says of
a settle expiry that comes before the end event (log 28). -/
def Part.quiet (part : Part) (g : Setup) : Bool :=
  g.globals.quietAt part.clock.secondOfDay
    && (!part.clock.secondDue || g.globals.quietAt part.clock.nextSecond)

end Sys2Proof.Machine
end

