-- ==== Sys2Proof/Machine/Energy.lean ====
section
/-! DEFINITION. The Energy Monitor and the figures of admission (06_energy_reserve_and_admission.md): usable energy,
light and dark, the policy level, holdback and spendable energy, job cost. -/

namespace Sys2Proof.Machine

/-- A monitor input clamped to 0 to `hi` mV (R88). -/
def clampInput (hi : Nat) (v : Int) : Nat := min hi v.toNat

/-- U (R90), in mJ. -/
def usableEnergy (g : GlobalSettings) (vs : Nat) : Nat :=
  if g.vFloor < vs then g.capacitance * (vs ^ 2 - g.vFloor ^ 2) / 20000 else 0

/-- Light and dark detection advanced by one sample (R91). -/
def Energy.advanceLight (g : GlobalSettings) (e : Energy) : Energy :=
  if e.dark then
    if g.lightThreshold ≤ e.vsol then
      if e.runCount + 1 = 60 then { e with dark := false, runCount := 0 } else { e with runCount := e.runCount + 1 }
    else { e with runCount := 0 }
  else
    if e.vsol < g.darkThreshold then
      if e.runCount + 1 = 120 then { e with dark := true, runCount := 0 } else { e with runCount := e.runCount + 1 }
    else { e with runCount := 0 }

/-- A level's rank, lowest first (R93). -/
def PolicyLevel.rank : PolicyLevel → Nat
  | .frozen => 0
  | .lean => 1
  | .normal => 2
  | .surplus => 3

/-- The rising voltage of a level above FROZEN (R93). -/
def risingVoltage (g : GlobalSettings) : PolicyLevel → Nat
  | .frozen => 0
  | .lean => g.vFreeze + g.policyHysteresis
  | .normal => g.vLean + g.policyHysteresis
  | .surplus => g.vSurplus

/-- The falling voltage of a level above FROZEN (R93). -/
def fallingVoltage (g : GlobalSettings) : PolicyLevel → Nat
  | .frozen => 0
  | .lean => g.vFreeze
  | .normal => g.vLean
  | .surplus => g.vSurplus - g.policyHysteresis

/-- The first level of a list that may be entered from below `c` (R93, up test). -/
def upLevel? (g : GlobalSettings) (c : PolicyLevel) (vs : Nat) : List PolicyLevel → Option PolicyLevel
  | [] => none
  | l :: ls => if c.rank < l.rank ∧ risingVoltage g l ≤ vs then some l else upLevel? g c vs ls

/-- The first level of a list below `c` whose falling voltage is at or below Vs, FROZEN if none (R93, down test). -/
def downLevel (g : GlobalSettings) (c : PolicyLevel) (vs : Nat) : List PolicyLevel → PolicyLevel
  | [] => .frozen
  | l :: ls => if l.rank < c.rank ∧ fallingVoltage g l ≤ vs then l else downLevel g c vs ls

/-- The level selected from the current one and Vs (R93). -/
def selectLevel (g : GlobalSettings) (c : PolicyLevel) (vs : Nat) : PolicyLevel :=
  match upLevel? g c vs [.surplus, .normal, .lean] with
  | some l => l
  | none => if c ≠ .frozen ∧ vs < fallingVoltage g c then downLevel g c vs [.normal, .lean] else c

/-- The holdback in force (R92). -/
def Energy.holdback (g : GlobalSettings) (e : Energy) : Nat := if e.dark then g.holdbackNight else g.holdbackDay

/-- S (R92): what lies above holdback and K, and not below 0. -/
def Part.spendable (part : Part) (g : Setup) : Nat :=
  part.energy.usable - part.energy.holdback g.globals - part.committed

/-- Which classes a level admits (R101). -/
def PolicyLevel.admits : PolicyLevel → RefreshClass → Bool
  | .frozen, _ => false
  | .lean, .urgent => true
  | .lean, .timed => true
  | .lean, .routine => false
  | .lean, .sweep => false
  | .normal, _ => true
  | .surplus, _ => true

/-- A job's cost in mJ (R97): n pixels over F frames at the panel's coefficients, the boost where charged. -/
def jobCost (g : GlobalSettings) (c : PanelCfg) (pixels frames : Nat) (boost : Bool) : Nat :=
  ceilDiv (ceilDiv (pixels * frames * c.pixelCost) 1000 + frames * c.frameCost + if boost then g.boost else 0) 1000

/-- Whether the boost is charged in a rail state (R99). -/
def RailState.boosts : RailState → Bool
  | .off | .falling | .fault => true
  | .rising | .up | .linger => false

/-- A band's frame count for a mode (R67). -/
def Band.frames (b : Band) : DriveMode → Nat
  | .part => b.partialFrames
  | .full => b.fullFrames

/-- The record of a band in use. Every panel's band index is below n (R81). -/
def Setup.band (g : Setup) (i : Nat) : Band := g.bands.getD i ⟨0, 0, 0, 0, 0⟩

/-- n of the estimate (R98). -/
def Part.estimatePixels (part : Part) (g : Setup) (j : Job) (mode : DriveMode) : Nat :=
  match mode with
  | .full => 1024 * (j.rect.cols * j.rect.rows)
  | .part => 1024 * (part.tilesIn g j.panel j.rect).countP fun x => x.2.state == .dirty || x.2.state == .queued

end Sys2Proof.Machine
end

