-- ==== Sys2Proof/Machine/Planner.lean ====
section
/-! DEFINITION. The Zone Tracker's triggers and the Job Planner's answers: placement, merging, refusal, HELD zones,
settle expiry, sweep requests (02_zones_and_write_tracking.md, 03_refresh_jobs_and_the_queue.md, R74 to R76). -/

namespace Sys2Proof.Machine

/-! ### Requests (R39 to R45) -/

/-- A job with a request merged into it (R43): its rectangle, class and full request. -/
def Job.merge (j : Job) (rect : Rect) (cls : RefreshClass) (full : Bool) : Job :=
  { j with
    rect := j.rect.join rect
    cls := j.cls.moreUrgent cls
    fullRequest := j.fullRequest || full }

/-- A request merged into the QUEUED job of a slot (R43); a class raise issues a new sequence number (R44). -/
def Part.mergeRequest (part : Part) (slot : Nat) (j : Job) (rect : Rect) (cls : RefreshClass) (full : Bool) : Part :=
  let merged := j.merge rect cls full
  if merged.cls = j.cls then (part.setJob slot merged).oweWalk
  else { (part.setJob slot { merged with sequence := part.sequence }) with
    sequence := part.sequence + 1, walkOwed := true }

/-- A new QUEUED job placed in a free slot with a newly issued sequence number (R36, R37, R39). -/
def Part.placeJob (part : Part) (slot : Nat) (p : PanelNo) (scope : JobScope) (rect : Rect) (cls : RefreshClass)
    (origin : Origin) (full : Bool) : Part :=
  { (part.setJob slot
      { panel := p, scope := scope, rect := rect, cls := cls, origin := origin, fullRequest := full,
        sequence := part.sequence, enqueued := part.clock.mono, state := .queued, running := none,
        urgentCarried := false, starvedReported := false }) with
    sequence := part.sequence + 1, walkOwed := true }

/-- A request of scope ZONE n (R39, R40, R43): merged into the zone's QUEUED job, or placed in the lowest free slot,
which the zone's queued job field then takes; none when it needs a slot and the pool is full (R45). -/
def Part.requestZone (part : Part) (z : ZoneCfg) (rect : Rect) (cls : RefreshClass) (origin : Origin) (full : Bool) :
    Option Part :=
  match (part.zone? z.index).bind (·.queuedJob) with
  | some slot =>
    match part.job? slot with
    | some j => some (part.mergeRequest slot j rect cls full)
    | none => none
  | none =>
    match part.lowestFree? with
    | some slot =>
      some ((part.placeJob slot z.panel (.zone z.index) rect cls origin full).updateZone z.index fun x =>
        { x with queuedJob := some slot })
    | none => none

/-- A DIRTY tile that a request has taken becomes QUEUED (R31, R41). -/
def Tile.takeUp (t : Tile) : Tile := if t.state = .dirty then { t with state := .queued } else t

/-- The DIRTY tiles of a zone become QUEUED and its DIRTY count follows (R17, R31). -/
def Part.takeUpZone (part : Part) (g : Setup) (z : ZoneCfg) : Part :=
  (part.mapTiles g z.panel z.rect fun _ _ t => if t.zone = some z.index then t.takeUp else t).followTiles

/-- A request of scope PANEL (R41 to R43): merged into the panel's QUEUED PANEL job, or placed; every DIRTY tile of
the panel becomes QUEUED and each zone's DIRTY count follows. None when the pool is full (R45). -/
def Part.requestPanel (part : Part) (g : Setup) (p : PanelNo) (c : PanelCfg) (cls : RefreshClass) (origin : Origin)
    (full : Bool) : Option Part :=
  match part.queuedPanelJob? p with
  | some (slot, j) =>
    some ((part.mergeRequest slot j c.whole cls full).mapTiles g p c.whole fun _ _ t => t.takeUp).followTiles
  | none =>
    match part.lowestFree? with
    | some slot =>
      some ((part.placeJob slot p (.panel p) c.whole cls origin full).mapTiles g p c.whole
        fun _ _ t => t.takeUp).followTiles
    | none => none

/-! ### Enqueue and HELD (R31, R32) -/

/-- The bounding box of a zone's DIRTY tiles (R31). -/
def Part.dirtyBox? (part : Part) (g : Setup) (z : ZoneCfg) : Option Rect :=
  boundingBox (((part.tilesIn g z.panel z.rect).filter fun x => x.2.zone == some z.index && x.2.state == .dirty).map (·.1))

/-- The zone is dirty (R17). -/
def Part.zoneDirty (part : Part) (n : Nat) : Bool :=
  match part.zone? n with
  | some z => decide (0 < z.dirtyCount)
  | none => false

/-- An enqueue attempt of a zone (R31): nothing for a zone that is not dirty. Merged or placed, its DIRTY tiles become
QUEUED and HELD is cleared; refused, HELD takes the origin and QUEUE_FULL is latched (R45). Either way EPOCH_WAIT is
cleared. -/
def Part.enqueue (part : Part) (g : Setup) (z : ZoneCfg) (origin : Origin) : Part :=
  if part.zoneDirty z.index then
    let waited := part.updateZone z.index fun x => { x with epochWait := false }
    match waited.requestZone z ((part.dirtyBox? g z).getD z.rect) z.cls origin false with
    | some placed => (placed.takeUpZone g z).updateZone z.index fun x => { x with held := none }
    | none => (waited.updateZone z.index fun x => { x with held := some origin }).latch .queueFull z.index
  else part

/-- The retry of HELD zones in ascending index (R32): ROUTINE zones are passed over in quiet hours, and the first
retry that is refused ends the pass (log 26). -/
def Part.retryHeld (part : Part) (g : Setup) : List ZoneCfg → Part
  | [] => part
  | z :: zs =>
    match (part.zone? z.index).bind (·.held) with
    | none => Part.retryHeld part g zs
    | some origin =>
      if z.cls = .routine ∧ part.quiet g then Part.retryHeld part g zs
      else
        let tried := part.enqueue g z origin
        match (tried.zone? z.index).bind (·.held) with
        | some _ => tried
        | none => Part.retryHeld tried g zs

/-- One or more slots have freed: the HELD retry is made once (R32, R37). -/
def Part.slotsFreed (part : Part) (g : Setup) : Part := part.retryHeld g g.zones

/-! ### Settle expiry, epochs, quiet hours, hold (R27 to R30) -/

/-- A zone's settle expiry by its class (R27); `origin` is what an URGENT or ROUTINE enqueue carries, and
`epochOrigin` what a TIMED one carries (SETTLE and EPOCH, or RETIRE for the retire trigger, R33). -/
def Part.expire (part : Part) (g : Setup) (z : ZoneCfg) (origin epochOrigin : Origin) : Part :=
  match z.cls with
  | .urgent | .sweep => part.enqueue g z origin
  | .routine => if part.quiet g then part else part.enqueue g z origin
  | .timed =>
    match part.zone? z.index with
    | some x =>
      if x.epochWait then
        (part.updateZone z.index fun y => { y with epochWait := false }).enqueue g z epochOrigin
      else part
    | none => part

/-- The zone's settle timer is stopped. One whose expiry has not been handled yet counts as running: what comes before
the expiry finds it so (R28, R29, log 16). -/
def Part.timerStopped (part : Part) (n : Nat) : Bool :=
  match part.zone? n with
  | some z => z.timer.isNone && !z.expired
  | none => true

/-- An epoch boundary at one zone (R28). -/
def Part.epochAt (g : Setup) (part : Part) (z : ZoneCfg) : Part :=
  if z.cls = .timed ∧ part.zoneDirty z.index then
    if part.timerStopped z.index then part.enqueue g z .epoch
    else part.updateZone z.index fun x => { x with epochWait := true }
  else part

/-- The quiet-hours end event at one zone (R29). -/
def Part.quietEndAt (g : Setup) (part : Part) (z : ZoneCfg) : Part :=
  if z.cls = .routine ∧ part.zoneDirty z.index ∧ part.timerStopped z.index then part.enqueue g z .settle else part

/-- The maximum hold test of one zone (R30). -/
def Part.holdAt (g : Setup) (part : Part) (z : ZoneCfg) : Part :=
  match (part.zone? z.index).bind (·.dirtySince) with
  | some since =>
    if 0 < z.hold ∧ part.zoneDirty z.index ∧ z.hold < part.age since ∧ ¬(z.cls = .routine ∧ part.quiet g)
    then part.enqueue g z .hold else part
  | none => part

/-! ### Sweeps (R42, R74 to R76) -/

/-- A panel is sweep-busy: a PANEL job of it with the full request set is running (R74). -/
def Part.sweepBusy (part : Part) (p : PanelNo) : Bool :=
  match part.running? p with
  | some (_, j, _) => j.scope == .panel p && j.fullRequest
  | none => false

/-- A sweep request for an enabled panel (R42): dropped with QUEUE_FULL when the pool is full (R45). -/
def Part.requestSweep (part : Part) (g : Setup) (p : PanelNo) (c : PanelCfg) (origin : Origin) : Part :=
  match part.requestPanel g p c .sweep origin true with
  | some placed => placed
  | none => part.latch .queueFull (JobScope.panel p).code

/-- The sweep-time event at one panel (R75): debt above 0 or UNKNOWN somewhere, and not sweep-busy. -/
def Part.sweepTimeAt (g : Setup) (part : Part) (p : PanelNo) : Part :=
  match g.panels.get p with
  | none => part
  | some c =>
    if !part.sweepBusy p && (part.tilesIn g p c.whole).any fun x => decide (0 < x.2.debt) || x.2.untrusted
    then part.requestSweep g p c .sweepTime else part

/-- The last sweep lies further back than the sweep spacing, or there was none (R76). -/
def Part.sweepSpaced (part : Part) (g : Setup) (p : PanelNo) : Bool :=
  match part.lastSweep.get p with
  | none => true
  | some s => decide (3600 * g.globals.sweepSpacing < part.age s)

/-- The surplus sweep test at one panel (R76): soft debt somewhere, spaced, and not sweep-busy. -/
def Part.surplusAt (g : Setup) (part : Part) (p : PanelNo) : Part :=
  match g.panels.get p with
  | none => part
  | some c =>
    if !part.sweepBusy p && (part.tilesIn g p c.whole).any (fun x => decide (c.debtSoft ≤ x.2.debt)) && part.sweepSpaced g p
    then part.requestSweep g p c .surplus else part

/-- The surplus sweep test of every enabled panel, in ascending number (R76). -/
def Part.surplusTest (part : Part) (g : Setup) : Part := panelNos.foldl (Part.surplusAt g) part

end Sys2Proof.Machine
end

