-- ==== Sys2Proof/Machine/RailOps.lean ====
section
/-! DEFINITION. The Rail Controller's operations (R139 to R142): demand, raising, lingering, lowering, faulting. -/

namespace Sys2Proof.Machine

/-- A job demands the rail while POISED or DRIVING (R140). -/
def JobState.demandsRail : JobState → Bool
  | .poised | .driving => true
  | .queued | .capturing | .committing => false

/-- Some job demands the rail (R140). -/
def Part.railDemanded (part : Part) : Bool :=
  part.pool.any fun
    | some j => j.state.demandsRail
    | none => false

/-- The rail takes a state, which causes a walk (R46, R139). -/
def Part.changeRail (part : Part) (r : Rail) : Part := { part with rail := r, walkOwed := true }

/-- The enable is asserted and the rail takes RISING, the rise limit running from that moment (R140). -/
def Part.raiseRail (part : Part) (g : Setup) : Part :=
  part.changeRail { part.rail with state := .rising, timer := some g.globals.riseLimit }

/-- The enable is negated, the negation recorded, and the rail takes FALLING for its 50 ms discharge (R141). -/
def Part.lowerRail (part : Part) (g : Setup) : Part :=
  part.changeRail
    { state := .falling, timer := some Config.dischargeMillis, lastNegation := some part.now,
      minimumOff := g.globals.minimumOff }

/-- A job becomes POISED (R140, R141): LINGER returns to UP; OFF with no negation recorded is raised at once. An OFF
rail with a recorded negation waits for RAIL_RAISE, which reports that the minimum off time has passed. -/
def Part.demandRail (part : Part) (g : Setup) : Part :=
  match part.rail.state with
  | .linger => part.changeRail { part.rail with state := .up, timer := none }
  | .off =>
    match part.rail.lastNegation with
    | none => part.raiseRail g
    | some _ => part
  | .rising | .up | .falling | .fault => part

/-- UP with no job POISED or DRIVING takes LINGER, and with a linger time of 0 goes on to FALLING (R141). -/
def Part.releaseRail (part : Part) (g : Setup) : Part :=
  if part.rail.state = .up ∧ part.railDemanded = false then
    if g.globals.lingerTime = 0 then part.lowerRail g
    else part.changeRail { part.rail with state := .linger, timer := some g.globals.lingerTime }
  else part

/-- A rail fault (R142): the enable is negated, the negation recorded, the retry timer started, RAIL_FAULT latched
with its detail (1 NO_RISE, 2 LOST). -/
def Part.faultRail (part : Part) (g : Setup) (detail : Nat) : Part :=
  (part.changeRail
    { state := .fault, timer := some (1000 * g.globals.railRetryInterval), lastNegation := some part.now,
      minimumOff := g.globals.minimumOff }).latch .railFault detail

/-- The rail comes to OFF, `elapsed` ms after its last negation, and rises again if there is demand and the minimum
off time has passed (R140 to R142). -/
def Part.railOff (part : Part) (g : Setup) (elapsed : Nat) : Part :=
  let down := part.changeRail { part.rail with state := .off, timer := none }
  if down.railDemanded ∧ down.rail.minimumOff ≤ elapsed then down.raiseRail g else down

end Sys2Proof.Machine
end

