-- ==== Sys2Proof/Machine/Modes.lean ====
section
/-! DEFINITION. Modes, waveforms and ghost debt (04_refresh_modes_waveforms_and_ghost_debt.md): the mode decision,
the drive code of a pixel, and a tile's outcome at retirement. -/

namespace Sys2Proof.Machine

/-! ### The mode of a job (R64 to R66) -/

/-- A tile that forces FULL: UNKNOWN, or hard debt (R63). -/
def PanelCfg.forcesFull (c : PanelCfg) (t : Tile) : Bool := t.untrusted || decide (c.debtHard ≤ t.debt)

/-- Soft debt (R63). -/
def PanelCfg.softDebt (c : PanelCfg) (t : Tile) : Bool := decide (c.debtSoft ≤ t.debt)

/-- The level at which soft debt counts (R65, R66). -/
def PolicyLevel.spendsOnDebt : PolicyLevel → Bool
  | .normal | .surplus => true
  | .frozen | .lean => false

/-- The mode of a ZONE job (R65), by its six tests in order. -/
def Part.zoneJobMode (part : Part) (g : Setup) (c : PanelCfg) (j : Job) (policy : ModePolicy) : DriveMode :=
  let tiles := part.tilesIn g j.panel j.rect
  if tiles.any fun x => c.forcesFull x.2 then .full
  else if j.fullRequest then .full
  else
    match policy with
    | .fullAlways => .full
    | .partialOnly => .part
    | .auto => if (tiles.any fun x => c.softDebt x.2) && part.energy.level.spendsOnDebt then .full else .part

/-- The QUEUED ZONE jobs of a panel, which the admission of its PANEL job withdraws (R49). -/
def Part.queuedZoneJobs (part : Part) (p : PanelNo) : List (Nat × Job) :=
  (queuedJobs 0 part.pool).filter fun x =>
    x.2.panel == p && match x.2.scope with
      | .zone _ => true
      | .panel _ => false

/-- The mode policy a tile answers to in a PANEL job: LOOSE tiles count as AUTO (R66). -/
def Setup.policyOf (g : Setup) (t : Tile) : ModePolicy :=
  match t.zone with
  | none => .auto
  | some n =>
    match g.zone? n with
    | some z => z.policy
    | none => .auto

/-- The mode of a PANEL job (R66), by its five tests in order. -/
def Part.panelJobMode (part : Part) (g : Setup) (c : PanelCfg) (j : Job) : DriveMode :=
  let tiles := part.tilesIn g j.panel c.whole
  if tiles.any fun x => c.forcesFull x.2 then .full
  else if j.cls == .sweep || j.fullRequest || (part.queuedZoneJobs j.panel).any fun x => x.2.fullRequest then .full
  else if tiles.any fun x => (x.2.state == .dirty || x.2.state == .queued) && g.policyOf x.2 == .fullAlways then .full
  else if (tiles.any fun x => g.policyOf x.2 == .auto && c.softDebt x.2) && part.energy.level.spendsOnDebt then .full
  else .part

/-- The mode the walk fixes for a job (R64). -/
def Part.modeOf (part : Part) (g : Setup) (c : PanelCfg) (j : Job) : DriveMode :=
  match j.scope with
  | .panel _ => part.panelJobMode g c j
  | .zone n =>
    match g.zone? n with
    | some z => part.zoneJobMode g c j z.policy
    | none => part.zoneJobMode g c j .auto

/-! ### Drive codes (R68 to R70) -/

/-- The four levels of a byte, leftmost pixel first (R1). -/
def byteLevels (b : Byte) : List Nat :=
  [b.toNat / 64 % 4, b.toNat / 16 % 4, b.toNat / 4 % 4, b.toNat % 4]

/-- The levels of a run of bytes, left to right. -/
def runLevels (bs : List Byte) : List Nat := bs.flatMap byteLevels

/-- The code of a pixel of a PARTIAL job in frame `f` (R69). -/
def partialCode (frames f old new : Nat) : DriveCode :=
  let d := (old - new) + (new - old)
  if f < ceilDiv (d * frames) 3 then
    if old < new then .blackward else .whiteward
  else .keep

/-- The code of a pixel of a FULL job in frame `f` (R70): phases A to D. -/
def fullCode (frames f new : Nat) : DriveCode :=
  let a := frames / 4
  let r := frames - 3 * a
  if f < a then .whiteward
  else if f < 2 * a then .blackward
  else if f < 3 * a then .whiteward
  else if f < 3 * a + ceilDiv (new * r) 3 then .blackward
  else .keep

/-- The codes of a row (R68): from the SHOWN and STAGE runs of its row pair, by mode, frame count and frame index. -/
def rowCodes (mode : DriveMode) (frames f : Nat) (pair : RowPair) : List DriveCode :=
  match mode with
  | .part => List.zipWith (partialCode frames f) (runLevels pair.shown) (runLevels pair.stage)
  | .full => (runLevels pair.stage).map (fullCode frames f)

/-- Changed pixels of a tile row segment: those whose two levels differ (R109). -/
def changedPixels (a b : List Byte) : Nat :=
  (List.zipWith (fun x y => if x = y then 0 else 1) (runLevels a) (runLevels b)).sum

/-! ### Outcomes at retirement (R71 to R73, R120) -/

inductive TileOutcome where
  | copied
  | unchanged
  | uncommitted
  deriving DecidableEq, Repr

/-- The outcome of a tile by its context entry (R71). -/
def TileContext.outcome (mode : DriveMode) (x : TileContext) : TileOutcome :=
  if x.tainted || x.underrun then .uncommitted
  else
    match mode with
    | .full => .copied
    | .part => if 0 < x.changed then .copied else .unchanged

/-- A tile settled at retirement after a commit (R72, R73, R120), by outcome, mode, band weight and late SHOWN mark. -/
def Tile.settle (mode : DriveMode) (weight : Nat) (x : TileContext) (t : Tile) : Tile :=
  match x.outcome mode with
  | .uncommitted => { t with state := .dirty, untrusted := true, redirty := false }
  | .unchanged => { t with state := if t.redirty then .dirty else .clean, redirty := false }
  | .copied =>
    match mode with
    | .full =>
      { t with
        state := if t.redirty then .dirty else .clean
        redirty := false
        debt := 0
        untrusted := x.lateShown && t.untrusted }
    | .part =>
      { t with
        state := if t.redirty then .dirty else .clean
        redirty := false
        debt := min 255 (t.debt + weight) }

end Sys2Proof.Machine
end

