-- ==== Sys2Proof/Machine/Operands.lean ====
section
/-! DEFINITION. What the part reads out of a host write: the Write Tap's map from a byte address to its class
(R5, R145), and the order that the order capture copy spells (R160). -/

namespace Sys2Proof.Machine

/-- The three planes of a panel (R2). -/
inductive Plane where
  | target
  | shown
  | stage
  deriving DecidableEq, Repr

/-- A touch (R5): the plane, the panel, the pixel row, the byte column and the tile. -/
structure Touch where
  plane : Plane
  panel : PanelNo
  row : Nat
  column : Nat
  tx : Nat
  ty : Nat
  deriving DecidableEq, Repr

/-- The class of a host write byte (R145), with what is handed on. -/
inductive ByteClass where
  | pixel (t : Touch)
  | padding
  | statusArea
  | orderBlock (offset : Nat)
  | setupArea
  | windowOther
  | untapped
  deriving DecidableEq, Repr

/-- A plane's base address. -/
def PanelCfg.planeBase (c : PanelCfg) : Plane → Nat
  | .target => c.targetBase
  | .shown => c.shownBase
  | .stage => c.stageBase

/-- The bytes of a plane (R3): [base, base + H × stride). -/
def PanelCfg.planeBytes (c : PanelCfg) : Nat := c.height * c.stride

/-- The address of pixel row `y`, tile column `tx`, in a plane (R4). -/
def PanelCfg.segmentAddr (c : PanelCfg) (plane : Plane) (y tx : Nat) : Nat :=
  c.planeBase plane + y * c.stride + 8 * tx

/-- The map of R5 within one plane of an enabled panel: none when the address lies outside it. -/
def planeByte? (p : PanelNo) (c : PanelCfg) (plane : Plane) (a : Nat) : Option ByteClass :=
  let base := c.planeBase plane
  if base ≤ a ∧ a < base + c.planeBytes then
    let row := (a - base) / c.stride
    let column := (a - base) % c.stride
    if c.width / 4 ≤ column then some .padding
    else some (.pixel ⟨plane, p, row, column, column / 8, row / 32⟩)
  else none

/-- The first class some plane of the panels gives an address, panel by panel. -/
def planeClass? (g : Setup) (a : Nat) : List PanelNo → Option ByteClass
  | [] => none
  | p :: ps =>
    match g.panels.get p with
    | none => planeClass? g a ps
    | some c =>
      match planeByte? p c .target a with
      | some k => some k
      | none =>
        match planeByte? p c .shown a with
        | some k => some k
        | none =>
          match planeByte? p c .stage a with
          | some k => some k
          | none => planeClass? g a ps

/-- The areas of the control window by offset (R145, R159). -/
def windowClass (offset : Nat) : ByteClass :=
  if offset < 0x100 then .statusArea
  else if offset < 0x110 then .orderBlock (offset - 0x100)
  else if (0x200 ≤ offset ∧ offset < 0x380) ∨ (0x400 ≤ offset ∧ offset < 0x500) ∨ (0x600 ≤ offset ∧ offset < 0xE00)
  then .setupArea
  else .windowOther

/-- The Write Tap's classification of one byte address (R5, R6, R145), under the setup installed when the byte is
observed. -/
def classify (setup : Option Setup) (base a : Nat) : ByteClass :=
  if Config.memoryEnd ≤ a then .untapped
  else if base ≤ a ∧ a < base + Config.windowBytes then windowClass (a - base)
  else
    match setup with
    | none => .untapped
    | some g => (planeClass? g a panelNos).getD .untapped

/-! ### Orders (R160, R161) -/

/-- The fields of an order (R160). -/
structure Order where
  code : Nat
  target : Nat
  mode : Nat
  cls : Nat
  arg1 : BitVec 32
  arg2 : BitVec 32
  deriving DecidableEq, Repr

/-- A byte of the order capture copy. -/
def orderByte (copy : List Byte) (i : Nat) : Byte := copy.getD i 0

/-- The order the capture copy spells (R160). -/
def orderOf (copy : List Byte) : Order where
  code := (orderByte copy 0).toNat
  target := (orderByte copy 1).toNat
  mode := (orderByte copy 2).toNat
  cls := (orderByte copy 3).toNat
  arg1 := BitVec.ofNat 32 (leNat ((copy.drop 4).take 4))
  arg2 := BitVec.ofNat 32 (leNat ((copy.drop 8).take 4))

/-- The class an order's class code names (R160): SWEEP has none. -/
def orderClass? : Nat → Option RefreshClass
  | 0 => some .urgent
  | 1 => some .timed
  | 2 => some .routine
  | _ => none

/-- The full request an order's mode code makes (R160): DEFAULT none, FULL one. -/
def orderFull? : Nat → Option Bool
  | 0 => some false
  | 1 => some true
  | _ => none

/-- The panel a target number names, if there is such a panel. -/
def panelOf? (n : Nat) : Option PanelNo := if h : n < 4 then some ⟨n, h⟩ else none

/-- Result codes (R160). -/
inductive OrderResult where
  | done
  | started
  | refusedState
  | refusedTarget
  | refusedArgument
  | unknownOrder
  deriving DecidableEq, Repr

def OrderResult.code : OrderResult → Byte
  | .done => 1
  | .started => 2
  | .refusedState => 3
  | .refusedTarget => 4
  | .refusedArgument => 5
  | .unknownOrder => 6

end Sys2Proof.Machine
end

