-- ==== Sys2Proof/Machine/Transfer.lean ====
section
/-! DEFINITION. The Transfer Engine's bursts and row buffer (07_capture_drive_and_commit.md): groups, capture
requests, feed, the commit's search for its next group. -/

namespace Sys2Proof.Machine

/-- Tiles in the group that starts at tile column `tx` of a run ending at `last` (R108). -/
def groupWidth (tx last : Nat) : Nat := min Config.groupTiles (last + 1 - tx)

/-- The plane a kind of burst moves to or from. -/
def BurstKind.plane : BurstKind → Plane
  | .captureTarget => .target
  | .captureShown | .feedShown | .commitWrite => .shown
  | .captureStage | .feedStage | .commitRead | .setupRead | .statusPost => .stage

/-- A burst of a group (R108). -/
def groupBurst (c : PanelCfg) (kind : BurstKind) (p : PanelNo) (row tx tiles : Nat) (data : List Byte) : Burst where
  kind := kind
  panel := p
  row := row
  tx := tx
  tiles := tiles
  addr := c.segmentAddr kind.plane row tx
  data := data

/-- Bytes a burst of the engine's moves: eight per tile row segment (R4, R108). -/
def Burst.bytes (b : Burst) : Nat := 8 * b.tiles

/-- The first and last pixel rows of a rectangle (R124). -/
def Rect.topRow (r : Rect) : Nat := 32 * r.ty0
def Rect.lastRow (r : Rect) : Nat := 32 * r.ty1 + 31

/-! ### Capture (R109, R110) -/

/-- The TARGET read of the capture group at (row, tx) is requested. -/
def Engine.requestCapture (e : Engine) (c : PanelCfg) (p : PanelNo) (j : Job) (row tx : Nat) : Engine :=
  { e with
    group := tx
    request := some (groupBurst c .captureTarget p row tx (groupWidth tx j.rect.tx1) []) }

/-- The engine of a job at its admission (R106, R107), its first capture burst requested (R110). -/
def Engine.start (c : PanelCfg) (p : PanelNo) (slot : Nat) (j : Job) : Engine :=
  Engine.requestCapture
    { slot := slot
      context := List.replicate (j.rect.cols * j.rect.rows) ⟨0, false, false, false⟩
      cursor := j.rect.topRow
      group := j.rect.tx0
      feed := none
      fill := none
      buffer := []
      feedStopped := false
      commit := none
      request := none
      inFlight := false
      discard := false } c p j j.rect.topRow j.rect.tx0

/-- The context index of tile (tx, ty) of a rectangle: row order (R106). -/
def Rect.contextIndex (r : Rect) (tx ty : Nat) : Nat := (ty - r.ty0) * r.cols + (tx - r.tx0)

/-- A tile's context entry. -/
def Engine.entry (e : Engine) (r : Rect) (tx ty : Nat) : TileContext :=
  e.context.getD (r.contextIndex tx ty) ⟨0, false, false, false⟩

/-- A tile's context entry changed. -/
def Engine.updateEntry (e : Engine) (r : Rect) (tx ty : Nat) (f : TileContext → TileContext) : Engine :=
  { e with context := e.context.set (r.contextIndex tx ty) (f (e.entry r tx ty)) }

/-- The changed counts of a group's tiles raised by its two reads (R109): eight bytes per tile, from tile `tx` on. -/
def Engine.countChanges (r : Rect) (ty : Nat) : Nat → Nat → List Byte → List Byte → Engine → Engine
  | 0, _, _, _, e => e
  | n + 1, tx, target, shown, e =>
    Engine.countChanges r ty n (tx + 1) (target.drop 8) (shown.drop 8)
      (e.updateEntry r tx ty fun x => { x with changed := x.changed + changedPixels (target.take 8) (shown.take 8) })

/-- The total of the changed counts, reported at the capture end (R110). -/
def Engine.changedTotal (e : Engine) : Nat := (e.context.map (·.changed)).sum

/-! ### Feed (R113 to R117) -/

/-- The row pair after frame `f`, row `y` in the order of the slots (R113). -/
def nextFeed (j : Job) (frames f y : Nat) : Option (Nat × Nat) :=
  if y < j.rect.lastRow then some (f, y + 1)
  else if f + 1 < frames then some (f + 1, j.rect.topRow)
  else none

/-- The first feed burst of a group: SHOWN for a PARTIAL job, STAGE for a FULL one (R113). -/
def feedBurst (c : PanelCfg) (p : PanelNo) (j : Job) (mode : DriveMode) (row tx : Nat) : Burst :=
  groupBurst c (match mode with
    | .part => .feedShown
    | .full => .feedStage) p row tx (groupWidth tx j.rect.tx1) []

/-- A fill begins where a place is free, none is filling and rows remain (R112, R113), unless the port has reported
the early end of the frame (R117). -/
def Engine.startFill (e : Engine) (c : PanelCfg) (p : PanelNo) (j : Job) (mode : DriveMode) (frames : Nat) : Engine :=
  if e.fill.isNone ∧ e.buffer.length < 4 ∧ e.feedStopped = false then
    match e.feed with
    | some (f, y) =>
      { e with
        fill := some ⟨f, y, [], []⟩
        feed := nextFeed j frames f y
        request := some (feedBurst c p j mode y j.rect.tx0) }
    | none => e
  else e

/-- A feed burst of the row in fill has ended with its data (R113): the group's STAGE read follows a SHOWN read, the
next group follows a STAGE read, and after the last the place is full and the next fill begins. -/
def Engine.feedEnded (e : Engine) (c : PanelCfg) (p : PanelNo) (j : Job) (mode : DriveMode) (frames : Nat) (b : Burst)
    (data : List Byte) : Engine :=
  let idle := { e with inFlight := false }
  match e.fill with
  | none => idle
  | some pair =>
    match b.kind with
    | .feedShown =>
      { idle with
        fill := some { pair with shown := pair.shown ++ data }
        request := if e.feedStopped then none else some (groupBurst c .feedStage p b.row b.tx b.tiles []) }
    | _ =>
      let filled := { pair with stage := pair.stage ++ data }
      if b.tx + b.tiles ≤ j.rect.tx1 then
        { idle with
          fill := some filled
          request := if e.feedStopped then none else some (feedBurst c p j mode b.row (b.tx + b.tiles)) }
      else Engine.startFill { idle with fill := none, buffer := e.buffer ++ [filled] } c p j mode frames

/-- The row buffer emptied (R112): every place free, the pending feed request withdrawn, the data of a feed burst in
flight discarded when that burst ends. -/
def Engine.emptyBuffer (e : Engine) : Engine :=
  { e with buffer := [], fill := none, feed := none, request := none, discard := e.inFlight }

/-! ### Commit (R118, R119) -/

/-- A tile is to be copied while its outcome is copied (R118). -/
def Engine.toCopy (e : Engine) (r : Rect) (mode : DriveMode) (tx ty : Nat) : Bool :=
  (e.entry r tx ty).outcome mode == .copied

/-- The length of the run of tiles to be copied that starts at `tx`, at most `n`. -/
def Engine.copyRun (e : Engine) (r : Rect) (mode : DriveMode) (ty : Nat) : Nat → Nat → Nat
  | 0, _ => 0
  | n + 1, tx => if tx ≤ r.tx1 ∧ e.toCopy r mode tx ty then 1 + Engine.copyRun e r mode ty n (tx + 1) else 0

/-- The next group of a row from tile column `tx` on, searching `n` columns (R119). -/
def Engine.groupFrom (e : Engine) (r : Rect) (mode : DriveMode) (ty : Nat) : Nat → Nat → Option (Nat × Nat)
  | 0, _ => none
  | n + 1, tx =>
    if e.toCopy r mode tx ty then some (tx, Engine.copyRun e r mode ty Config.groupTiles tx)
    else Engine.groupFrom e r mode ty n (tx + 1)

/-- The next commit group from (row, tx) on, row by row, over `n` rows: its row, first tile column and width. -/
def Engine.commitFrom (e : Engine) (r : Rect) (mode : DriveMode) : Nat → Nat → Nat → Option (Nat × Nat × Nat)
  | 0, _, _ => none
  | n + 1, row, tx =>
    match e.groupFrom r mode (row / 32) (r.tx1 + 1 - tx) tx with
    | some (x, w) => some (row, x, w)
    | none => Engine.commitFrom e r mode n (row + 1) r.tx0

/-- The engine with its next commit group's STAGE read requested, formed from the tiles that are to be copied at this
moment; none when no group is left, so that the commit copy has ended (R119). -/
def Engine.nextCommit (e : Engine) (c : PanelCfg) (p : PanelNo) (r : Rect) (mode : DriveMode) (row tx : Nat) :
    Option Engine :=
  match e.commitFrom r mode (r.lastRow + 1 - row) row tx with
  | some (y, x, w) =>
    some { e with
      commit := some ⟨y, x, w, false⟩
      request := some (groupBurst c .commitRead p y x w []) }
  | none => none

/-- The commit's SHOWN write has covered the segment of row `y`, tile column `tx` (R24, R73). -/
def CommitPos.written (pos : CommitPos) (y tx : Nat) : Bool :=
  decide (y < pos.row) || (y == pos.row && decide (tx < pos.tx))

/-- The commit's STAGE read has covered the segment of row `y`, tile column `tx` (R25). -/
def CommitPos.hasRead (pos : CommitPos) (y tx : Nat) : Bool :=
  decide (y < pos.row) || (y == pos.row && decide (tx < if pos.writing then pos.tx + pos.tiles else pos.tx))

/-- A tile lies in the commit's group in hand. -/
def CommitPos.holds (pos : CommitPos) (tx ty : Nat) : Bool :=
  pos.row / 32 == ty && decide (pos.tx ≤ tx) && decide (tx < pos.tx + pos.tiles)

end Sys2Proof.Machine
end

