-- ==== Sys2Proof/Machine/Jobs.lean ====
section
/-! DEFINITION. The life of a running job and the scheduler's walk (03_refresh_jobs_and_the_queue.md): admission,
withdrawal, retirement, abort, return by HALT, the walk and STARVED. -/

namespace Sys2Proof.Machine

/-! ### Endings, shared -/

/-- The enabled zones a running job concerns (R33): its zone, or every enabled zone of its panel. -/
def Setup.concerned (g : Setup) (j : Job) : List ZoneCfg :=
  match j.scope with
  | .zone n => (g.zone? n).toList
  | .panel p => g.zonesOf p

/-- LOOSE_WRITE is latched when a LOOSE tile of an ended job's rectangle has entered DIRTY (R23); every tile of the
rectangle was ACTIVE before. -/
def Part.latchLoose (part : Part) (g : Setup) (j : Job) : Part :=
  if (part.tilesIn g j.panel j.rect).any fun x => x.2.zone == none && x.2.state == .dirty
  then part.latch .looseWrite j.panel.val else part

/-- The panel has lost its running job: a port that is idle otherwise rests at once where its rest delay is 0 (R129). The
rest comes before the walk of the step (log 29). -/
def Part.restIfIdle (part : Part) (p : PanelNo) : Part :=
  match part.panelCfg? p with
  | some c => if c.restDelay = 0 ∧ (part.port p).idle then part.changePort p ((part.port p).rest part.now) else part
  | none => part

/-- The job's cost leaves K, the running count falls by one, the job context is freed, and the slot with it (R50,
R52, R54). -/
def Part.endJob (part : Part) (slot : Nat) (j : Job) (r : RunFields) : Part :=
  { (part.freeSlot slot).setEngine j.panel none with
    committed := part.committed - r.cost
    runningCount := part.runningCount - 1
    walkOwed := true }

/-- A zone job's zone has its running job field set to none (R33, R34). -/
def Part.clearRunning (part : Part) (j : Job) : Part :=
  match j.scope with
  | .zone n => part.updateZone n fun z => { z with runningJob := none }
  | .panel _ => part

/-- In HALTING the running count reaching 0 makes the run state STOPPED and latches HALTED (R59). -/
def Part.checkHalted (part : Part) : Part :=
  if part.unit.runState = .halting ∧ part.runningCount = 0 then
    ({ part with unit := { part.unit with runState := .stopped } }.latch .halted 0).oweWalk
  else part

/-- The retire trigger at one concerned zone (R33): a settle expiry with origin RETIRE where its timer is stopped. -/
def Part.retireTriggerAt (g : Setup) (part : Part) (z : ZoneCfg) : Part :=
  if part.timerStopped z.index then part.expire g z .retire .retire else part

/-- The retirement handling of a job's zones (R33). -/
def Part.retireZones (part : Part) (g : Setup) (j : Job) : Part :=
  (g.concerned j).foldl (Part.retireTriggerAt g) (part.clearRunning j)

/-- The abort handling of one concerned zone (R34): its timer restarts, and a TIMED zone takes EPOCH_WAIT. -/
def Part.abortZoneAt (part : Part) (z : ZoneCfg) : Part :=
  (part.restartTimer z).updateZone z.index fun x => { x with epochWait := x.epochWait || z.cls == .timed }

/-! ### Retirement, abort, return -/

/-- A null job retires at once (R50), and the panel's port may rest (R129). -/
def Part.retireNull (part : Part) (g : Setup) (slot : Nat) (j : Job) (r : RunFields) : Part :=
  let settled := ((part.mapTiles g j.panel j.rect fun _ _ t =>
    { t with state := if t.redirty then .dirty else .clean, redirty := false }).followTiles).latchLoose g j
  ((((settled.endJob slot j r).restIfIdle j.panel).slotsFreed g).retireZones g j).checkHalted

/-- Tiles of a context whose outcome is copied (R53, R120). -/
def Engine.copiedTiles (e : Engine) (mode : DriveMode) : Nat := e.context.countP fun x => x.outcome mode == .copied

/-- The last sweep second set by a FULL PANEL job's retirement with a copied tile (R74). -/
def Part.noteSweep (part : Part) (j : Job) (r : RunFields) (copied : Nat) : Part :=
  match j.scope with
  | .panel p =>
    if r.mode = .full ∧ 0 < copied then { part with lastSweep := part.lastSweep.set p (some part.clock.mono) } else part
  | .zone _ => part

/-- URGENT_SHOWN (R53). -/
def Part.noteUrgent (part : Part) (j : Job) (copied : Nat) : Part :=
  if 0 < copied ∧ (j.cls = .urgent ∨ j.urgentCarried) then part.latch .urgentShown j.scope.code else part

/-- A job retires when its commit copy ends (R52, R120): tiles settled in row order, the last sweep second, the cost
and the slot, with which the panel's port may rest (R129), the HELD retry, the zones, URGENT_SHOWN. -/
def Part.retireJob (part : Part) (g : Setup) (slot : Nat) (j : Job) (r : RunFields) (e : Engine) : Part :=
  let settled := ((part.mapTiles g j.panel j.rect fun tx ty t =>
    t.settle r.mode (g.band r.band).weight (e.entry j.rect tx ty)).followTiles).latchLoose g j
  let copied := e.copiedTiles r.mode
  let ended := ((settled.noteSweep j r copied).endJob slot j r).restIfIdle j.panel
  (((ended.slotsFreed g).retireZones g j).noteUrgent j copied).checkHalted

/-- A running job with its slot and its admitted fields. -/
abbrev RunningJob := Nat × Job × RunFields

/-- An aborted job's own part of the abort (R54, steps 1 to 3): every tile of its rectangle DIRTY with UNKNOWN set, debt
unchanged; its cost, context and slot gone; the panel's port may rest (R129). -/
def Part.cutJob (g : Setup) (part : Part) (x : RunningJob) : Part :=
  let settled := ((part.mapTiles g x.2.1.panel x.2.1.rect fun _ _ t =>
    { t with state := .dirty, untrusted := true, redirty := false }).followTiles).latchLoose g x.2.1
  (settled.endJob x.1 x.2.1 x.2.2).restIfIdle x.2.1.panel

/-- The abort handling of a job's zones (R34, R54). -/
def Part.abortZones (g : Setup) (part : Part) (x : RunningJob) : Part :=
  (g.concerned x.2.1).foldl Part.abortZoneAt (part.clearRunning x.2.1)

/-- The jobs that one event aborts (R54), in the order of the list: each is cut, the demand on the rail withdrawn, the
HELD retry made once with all their slots free (R37), and then the zones of each handled. -/
def Part.abortJobs (part : Part) (g : Setup) (xs : List RunningJob) : Part :=
  if xs.isEmpty then part
  else (xs.foldl (Part.abortZones g) (((xs.foldl (Part.cutJob g) part).releaseRail g).slotsFreed g)).checkHalted

/-- A running job is aborted (R54). -/
def Part.abortJob (part : Part) (g : Setup) (slot : Nat) (j : Job) (r : RunFields) : Part :=
  part.abortJobs g [(slot, j, r)]

/-- The QUEUED job, other than the one of `slot`, that has the scope of a returned job (R58). -/
def Part.queuedTwin? (part : Part) (j : Job) : Option (Nat × Job) :=
  findJob (fun q => q.state == .queued && q.scope == j.scope) 0 part.pool

/-- A returned job that takes in the QUEUED job of its scope (R58). -/
def Job.takeIn (j q : Job) : Job :=
  { j with
    rect := j.rect.join q.rect
    cls := j.cls.moreUrgent q.cls
    fullRequest := j.fullRequest || q.fullRequest
    urgentCarried := j.urgentCarried || q.urgentCarried }

/-- The zone of a ZONE job takes a slot back into its queued job field (R35, R57). -/
def Part.requeueZone (part : Part) (slot : Nat) (j : Job) : Part :=
  match j.scope with
  | .zone n => part.updateZone n fun z => { z with runningJob := none, queuedJob := some slot }
  | .panel _ => part

/-- A returned job back in the queue, merged with the QUEUED job of its scope if there is one (R57, R58); a class
raise issues a new sequence number, and the merged job's slot is freed. -/
def Part.requeue (part : Part) (slot : Nat) (j : Job) : Part :=
  let back : Job := { j with state := .queued, running := none }
  match part.queuedTwin? j with
  | none => (part.setJob slot back).requeueZone slot j
  | some (other, q) =>
    let merged := back.takeIn q
    let numbered := if merged.cls = j.cls then (part.setJob slot merged)
      else { (part.setJob slot { merged with sequence := part.sequence }) with sequence := part.sequence + 1 }
    (numbered.freeSlot other).requeueZone slot j

/-- A CAPTURING or POISED job is returned to the queue by HALT (R57, R111): a marked or REDIRTY tile QUEUED, the others
CLEAN, which every zone's DIRTY count follows (R17); its context and row buffer freed; a POISED job's demand on the rail
withdrawn; the panel's port may rest (R129). -/
def Part.returnJob (part : Part) (g : Setup) (slot : Nat) (j : Job) (r : RunFields) (c : PanelCfg) : Part :=
  let settled := (part.mapTiles g j.panel j.rect fun tx ty t =>
    { t with
      state := if t.redirty || r.carried.contains (g.tileIndex j.panel c tx ty) then .queued else .clean
      redirty := false }).followTiles
  let released := { settled.setEngine j.panel none with
    committed := part.committed - r.cost
    runningCount := part.runningCount - 1
    walkOwed := true }
  ((released.requeue slot j).releaseRail g).restIfIdle j.panel

/-- HALT's treatment of one panel's running job (R56). -/
def Part.haltAt (g : Setup) (part : Part) (p : PanelNo) : Part :=
  match part.running? p, g.panels.get p with
  | some (slot, j, r), some c =>
    if j.state = .capturing ∨ j.state = .poised then part.returnJob g slot j r c else part
  | _, _ => part

/-- HALT's treatment of every running job (R56): the returns, in ascending panel number (log 30), and, where merges have
freed slots (R58), the HELD retry made once with all of them free (R37). -/
def Part.haltJobs (part : Part) (g : Setup) : Part :=
  let returned := panelNos.foldl (Part.haltAt g) part
  if returned.occupied < part.occupied then returned.slotsFreed g else returned

/-! ### Admission (R48, R49) -/

/-- The QUEUED jobs that a job's admission withdraws (R49): a PANEL job's panel's ZONE jobs. -/
def Part.withdrawnBy (part : Part) (j : Job) : List (Nat × Job) :=
  match j.scope with
  | .panel _ => part.queuedZoneJobs j.panel
  | .zone _ => []

/-- A QUEUED ZONE job is withdrawn into a PANEL job (R49): its slot freed, its zone's queued job field none. -/
def Part.withdraw (part : Part) (x : Nat × Job) : Part :=
  match x.2.scope with
  | .zone n => (part.freeSlot x.1).updateZone n fun z => { z with queuedJob := none }
  | .panel _ => part

/-- The zone of an admitted ZONE job: queued job field none, running job field the slot (R48). -/
def Part.runZone (part : Part) (slot : Nat) (j : Job) : Part :=
  match j.scope with
  | .zone n => part.updateZone n fun z => { z with queuedJob := none, runningJob := some slot }
  | .panel _ => part

/-- A wake is demanded of an OFF port, or of one that an accepted APPLY has left CLOSING and that will take OFF
(R127, R138). -/
def Port.demandWake (x : Port) : Port :=
  if x.state = .off ∨ (x.state = .closing ∧ x.closingOver) then { x with wakePending := true } else x

/-- Admission with the mode, band and estimate the walk has fixed (R48), in its order: withdrawals, the admitted
fields and K, CAPTURING and the running count, the tiles ACTIVE, the zones' fields, the engine, the port. A withdrawal
causes a walk (R46). -/
def Part.admitJob (part : Part) (g : Setup) (c : PanelCfg) (slot : Nat) (j : Job) (mode : DriveMode) (band cost : Nat) :
    Part :=
  let taken := part.withdrawnBy j
  let carried := ((part.tilesIn g j.panel j.rect).filter fun x => x.2.state == .dirty || x.2.state == .queued).map
    fun x => g.tileIndex j.panel c x.1.1 x.1.2
  let running : Job := { j with
    state := .capturing
    fullRequest := j.fullRequest || taken.any fun x => x.2.fullRequest
    urgentCarried := j.urgentCarried || taken.any fun x => x.2.cls == .urgent
    running := some ⟨mode, band, cost, part.estimatePixels g j mode, none, carried⟩ }
  let admitted := { (taken.foldl Part.withdraw part).setJob slot running with
    committed := part.committed + cost
    runningCount := part.runningCount + 1 }
  let active := (admitted.mapTiles g j.panel j.rect fun _ _ t =>
    { t with state := .active, redirty := false }).followTiles
  let started := ((active.runZone slot j).setEngine j.panel (some (Engine.start c j.panel slot j))).setPort j.panel
    (part.port j.panel).demandWake
  if taken.isEmpty then started else started.oweWalk

/-! ### The walk (R46, R47, R101, R102) -/

/-- The three tests whose failure skips a job (R47). -/
def Part.skips (part : Part) (g : Setup) (j : Job) : Bool :=
  !(decide (part.runningCount < g.globals.runningLimit)) || (part.running? j.panel).isSome
    || (part.port j.panel).state == .fault

/-- The estimated cost the walk fixes for a job (R98, R99). -/
def Part.estimate (part : Part) (g : Setup) (c : PanelCfg) (j : Job) (mode : DriveMode) (band : Nat) : Nat :=
  jobCost g.globals c (part.estimatePixels g j mode) ((g.band band).frames mode) part.rail.state.boosts

/-- The walk over the queue as it stood when the walk was taken (R46, R47): skip, stop with the mark at the job, or admit
and go on. A job that has left the queue since is not tested again. -/
def Part.walkFrom (part : Part) (g : Setup) : List (Nat × Job) → Part
  | [] => { part with stopMark := none }
  | (slot, _) :: rest =>
    match part.job? slot with
    | none => Part.walkFrom part g rest
    | some j =>
      match g.panels.get j.panel, part.selector? j.panel with
      | some c, some sel =>
        if j.state ≠ .queued ∨ part.skips g j then Part.walkFrom part g rest
        else
          let mode := part.modeOf g c j
          let cost := part.estimate g c j mode sel.band
          if part.energy.level.admits j.cls ∧ cost ≤ part.spendable g then
            Part.walkFrom (part.admitJob g c slot j mode sel.band cost) g rest
          else { part with stopMark := some slot }
      | _, _ => Part.walkFrom part g rest

/-- A QUEUED job is held back (R102): it is the job of the stop mark or stands behind it in queue order. -/
def Part.heldBack (part : Part) (slot : Nat) (j : Job) : Bool :=
  match part.stopMark with
  | none => false
  | some m =>
    match part.job? m with
    | some q => q.state == .queued && (m == slot || part.queuedBefore q j)
    | none => false

/-- The STARVED test of one queued job (R103). -/
def Part.starvedAt (g : Setup) (part : Part) (x : Nat × Job) : Part :=
  match part.job? x.1 with
  | none => part
  | some j =>
    if j.state = .queued ∧ j.cls = .urgent ∧ part.heldBack x.1 j ∧ g.globals.starvationLimit < part.age j.enqueued
      ∧ j.starvedReported = false
    then (part.setJob x.1 { j with starvedReported := true }).latch .starved j.scope.code
    else part

/-- The STARVED test (R103), over the queue in order, so that of several jobs found starved in one test the first in
queue order gives the detail (log 31). -/
def Part.starvedTest (part : Part) (g : Setup) : Part := part.queue.foldl (Part.starvedAt g) part

/-- The admissions of a walk (R47), taken with no walk owed; where they have withdrawn jobs, which owes a further walk,
the HELD retry is made once with all the freed slots free (R32, R37, R49, log 21). -/
def Part.admitAll (part : Part) (g : Setup) (queue : List (Nat × Job)) : Part :=
  let admitted := part.walkFrom g queue
  if admitted.walkOwed then admitted.slotsFreed g else admitted

/-- One walk (R46, R47): in a run state other than RUNNING it admits nothing and sets the stop mark to none (R102);
the STARVED test follows the setting of the mark (R103). -/
def Part.walk (part : Part) : Part :=
  match part.setup with
  | none => { part with walkOwed := false, stopMark := none }
  | some g =>
    let taken := { part with walkOwed := false }
    (if part.unit.runState = .running then taken.admitAll g part.queue
      else { taken with stopMark := none }).starvedTest g

/-- The walks that the step's causes call for (R46), after which none is owed: a withdrawal within a walk, or what its
HELD retry places, causes a further one. Each further walk follows an admission and at most four jobs run, so `n` of
8 is never exhausted in a reachable state. -/
def Part.takeWalks : Nat → Part → Part
  | 0, part => { part with walkOwed := false }
  | n + 1, part => if part.walkOwed then Part.takeWalks n part.walk else part

end Sys2Proof.Machine
end

