-- ==== Sys2Proof/Machine/Ports.lean ====
section
/-! DEFINITION. The Panel Ports' operations and the Thermal Selector's (05_temperature_bands.md,
08_panel_ports_the_rail_and_the_panel_link.md): wakes, faults, retries, restoring, driving a window, the capture end,
readings, polls and staleness. -/

namespace Sys2Proof.Machine

/-! ### The window and its frames (R130 to R133) -/

/-- Pixel rows of an open window. -/
def Window.rows (w : Window) : Nat := w.y1 + 1 - w.y0

/-- A frame has been started and some of its slots have not begun: the port is inside a frame. -/
def Window.insideFrame (w : Window) : Bool := w.frame.isSome && decide (w.slots < w.rows)

/-- The frame spacing of a job, in µs (R132): the greater of the band's P and R line periods. -/
def frameSpacing (b : Band) (c : PanelCfg) (r : Rect) : Nat := max (1000 * b.period) (32 * r.rows * c.linePeriod)

/-- The window of a job (R124), freshly opened. -/
def Window.ofJob (c : PanelCfg) (b : Band) (j : Job) (frames : Nat) : Window where
  x0 := 32 * j.rect.tx0
  x1 := 32 * j.rect.tx1 + 31
  y0 := j.rect.topRow
  y1 := j.rect.lastRow
  frames := frames
  linePeriod := c.linePeriod
  spacing := frameSpacing b c j.rect
  frame := none
  slots := 0
  settled := true
  ending := false

/-- The OPEN message of a window (R124). -/
def Window.message (w : Window) : Message := .openWindow w.x0 w.x1 w.y0 w.y1 w.frames w.linePeriod

/-- A POISED job of the panel may start its drive (R130): rail UP, port READY, query due clear. -/
def Part.canDrive (part : Part) (p : PanelNo) : Bool :=
  part.rail.state == .up && (part.port p).state == .ready && !(part.port p).queryDue
    && part.stage? p == some .poised

/-- The drive of a panel's running job starts (R130): OPEN sent, port and job DRIVING. -/
def Part.startDrive (part : Part) (g : Setup) (p : PanelNo) : Part :=
  match part.running? p, g.panels.get p with
  | some (slot, j, r), some c =>
    let w := Window.ofJob c (g.band r.band) j ((g.band r.band).frames r.mode)
    (part.setJob slot { j with state := .driving }).changePort p
      { part.port p with state := .driving, window := some w, limit := none, sent := some w.message }
  | _, _ => part

/-- The drive starts in the same event where it may (R130, R140, R141). -/
def Part.driveIfReady (part : Part) (g : Setup) (p : PanelNo) : Part :=
  if part.canDrive p then part.startDrive g p else part

/-! ### Wakes and rest (R127, R129) -/

/-- WAKE is sent (R127): wake pending clears, the port takes WAKING with cause none, and the wake BUSY limit runs; a
BUSY not asserted counts as negated at once, which starts the IDENT reply timeout (R125). -/
def Port.wake (x : Port) (busy : Bool) : Port :=
  { x with
    state := .waking
    cause := .none
    wakePending := false
    retryWake := false
    window := none
    busy := busy
    limit := some (if busy then ⟨.wakeBusy, Config.wakeBusyMicros⟩ else ⟨.identReply, Config.identReplyMicros⟩)
    sent := some .wake }

/-- The rest delay timer runs (R129): READY, no running job of the panel, query due and TEMP outstanding clear. -/
def Part.restDelayRuns (part : Part) (p : PanelNo) : Bool := (part.port p).idle && (part.running? p).isNone

/-- The conditions of the rest delay timer may have begun to hold by an event of the port: with a rest delay of 0 it
rests at once (R129). -/
def Part.restAtOnce (part : Part) (p : PanelNo) : Part :=
  if (part.running? p).isNone then part.restIfIdle p else part

/-! ### Faults and recovery (R134 to R137) -/

/-- The retry timer starts unless the port is held (R136). -/
def Port.startRetry (x : Port) (c : PanelCfg) : Port := if x.held then x else { x with retry := some c.retryInterval }

/-- The port's record at a fault (R134, R136): every limit stopped but a frame BUSY limit that still bounds the settle
before an owed CLOSE; held by the cause and the attempts. -/
def Port.faulted (x : Port) (cause : FaultCause) : Port :=
  { x with
    state := .fault
    cause := cause
    held := cause == .geometry || decide (3 ≤ x.attempts)
    tempOutstanding := false
    queryDue := false
    retry := none
    closingOver := false
    limit := match x.window, x.limit with
      | some _, some l => if l.kind = .frameBusy ∧ cause ≠ .busyStuck then some l else none
      | _, _ => none }

/-- CLOSE is sent in FAULT (R134, R135): no close BUSY limit runs, and the retry timer starts (R136). -/
def Port.closeInFault (x : Port) (c : PanelCfg) : Port :=
  Port.startRetry { x with window := none, limit := none, sent := some .close } c

/-- The engine learns that the frame is being ended early (R117): it makes no further feed request. A request that waits
with the arbiter is served (log 24); one held back behind a burst of the job's, which has not been made yet (R108, log 18),
is never made. -/
def Engine.stopFeed (e : Engine) : Engine :=
  { e with feedStopped := true, request := if e.inFlight then none else e.request }

/-- The port reports to the panel's engine that the frame is being ended early (R117). -/
def Part.stopFeed (part : Part) (p : PanelNo) : Part :=
  match part.engine? p with
  | some e => part.setEngine p (some e.stopFeed)
  | none => part

/-- A port inside a frame ends it early: its remaining slots will be null rows (R117, R135, R142). -/
def Part.endFrameEarly (part : Part) (p : PanelNo) (w : Window) : Part :=
  (part.setPort p { part.port p with window := some { w with ending := true } }).stopFeed p

/-- The abort of a panel's running job, if it has one. -/
def Part.abortRunning (part : Part) (g : Setup) (p : PanelNo) : Part :=
  match part.running? p with
  | some (slot, j, r) => part.abortJob g slot j r
  | none => part

/-- A port fault (R134) and what it does to the open window and the running job (R135, R136). -/
def Part.faultPort (part : Part) (g : Setup) (c : PanelCfg) (p : PanelNo) (cause : FaultCause) : Part :=
  let faulted := (part.changePort p ((part.port p).faulted cause)).latch .portFault p.val
  match (part.port p).window with
  | some w =>
    if w.insideFrame then
      if part.stage? p = some .driving then faulted.endFrameEarly p w else faulted
    else
      let ended := if part.stage? p = some .driving ∨ part.stage? p = some .poised then faulted.abortRunning g p
        else faulted
      if cause = .busyStuck then ended.setPort p ((ended.port p).closeInFault c) else ended
  | none =>
    let ended := if part.stage? p = some .poised then faulted.abortRunning g p else faulted
    ended.setPort p ((ended.port p).startRetry c)

/-- A faulted port restored by RESTORE_PORT (R137): OFF, an owed CLOSE abandoned, a wake demanded if the Thermal
Selector holds a poll due. -/
def Part.restore (part : Part) (p : PanelNo) : Part :=
  let due := match part.selector? p with
    | some s => s.pollDue
    | none => false
  part.changePort p
    { part.port p with
      state := .off
      cause := .none
      held := false
      attempts := 0
      retry := none
      retryWake := false
      limit := none
      window := none
      restoreWaits := false
      wakePending := (part.port p).wakePending || due }

/-! ### The capture end (R50, R100) -/

/-- The capture of a panel's job has ended (R50, R100, R130): the actual cost replaces the estimate, and the job
retires as null, is aborted because its port is FAULT, or becomes POISED, when its feed begins, it demands the rail
and, where the conditions already hold, it starts its drive. -/
def Part.captureEnd (part : Part) (g : Setup) (c : PanelCfg) (p : PanelNo) (slot : Nat) (j : Job) (r : RunFields)
    (e : Engine) : Part :=
  let total := e.changedTotal
  let frames := (g.band r.band).frames r.mode
  if r.mode = .part ∧ total = 0 then part.retireNull g slot j r
  else
    let pixels := match r.mode with
      | .part => min total r.estimatePixels
      | .full => r.estimatePixels
    let cost := jobCost g.globals c pixels frames part.rail.state.boosts
    let run := { r with cost := cost }
    let poised : Job := { j with state := .poised, running := some run }
    let charged := { part.setJob slot poised with committed := part.committed - r.cost + cost }
    if (part.port p).state = .fault then charged.abortJob g slot poised run
    else
      let fed := Engine.startFill { e with feed := some (0, j.rect.topRow), inFlight := false } c p j r.mode frames
      ((charged.setEngine p (some fed)).demandRail g).driveIfReady g p

/-! ### The commit copy (R118 to R120) -/

/-- The commit goes on from (row, tx), or its copy has ended and the job retires (R119, R120). -/
def Part.continueCommit (part : Part) (g : Setup) (c : PanelCfg) (p : PanelNo) (slot : Nat) (j : Job) (r : RunFields)
    (e : Engine) (row tx : Nat) : Part :=
  match e.nextCommit c p j.rect r.mode row tx with
  | some next => part.setEngine p (some next)
  | none => part.retireJob g slot j r e

/-- The last row of frame F − 1 has been sent (R118): the job is COMMITTING, its row buffer emptied, the rail no
longer demanded by it, and its commit copy begins. -/
def Part.beginCommit (part : Part) (g : Setup) (c : PanelCfg) (p : PanelNo) (slot : Nat) (j : Job) (r : RunFields)
    (e : Engine) : Part :=
  let run := { r with frame := none }
  let committing : Job := { j with state := .committing, running := some run }
  let emptied := e.emptyBuffer
  let begun := ((part.setJob slot committing).setEngine p (some emptied)).releaseRail g
  begun.continueCommit g c p slot committing run emptied j.rect.topRow j.rect.tx0

/-! ### The Thermal Selector (R81 to R85) -/

/-- A temperature clamped to −40 to +85 °C (R82). -/
def clampReading (t : Int) : Int := max (-40) (min 85 t)

/-- The largest index of a list of bands, counted from `i`, whose band satisfies `f`; `found` if none. -/
def lastBand (f : Nat → Band → Bool) : Nat → Option Nat → List Band → Option Nat
  | _, found, [] => found
  | i, found, b :: bs => lastBand f (i + 1) (if f i b then some i else found) bs

/-- The band selected from the current band and a clamped reading (R83). -/
def selectBand (g : Setup) (c : Nat) (t : Int) : Nat :=
  let h : Int := g.globals.bandHysteresis
  match lastBand (fun j b => decide (c < j) && decide (b.lower + h ≤ t)) 0 none g.bands with
  | some j => j
  | none =>
    if t < (g.band c).lower - h then
      (lastBand (fun j b => decide (j < c) && decide (b.lower - h ≤ t)) 0 none g.bands).getD c
    else c

/-- A reading taken from a panel (R82). -/
def Part.takeReading (part : Part) (g : Setup) (p : PanelNo) (t : Int) : Part :=
  match part.selector? p with
  | some s =>
    part.setSelector p
      { band := selectBand g s.band (clampReading t), reading := some (clampReading t),
        reference := part.clock.mono, staleSteps := 0, stale := false, pollDue := false }
  | none => part

/-- A port's answer to a poll due (R84, R128): a query where it is READY, DRIVING or CLOSING, a wake where it is OFF,
nothing in WAKING and FAULT. -/
def Port.answerPoll (x : Port) : Port :=
  match x.state with
  | .ready | .driving | .closing => { x with queryDue := true }
  | .off => { x with wakePending := true }
  | .waking | .fault | .unused => x

/-- The poll test of one panel at a second (R84). -/
def Part.pollAt (g : Setup) (part : Part) (p : PanelNo) : Part :=
  match g.panels.get p, part.selector? p with
  | some c, some s =>
    if s.pollDue = false ∧ c.pollPeriod ≤ part.age s.reference then
      (part.setSelector p { s with pollDue := true }).setPort p (part.port p).answerPoll
    else part
  | _, _ => part

/-- The staleness test of one panel at a second (R85). -/
def Part.staleAt (g : Setup) (part : Part) (p : PanelNo) : Part :=
  match g.panels.get p, part.selector? p with
  | some c, some s =>
    if 3 * (s.staleSteps + 1) * c.pollPeriod < part.age s.reference ∧ (s.staleSteps = 0 ∨ 0 < s.band) then
      (part.setSelector p { s with band := s.band - 1, staleSteps := s.staleSteps + 1, stale := true }).latch
        .tempStale p.val
    else part
  | _, _ => part

end Sys2Proof.Machine
end

