-- ==== Sys2Proof/Machine/Apply.lean ====
section
/-! DEFINITION. APPLY (11_the_control_window.md, R162 to R165): reading the setup data by its layouts, clamping the
scalars, the structural checks, and what acceptance and rejection do. -/

namespace Sys2Proof.Machine

/-! ### The setup reads (R162) -/

/-- The window offset of setup read `i` of 21: 200h to 37Fh, 400h to 4FFh, 600h to DFFh in bursts of 128 bytes. -/
def setupReadOffset (i : Nat) : Nat :=
  if i < 3 then 0x200 + 128 * i else if i < 5 then 0x400 + 128 * (i - 3) else 0x600 + 128 * (i - 5)

/-! ### Fields and clamps (R163, R165) -/

/-- An unsigned field of the setup data, least significant byte first. -/
def setupField (d : Memory) (offset bytes : Nat) : Nat := leNat (d.readRun offset bytes)

/-- A signed field of the setup data. -/
def setupSigned (d : Memory) (offset bytes : Nat) : Int := leInt (d.readRun offset bytes)

/-- A scalar clamped to the nearer end of its range, with 1 counted for a clamp (R163). -/
def clampField (lo hi v : Nat) : Nat × Nat := if v < lo then (lo, 1) else if hi < v then (hi, 1) else (v, 0)

/-- A signed scalar clamped, with its count. -/
def clampSigned (lo hi v : Int) : Int × Nat := if v < lo then (lo, 1) else if hi < v then (hi, 1) else (v, 0)

/-- The global settings with the number of their clamps, the band count apart (R76, R80, R89, R114, R139, R153, R163). -/
def readGlobals (d : Memory) : GlobalSettings × Nat :=
  let limit := clampField 1 4 (setupField d 0x200 1)
  let threshold := clampField 1 3 (setupField d 0x201 1)
  let hysteresis := clampField 0 7 (setupField d 0x204 1)
  let policyHyst := clampField 0 255 (setupField d 0x205 1)
  let cap := clampField 1 5000 (setupField d 0x208 2)
  let floor := clampField 1500 5500 (setupField d 0x20A 2)
  let freeze := clampField 1500 6000 (setupField d 0x20C 2)
  let lean := clampField 1500 6000 (setupField d 0x20E 2)
  let surplus := clampField 1500 6000 (setupField d 0x210 2)
  let dark := clampField 0 30000 (setupField d 0x212 2)
  let light := clampField 0 30000 (setupField d 0x214 2)
  let boost := clampField 0 65535 (setupField d 0x216 2)
  let day := clampField 0 9000000 (setupField d 0x218 4)
  let night := clampField 0 9000000 (setupField d 0x21C 4)
  let starve := clampField 1 3600 (setupField d 0x220 2)
  let spacing := clampField 1 168 (setupField d 0x222 2)
  let comp := clampSigned (-255) 255 (setupSigned d 0x224 2)
  let period := clampField 10 3600 (setupField d 0x226 2)
  let offset := clampField 0 (period.1 - 1) (setupField d 0x228 2)
  let lead := clampField 0 (period.1 - 1) (setupField d 0x22A 2)
  let qs := clampField 0 86399 (setupField d 0x22C 4)
  let qe := clampField 0 86399 (setupField d 0x230 4)
  let sweepRaw := setupField d 0x234 4
  let sweep := clampField 0 86399 sweepRaw
  let noSweep := decide (sweepRaw = 0xFFFFFFFF)
  let rise := clampField 5 500 (setupField d 0x238 2)
  let linger := clampField 0 10000 (setupField d 0x23A 2)
  let minOff := clampField 0 2000 (setupField d 0x23C 2)
  let retry := clampField 1 600 (setupField d 0x23E 2)
  ({ runningLimit := limit.1, feedThreshold := threshold.1, feedStall := decide (setupField d 0x202 1 ≠ 0),
     bandHysteresis := hysteresis.1, policyHysteresis := policyHyst.1, capacitance := cap.1, vFloor := floor.1,
     vFreeze := freeze.1, vLean := lean.1, vSurplus := surplus.1, darkThreshold := dark.1, lightThreshold := light.1,
     boost := boost.1, holdbackDay := day.1, holdbackNight := night.1, starvationLimit := starve.1,
     sweepSpacing := spacing.1, compensation := comp.1, epochPeriod := period.1, epochOffset := offset.1,
     epochLead := lead.1, quietStart := qs.1, quietEnd := qe.1,
     sweepTime := if noSweep then none else some sweep.1, riseLimit := rise.1, lingerTime := linger.1,
     minimumOff := minOff.1, railRetryInterval := retry.1 },
   limit.2 + threshold.2 + hysteresis.2 + policyHyst.2 + cap.2 + floor.2 + freeze.2 + lean.2 + surplus.2 + dark.2
     + light.2 + boost.2 + day.2 + night.2 + starve.2 + spacing.2 + comp.2 + period.2 + offset.2 + lead.2 + qs.2 + qe.2
     + (if noSweep then 0 else sweep.2) + rise.2 + linger.2 + minOff.2 + retry.2)

/-- The band count n with its clamp (R80). -/
def readBandCount (d : Memory) : Nat × Nat := clampField 1 8 (setupField d 0x203 1)

/-- Band record `i` with the number of its clamps; its lower bound is structural (R80). -/
def readBand (d : Memory) (i : Nat) : Band × Nat :=
  let at' := 0x300 + 16 * i
  let fp := clampField 1 63 (setupField d (at' + 1) 1)
  let ff := clampField 4 127 (setupField d (at' + 2) 1)
  let w := clampField 1 15 (setupField d (at' + 3) 1)
  let period := clampField 10 250 (setupField d (at' + 4) 2)
  (⟨setupSigned d at' 1, fp.1, ff.1, period.1, w.1⟩, fp.2 + ff.2 + w.2 + period.2)

/-- The debt thresholds with the number of their clamps, in their order (R63). -/
def clampDebts (soft hard : Nat) : (Nat × Nat) × Nat :=
  let s := clampField 1 254 soft
  if hard ≤ s.1 then ((s.1, s.1 + 1), s.2 + 1) else ((s.1, hard), s.2)

/-- Panel descriptor `p` with the number of its clamps; none when it is disabled (R63, R84, R89, R124 to R129, R136). -/
def readPanel (d : Memory) (p : PanelNo) : Option PanelCfg × Nat :=
  let at' := 0x400 + 64 * p.val
  if setupField d at' 1 = 0 then (none, 0)
  else
    let margin := clampField 5 255 (setupField d (at' + 0x01) 1)
    let line := clampField 20 2000 (setupField d (at' + 0x14) 2)
    let hold := clampField 0 1000 (setupField d (at' + 0x16) 2)
    let retry := clampField 1 600 (setupField d (at' + 0x18) 2)
    let poll := clampField 10 3600 (setupField d (at' + 0x1A) 2)
    let delay := clampField 0 60 (setupField d (at' + 0x1C) 1)
    let debts := clampDebts (setupField d (at' + 0x1D) 1) (setupField d (at' + 0x1E) 1)
    let k := clampField 1 1023 (setupField d (at' + 0x20) 2)
    let s := clampField 0 4095 (setupField d (at' + 0x22) 2)
    (some
      { busyMargin := margin.1, width := setupField d (at' + 0x02) 2, height := setupField d (at' + 0x04) 2,
        stride := setupField d (at' + 0x06) 2, targetBase := setupField d (at' + 0x08) 4,
        shownBase := setupField d (at' + 0x0C) 4, stageBase := setupField d (at' + 0x10) 4, linePeriod := line.1,
        restHold := hold.1, retryInterval := retry.1, pollPeriod := poll.1, restDelay := delay.1,
        debtSoft := debts.1.1, debtHard := debts.1.2, pixelCost := k.1, frameCost := s.1 },
     margin.2 + line.2 + hold.2 + retry.2 + poll.2 + delay.2 + debts.2 + k.2 + s.2)

/-- A class code above 2 is clamped to 2 before (R15, R165). -/
def zoneClassOf : Nat → RefreshClass
  | 0 => .urgent
  | 1 => .timed
  | _ => .routine

def zonePolicyOf : Nat → ModePolicy
  | 0 => .auto
  | 1 => .partialOnly
  | _ => .fullAlways

/-- An enabled zone record as read: its panel number stays as read until it has been checked. -/
structure ReadZone where
  panelNumber : Nat
  cfg : ZoneCfg
  deriving DecidableEq, Repr

/-- Zone record `z` with the number of its clamps; none when it is disabled (R15). -/
def readZone (d : Memory) (z : Nat) : Option ReadZone × Nat :=
  let at' := 0x600 + 32 * z
  if setupField d at' 1 = 0 then (none, 0)
  else
    let cls := clampField 0 2 (setupField d (at' + 6) 1)
    let policy := clampField 0 2 (setupField d (at' + 7) 1)
    let settle := clampField 1 255 (setupField d (at' + 8) 1)
    let hold := clampField 0 3600 (setupField d (at' + 0x0A) 2)
    let panel := setupField d (at' + 1) 1
    (some
      { panelNumber := panel
        cfg :=
          { index := z, panel := (panelOf? panel).getD 0,
            rect := ⟨setupField d (at' + 2) 1, setupField d (at' + 3) 1, setupField d (at' + 4) 1,
              setupField d (at' + 5) 1⟩,
            cls := zoneClassOf cls.1, policy := zonePolicyOf policy.1, settle := settle.1, hold := hold.1 } },
     cls.2 + policy.2 + settle.2 + hold.2)

/-- The setup data read by its layouts, every scalar clamped (R163). -/
structure ReadSetup where
  globals : GlobalSettings
  mask : BitVec 13
  bands : List Band
  panels : Quad (Option PanelCfg)
  zones : List ReadZone
  clamps : Nat
  deriving DecidableEq, Repr

/-- The whole of the setup data (R163, R165). Bits above 12 of the attention mask are disregarded (R167). -/
def readSetup (d : Memory) : ReadSetup :=
  let globals := readGlobals d
  let n := readBandCount d
  let bands := (List.range' 0 n.1).map (readBand d)
  let panels := Quad.ofPanels (readPanel d)
  let zones := (List.range' 0 64).map (readZone d)
  { globals := globals.1
    mask := BitVec.ofNat 13 (setupField d 0x206 2)
    bands := bands.map (·.1)
    panels := Quad.ofPanels fun p => (panels.get p).1
    zones := zones.filterMap (·.1)
    clamps := globals.2 + n.2 + (bands.map (·.2)).sum + (panelNos.map fun p => (panels.get p).2).sum
      + (zones.map (·.2)).sum }

/-- The setup that acceptance installs. -/
def ReadSetup.setup (x : ReadSetup) : Setup := ⟨x.globals, x.bands, x.panels, x.zones.map (·.cfg)⟩

/-! ### The structural checks (R163) -/

/-- A panel's geometry is in range and keeps its constraints (R3). -/
def PanelCfg.geometryOk (c : PanelCfg) : Bool :=
  decide (64 ≤ c.width) && decide (c.width ≤ 1280) && c.width % 32 == 0
    && decide (64 ≤ c.height) && decide (c.height ≤ 960) && c.height % 32 == 0
    && decide (c.width / 4 ≤ c.stride) && decide (c.stride ≤ 4096) && c.stride % 8 == 0

/-- A failed check: its cause and index. -/
abbrev CheckFailure := SetupCause × Nat

/-- Each enabled panel's geometry, in ascending number (R3). -/
def checkGeometry (ps : Quad (Option PanelCfg)) : List PanelNo → Option CheckFailure
  | [] => none
  | p :: rest =>
    match ps.get p with
    | some c => if c.geometryOk then checkGeometry ps rest else some (.badGeometry, p.val)
    | none => checkGeometry ps rest

/-- The running tile total (R7). -/
def checkCapacity (ps : Quad (Option PanelCfg)) : Nat → List PanelNo → Option CheckFailure
  | _, [] => none
  | total, p :: rest =>
    match ps.get p with
    | some c =>
      if Config.maxTiles < total + c.tileCount then some (.tileCapacity, p.val)
      else checkCapacity ps (total + c.tileCount) rest
    | none => checkCapacity ps total rest

/-- Two ranges [a, b) share an address. -/
def rangesMeet (x y : Nat × Nat) : Bool := decide (x.1 < y.2) && decide (y.1 < x.2)

/-- The planes, in the order they are checked: panels ascending, TARGET, SHOWN, STAGE; each with its panel. -/
def planeRanges (ps : Quad (Option PanelCfg)) : List (Nat × (Nat × Nat)) :=
  panelNos.flatMap fun p =>
    match ps.get p with
    | some c => [Plane.target, Plane.shown, Plane.stage].map fun pl =>
        (p.val, (c.planeBase pl, c.planeBase pl + c.planeBytes))
    | none => []

/-- Each plane against 1000000h, the control window and every plane already checked (R3, R163). -/
def checkPlanes (window : Nat × Nat) : List (Nat × Nat) → List (Nat × (Nat × Nat)) → Option CheckFailure
  | _, [] => none
  | seen, (p, r) :: rest =>
    if Config.memoryEnd ≤ r.2 ∨ rangesMeet r window ∨ seen.any (rangesMeet r) then some (.planeOverlap, p)
    else checkPlanes window (r :: seen) rest

/-- The lower bounds of the bands in use, from index `i` on (R80); `previous` is the bound before. -/
def checkBands : Nat → Option Int → List Band → Option CheckFailure
  | _, _, [] => none
  | i, previous, b :: rest =>
    let ordered := match previous with
      | none => decide (b.lower = -40)
      | some lo => decide (lo < b.lower)
    if decide (-40 ≤ b.lower) && decide (b.lower ≤ 85) && ordered then checkBands (i + 1) (some b.lower) rest
    else some (.bandOrder, i)

/-- Two tile rectangles share a tile. -/
def Rect.meets (a b : Rect) : Bool :=
  decide (a.tx0 ≤ b.tx1) && decide (b.tx0 ≤ a.tx1) && decide (a.ty0 ≤ b.ty1) && decide (b.ty0 ≤ a.ty1)

/-- A zone's panel is enabled and its corners lie in order inside the panel's tile grid (R12, R15). -/
def ReadZone.inside (ps : Quad (Option PanelCfg)) (z : ReadZone) : Bool :=
  match panelOf? z.panelNumber with
  | none => false
  | some p =>
    match ps.get p with
    | none => false
    | some c =>
      let r := z.cfg.rect
      decide (r.tx0 ≤ r.tx1) && decide (r.ty0 ≤ r.ty1) && decide (r.tx1 < c.cols) && decide (r.ty1 < c.rows)

/-- Each enabled zone in ascending index: panel and corners, then overlap with a lower one of its panel (R163). -/
def checkZones (ps : Quad (Option PanelCfg)) : List ReadZone → List ReadZone → Option CheckFailure
  | _, [] => none
  | seen, z :: rest =>
    if !z.inside ps then some (.zoneOutside, z.cfg.index)
    else if seen.any fun y => y.panelNumber == z.panelNumber && y.cfg.rect.meets z.cfg.rect
    then some (.zoneOverlap, z.cfg.index)
    else checkZones ps (z :: seen) rest

/-- Conditions 0 to 3 on the voltages and thresholds (R89). -/
def checkEnergy (g : GlobalSettings) : Option CheckFailure :=
  if ¬g.vFloor ≤ g.vFreeze then some (.energyOrder, 0)
  else if ¬g.vFreeze + g.policyHysteresis < g.vLean then some (.energyOrder, 1)
  else if ¬g.vLean + 2 * g.policyHysteresis < g.vSurplus then some (.energyOrder, 2)
  else if ¬g.darkThreshold ≤ g.lightThreshold then some (.energyOrder, 3)
  else none

/-- The first structural check that fails, in the order of R163's table. -/
def ReadSetup.failure (x : ReadSetup) (base : Nat) : Option CheckFailure :=
  (checkGeometry x.panels panelNos).orElse fun _ =>
  (checkCapacity x.panels 0 panelNos).orElse fun _ =>
  (checkPlanes (base, base + Config.windowBytes) [] (planeRanges x.panels)).orElse fun _ =>
  (checkBands 0 none x.bands).orElse fun _ =>
  (checkZones x.panels [] x.zones).orElse fun _ =>
  checkEnergy x.globals

/-! ### Acceptance (R164) -/

/-- An enabled panel of the new setup is preserved (R14): enabled before with the same geometry and bases. -/
def PanelCfg.preserves (old new : PanelCfg) : Bool :=
  old.width == new.width && old.height == new.height && old.stride == new.stride
    && old.targetBase == new.targetBase && old.shownBase == new.shownBase && old.stageBase == new.stageBase

/-- Panel `p` of the new setup is preserved from the setup installed before. -/
def preservedPanel (old : Option Setup) (new : Setup) (p : PanelNo) : Bool :=
  match old with
  | none => false
  | some g =>
    match g.panels.get p, new.panels.get p with
    | some a, some b => a.preserves b
    | _, _ => false

/-- A carried record's state (R14); ACTIVE cannot occur. -/
def Tile.carry (t : Tile) : Tile :=
  { t with
    state := if t.state = .clean then .clean else .dirty
    redirty := false }

/-- A fresh record (R14). -/
def Tile.fresh : Tile := ⟨.dirty, 0, true, false, none⟩

/-- The zone whose rectangle contains a tile of a panel (R12). -/
def Setup.zoneAt (g : Setup) (p : PanelNo) (tx ty : Nat) : Option Nat :=
  ((g.zonesOf p).find? fun z => z.rect.contains tx ty).map (·.index)

/-- The zone fields of a panel's records computed from the new zone table, from record `i` of the panel on. -/
def Setup.zoneTiles (g : Setup) (p : PanelNo) (cols : Nat) : Nat → List Tile → List Tile
  | _, [] => []
  | i, t :: ts => { t with zone := g.zoneAt p (i % cols) (i / cols) } :: Setup.zoneTiles g p cols (i + 1) ts

/-- A panel's records after acceptance (R14). -/
def Part.rebuildPanel (part : Part) (new : Setup) (p : PanelNo) : List Tile :=
  match new.panels.get p with
  | none => []
  | some c =>
    let records := match part.setup with
      | some old =>
        if preservedPanel (some old) new p then
          ((part.tiles.drop (old.firstTile p)).take c.tileCount).map Tile.carry
        else List.replicate c.tileCount Tile.fresh
      | none => List.replicate c.tileCount Tile.fresh
    new.zoneTiles p c.cols 0 records

/-- A zone's runtime record built from the new tile records (R16). -/
def ZoneCfg.build (tiles : List Tile) (now : Count32) (c : ZoneCfg) : Zone :=
  let n := dirtyTiles tiles c.index
  { index := c.index
    dirtyCount := n
    timer := if n = 0 then none else some c.settle
    expired := false
    dirtySince := if n = 0 then none else some now
    queuedJob := none
    runningJob := none
    held := none
    epochWait := false }

/-- A port set by the new setup (R138). A port found DRIVING, which R138 says cannot be, is treated as one in FAULT
(log 12). -/
def Port.apply (x : Port) (enabled : Bool) (now : Stamp) : Port :=
  let cleared : Port :=
    { x with
      cause := .none, held := false, attempts := 0, wakePending := false, retryWake := false,
      tempOutstanding := false, queryDue := false, limit := none, retry := none, window := none,
      closingOver := false, restoreWaits := false
      lastRest := if x.state = .unused then none else x.lastRest }
  let next : PortState := if enabled then .off else .unused
  match x.state with
  | .waking | .ready => { cleared with state := next, lastRest := some now, sent := some .rest }
  | .closing => { cleared with state := .closing, limit := x.limit, closingOver := true }
  | .unused | .off | .driving | .fault => { cleared with state := next }

/-- The Energy Monitor at acceptance (R95): U and the level from the latest sample under the new settings. -/
def Energy.apply (e : Energy) (g : GlobalSettings) : Energy :=
  if e.sampled then { e with usable := usableEnergy g e.vs, level := selectLevel g e.level e.vs }
  else { e with usable := 0 }

/-- A change of policy level (R94): POLICY_CHANGED latched with the new level, and the surplus sweep test made on an
entry into SURPLUS (R76). A change of level causes a walk. -/
def Part.levelChanged (part : Part) (g : Setup) (before : PolicyLevel) : Part :=
  if part.energy.level = before then part
  else
    let noted := (part.latch .policyChanged part.energy.level.rank).oweWalk
    if part.energy.level = .surplus then noted.surplusTest g else noted

/-- An accepted APPLY (R164), in its order: the queue and the sequence counter; the tile table and the zones; the
selectors, ports and last sweep seconds, the rail kept; the energy state, with what a change of level does; then the
run state and the result. -/
def Part.acceptSetup (part : Part) (x : ReadSetup) : Part :=
  let g := x.setup
  let tiles := panelNos.flatMap (part.rebuildPanel g)
  let rebuilt : Part :=
    { part with
      setup := some g
      pool := List.replicate Config.slots none
      sequence := 0
      runningCount := 0
      committed := 0
      engines := Quad.all none
      tiles := tiles
      zones := g.zones.map (ZoneCfg.build tiles part.clock.mono)
      selectors := Quad.ofPanels fun p =>
        (g.panels.get p).map fun _ => ⟨0, none, part.clock.mono, 0, false, false⟩
      ports := Quad.ofPanels fun p => (part.port p).apply (g.panels.get p).isSome part.now
      lastSweep := Quad.ofPanels fun p => if preservedPanel part.setup g p then part.lastSweep.get p else none
      energy := part.energy.apply g.globals
      stopMark := none
      walkOwed := true
      unit := { part.unit with mask := x.mask, fieldsClamped := x.clamps, setupData := [], setupRequest := none } }
  let levelled := rebuilt.levelChanged g part.energy.level
  { levelled with
    unit :=
      { levelled.unit with
        runState := .stopped, setupEdited := false, setupResult := .accepted, setupCause := .none,
        setupIndex := 0 } }.latch .setupResult 1

/-- A rejected APPLY (R164): back to the run state it left, with the cause and index; no other state changes. -/
def Part.rejectSetup (part : Part) (cause : SetupCause) (index clamps : Nat) : Part :=
  { part with
    unit :=
      { part.unit with
        runState := part.unit.leftState, setupResult := .rejected, setupCause := cause, setupIndex := index,
        fieldsClamped := clamps, setupData := [], setupRequest := none } }.latch .setupResult 2

/-- The decision of an APPLY (R163). -/
def Part.decideApply (part : Part) (d : Memory) : Part :=
  if part.unit.editMark then part.rejectSetup .editedDuringApply 0 0
  else
    let x := readSetup d
    match x.failure part.unit.base with
    | some (cause, index) => part.rejectSetup cause index x.clamps
    | none => part.acceptSetup x

end Sys2Proof.Machine
end

