-- ==== Sys2Proof/Machine/Flags.lean ====
section
/-! DEFINITION. The part's outputs computed from its state: ATTN (R167), the rail enable (R139) and the 128 bytes
of the status block (R166). -/

namespace Sys2Proof.Machine

/-- ATTN (R167): some latched cause has its bit set in the mask. -/
def WindowUnit.attnFrom (mask : BitVec 13) : Nat → List (Option Nat) → Bool
  | _, [] => false
  | i, c :: cs => (c.isSome && mask.getLsbD i) || WindowUnit.attnFrom mask (i + 1) cs

def WindowUnit.attn (u : WindowUnit) : Bool := WindowUnit.attnFrom u.mask 0 u.causes

/-- The latched causes, bit per cause (R166). -/
def latchedWord : List (Option Nat) → Nat
  | [] => 0
  | c :: cs => c.isSome.toNat + 2 * latchedWord cs

/-- The rail enable: asserted in RISING, UP and LINGER (R139). -/
def Rail.enable (r : Rail) : Bool :=
  match r.state with
  | .rising | .up | .linger => true
  | .off | .falling | .fault => false

/-! ### Codes of the status block (R166) -/

def RunState.code : RunState → Nat
  | .noSetup => 0
  | .applying => 1
  | .stopped => 2
  | .running => 3
  | .halting => 4

def SetupResult.code : SetupResult → Nat
  | .none => 0
  | .accepted => 1
  | .rejected => 2

def SetupCause.code : SetupCause → Nat
  | .none => 0
  | .badGeometry => 1
  | .planeOverlap => 2
  | .tileCapacity => 3
  | .zoneOverlap => 4
  | .zoneOutside => 5
  | .bandOrder => 6
  | .energyOrder => 7
  | .editedDuringApply => 8

def PolicyLevel.code : PolicyLevel → Nat
  | .frozen => 0
  | .lean => 1
  | .normal => 2
  | .surplus => 3

def PortState.code : PortState → Nat
  | .unused => 0
  | .off => 1
  | .waking => 2
  | .ready => 3
  | .driving => 4
  | .closing => 5
  | .fault => 6

def FaultCause.code : FaultCause → Nat
  | .none => 0
  | .noReply => 1
  | .busyStuck => 2
  | .geometry => 3

def Origin.code : Origin → Nat
  | .settle => 0
  | .epoch => 1
  | .hold => 2
  | .order => 3
  | .sweepTime => 4
  | .surplus => 5
  | .retire => 6

/-- The stage code of a running job (R166). -/
def JobState.stageCode : JobState → Nat
  | .queued => 0
  | .capturing => 1
  | .poised => 2
  | .driving => 3
  | .committing => 4

/-! ### The status block -/

/-- Byte 006h: setup edited, DARK, ATTN asserted. -/
def Part.flagByte (part : Part) : Nat :=
  part.unit.setupEdited.toNat + 2 * part.energy.dark.toNat + 4 * part.unit.attn.toNat

/-- The running job's four bytes of a panel (R166): scope, origin, stage, frame index. The frame index is FFh outside
DRIVING, and also between the start of the drive and its first FRAME_START, when the job has none yet (log 32). -/
def Part.jobBytes (part : Part) (p : PanelNo) : List Byte :=
  match part.running? p with
  | none => [0xFF, 0xFF, 0, 0xFF]
  | some (_, j, r) =>
    [BitVec.ofNat 8 j.scope.code, BitVec.ofNat 8 j.origin.code, BitVec.ofNat 8 j.state.stageCode,
      match j.state, r.frame with
      | .driving, some f => BitVec.ofNat 8 f
      | _, _ => 0xFF]

/-- The 16 bytes of a panel (R166); a panel that is not enabled is written as UNUSED with no job. -/
def Part.panelBytes (part : Part) (p : PanelNo) : List Byte :=
  match part.panelCfg? p, part.selector? p with
  | some _, some sel =>
    [BitVec.ofNat 8 (part.port p).state.code, BitVec.ofNat 8 (part.port p).cause.code, BitVec.ofNat 8 sel.band,
      (sel.reading.map signedByte).getD 0x80, BitVec.ofNat 8 sel.stale.toNat]
      ++ part.jobBytes p ++ List.replicate 7 0
  | _, _ => [0, 0, 0, 0x80, 0, 0xFF, 0xFF, 0, 0xFF] ++ List.replicate 7 0

/-- The detail of a cause as posted: 0 when it is not latched. -/
def WindowUnit.postedDetail (u : WindowUnit) (c : Cause) : Nat := (u.detail? c).getD 0

/-- The causes 0 to 11, whose details are posted in two bytes each. -/
def shortCauses : List Cause :=
  [.setupResult, .halted, .urgentShown, .portFault, .railFault, .starved, .policyChanged, .planeIntrusion,
    .looseWrite, .queueFull, .underrun, .tempStale]

/-- The 128 bytes of a posting (R166). A byte the layout does not list is 0 (R159). -/
def Part.statusBlock (part : Part) : List Byte :=
  let u := part.unit
  leBytes 1 u.runState.code ++ leBytes 1 u.setupResult.code ++ leBytes 1 u.setupCause.code
    ++ leBytes 1 u.setupIndex ++ leBytes 2 u.fieldsClamped ++ leBytes 1 part.flagByte
    ++ leBytes 1 part.energy.level.code
    ++ leBytes 4 part.energy.usable ++ leBytes 4 part.committed ++ leBytes 2 part.energy.vs
    ++ leBytes 2 part.energy.vsol
    ++ leBytes 1 part.queue.length ++ [u.lastOrder, u.lastResult, 0] ++ leBytes 2 u.ordersTaken.toNat
    ++ leBytes 2 part.clock.dayCount ++ leBytes 4 part.clock.secondOfDay
    ++ leBytes 2 (latchedWord u.causes) ++ leBytes 2 0
    ++ shortCauses.flatMap (fun c => leBytes 2 (u.postedDetail c)) ++ leBytes 4 (u.postedDetail .epochLead)
    ++ panelNos.flatMap part.panelBytes

end Sys2Proof.Machine
end

