-- ==== Sys2Proof/Machine/Path.lean ====
section
/-! DEFINITION. The memory path (09_the_memory_path.md): the Memory Arbiter, feed stall, the host's transactions, the
status posting, what happens at the end of every step, and the reset. -/

namespace Sys2Proof.Machine

/-! ### Requests and their levels (R114, R146) -/

/-- A feed request of the panel is urgent (R114): its job DRIVING, the held count below the feed threshold. -/
def Part.feedUrgent (part : Part) (g : Setup) (p : PanelNo) : Bool :=
  match part.engine? p with
  | some e => part.stage? p == some .driving && decide (e.buffer.length < g.globals.feedThreshold)
  | none => false

/-- The request an engine presents to the Memory Arbiter: one burst at a time, so while a burst of the job's is in
progress its next one is not requested yet (R108, R146, log 18). -/
def Engine.presented? (e : Engine) : Option Burst := if e.inFlight then none else e.request

/-- The level, by its index in the arbiter's positions (0 urgent feed to 3 commit), at which a panel's request waits
(R146); none where it has none. -/
def Part.requestLevel? (part : Part) (p : PanelNo) : Option PanelNo :=
  match part.setup, (part.engine? p).bind Engine.presented? with
  | some g, some b =>
    match b.kind with
    | .captureTarget | .captureShown | .captureStage => some 2
    | .feedShown | .feedStage => some (if part.feedUrgent g p then 0 else 1)
    | .commitRead | .commitWrite => some 3
    | .setupRead | .statusPost => none
  | _, _ => none

/-- The panels in the order that starts after the last-served one (R147). -/
def afterPanel (last : PanelNo) : List PanelNo := [last + 1, last + 2, last + 3, last]

/-- The panel that a level grants (R147): the first with a request at the level after the level's last-served. -/
def State.nextPanel? (s : State) (level : PanelNo) : Option PanelNo :=
  (afterPanel (s.path.lastServed.get level)).find? fun p => s.part.requestLevel? p == some level

/-! ### Grants (R146, R149) -/

/-- The burst is the first TARGET read of a capture row, at whose beginning the cursor advances (R109). -/
def Part.opensRow (part : Part) (p : PanelNo) (b : Burst) : Bool :=
  b.kind == .captureTarget &&
    match part.running? p with
    | some (_, j, _) => b.tx == j.rect.tx0
    | none => false

/-- A panel's request begins as the burst in progress (R109, R146, R147). -/
def State.grantPanel (s : State) (level p : PanelNo) : State :=
  match (s.part.engine? p).bind Engine.presented?, s.part.engine? p with
  | some b, some e =>
    { s with
      path := { s.path with burst := some b, lastServed := s.path.lastServed.set level p }
      part := s.part.setEngine p (some { e with
        request := none
        inFlight := true
        cursor := if s.part.opensRow p b then b.row + 1 else e.cursor }) }
  | _, _ => s

/-- A setup read begins (R162). -/
def State.grantSetup (s : State) (i : Nat) : State :=
  { s with
    path := { s.path with
      burst := some ⟨.setupRead, 0, i, 0, 0, s.part.unit.base + setupReadOffset i, []⟩ }
    part := { s.part with unit := { s.part.unit with setupRequest := none } } }

/-- A posting begins (R149): posting owed is cleared and the status block composed from the fields as they stand. -/
def State.grantPost (s : State) : State :=
  { s with
    path := { s.path with burst := some ⟨.statusPost, 0, 0, 0, 0, s.part.unit.base, s.part.statusBlock⟩ }
    part := { s.part with unit := { s.part.unit with postingOwed := false, postWaiting := false } } }

/-- Levels 5 and 6 (R146): a setup read before a status post. -/
def State.grantUnit (s : State) : State :=
  match s.part.unit.setupRequest with
  | some i => s.grantSetup i
  | none => if s.part.unit.postWaiting then s.grantPost else s

/-- The lowest-numbered level of a list with a request is granted (R146), and levels 5 and 6 after them. -/
def State.grantFrom (s : State) : List PanelNo → State
  | [] => s.grantUnit
  | l :: ls =>
    match s.nextPanel? l with
    | some p => s.grantPanel l p
    | none => State.grantFrom s ls

/-- One grant: the lowest-numbered level that has a request (R146). -/
def State.grant (s : State) : State := s.grantFrom panelNos

/-- The memory port's next business when it is free (R144, R146, R148): a held host transaction meets the feed stall
test and is otherwise forwarded; with no host transaction active a waiting request is granted. -/
def State.advancePath (s : State) : State :=
  match s.path.burst with
  | some _ => s
  | none =>
    match s.path.host with
    | none => s.grant
    | some h =>
      if h.phase = .held then
        let stalls := !h.inserted && match s.part.setup with
          | some g => g.globals.feedStall
          | none => false
        match if stalls then s.nextPanel? 0 else none with
        | some p =>
          ({ s with path := { s.path with host := some { h with inserted := true } } }).grantPanel 0 p
        | none => { s with path := { s.path with host := some { h with phase := .forwarding } } }
      else s

/-! ### The end of a step (R46, R149) -/

/-- A burst of a kind is in progress. -/
def Path.busyWith (path : Path) (k : BurstKind) : Bool :=
  match path.burst with
  | some b => b.kind == k
  | none => false

/-- Posting owed is set by a change of a field the status block carries, and a posting is requested while it is set and
none is waiting or in progress (R149). The block is looked at where the step began, after its effect and after its
walks, so that a change that a walk takes back sets it too (log 8). -/
def State.owePosting (before effect s : State) : State :=
  let owed := s.part.unit.postingOwed || effect.part.statusBlock != before.part.statusBlock
    || s.part.statusBlock != effect.part.statusBlock
  { s with
    part := { s.part with
      unit := { s.part.unit with
        postingOwed := owed
        postWaiting := s.part.unit.postWaiting || (owed && !s.path.busyWith .statusPost) } } }

/-- What every step ends with (log 8): the walks that its causes call for (R46), the posting it owes (R149), and the
memory port's next business (R146). `before` is the state the step began in. -/
def State.finish (before s : State) : State :=
  (State.owePosting before s { s with part := s.part.takeWalks 8 }).advancePath

/-- The outcome of an event: nothing while the reset line is asserted (R150) or when the state does not hold what
the event reports (log 3); otherwise its effect and what every step ends with. -/
def State.event (s : State) (enabled : Bool) (effect : State → State) : Host.Outcome State Fault Refusal :=
  .next (if enabled && !s.path.inReset then State.finish s (effect s) else s)

/-- An event that changes only the part. -/
def State.partEvent (s : State) (enabled : Bool) (effect : Part → Part) : Host.Outcome State Fault Refusal :=
  s.event enabled fun x => { x with part := effect x.part }

/-! ### The reset (R123, R150, R159) -/

/-- A burst writes (R108, R149). -/
def BurstKind.writes : BurstKind → Bool
  | .captureStage | .commitWrite | .statusPost => true
  | .captureTarget | .captureShown | .feedShown | .feedStage | .commitRead | .setupRead => false

/-- The sign memory after the burst in progress is cut with `landed` of its bytes written (R150). -/
def State.cutMemory (s : State) (landed : Nat) : Memory :=
  match s.path.burst with
  | some b => if b.kind.writes then s.memory.writeRun b.addr (b.data.take landed) else s.memory
  | none => s.memory

/-- HARDWARE_RESET (R150): every transaction and burst is cut, every record, job, setting and line of the part goes to
its value after a hardware reset; the sign memory keeps what had reached it. The base holds until the straps are
sampled at the end of the reset (R159). A host transaction that is still held behind a burst, which R150 does not name, is
dropped like one that begins in reset and is not forwarded afterwards (DESIGN CHOICE, log 33). -/
def execHardwareReset (landed : Nat) (s : State) : Host.Outcome State Fault Refusal :=
  .next
    { s with
      memory := s.cutMemory landed
      path := { Path.reset with host := s.path.host.map fun h => { h with phase := .dropped } }
      part := { Part.reset with unit := { WindowUnit.reset with base := s.part.unit.base } } }

/-- RESET_END (R149, R150, R159): the straps are sampled, the path forwards again and posting owed is set. -/
def execResetEnd (second first : Bool) (s : State) : Host.Outcome State Fault Refusal :=
  .next
    (if s.path.inReset then
      State.finish s
        { s with
          path := { s.path with inReset := false }
          part := { s.part with
            unit := { s.part.unit with base := Config.windowBase second first, postingOwed := true } } }
    else s)

end Sys2Proof.Machine
end

