-- ==== Sys2Proof/Machine/Bursts.lean ====
section
/-! DEFINITION. The ends of the part's own bursts (R108 to R120, R146, R149, R162): CAPTURE_BURST_END, FEED_BURST_END,
COMMIT_READ_END, COMMIT_WRITE_END, SETUP_READ_END, STATUS_POST_END. -/

namespace Sys2Proof.Machine

/-- The memory port is free of the burst in progress. -/
def State.endBurst (s : State) : State := { s with path := { s.path with burst := none } }

/-- The bytes a burst moves, as they stand in the sign memory: a read's data, usable when the burst ends (R108). -/
def State.burstData (s : State) (b : Burst) : List Byte := s.memory.readRun b.addr b.bytes

/-- A write burst's data is in the sign memory when the burst ends (R108). -/
def State.landBurst (s : State) (b : Burst) : State :=
  if b.kind.writes then { s.endBurst with memory := s.memory.writeRun b.addr b.data } else s.endBurst

/-- The running job that still wants a burst's data: its panel's, with the engine that the burst is in flight for and
that has not abandoned it. -/
def Part.liveJob? (part : Part) (b : Burst) : Option (Nat × Job × RunFields × Engine) :=
  match part.running? b.panel, part.engine? b.panel with
  | some (slot, j, r), some e => if e.inFlight && !e.discard then some (slot, j, r, e) else none
  | _, _ => none

/-! ### Capture (R109 to R111) -/

/-- The engine's next step after a capture burst (R109, R110), but for the end of the capture. -/
def Engine.captureNext (e : Engine) (c : PanelCfg) (j : Job) (mode : DriveMode) (b : Burst) (data : List Byte) : Engine :=
  let idle := { e with inFlight := false }
  match b.kind with
  | .captureTarget =>
    match mode with
    | .part => { idle with request := some (groupBurst c .captureShown b.panel b.row b.tx b.tiles data) }
    | .full => { idle with request := some (groupBurst c .captureStage b.panel b.row b.tx b.tiles data) }
  | .captureShown =>
    Engine.countChanges j.rect (b.row / 32) b.tiles b.tx b.data data
      { idle with request := some (groupBurst c .captureStage b.panel b.row b.tx b.tiles b.data) }
  | _ =>
    if b.tx + b.tiles ≤ j.rect.tx1 then idle.requestCapture c b.panel j b.row (b.tx + b.tiles)
    else idle.requestCapture c b.panel j (b.row + 1) j.rect.tx0

/-- The burst is the last STAGE write of the job's capture (R110). -/
def Burst.endsCapture (b : Burst) (j : Job) : Bool :=
  b.kind == .captureStage && decide (j.rect.tx1 < b.tx + b.tiles) && decide (j.rect.lastRow ≤ b.row)

/-- A capture burst has ended with its data (R109, R110); a burst of a job that a HALT has returned means nothing more
(R111). -/
def Part.captureBurst (part : Part) (b : Burst) (data : List Byte) : Part :=
  match part.setup, part.panelCfg? b.panel, part.liveJob? b with
  | some g, some c, some (slot, j, r, e) =>
    if b.endsCapture j then part.captureEnd g c b.panel slot j r { e with inFlight := false }
    else part.setEngine b.panel (some (e.captureNext c j r.mode b data))
  | _, _, _ => part

/-- A burst of the capture (R109). -/
def BurstKind.isCapture : BurstKind → Bool
  | .captureTarget | .captureShown | .captureStage => true
  | .feedShown | .feedStage | .commitRead | .commitWrite | .setupRead | .statusPost => false

/-- The end of a capture burst. -/
def State.captureBurstEnd (b : Burst) (s : State) : State :=
  { s.landBurst b with part := s.part.captureBurst b (s.burstData b) }

/-- CAPTURE_BURST_END (R109). -/
def execCaptureBurstEnd (s : State) : Host.Outcome State Fault Refusal :=
  match s.path.burst with
  | some b => s.event b.kind.isCapture (State.captureBurstEnd b)
  | none => .next s

/-! ### Feed (R113) -/

/-- An abandoned burst of the panel's engine has ended: its data is discarded, and the engine's next request may be
presented (R108, R112, R116). -/
def Part.discardEnded (part : Part) (p : PanelNo) : Part :=
  match part.engine? p with
  | some e =>
    if e.inFlight && e.discard then part.setEngine p (some { e with inFlight := false, discard := false }) else part
  | none => part

/-- A feed burst has ended with its data (R113); abandoned data is discarded (R112, R116). -/
def Part.feedBurstEnded (part : Part) (b : Burst) (data : List Byte) : Part :=
  match part.setup, part.panelCfg? b.panel, part.liveJob? b with
  | some g, some c, some (_, j, r, e) =>
    part.setEngine b.panel
      (some (e.feedEnded c b.panel j r.mode ((g.band r.band).frames r.mode) b data))
  | _, _, _ => part.discardEnded b.panel

/-- A burst of the feed (R113). -/
def BurstKind.isFeed : BurstKind → Bool
  | .feedShown | .feedStage => true
  | .captureTarget | .captureShown | .captureStage | .commitRead | .commitWrite | .setupRead | .statusPost => false

/-- The end of a feed burst. -/
def State.feedBurstEnd (b : Burst) (s : State) : State :=
  { s.landBurst b with part := s.part.feedBurstEnded b (s.burstData b) }

/-- FEED_BURST_END (R113). -/
def execFeedBurstEnd (s : State) : Host.Outcome State Fault Refusal :=
  match s.path.burst with
  | some b => s.event b.kind.isFeed (State.feedBurstEnd b)
  | none => .next s

/-! ### Commit (R119, R120) -/

/-- The STAGE read of the commit group in hand has ended: its SHOWN write is requested (R119). -/
def Engine.commitReadEnded (e : Engine) (c : PanelCfg) (b : Burst) (data : List Byte) : Engine :=
  { e with
    inFlight := false
    commit := e.commit.map fun pos => { pos with writing := true }
    request := some (groupBurst c .commitWrite b.panel b.row b.tx b.tiles data) }

/-- A commit read has ended with its data (R119). -/
def Part.commitRead (part : Part) (b : Burst) (data : List Byte) : Part :=
  match part.panelCfg? b.panel, part.liveJob? b with
  | some c, some (_, _, _, e) => part.setEngine b.panel (some (e.commitReadEnded c b data))
  | _, _ => part

/-- The end of a commit read. -/
def State.commitReadEnd (b : Burst) (s : State) : State :=
  { s.landBurst b with part := s.part.commitRead b (s.burstData b) }

/-- COMMIT_READ_END (R119). -/
def execCommitReadEnd (s : State) : Host.Outcome State Fault Refusal :=
  match s.path.burst with
  | some b => s.event (b.kind == .commitRead) (State.commitReadEnd b)
  | none => .next s

/-- A commit write has ended: the next group is formed, or the copy has ended and the job retires (R119, R120). -/
def Part.commitWrite (part : Part) (b : Burst) : Part :=
  match part.setup, part.panelCfg? b.panel, part.liveJob? b with
  | some g, some c, some (slot, j, r, e) =>
    part.continueCommit g c b.panel slot j r { e with inFlight := false } b.row (b.tx + b.tiles)
  | _, _, _ => part

/-- The end of a commit write. -/
def State.commitWriteEnd (b : Burst) (s : State) : State :=
  { s.landBurst b with part := s.part.commitWrite b }

/-- COMMIT_WRITE_END (R119). -/
def execCommitWriteEnd (s : State) : Host.Outcome State Fault Refusal :=
  match s.path.burst with
  | some b => s.event (b.kind == .commitWrite) (State.commitWriteEnd b)
  | none => .next s

/-! ### Setup reads and postings (R149, R162) -/

/-- A setup read has ended with its cells (R162): the next is requested, or after the 21st the APPLY is decided. -/
def Part.setupReadDone (part : Part) (i : Nat) (cells : Memory) : Part :=
  if part.unit.runState = .applying then
    let data := part.unit.setupData ++ cells
    if i + 1 < Config.setupReads then
      { part with unit := { part.unit with setupData := data, setupRequest := some (i + 1) } }
    else part.decideApply data
  else part

/-- The end of a setup read: 128 bytes from its offset, held by window offset (R162). -/
def State.setupReadEnd (b : Burst) (s : State) : State :=
  { s.endBurst with
    part := s.part.setupReadDone b.row (s.memory.window b.addr Config.burstBytes (setupReadOffset b.row)) }

/-- SETUP_READ_END (R162). -/
def execSetupReadEnd (s : State) : Host.Outcome State Fault Refusal :=
  match s.path.burst with
  | some b => s.event (b.kind == .setupRead) (State.setupReadEnd b)
  | none => .next s

/-- STATUS_POST_END (R149): the block is in the sign memory; `finish` requests a new posting if one is owed. -/
def execStatusPostEnd (s : State) : Host.Outcome State Fault Refusal :=
  match s.path.burst with
  | some b => s.event (b.kind == .statusPost) fun x => x.landBurst b
  | none => .next s

end Sys2Proof.Machine
end

