-- ==== Sys2Proof/Machine/Orders.lean ====
section
/-! DEFINITION. The nine orders and the order that no code names (R160, R161), each with its tests in the order code,
run state, target, argument: APPLY, RUN, HALT, REFRESH_ZONE, REFRESH_PANEL, SWEEP, SET_CLOCK, CLEAR_ATTN,
RESTORE_PORT, UNKNOWN_ORDER. -/

namespace Sys2Proof.Machine

/-- The run states in which refreshes, sweeps and restorations are taken (R161). -/
def RunState.takesRefresh : RunState → Bool
  | .stopped | .running => true
  | .noSetup | .applying | .halting => false

/-- An order has been taken (R160): the count rises, and the last code and result take its own. -/
def Part.noteOrder (part : Part) (code : Byte) (result : OrderResult) : Part :=
  { part with
    unit := { part.unit with
      ordersTaken := part.unit.ordersTaken + 1
      lastOrder := code
      lastResult := result.code } }

/-- A part with the result an order got. -/
structure Answered where
  part : Part
  result : OrderResult
  deriving DecidableEq, Repr

/-- The order's effect with its code and result noted (R160). -/
def Answered.note (a : Answered) (code : Byte) : Part := a.part.noteOrder code a.result

/-- A refused order has no effect beyond its result and the count (R161). -/
def Part.refuse (part : Part) (r : OrderResult) : Answered := ⟨part, r⟩

/-- The run state changed. -/
def Part.setRunState (part : Part) (r : RunState) : Part := { part with unit := { part.unit with runState := r } }

/-- APPLY (R162): the first setup read is requested. -/
def Part.orderApply (part : Part) : Answered :=
  match part.unit.runState with
  | .noSetup | .stopped =>
    ⟨{ part with
        unit := { part.unit with
          runState := .applying
          leftState := part.unit.runState
          editMark := false
          setupData := []
          setupRequest := some 0 } }, .started⟩
  | .applying | .running | .halting => part.refuse .refusedState

/-- RUN (R55). -/
def Part.orderRun (part : Part) : Answered :=
  match part.unit.runState with
  | .stopped => ⟨(part.setRunState .running).oweWalk, .done⟩
  | .running => ⟨part, .done⟩
  | .noSetup | .applying | .halting => part.refuse .refusedState

/-- HALT's effect in RUNNING (R56, R59): the running jobs are treated in ascending panel number, which the spec leaves
open (log 30). -/
def Part.startHalt (part : Part) : Part :=
  match part.setup with
  | some g => ((part.setRunState .halting).haltJobs g).checkHalted
  | none => (part.setRunState .halting).checkHalted

/-- HALT (R56). -/
def Part.orderHalt (part : Part) : Answered :=
  match part.unit.runState with
  | .running => ⟨part.startHalt, .done⟩
  | .stopped => ⟨part, .done⟩
  | .noSetup | .applying | .halting => part.refuse .refusedState

/-- The request of a REFRESH_ZONE that has passed its tests (R40, R45). -/
def Part.refreshZoneWith (part : Part) (g : Setup) (z : ZoneCfg) (cls : RefreshClass) (full : Bool) : Answered :=
  match part.requestZone z z.rect cls .order full with
  | some placed => ⟨placed.takeUpZone g z, .done⟩
  | none => ⟨part.latch .queueFull z.index, .refusedState⟩

/-- REFRESH_ZONE (R40). -/
def Part.orderRefreshZone (part : Part) (target mode cls : Nat) : Answered :=
  if part.unit.runState.takesRefresh then
    match part.setup with
    | none => part.refuse .refusedState
    | some g =>
      match g.zone? target with
      | none => part.refuse .refusedTarget
      | some z =>
        match orderClass? cls, orderFull? mode with
        | some k, some full => part.refreshZoneWith g z k full
        | _, _ => part.refuse .refusedArgument
  else part.refuse .refusedState

/-- The enabled panel that a target number names. -/
def Setup.panelTarget? (g : Setup) (target : Nat) : Option (PanelNo × PanelCfg) :=
  (panelOf? target).bind fun p => (g.panels.get p).map fun c => (p, c)

/-- The request of a REFRESH_PANEL that has passed its tests (R41, R45). -/
def Part.refreshPanelWith (part : Part) (g : Setup) (p : PanelNo) (c : PanelCfg) (cls : RefreshClass) (full : Bool) :
    Answered :=
  match part.requestPanel g p c cls .order full with
  | some placed => ⟨placed, .done⟩
  | none => ⟨part.latch .queueFull (JobScope.panel p).code, .refusedState⟩

/-- REFRESH_PANEL (R41). -/
def Part.orderRefreshPanel (part : Part) (target mode cls : Nat) : Answered :=
  if part.unit.runState.takesRefresh then
    match part.setup with
    | none => part.refuse .refusedState
    | some g =>
      match g.panelTarget? target with
      | none => part.refuse .refusedTarget
      | some (p, c) =>
        match orderClass? cls, orderFull? mode with
        | some k, some full => part.refreshPanelWith g p c k full
        | _, _ => part.refuse .refusedArgument
  else part.refuse .refusedState

/-- The panels a SWEEP mask names, in ascending number (R77, R160). -/
def sweepPanels (mask : Nat) : List PanelNo := panelNos.filter fun p => mask.testBit p.val

/-- A SWEEP mask names no panel, or one that is not enabled (R77); bits 4 to 7 as `Config.sweepHighBitsName` leaves
open (log 10). -/
def Setup.refusesMask (g : Setup) (mask : Nat) : Bool :=
  (sweepPanels mask).isEmpty || (sweepPanels mask).any (fun p => (g.panels.get p).isNone)
    || (decide (16 ≤ mask) && Config.sweepHighBitsName)

/-- One panel's request of a SWEEP (R77): a refusal for a full pool latches QUEUE_FULL and marks the order's result. -/
def Setup.sweepOne (g : Setup) (a : Answered) (p : PanelNo) : Answered :=
  match g.panels.get p with
  | none => a
  | some c =>
    match a.part.requestPanel g p c .sweep .order true with
    | some placed => ⟨placed, a.result⟩
    | none => ⟨a.part.latch .queueFull (JobScope.panel p).code, .refusedState⟩

/-- SWEEP (R77). -/
def Part.orderSweep (part : Part) (mask : Nat) : Answered :=
  if part.unit.runState.takesRefresh then
    match part.setup with
    | none => part.refuse .refusedState
    | some g =>
      if g.refusesMask mask then part.refuse .refusedTarget
      else (sweepPanels mask).foldl g.sweepOne ⟨part, .done⟩
  else part.refuse .refusedState

/-- SET_CLOCK (R158). -/
def Part.orderSetClock (part : Part) (arg1 arg2 : BitVec 32) : Answered :=
  if arg1.toNat < Config.daySeconds ∧ arg2.toNat < 65536 then
    ⟨{ part with clock := { part.clock with secondOfDay := arg1.toNat, dayCount := arg2.toNat } }, .done⟩
  else part.refuse .refusedArgument

/-- The causes whose bits are set in a mask unlatched, their details with them (R167), from bit `i` on. -/
def clearCauses (mask : BitVec 32) : Nat → List (Option Nat) → List (Option Nat)
  | _, [] => []
  | i, c :: cs => (if mask.getLsbD i then none else c) :: clearCauses mask (i + 1) cs

/-- CLEAR_ATTN (R167). -/
def Part.orderClearAttn (part : Part) (mask : BitVec 32) : Answered :=
  ⟨{ part with unit := { part.unit with causes := clearCauses mask 0 part.unit.causes } }, .done⟩

/-- A port in FAULT still owes null rows of a frame (R135, R137). -/
def Port.owesRows (x : Port) : Bool :=
  match x.window with
  | some w => w.insideFrame
  | none => false

/-- RESTORE_PORT's effect (R137): a port in FAULT is restored, or waits for its last null row. -/
def Part.restorePort (part : Part) (p : PanelNo) : Part :=
  if (part.port p).state = .fault then
    if (part.port p).owesRows then part.setPort p { part.port p with restoreWaits := true } else part.restore p
  else part

/-- RESTORE_PORT (R137). -/
def Part.orderRestorePort (part : Part) (target : Nat) : Answered :=
  if part.unit.runState.takesRefresh then
    match part.setup with
    | none => part.refuse .refusedState
    | some g =>
      match g.panelTarget? target with
      | none => part.refuse .refusedTarget
      | some (p, _) => ⟨part.restorePort p, .done⟩
  else part.refuse .refusedState

/-- An order of a code outside 1 to 9 (R161). -/
def Part.orderUnknown (part : Part) : Answered := part.refuse .unknownOrder

/-- The order that the capture copy spells, answered by its code (R160, R161). -/
def Part.answerOrder (part : Part) (o : Order) : Answered :=
  match o.code with
  | 1 => part.orderApply
  | 2 => part.orderRun
  | 3 => part.orderHalt
  | 4 => part.orderRefreshZone o.target o.mode o.cls
  | 5 => part.orderRefreshPanel o.target o.mode o.cls
  | 6 => part.orderSweep o.target
  | 7 => part.orderSetClock o.arg1 o.arg2
  | 8 => part.orderClearAttn o.arg1
  | 9 => part.orderRestorePort o.target
  | _ => part.orderUnknown

/-- The unit takes one order, formed from the copy as it stands (R160). -/
def Part.takeOrder (part : Part) : Part :=
  (part.answerOrder (orderOf part.unit.orderCopy)).note (orderByte part.unit.orderCopy 0)

/-! ### The commands (log 15) -/

/-- APPLY. -/
def execApply (s : State) : Host.Outcome State Fault Refusal := s.partEvent true fun x => x.orderApply.note 1

/-- RUN. -/
def execRun (s : State) : Host.Outcome State Fault Refusal := s.partEvent true fun x => x.orderRun.note 2

/-- HALT. -/
def execHalt (s : State) : Host.Outcome State Fault Refusal := s.partEvent true fun x => x.orderHalt.note 3

/-- REFRESH_ZONE. -/
def execRefreshZone (target mode cls : Byte) (s : State) : Host.Outcome State Fault Refusal :=
  s.partEvent true fun x => (x.orderRefreshZone target.toNat mode.toNat cls.toNat).note 4

/-- REFRESH_PANEL. -/
def execRefreshPanel (target mode cls : Byte) (s : State) : Host.Outcome State Fault Refusal :=
  s.partEvent true fun x => (x.orderRefreshPanel target.toNat mode.toNat cls.toNat).note 5

/-- SWEEP. -/
def execSweep (mask : Byte) (s : State) : Host.Outcome State Fault Refusal :=
  s.partEvent true fun x => (x.orderSweep mask.toNat).note 6

/-- SET_CLOCK. -/
def execSetClock (arg1 arg2 : BitVec 32) (s : State) : Host.Outcome State Fault Refusal :=
  s.partEvent true fun x => (x.orderSetClock arg1 arg2).note 7

/-- CLEAR_ATTN. -/
def execClearAttn (mask : BitVec 32) (s : State) : Host.Outcome State Fault Refusal :=
  s.partEvent true fun x => (x.orderClearAttn mask).note 8

/-- RESTORE_PORT. -/
def execRestorePort (target : Byte) (s : State) : Host.Outcome State Fault Refusal :=
  s.partEvent true fun x => (x.orderRestorePort target.toNat).note 9

/-- A code that no order has (R160, R161). -/
def unknownCode (code : Byte) : Bool := code.toNat == 0 || decide (9 < code.toNat)

/-- UNKNOWN_ORDER (R161). -/
def execUnknownOrder (code : Byte) (s : State) : Host.Outcome State Fault Refusal :=
  s.partEvent (unknownCode code) fun x => x.orderUnknown.note code

end Sys2Proof.Machine
end

