-- ==== Sys2Proof/Machine/HostPort.lean ====
section
/-! DEFINITION. The host's transactions on the inbound port (R143, R144, R146, R160): HOST_TRANSACTION_START and
HOST_TRANSACTION_END. -/

namespace Sys2Proof.Machine

/-- The bytes the sign memory returns for a run (R143); beyond the 16 MiB it has, free values (log 9). -/
def Memory.hostBytes (m : Memory) (a : Nat) : Nat → List Byte
  | 0 => []
  | n + 1 => (if a < Config.memoryEnd then m.read a else Config.byteBeyondMemory a) :: Memory.hostBytes m (a + 1) n

/-- A transaction as it begins, waiting for the memory port. -/
def HostTransaction.begin (command : HostCommand) (addr : Nat) : HostTransaction where
  command := command
  start := addr
  next := addr
  phase := .held
  inserted := false
  givesOrder := false

/-- HOST_TRANSACTION_START (R144, R148, R150): the transaction waits for the memory port, and `finish` forwards it at
once, inserts an urgent feed burst or leaves it held. While reset is asserted it is not forwarded. Transactions of the
host do not overlap, so nothing begins while one is active. -/
def execHostTransactionStart (command : HostCommand) (addr : Nat) (s : State) : Host.Outcome State Fault Refusal :=
  match s.path.host with
  | some _ => .next s
  | none =>
    if s.path.inReset then
      .next { s with
        path := { s.path with host := some { HostTransaction.begin command addr with phase := .dropped } } }
    else
      s.event true fun x =>
        { x with path := { x.path with host := some (HostTransaction.begin command addr) } }

/-- The inbound port is free again. -/
def State.releaseHost (s : State) : State := { s with path := { s.path with host := none } }

/-- What a forwarded transaction's end does (R143, R146, R160): a read has returned its bytes; a write that covered
10Fh gives one order, and the grant that the end brings is taken before it or after it (log 7); a transaction with
another command has been forwarded with its command, address and write bytes, and has returned what the sign memory
supplied (log 27). -/
def State.endTransaction (h : HostTransaction) (data : HostData) (grantFirst : Bool)
    (s : State) : State :=
  let freed := s.releaseHost
  match h.command with
  | .arrayRead =>
    { freed with path := { freed.path with hostRead := s.memory.hostBytes h.start data.bytesRead } }
  | .arrayWrite =>
    if h.givesOrder then
      let served := if grantFirst then freed.advancePath else freed
      { served with part := served.part.takeOrder }
    else freed
  | .other opcode =>
    { freed with
      path := { freed.path with hostRead := data.supplied, forwarded := some ⟨opcode, h.start, data.written⟩ } }

/-- HOST_TRANSACTION_END (R146): a forwarded transaction ends, and a dropped one ends with nothing (R150). A held one
has not been forwarded yet, so its end cannot have come (R143). -/
def execHostTransactionEnd (data : HostData) (grantFirst : Bool) (s : State) : Host.Outcome State Fault Refusal :=
  match s.path.host with
  | none => .next s
  | some h =>
    match h.phase with
    | .held => .next s
    | .forwarding => s.event true (State.endTransaction h data grantFirst)
    | .dropped => if s.path.inReset then .next s.releaseHost else s.event true State.releaseHost

end Sys2Proof.Machine
end

