-- ==== Sys2Proof/Machine/PortCommands.lean ====
section
/-! DEFINITION. The panel ports' commands (08_panel_ports_the_rail_and_the_panel_link.md, R115 to R117): DRIVE_START,
FRAME_START, LINE_SLOT, CLOSE, WAKE, BUSY_NEGATED, IDENT, TEMP_QUERY, TEMP, the five limits, REST, RETRY_WAKE. -/

namespace Sys2Proof.Machine

/-- A port event under the installed setup, for an enabled panel. -/
def Part.withPanel (part : Part) (p : PanelNo) (f : Setup → PanelCfg → Part) : Part :=
  match part.setup with
  | none => part
  | some g =>
    match g.panels.get p with
    | none => part
    | some c => f g c

/-! ### DRIVE_START (R130) -/

/-- The POISED job of a panel starts its drive. -/
def execDriveStart (p : PanelNo) (s : State) : Host.Outcome State Fault Refusal :=
  s.partEvent (s.part.canDrive p) fun x => x.withPanel p fun g _ => x.startDrive g p

/-! ### FRAME_START (R132) -/

/-- The index of the frame that follows in a window. -/
def Window.nextFrame (w : Window) : Nat :=
  match w.frame with
  | none => 0
  | some f => f + 1

/-- The window is between frames, settled, not being ended, and has a frame left (R130, R132). -/
def Window.mayStartFrame (w : Window) : Bool :=
  !w.insideFrame && w.settled && !w.ending && decide (w.nextFrame < w.frames)

/-- The port may send its next FRAME_START: it is DRIVING, with its job DRIVING. -/
def Part.mayStartFrame (part : Part) (p : PanelNo) : Bool :=
  (part.port p).state == .driving && part.stage? p == some .driving &&
    match (part.port p).window with
    | some w => w.mayStartFrame
    | none => false

/-- The job's frame index takes a new index (R51, R132). -/
def Part.setFrame (part : Part) (p : PanelNo) (f : Nat) : Part :=
  match part.running? p with
  | some (slot, j, r) => part.setJob slot { j with running := some { r with frame := some f } }
  | none => part

/-- The port's record at a FRAME_START: the slots of the frame are to come, and the frame BUSY limit runs (R125). -/
def Port.startFrame (x : Port) (c : PanelCfg) (w : Window) : Port :=
  { x with
    window := some { w with frame := some w.nextFrame, slots := 0, settled := false }
    limit := some ⟨.frameBusy, w.spacing + 1000 * c.busyMargin⟩
    sent := some (.frameStart w.nextFrame) }

/-- FRAME_START is sent (R132). -/
def Part.startFrame (part : Part) (c : PanelCfg) (p : PanelNo) : Part :=
  match (part.port p).window with
  | some w => (part.setPort p ((part.port p).startFrame c w)).setFrame p w.nextFrame
  | none => part

/-- FRAME_START (R132). -/
def execFrameStart (p : PanelNo) (s : State) : Host.Outcome State Fault Refusal :=
  s.partEvent (s.part.mayStartFrame p) fun x => x.withPanel p fun _ c => x.startFrame c p

/-! ### LINE_SLOT (R115 to R118, R131) -/

/-- A null row: NONE for every pixel of the window's width (R124). -/
def Window.nullRow (w : Window) : List DriveCode := List.replicate (w.x1 + 1 - w.x0) .keep

/-- The pixel row of the slot that begins. -/
def Window.slotRow (w : Window) : Nat := w.y0 + w.slots

/-- The UNDERRUN marks of a row's tiles (R116): tile row `ty`, `n` tile columns from `tx` on. -/
def Engine.markUnderrun (r : Rect) (ty : Nat) : Nat → Nat → Engine → Engine
  | 0, _, e => e
  | n + 1, tx, e =>
    Engine.markUnderrun r ty n (tx + 1) (e.updateEntry r tx ty fun x => { x with underrun := true })

/-- The row pair of an underrun row is abandoned (R116): the place that was filling for it is freed, its request
withdrawn and the data of its burst in flight discarded when that burst ends; with none filling, the feed position is
moved past the row. -/
def Engine.abandonRow (e : Engine) (j : Job) (frames : Nat) : Engine :=
  match e.fill with
  | some _ => { e with fill := none, request := none, discard := e.inFlight }
  | none =>
    { e with
      feed := match e.feed with
        | some (f, y) => nextFeed j frames f y
        | none => none }

/-- What a slot sends and leaves (R115, R116, R131): the head of the row buffer with its codes while the rail is UP,
an underrun where there is none, a null row where the frame is being ended or the rail is not UP. -/
def Part.slotRow (part : Part) (g : Setup) (c : PanelCfg) (p : PanelNo) (w : Window) : Part × List DriveCode :=
  match part.running? p, part.engine? p with
  | some (_, j, r), some e =>
    let frames := (g.band r.band).frames r.mode
    if w.ending ∨ part.rail.state ≠ .up ∨ j.state ≠ .driving then (part, w.nullRow)
    else
      match e.buffer with
      | pair :: rest =>
        (part.setEngine p (some (Engine.startFill { e with buffer := rest } c p j r.mode frames)),
          rowCodes r.mode frames (w.frame.getD 0) pair)
      | [] =>
        let marked := Engine.markUnderrun j.rect (w.slotRow / 32) j.rect.cols j.rect.tx0 e
        ((part.setEngine p (some (Engine.startFill (marked.abandonRow j frames) c p j r.mode frames))).latch
            .underrun p.val,
          w.nullRow)
  | _, _ => (part, w.nullRow)

/-- The port's record once a slot's ROW is sent. At the end of the frame's last slot the port watches BUSY, and a BUSY
that is not asserted counts as negated (R125, R132). -/
def Port.sendRow (x : Port) (w : Window) (codes : List DriveCode) (busy : Bool) : Port :=
  let last := decide (w.rows ≤ w.slots + 1)
  { x with
    window := some { w with slots := w.slots + 1, settled := last && !busy }
    limit := if last && !busy then none else x.limit
    busy := if last then busy else x.busy
    sent := some (.row w.slotRow codes) }

/-- What follows the last slot of a frame (R117, R118, R135, R137, R142): the abort of a job whose frame was being
ended, with a RESTORE_PORT that waited for it; the commit after frame F − 1. -/
def Part.frameSent (part : Part) (g : Setup) (c : PanelCfg) (p : PanelNo) (w : Window) : Part :=
  if w.ending then
    let ended := part.abortRunning g p
    if (ended.port p).restoreWaits then ended.restore p else ended
  else if w.nextFrame < w.frames then part
  else
    match part.running? p, part.engine? p with
    | some (slot, j, r), some e =>
      if j.state = .driving then part.beginCommit g c p slot j { r with frame := none } e else part
    | _, _ => part

/-- A line slot begins and its row is sent (R131). -/
def Part.lineSlot (part : Part) (g : Setup) (c : PanelCfg) (p : PanelNo) (w : Window) (busy : Bool) : Part :=
  let sent := part.slotRow g c p w
  let after := sent.1.setPort p ((sent.1.port p).sendRow w sent.2 busy)
  if w.rows ≤ w.slots + 1 then after.frameSent g c p w else after

/-- The port has a slot of a frame to come. -/
def Part.slotDue? (part : Part) (p : PanelNo) : Option Window :=
  match (part.port p).window with
  | some w => if w.insideFrame then some w else none
  | none => none

/-- LINE_SLOT (R131). -/
def execLineSlot (p : PanelNo) (busy : Bool) (s : State) : Host.Outcome State Fault Refusal :=
  match s.part.slotDue? p with
  | some w => s.partEvent true fun x => x.withPanel p fun g c => x.lineSlot g c p w busy
  | none => .next s

/-! ### CLOSE (R133, R135) -/

/-- The port may close its window: no frame is in progress, the last one has settled, and no job of the panel is
DRIVING. -/
def Part.mayClose (part : Part) (p : PanelNo) : Bool :=
  part.stage? p != some .driving &&
    match (part.port p).window with
    | some w => !w.insideFrame && w.settled
    | none => false

/-- CLOSE in DRIVING (R133): CLOSING with the close BUSY limit, or, with BUSY not asserted, READY at once (R125). -/
def Port.sendClose (x : Port) (busy : Bool) : Port :=
  { x with
    state := if busy then .closing else .ready
    window := none
    busy := busy
    limit := if busy then some ⟨.closeBusy, Config.closeBusyMicros⟩ else none
    sent := some .close }

/-- CLOSE is sent (R133), or in FAULT without leaving it (R134, R135). A port that is READY at once may rest (R129). -/
def Part.close (part : Part) (c : PanelCfg) (p : PanelNo) (busy : Bool) : Part :=
  if (part.port p).state = .fault then part.setPort p ((part.port p).closeInFault c)
  else (part.changePort p ((part.port p).sendClose busy)).restAtOnce p

/-- CLOSE (R133). -/
def execClose (p : PanelNo) (busy : Bool) (s : State) : Host.Outcome State Fault Refusal :=
  s.partEvent (s.part.mayClose p) fun x => x.withPanel p fun _ c => x.close c p busy

/-! ### WAKE and IDENT (R127) -/

/-- The port waits to send WAKE: OFF with wake pending, or a retry wake in FAULT that waited for the rest hold
(R127, R136). -/
def Port.wakeDue (x : Port) : Bool := (x.state == .off && x.wakePending) || (x.state == .fault && x.retryWake)

/-- WAKE (R127). -/
def execWake (p : PanelNo) (busy : Bool) (s : State) : Host.Outcome State Fault Refusal :=
  s.partEvent (s.part.port p).wakeDue fun x => x.withPanel p fun _ _ => x.changePort p ((x.port p).wake busy)

/-- An IDENT in WAKING (R127): READY with a query due where it matches W and H, else a GEOMETRY fault. -/
def Part.identArrives (part : Part) (g : Setup) (c : PanelCfg) (p : PanelNo) (width height : Nat) : Part :=
  if width = c.width ∧ height = c.height then
    part.changePort p { part.port p with state := .ready, queryDue := true, limit := none }
  else part.faultPort g c p .geometry

/-- IDENT (R127): discarded outside WAKING (R125). -/
def execIdent (p : PanelNo) (width height : Nat) (s : State) : Host.Outcome State Fault Refusal :=
  s.partEvent ((s.part.port p).state == .waking) fun x => x.withPanel p fun g c => x.identArrives g c p width height

/-! ### BUSY_NEGATED (R125, R132, R133, R138) -/

/-- A close ends (R133), after which the port may rest (R129), or one carried over an accepted APPLY, after which REST is
sent (R138). -/
def Part.closeEnds (part : Part) (p : PanelNo) : Part :=
  let idle := { part.port p with busy := false, limit := none, closingOver := false }
  if (part.port p).closingOver then
    part.changePort p
      { idle with
        state := if (part.panelCfg? p).isSome then .off else .unused
        lastRest := some part.now
        sent := some .rest }
  else (part.changePort p { idle with state := .ready }).restAtOnce p

/-- The frame has settled (R132). -/
def Port.settle (x : Port) (w : Window) : Port :=
  { x with window := some { w with settled := true }, limit := none, busy := false }

/-- The kind of the limit that runs. -/
def Port.limitKind? (x : Port) : Option LimitKind := x.limit.map fun l => l.kind

/-- The port no longer sees BUSY, and nothing it watches for has ended. -/
def Port.noteNegated (x : Port) : Port := { x with busy := false }

/-- BUSY negated at a port, by the limit that runs (R125); a port inside a frame disregards it (R131). -/
def Part.busyNegated (part : Part) (p : PanelNo) : Part :=
  match (part.port p).limitKind? with
  | some .wakeBusy =>
    part.setPort p
      { (part.port p).noteNegated with limit := some ⟨.identReply, Config.identReplyMicros⟩ }
  | some .closeBusy => part.closeEnds p
  | some .frameBusy =>
    match (part.port p).window with
    | some w =>
      part.setPort p (if w.insideFrame then (part.port p).noteNegated else (part.port p).settle w)
    | none => part.setPort p (part.port p).noteNegated
  | some .identReply | none => part.setPort p (part.port p).noteNegated

/-- BUSY_NEGATED (R125). -/
def execBusyNegated (p : PanelNo) (s : State) : Host.Outcome State Fault Refusal :=
  s.partEvent true fun x => x.busyNegated p

/-! ### TEMP_QUERY and TEMP (R128) -/

/-- TEMP_QUERY is sent, and its reply timeout runs (R128). -/
def Port.query (x : Port) : Port := { x with queryDue := false, tempOutstanding := true, sent := some .tempQuery }

/-- TEMP_QUERY (R128): READY with query due. -/
def execTempQuery (p : PanelNo) (s : State) : Host.Outcome State Fault Refusal :=
  s.partEvent ((s.part.port p).state == .ready && (s.part.port p).queryDue) fun x => x.setPort p (x.port p).query

/-- A TEMP reply that is awaited (R82, R128, R136): the retry sequence ends as a success, and the reading is taken; the
port may rest (R129). -/
def Part.tempArrives (part : Part) (g : Setup) (p : PanelNo) (degrees : Int) : Part :=
  ((part.setPort p { part.port p with tempOutstanding := false, attempts := 0 }).takeReading g p degrees).restAtOnce p

/-- TEMP (R128): discarded where none is awaited (R125). -/
def execTemp (p : PanelNo) (degrees : Int) (s : State) : Host.Outcome State Fault Refusal :=
  s.partEvent (s.part.port p).tempOutstanding fun x => x.withPanel p fun g _ => x.tempArrives g p degrees

/-! ### The limits (R125, R134 to R136, R138) -/

/-- A limit of this kind is in force. -/
def Port.runs (x : Port) (k : LimitKind) : Bool :=
  match x.limit with
  | some l => l.kind == k
  | none => false

/-- WAKE_BUSY_LIMIT (R125): BUSY_STUCK. -/
def execWakeBusyLimit (p : PanelNo) (s : State) : Host.Outcome State Fault Refusal :=
  s.partEvent ((s.part.port p).runs .wakeBusy) fun x => x.withPanel p fun g c => x.faultPort g c p .busyStuck

/-- IDENT_REPLY_TIMEOUT (R125): NO_REPLY. -/
def execIdentReplyTimeout (p : PanelNo) (s : State) : Host.Outcome State Fault Refusal :=
  s.partEvent ((s.part.port p).runs .identReply) fun x => x.withPanel p fun g c => x.faultPort g c p .noReply

/-- TEMP_REPLY_TIMEOUT (R128): NO_REPLY, in whatever state the port holds. -/
def execTempReplyTimeout (p : PanelNo) (s : State) : Host.Outcome State Fault Refusal :=
  s.partEvent (s.part.port p).tempOutstanding fun x => x.withPanel p fun g c => x.faultPort g c p .noReply

/-- The frame BUSY limit passes with BUSY asserted (R125, R134): BUSY_STUCK, or in FAULT the CLOSE at once. -/
def Part.frameBusyPasses (part : Part) (g : Setup) (c : PanelCfg) (p : PanelNo) : Part :=
  if (part.port p).state = .fault then part.setPort p ((part.port p).closeInFault c)
  else part.faultPort g c p .busyStuck

/-- The frame BUSY limit runs and the frame's slots are over (R131, R134). -/
def Port.frameLimitDue (x : Port) : Bool :=
  x.runs .frameBusy &&
    match x.window with
    | some w => !w.insideFrame
    | none => true

/-- FRAME_BUSY_LIMIT (R125). -/
def execFrameBusyLimit (p : PanelNo) (s : State) : Host.Outcome State Fault Refusal :=
  s.partEvent (s.part.port p).frameLimitDue fun x => x.withPanel p fun g c => x.frameBusyPasses g c p

/-- The close BUSY limit passes with BUSY asserted (R125, R138): BUSY_STUCK, or UNUSED without a message where the
panel has been disabled since. -/
def Part.closeBusyPasses (part : Part) (p : PanelNo) : Part :=
  match part.setup with
  | none => part
  | some g =>
    match g.panels.get p with
    | some c => part.faultPort g c p .busyStuck
    | none => part.changePort p { part.port p with state := .unused, limit := none, closingOver := false }

/-- CLOSE_BUSY_LIMIT (R125). -/
def execCloseBusyLimit (p : PanelNo) (s : State) : Host.Outcome State Fault Refusal :=
  s.partEvent ((s.part.port p).runs .closeBusy) fun x => x.closeBusyPasses p

/-! ### REST and RETRY_WAKE (R129, R136) -/

/-- REST (R129): the rest delay timer, which runs under these conditions, expires. -/
def execRest (p : PanelNo) (s : State) : Host.Outcome State Fault Refusal :=
  s.partEvent (s.part.restDelayRuns p) fun x => x.changePort p ((x.port p).rest x.now)

/-- The rest hold is over (R127): the hold has gone by since the last REST, as the sender says, or is 0, or there was no
REST. -/
def Port.restHoldOver (x : Port) (c : PanelCfg) (holdPassed : Bool) : Bool :=
  holdPassed || x.lastRest.isNone || c.restHold == 0

/-- The retry timer has expired (R136): attempts rises, and the retry wake is made or waits for the rest hold. -/
def Part.retryExpires (part : Part) (c : PanelCfg) (p : PanelNo) (holdPassed busy : Bool) : Part :=
  let counted := { part.port p with attempts := (part.port p).attempts + 1, retry := none }
  if counted.restHoldOver c holdPassed then part.changePort p (counted.wake busy)
  else part.setPort p { counted with retryWake := true }

/-- RETRY_WAKE (R136). -/
def execRetryWake (p : PanelNo) (holdPassed busy : Bool) (s : State) : Host.Outcome State Fault Refusal :=
  s.partEvent ((s.part.port p).state == .fault && (s.part.port p).retry.isSome) fun x =>
    x.withPanel p fun _ c => x.retryExpires c p holdPassed busy

end Sys2Proof.Machine
end

