-- ==== Sys2Proof/Machine/RailCommands.lean ====
section
/-! DEFINITION. The rail's commands (R139 to R142): RAIL_RAISE, RAIL_GOOD_ASSERTED, RAIL_GOOD_NEGATED, RISE_LIMIT,
LINGER_EXPIRY, DISCHARGE_END, RAIL_RETRY. -/

namespace Sys2Proof.Machine

/-- A rail event under the installed setup. -/
def Part.withSetup (part : Part) (f : Setup → Part) : Part :=
  match part.setup with
  | none => part
  | some g => f g

/-- RAIL_RAISE (R140): the rail is OFF and demanded, and the minimum off time has passed. -/
def execRailRaise (s : State) : Host.Outcome State Fault Refusal :=
  s.partEvent (s.part.rail.state == .off && s.part.railDemanded) fun x => x.withSetup fun g => x.raiseRail g

/-- Rail-good is asserted in RISING (R140): UP, LINGER in the same event where the demand has ended, and the drive of
every POISED job whose port is ready. -/
def Part.railGood (part : Part) (g : Setup) : Part :=
  panelNos.foldl (fun x p => x.driveIfReady g p)
    ((part.changeRail { part.rail with state := .up, timer := none }).releaseRail g)

/-- RAIL_GOOD_ASSERTED (R140): disregarded outside RISING. -/
def execRailGoodAsserted (s : State) : Host.Outcome State Fault Refusal :=
  s.partEvent (s.part.rail.state == .rising) fun x => x.withSetup fun g => x.railGood g

/-- The window of a port that is DRIVING for its DRIVING job, which a loss of rail-good reaches (R142). -/
def Part.drivenWindow? (part : Part) (p : PanelNo) : Option Window :=
  if (part.port p).state = .driving ∧ part.stage? p = some .driving then (part.port p).window else none

/-- A loss of rail-good at a port inside a frame (R142): the early end of the frame. -/
def Part.loseRailAt (part : Part) (p : PanelNo) : Part :=
  match part.drivenWindow? p with
  | some w => if w.insideFrame then part.endFrameEarly p w else part
  | none => part

/-- The job that a loss of rail-good aborts at once (R142): DRIVING, its port between frames. -/
def Part.betweenFrames? (part : Part) (p : PanelNo) : Option RunningJob :=
  match part.drivenWindow? p with
  | some w => if w.insideFrame then none else part.running? p
  | none => none

/-- Rail-good is lost in UP or LINGER (R142). The jobs found between frames are aborted in ascending panel number, which
the spec leaves open (log 30), as one event (R37). -/
def Part.railLost (part : Part) (g : Setup) : Part :=
  (panelNos.foldl Part.loseRailAt (part.faultRail g 2)).abortJobs g (panelNos.filterMap part.betweenFrames?)

/-- RAIL_GOOD_NEGATED (R142): disregarded outside UP and LINGER. -/
def execRailGoodNegated (s : State) : Host.Outcome State Fault Refusal :=
  s.partEvent (s.part.rail.state == .up || s.part.rail.state == .linger) fun x => x.withSetup fun g => x.railLost g

/-- RISE_LIMIT (R142). -/
def execRiseLimit (s : State) : Host.Outcome State Fault Refusal :=
  s.partEvent (s.part.rail.state == .rising) fun x => x.withSetup fun g => x.faultRail g 1

/-- LINGER_EXPIRY (R141). -/
def execLingerExpiry (s : State) : Host.Outcome State Fault Refusal :=
  s.partEvent (s.part.rail.state == .linger) fun x => x.withSetup fun g => x.lowerRail g

/-- DISCHARGE_END (R141): 50 ms after the negation. -/
def execDischargeEnd (s : State) : Host.Outcome State Fault Refusal :=
  s.partEvent (s.part.rail.state == .falling) fun x => x.withSetup fun g => x.railOff g Config.dischargeMillis

/-- RAIL_RETRY (R142): the retry timer, started at the negation, expires. -/
def execRailRetry (s : State) : Host.Outcome State Fault Refusal :=
  s.partEvent (s.part.rail.state == .fault) fun x => x.withSetup fun g => x.railOff g (x.rail.timer.getD 0)

end Sys2Proof.Machine
end

