-- ==== Sys2Proof/Machine/TimeBase.lean ====
section
/-! DEFINITION. The Time Base (10_time_base_and_epochs.md) and the tests that each second drives (R26 to R30, R75,
R76, R84, R85, R88 to R95, R103): TICK, SETTLE_EXPIRY, SECOND. -/

namespace Sys2Proof.Machine

/-! ### Ticks (R26, R151) -/

/-- A zone's settle expiry has been brought by a tick and waits for its SETTLE_EXPIRY. -/
def Part.expiryDue (part : Part) : Bool := part.zones.any fun z => z.expired

/-- One tick of a settle timer (R26): a timer that reaches 0 stops, which is the zone's settle expiry. -/
def Zone.tick (z : Zone) : Zone :=
  match z.timer with
  | none => z
  | some n => if n ≤ 1 then { z with timer := none, expired := true } else { z with timer := some (n - 1) }

/-- The compensation c in force: 0 until a setup is installed (R151, R153). -/
def Part.compensation (part : Part) : Int :=
  match part.setup with
  | some g => g.globals.compensation
  | none => 0

/-- The length in oscillator periods of the tick numbered `tick` of second `w` of a window, as it begins (R151). -/
def tickLengthOf (c : Int) (w tick : Nat) : Int :=
  if w = 31 ∧ tick = 31 then (Config.tickPeriods : Int) + c else (Config.tickPeriods : Int)

/-- The clock after the end of a tick under compensation c (R151): the 32nd brings the second event, and the next
tick begins. -/
def Clock.tickEnd (k : Clock) (c : Int) : Clock :=
  if k.tick + 1 = Config.ticksPerSecond then
    { k with tick := 0, secondDue := true, tickLength := tickLengthOf c ((k.windowSecond + 1) % 32) 0 }
  else { k with tick := k.tick + 1, tickLength := tickLengthOf c k.windowSecond (k.tick + 1) }

/-- A tick ends (R26, R151). -/
def Part.tickEnd (part : Part) : Part :=
  { part with clock := part.clock.tickEnd part.compensation, zones := part.zones.map Zone.tick }

/-- The last tick's second event and settle expiries have been handled, so that the next tick may end (log 16). -/
def Part.tickReady (part : Part) : Bool := !part.clock.secondDue && !part.expiryDue

/-- TICK (R151). -/
def execTick (s : State) : Host.Outcome State Fault Refusal := s.partEvent s.part.tickReady Part.tickEnd

/-- Zone `n`'s expiry is the next to be handled: expiries of one tick come in ascending zone index (R26). -/
def Part.expiresNext (part : Part) (n : Nat) : Bool :=
  match part.zones.find? fun z => z.expired with
  | some z => z.index == n
  | none => false

/-- A settle expiry handled by the zone's class (R27). -/
def Part.settleExpired (part : Part) (n : Nat) : Part :=
  let taken := part.updateZone n fun z => { z with expired := false }
  match part.setup with
  | none => taken
  | some g =>
    match g.zone? n with
    | some z => taken.expire g z .settle .epoch
    | none => taken

/-- SETTLE_EXPIRY (R27). -/
def execSettleExpiry (zone : Fin 64) (s : State) : Host.Outcome State Fault Refusal :=
  s.partEvent (s.part.expiresNext zone.val) fun x => x.settleExpired zone.val

/-! ### The counts (R152) -/

/-- The three counts advanced by a second event, and the second within the compensation window (R151, R152). -/
def Clock.secondEnd (k : Clock) : Clock :=
  { k with
    secondDue := false
    windowSecond := (k.windowSecond + 1) % 32
    mono := k.mono + 1
    secondOfDay := k.nextSecond
    dayCount := if k.secondOfDay + 1 = Config.daySeconds then (k.dayCount + 1) % 65536 else k.dayCount }

/-! ### The edges (R154 to R157) -/

/-- A second of day is an epoch boundary (R154): (s − offset) mod E = 0. -/
def GlobalSettings.boundary (g : GlobalSettings) (s : Nat) : Bool :=
  ((s : Int) - (g.epochOffset : Int)) % (g.epochPeriod : Int) == 0

/-- The boundary that a lead second announces (R155), if it is one. -/
def GlobalSettings.leadOf? (g : GlobalSettings) (s : Nat) : Option Nat :=
  if 0 < g.epochLead ∧ g.boundary ((s + g.epochLead) % Config.daySeconds) = true then
    some ((s + g.epochLead) % Config.daySeconds)
  else none

/-- The epoch event at the Zone Tracker (R28). -/
def Part.epochZones (part : Part) (g : Setup) : Part :=
  if g.globals.boundary part.clock.secondOfDay then g.zones.foldl (Part.epochAt g) part else part

/-- The epoch event at the Job Planner (R76, R154). -/
def Part.epochSweeps (part : Part) (g : Setup) : Part :=
  if g.globals.boundary part.clock.secondOfDay ∧ part.energy.level = .surplus then part.surplusTest g else part

/-- EPOCH_LEAD (R155). -/
def Part.epochLeadTest (part : Part) (g : Setup) : Part :=
  match g.globals.leadOf? part.clock.secondOfDay with
  | some boundary => part.latch .epochLead boundary
  | none => part

/-- The quiet-hours end event (R29, R156): there are quiet hours, and the second reached is Qe. -/
def Part.quietEndTest (part : Part) (g : Setup) : Part :=
  if g.globals.quietStart ≠ g.globals.quietEnd ∧ part.clock.secondOfDay = g.globals.quietEnd then
    g.zones.foldl (Part.quietEndAt g) part
  else part

/-- The sweep-time event (R75, R157). -/
def Part.sweepTimeTest (part : Part) (g : Setup) : Part :=
  if g.globals.sweepTime = some part.clock.secondOfDay then panelNos.foldl (Part.sweepTimeAt g) part else part

/-- The maximum hold test (R30). -/
def Part.holdTest (part : Part) (g : Setup) : Part := g.zones.foldl (Part.holdAt g) part

/-- The polls of a second (R84). -/
def Part.pollTest (part : Part) (g : Setup) : Part := panelNos.foldl (Part.pollAt g) part

/-- The staleness tests of a second (R85), in ascending panel number, so that of several panels that take a step in one
second the lowest gives TEMP_STALE its detail (log 31). -/
def Part.staleTest (part : Part) (g : Setup) : Part := panelNos.foldl (Part.staleAt g) part

/-! ### The sample (R88) -/

/-- The figures of a sample under installed settings (R88, R90, R91, R93): U, then light and dark, then the level. -/
def Energy.sample (g : GlobalSettings) (e : Energy) (vs vsol : Nat) : Energy :=
  let lit := Energy.advanceLight g { e with vs := vs, vsol := vsol, sampled := true, usable := usableEnergy g vs }
  { lit with level := selectLevel g e.level vs }

/-- A sample of the two monitor inputs, in millivolts (R88): clamped, worked under the settings installed if there are
any, and followed by a walk. -/
def Part.takeSample (part : Part) (storage solar : Int) : Part :=
  let vs := clampInput 6000 storage
  let vsol := clampInput 30000 solar
  match part.setup with
  | none => { part with energy := { part.energy with vs := vs, vsol := vsol, sampled := true }, walkOwed := true }
  | some g =>
    ({ part with energy := part.energy.sample g.globals vs vsol, walkOwed := true }).levelChanged g part.energy.level

/-! ### The second event (R151, R152) -/

/-- A walk taken here if a cause has been met. -/
def Part.walkIfOwed (part : Part) : Part := if part.walkOwed then part.walk else part

/-- One test of the second under an installed setup. -/
def Part.secondTaskWith (g : Setup) (storage solar : Int) (part : Part) : SecondTask → Part
  | .epochZones => part.epochZones g
  | .epochSweeps => part.epochSweeps g
  | .epochLead => part.epochLeadTest g
  | .quietEnd => part.quietEndTest g
  | .sweepTime => part.sweepTimeTest g
  | .maximumHold => part.holdTest g
  | .polls => part.pollTest g
  | .staleness => part.staleTest g
  | .starved => part.starvedTest g
  | .sample => part.takeSample storage solar
  | .walk => part.walkIfOwed

/-- One test of the second; with no setup installed only the sample has anything to act on (R88, R153). -/
def Part.secondTask (storage solar : Int) (part : Part) (t : SecondTask) : Part :=
  match part.setup with
  | some g => Part.secondTaskWith g storage solar part t
  | none =>
    match t with
    | .sample => part.takeSample storage solar
    | .walk => part.walkIfOwed
    | .epochZones | .epochSweeps | .epochLead | .quietEnd | .sweepTime | .maximumHold | .polls | .staleness | .starved =>
      part

/-- Every test of the second, in the model's own order. -/
def allSecondTasks : List SecondTask :=
  [.epochZones, .epochSweeps, .epochLead, .quietEnd, .sweepTime, .maximumHold, .polls, .staleness, .sample, .starved]

/-- An order's tasks with repeated tests dropped; a walk may stand at several places. -/
def dedupTasks (seen : List SecondTask) : List SecondTask → List SecondTask
  | [] => []
  | t :: ts =>
    if t = .walk then t :: dedupTasks seen ts
    else if seen.contains t then dedupTasks seen ts
    else t :: dedupTasks (t :: seen) ts

/-- The tasks of a second in the order a SECOND gives (log 6): the sender's, then the tests it does not name. -/
def secondTasks (order : List SecondTask) : List SecondTask :=
  dedupTasks [] order ++ allSecondTasks.filter fun t => !order.contains t

/-- The second event (R151, R152): the counts advance, then every test is made, each once. -/
def Part.secondEvent (part : Part) (storage solar : Int) (order : List SecondTask) : Part :=
  (secondTasks order).foldl (Part.secondTask storage solar) { part with clock := part.clock.secondEnd }

/-- SECOND (R152): it falls at the end of the 32nd tick of each second. -/
def execSecond (storage solar : Int) (order : List SecondTask) (s : State) : Host.Outcome State Fault Refusal :=
  s.partEvent s.part.clock.secondDue fun x => x.secondEvent storage solar order

end Sys2Proof.Machine
end

