-- ==== Sys2Proof/Machine/Touches.lean ====
section
/-! DEFINITION. What a touch of a pixel area does (R19 to R25, R73), and the forwarded byte that makes it (R6, R143,
R145): TARGET_TOUCH, SHOWN_TOUCH, STAGE_TOUCH, ORDER_BLOCK_WRITE, SETUP_EDIT, UNTAPPED_WRITE. -/

namespace Sys2Proof.Machine

/-! ### The forwarded byte -/

/-- The next data byte of a host array write being forwarded lies at `a` (R143, R144). -/
def State.forwards (s : State) (a : Nat) : Bool :=
  match s.path.host with
  | some h => h.command == .arrayWrite && h.phase == .forwarding && h.next == a
  | none => false

/-- The class of a byte address under the setup installed (R145). -/
def State.classAt (s : State) (a : Nat) : ByteClass := classify s.part.setup s.part.unit.base a

/-- The forwarded byte's touch of a plane, if it makes one (R5, R6). -/
def State.touch? (s : State) (plane : Plane) (a : Nat) : Option Touch :=
  if s.forwards a then
    match s.classAt a with
    | .pixel t => if t.plane = plane then some t else none
    | .padding | .statusArea | .orderBlock _ | .setupArea | .windowOther | .untapped => none
  else none

/-- The byte reaches the sign memory, which has 16 MiB (R143; log 9 for an address beyond them), and the run's next
byte follows it. -/
def State.forwardByte (s : State) (a : Nat) (b : Byte) : State :=
  { s with
    memory := if a < Config.memoryEnd then s.memory.write a b else s.memory
    path := { s.path with host := s.path.host.map fun h => { h with next := a + 1 } } }

/-! ### TARGET touches (R19 to R23) -/

/-- The zone's queued job that takes a touched CLEAN tile, or none (R19). -/
def Part.zoneJobSlot? (part : Part) (x : Tile) : Option Nat :=
  x.zone.bind fun n => (part.zone? n).bind (·.queuedJob)

/-- A QUEUED job's rectangle grown to take a tile in (R19). -/
def Part.growJob (part : Part) (slot tx ty : Nat) : Part :=
  match part.job? slot with
  | some j => part.setJob slot { j with rect := j.rect.join ⟨tx, tx, ty, ty⟩ }
  | none => part

/-- A touch of a CLEAN tile (R19, R23). -/
def Part.touchClean (part : Part) (g : Setup) (t : Touch) (x : Tile) : Part :=
  match part.zoneJobSlot? x with
  | some slot =>
    (part.growJob slot t.tx t.ty).setTile g t.panel t.tx t.ty fun y => { y with state := .queued }
  | none =>
    match part.queuedPanelJob? t.panel with
    | some _ => part.setTile g t.panel t.tx t.ty fun y => { y with state := .queued }
    | none =>
      let dirtied := (part.setTile g t.panel t.tx t.ty fun y => { y with state := .dirty }).followTiles
      match x.zone with
      | some _ => dirtied
      | none => dirtied.latch .looseWrite t.panel.val

/-- A touch of an ACTIVE tile (R21): at or beyond the capture cursor of a CAPTURING job it takes a carried mark, else
REDIRTY. -/
def Part.touchActive (part : Part) (g : Setup) (c : PanelCfg) (t : Touch) : Part :=
  match part.running? t.panel, part.engine? t.panel with
  | some (slot, j, r), some e =>
    if j.state = .capturing ∧ e.cursor ≤ t.row then
      let i := g.tileIndex t.panel c t.tx t.ty
      if r.carried.contains i then part
      else part.setJob slot { j with running := some { r with carried := i :: r.carried } }
    else part.setTile g t.panel t.tx t.ty fun y => { y with redirty := true }
  | _, _ => part

/-- The settle timer of a touched tile's zone restarts (R22). -/
def Part.restartZoned (part : Part) (g : Setup) (x : Tile) : Part :=
  match x.zone.bind g.zone? with
  | some z => part.restartTimer z
  | none => part

/-- A TARGET touch (R19 to R22). -/
def Part.targetTouch (part : Part) (t : Touch) : Part :=
  match part.setup with
  | none => part
  | some g =>
    match g.panels.get t.panel, part.tileAt? g t.panel t.tx t.ty with
    | some c, some x =>
      (match x.state with
        | .clean => part.touchClean g t x
        | .dirty | .queued => part
        | .active => part.touchActive g c t).restartZoned g x
    | _, _ => part

/-! ### SHOWN and STAGE touches (R24, R25, R73) -/

/-- The late SHOWN mark (R73): the job COMMITTING, the tile to be copied, the touched segment's write burst ended. -/
def Part.lateTouch (part : Part) (t : Touch) : Part :=
  match part.running? t.panel, part.engine? t.panel with
  | some (_, j, r), some e =>
    match e.commit with
    | some pos =>
      if j.state = .committing ∧ j.rect.contains t.tx t.ty ∧ e.toCopy j.rect r.mode t.tx t.ty ∧ pos.written t.row t.tx
      then part.setEngine t.panel (some (e.updateEntry j.rect t.tx t.ty fun x => { x with lateShown := true }))
      else part
    | none => part
  | _, _ => part

/-- A SHOWN touch (R24). -/
def Part.shownTouch (part : Part) (t : Touch) : Part :=
  match part.setup with
  | none => part
  | some g =>
    ((part.setTile g t.panel t.tx t.ty fun x => { x with untrusted := true }).latch .planeIntrusion t.panel.val).lateTouch t

/-- The condition for TAINTED by the job's state (R25). -/
def Engine.taints (e : Engine) (j : Job) (mode : DriveMode) (t : Touch) : Bool :=
  match j.state with
  | .capturing => decide (t.row < e.cursor)
  | .poised | .driving => true
  | .committing =>
    e.toCopy j.rect mode t.tx t.ty && match e.commit with
      | some pos => !pos.hasRead t.row t.tx
      | none => false
  | .queued => false

/-- A commit read requested and not begun whose group holds the tile is withdrawn and re-formed without it (R119);
where no group is left the copy has ended (log 13). -/
def Part.reformCommit (part : Part) (g : Setup) (c : PanelCfg) (t : Touch) (slot : Nat) (j : Job) (r : RunFields)
    (e : Engine) : Part :=
  match e.request, e.commit with
  | some b, some pos =>
    if b.kind = .commitRead ∧ pos.holds t.tx t.ty then
      part.continueCommit g c t.panel slot j r { e with request := none } pos.row pos.tx
    else part
  | _, _ => part

/-- The TAINTED mark of an ACTIVE tile (R25). -/
def Part.taint (part : Part) (g : Setup) (c : PanelCfg) (t : Touch) : Part :=
  match part.running? t.panel, part.engine? t.panel with
  | some (slot, j, r), some e =>
    if j.rect.contains t.tx t.ty ∧ e.taints j r.mode t then
      let marked := e.updateEntry j.rect t.tx t.ty fun x => { x with tainted := true }
      (part.setEngine t.panel (some marked)).reformCommit g c t slot j r marked
    else part
  | _, _ => part

/-- A STAGE touch (R25). -/
def Part.stageTouch (part : Part) (t : Touch) : Part :=
  match part.setup with
  | none => part
  | some g =>
    let noted := part.latch .planeIntrusion t.panel.val
    match g.panels.get t.panel, part.tileAt? g t.panel t.tx t.ty with
    | some c, some x => if x.state = .active then noted.taint g c t else noted
    | _, _ => noted

/-! ### The commands -/

/-- TARGET_TOUCH (R19). -/
def execTargetTouch (addr : Nat) (data : Byte) (s : State) : Host.Outcome State Fault Refusal :=
  match s.touch? .target addr with
  | some t => s.event true fun x => { x.forwardByte addr data with part := x.part.targetTouch t }
  | none => .next s

/-- SHOWN_TOUCH (R24). -/
def execShownTouch (addr : Nat) (data : Byte) (s : State) : Host.Outcome State Fault Refusal :=
  match s.touch? .shown addr with
  | some t => s.event true fun x => { x.forwardByte addr data with part := x.part.shownTouch t }
  | none => .next s

/-- STAGE_TOUCH (R25). -/
def execStageTouch (addr : Nat) (data : Byte) (s : State) : Host.Outcome State Fault Refusal :=
  match s.touch? .stage addr with
  | some t => s.event true fun x => { x.forwardByte addr data with part := x.part.stageTouch t }
  | none => .next s

/-- The order block offset of a forwarded byte, if it falls there (R145, R160). -/
def State.orderOffset? (s : State) (a : Nat) : Option Nat :=
  if s.forwards a then
    match s.classAt a with
    | .orderBlock offset => some offset
    | .pixel _ | .padding | .statusArea | .setupArea | .windowOther | .untapped => none
  else none

/-- The order capture copy takes a byte, and a transaction that covers offset 10Fh will give an order (R160). -/
def State.captureOrderByte (s : State) (offset : Nat) (b : Byte) : State :=
  { s with
    path := { s.path with
      host := s.path.host.map fun h => { h with givesOrder := h.givesOrder || offset == 0x0F } }
    part := { s.part with unit := { s.part.unit with orderCopy := s.part.unit.orderCopy.set offset b } } }

/-- ORDER_BLOCK_WRITE (R160). -/
def execOrderBlockWrite (addr : Nat) (data : Byte) (s : State) : Host.Outcome State Fault Refusal :=
  match s.orderOffset? addr with
  | some offset => s.event true fun x => (x.forwardByte addr data).captureOrderByte offset data
  | none => .next s

/-- A host write into a setup area (R162): the setup edited flag, and in APPLYING the edit mark. -/
def Part.setupEdit (part : Part) : Part :=
  { part with
    unit := { part.unit with
      setupEdited := true
      editMark := part.unit.editMark || part.unit.runState == .applying } }

/-- The forwarded byte falls in a setup area (R145). -/
def State.editsSetup (s : State) (a : Nat) : Bool := s.forwards a && s.classAt a == .setupArea

/-- SETUP_EDIT (R162). -/
def execSetupEdit (addr : Nat) (data : Byte) (s : State) : Host.Outcome State Fault Refusal :=
  s.event (s.editsSetup addr) fun x => { x.forwardByte addr data with part := x.part.setupEdit }

/-- A class that is handed to no one (R145). -/
def ByteClass.handedToNoOne : ByteClass → Bool
  | .padding | .statusArea | .windowOther | .untapped => true
  | .pixel _ | .orderBlock _ | .setupArea => false

/-- The forwarded byte is handed to no one (R145). -/
def State.passesBy (s : State) (a : Nat) : Bool := s.forwards a && (s.classAt a).handedToNoOne

/-- UNTAPPED_WRITE (R145): the byte is forwarded and nothing else happens. -/
def execUntappedWrite (addr : Nat) (data : Byte) (s : State) : Host.Outcome State Fault Refusal :=
  s.event (s.passesBy addr) fun x => x.forwardByte addr data

end Sys2Proof.Machine
end

