-- ==== Sys2Proof/Machine/Dispatch.lean ====
section
/-! DEFINITION. The command's meaning, arm by arm. -/

namespace Sys2Proof.Machine

/-- The effect of a command on everything but the queue. -/
def exec (i : Instr) (s : State) : Host.Outcome State Fault Refusal :=
  match i with
  | .hardwareReset landed => Sys2Proof.Machine.execHardwareReset landed s
  | .resetEnd second first => Sys2Proof.Machine.execResetEnd second first s
  | .hostTransactionStart command addr => Sys2Proof.Machine.execHostTransactionStart command addr s
  | .hostTransactionEnd data grantFirst => Sys2Proof.Machine.execHostTransactionEnd data grantFirst s
  | .targetTouch addr data => Sys2Proof.Machine.execTargetTouch addr data s
  | .shownTouch addr data => Sys2Proof.Machine.execShownTouch addr data s
  | .stageTouch addr data => Sys2Proof.Machine.execStageTouch addr data s
  | .orderBlockWrite addr data => Sys2Proof.Machine.execOrderBlockWrite addr data s
  | .setupEdit addr data => Sys2Proof.Machine.execSetupEdit addr data s
  | .untappedWrite addr data => Sys2Proof.Machine.execUntappedWrite addr data s
  | .apply => Sys2Proof.Machine.execApply s
  | .run => Sys2Proof.Machine.execRun s
  | .halt => Sys2Proof.Machine.execHalt s
  | .refreshZone target mode cls => Sys2Proof.Machine.execRefreshZone target mode cls s
  | .refreshPanel target mode cls => Sys2Proof.Machine.execRefreshPanel target mode cls s
  | .sweep mask => Sys2Proof.Machine.execSweep mask s
  | .setClock arg1 arg2 => Sys2Proof.Machine.execSetClock arg1 arg2 s
  | .clearAttn mask => Sys2Proof.Machine.execClearAttn mask s
  | .restorePort target => Sys2Proof.Machine.execRestorePort target s
  | .unknownOrder code => Sys2Proof.Machine.execUnknownOrder code s
  | .captureBurstEnd => Sys2Proof.Machine.execCaptureBurstEnd s
  | .feedBurstEnd => Sys2Proof.Machine.execFeedBurstEnd s
  | .commitReadEnd => Sys2Proof.Machine.execCommitReadEnd s
  | .commitWriteEnd => Sys2Proof.Machine.execCommitWriteEnd s
  | .setupReadEnd => Sys2Proof.Machine.execSetupReadEnd s
  | .statusPostEnd => Sys2Proof.Machine.execStatusPostEnd s
  | .tick => Sys2Proof.Machine.execTick s
  | .settleExpiry zone => Sys2Proof.Machine.execSettleExpiry zone s
  | .second storage solar order => Sys2Proof.Machine.execSecond storage solar order s
  | .driveStart panel => Sys2Proof.Machine.execDriveStart panel s
  | .frameStart panel => Sys2Proof.Machine.execFrameStart panel s
  | .lineSlot panel busy => Sys2Proof.Machine.execLineSlot panel busy s
  | .close panel busy => Sys2Proof.Machine.execClose panel busy s
  | .wake panel busy => Sys2Proof.Machine.execWake panel busy s
  | .busyNegated panel => Sys2Proof.Machine.execBusyNegated panel s
  | .ident panel width height => Sys2Proof.Machine.execIdent panel width height s
  | .tempQuery panel => Sys2Proof.Machine.execTempQuery panel s
  | .temp panel degrees => Sys2Proof.Machine.execTemp panel degrees s
  | .wakeBusyLimit panel => Sys2Proof.Machine.execWakeBusyLimit panel s
  | .identReplyTimeout panel => Sys2Proof.Machine.execIdentReplyTimeout panel s
  | .tempReplyTimeout panel => Sys2Proof.Machine.execTempReplyTimeout panel s
  | .frameBusyLimit panel => Sys2Proof.Machine.execFrameBusyLimit panel s
  | .closeBusyLimit panel => Sys2Proof.Machine.execCloseBusyLimit panel s
  | .rest panel => Sys2Proof.Machine.execRest panel s
  | .retryWake panel holdPassed busy => Sys2Proof.Machine.execRetryWake panel holdPassed busy s
  | .railRaise => Sys2Proof.Machine.execRailRaise s
  | .railGoodAsserted => Sys2Proof.Machine.execRailGoodAsserted s
  | .railGoodNegated => Sys2Proof.Machine.execRailGoodNegated s
  | .riseLimit => Sys2Proof.Machine.execRiseLimit s
  | .lingerExpiry => Sys2Proof.Machine.execLingerExpiry s
  | .dischargeEnd => Sys2Proof.Machine.execDischargeEnd s
  | .railRetry => Sys2Proof.Machine.execRailRetry s

end Sys2Proof.Machine
end

