-- ==== Sys2Proof/Safety.lean ====
section
/-! DEFINITION. The terms in which claims are stated: what is left open at the end of every step, and the invariants
that every step keeps. -/

namespace Sys2Proof.Machine

/-! ### Between steps -/

/-- The part is not in reset, and no walk is owed: how every step that does not assert reset leaves it. -/
abbrev State.Ready (s : State) : Prop := s.path.inReset = false ∧ s.part.walkOwed = false

/-! ### Agreement outside what the end of a step may change

Every enabled step ends with the walks it owes (R46), the posting it owes (R149) and the memory port's next business
(R144, R146, R148). A claim about a command's own effect compares the next state with the effect outside these. -/

/-- An engine apart from its request's way through the Memory Arbiter (R109, R146). -/
def Engine.outsidePath (e : Engine) : Engine := { e with request := none, inFlight := false, cursor := 0 }

/-- The Control Window unit apart from its own requests of the memory port (R146, R149). -/
def WindowUnit.outsidePath (u : WindowUnit) : WindowUnit :=
  { u with postingOwed := false, postWaiting := false, setupRequest := none }

/-- The memory path apart from grants, the feed stall test and the forwarding of a held transaction. -/
def Path.outsidePath (x : Path) : Path :=
  { x with
    burst := none
    lastServed := Quad.all 0
    host := x.host.map fun h => { h with phase := .held, inserted := false } }

/-- The engines apart from their requests. -/
def enginesOutsidePath (q : Quad (Option Engine)) : Quad (Option Engine) :=
  Quad.ofPanels fun p => (q.get p).map Engine.outsidePath

/-- The part apart from what the memory port's business changes, the walk mark cleared. -/
def Part.outsidePath (part : Part) : Part :=
  { part with unit := part.unit.outsidePath, engines := enginesOutsidePath part.engines, walkOwed := false }

/-- The state apart from what the memory port's business changes. -/
def State.outsidePath (s : State) : State := { s with path := s.path.outsidePath, part := s.part.outsidePath }

/-- Two states agree but for the memory port's business: of a step that causes no walk, `t` is what it answers and `u`
its own effect. -/
def State.AgreesOutsidePath (t u : State) : Prop := t.outsidePath = u.outsidePath

/-- The ports apart from a wake that an admission demands (R48). -/
def portsOutsideWalk (q : Quad Port) : Quad Port := Quad.ofPanels fun p => { q.get p with wakePending := false }

/-- The part apart from what walks and the memory port's business change: the queue and its counts, the tiles and zones,
the engines, the wakes demanded, and the attention causes. -/
def Part.outsideWalk (part : Part) : Part :=
  { part with
    unit := { part.unit.outsidePath with causes := [] }
    tiles := []
    zones := []
    pool := []
    sequence := 0
    runningCount := 0
    committed := 0
    stopMark := none
    walkOwed := false
    engines := Quad.all none
    ports := portsOutsideWalk part.ports }

/-- The state apart from what walks and the memory port's business change. -/
def State.outsideWalk (s : State) : State := { s with path := s.path.outsidePath, part := s.part.outsideWalk }

/-- Two states agree but for what walks and the memory port's business change. -/
def State.AgreesOutsideWalk (t u : State) : Prop := t.outsideWalk = u.outsideWalk

/-- The state in which the walks of a step leave its effect `u` when the run state admits nothing (R46, R102). -/
def State.walkedOver (u : State) : State :=
  { u with part := { u.part with stopMark := if u.part.walkOwed then none else u.part.stopMark } }

/-- COMPLETION. The command `c` at `s` answers a next state, which is its own effect `u` with what every step ends
with; so the next state agrees with `u` but for what walks and the memory port's business change, but for the memory
port's business alone where the step causes no walk, and but for that and the stop mark in a run state other than
RUNNING. -/
def CompletesWith (c : Instr) (s u : State) : Prop :=
  ∃ t, exec c s = .next t ∧ t = State.finish s u ∧ t.AgreesOutsideWalk u
    ∧ (u.part.walkOwed = false → t.AgreesOutsidePath u)
    ∧ (u.part.unit.runState ≠ .running → t.AgreesOutsidePath u.walkedOver)

/-! ### Invariants -/

/-- The sign memory is in canonical form. -/
def State.MemoryCanonical (s : State) : Prop := s.memory.wf = true

/-- A host transaction is being forwarded on the memory port. -/
def Path.forwarding (x : Path) : Bool :=
  match x.host with
  | some h => h.phase == .forwarding
  | none => false

/-- A host transaction and a burst of the part's own are never on the memory port together (R144). -/
def State.NeverInterleaves (s : State) : Prop := s.path.burst.isSome = true → s.path.forwarding = false

/-- Some request waits for the memory port (R146). -/
def State.requestWaits (s : State) : Bool :=
  panelNos.any (fun p => (s.part.requestLevel? p).isSome) || s.part.unit.setupRequest.isSome || s.part.unit.postWaiting

/-- A free memory port with no host transaction active leaves no request waiting (R146). -/
def State.NeverIdles (s : State) : Prop :=
  s.path.inReset = false → s.path.burst = none → s.path.host = none → s.requestWaits = false

/-- A posting that is owed is waiting or in progress (R149). -/
def State.PostingAsked (s : State) : Prop :=
  s.path.inReset = false → s.part.unit.postingOwed = true →
    (s.part.unit.postWaiting || s.path.busyWith .statusPost) = true

/-- What the memory path keeps between steps. -/
def State.PathSound (s : State) : Prop := s.NeverInterleaves ∧ s.NeverIdles ∧ s.PostingAsked

/-- The counts of the Time Base lie in their ranges (R151, R152). -/
def Clock.InRange (k : Clock) : Prop :=
  k.secondOfDay < 86400 ∧ k.dayCount < 65536 ∧ k.tick < 32 ∧ k.windowSecond < 32

/-- The monitor's figures lie in their ranges (R88, R91): the run count stops short of the 120 samples that turn LIGHT
to DARK, and of the 60 that turn DARK to LIGHT. -/
def Energy.InRange (e : Energy) : Prop :=
  e.vs ≤ 6000 ∧ e.vsol ≤ 30000 ∧ e.runCount < if e.dark then 60 else 120

/-- Between steps no walk is owed (R46), and the 13 attention causes stand at their places (R167). -/
def Part.Settled (part : Part) : Prop := part.walkOwed = false ∧ part.unit.causes.length = 13

/-- The cost of a pool's slot: its job's current cost while it runs (R96). -/
def slotCost : Option Job → Nat
  | some j =>
    match j.running with
    | some r => r.cost
    | none => 0
  | none => 0

/-- The sum of the current costs of the running jobs (R96). -/
def Part.runningCost (part : Part) : Nat := (part.pool.map slotCost).sum

/-- The pool and the scheduler's two counts agree (R36, R48, R96): a job has its admitted fields absent exactly while
it is QUEUED, K is the sum of the current costs of the running jobs, and the running count is their number. -/
def Part.PoolSound (part : Part) : Prop :=
  (∀ j, some j ∈ part.pool → (j.state = .queued ↔ j.running = none))
    ∧ part.committed = part.runningCost
    ∧ part.runningCount = part.pool.countP fun x => (x.bind (·.running)).isSome

/-- A tile record's debt lies in its range, and REDIRTY stands on an ACTIVE tile only (R9, R11). -/
def Tile.Sound (t : Tile) : Prop := t.debt ≤ 255 ∧ (t.redirty = true → t.state = .active)

/-- The tiles of a setup's enabled panels (R7). -/
def Setup.tileTotal (g : Setup) : Nat := (panelNos.map g.tilesOf).sum

/-- Every zone's DIRTY count is the number of its DIRTY tiles, and at 0 its dirty-since is none and HELD is clear (R17). -/
def Part.ZonesInStep (part : Part) : Prop :=
  ∀ z ∈ part.zones, z.dirtyCount = dirtyTiles part.tiles z.index
    ∧ (z.dirtyCount = 0 → z.dirtySince = none ∧ z.held = none)

/-- The table holds a record for each tile of each enabled panel and no more (R7, R13), and every record is sound (R9,
R11). -/
def Part.TilesSound (part : Part) : Prop :=
  part.tiles.length = (part.setup.map Setup.tileTotal).getD 0 ∧ ∀ t ∈ part.tiles, t.Sound

/-! ### Attention (R167) -/

/-- One cause is latched with a detail, or keeps the detail it has; every other cause stays (R167). -/
def Part.Latched (before after : Part) (k : Cause) (detail : Nat) : Prop :=
  (before.unit.causes.length = 13 →
      after.unit.detail? k = some ((before.unit.detail? k).getD detail))
    ∧ ∀ q, q ≠ k → after.unit.detail? q = before.unit.detail? q

/-! ### Bursts -/

/-- The burst in progress is one of the Transfer Engine's for the panel's running job, and its data is still wanted
(R108, R116): the premise of the statements about the ends of such bursts. -/
def State.Serves (s : State) (b : Burst) (g : Setup) (c : PanelCfg) (slot : Nat) (j : Job) (r : RunFields)
    (e : Engine) : Prop :=
  s.Ready ∧ s.path.burst = some b ∧ s.part.setup = some g ∧ g.panels.get b.panel = some c
    ∧ s.part.running? b.panel = some (slot, j, r) ∧ s.part.engine? b.panel = some e ∧ e.inFlight = true ∧ e.discard = false

/-- The frame count F of a running job (R67): Fp or Ff of its band. -/
def Setup.frameCount (g : Setup) (r : RunFields) : Nat :=
  match r.mode with
  | .part => (g.band r.band).partialFrames
  | .full => (g.band r.band).fullFrames

/-! ### The feed, the line slots and the commit's groups (R108, R113, R115 to R119) -/

/-- The row pair that follows the one of frame `x.1`, pixel row `x.2`, in the order of the slots over `frames` frames
(R113). -/
def Job.rowAfter (j : Job) (frames : Nat) (x : Nat × Nat) : Option (Nat × Nat) :=
  if x.2 < 32 * j.rect.ty1 + 31 then some (x.1, x.2 + 1)
  else if x.1 + 1 < frames then some (x.1 + 1, 32 * j.rect.ty0)
  else none

/-- The first read of the feed of pixel row `y` (R108, R113): SHOWN for a PARTIAL job, STAGE for a FULL one. -/
def Job.feedAsked (j : Job) (mode : DriveMode) (c : PanelCfg) (p : PanelNo) (y : Nat) : Burst where
  kind := if mode = .part then .feedShown else .feedStage
  panel := p
  row := y
  tx := j.rect.tx0
  tiles := min 16 (j.rect.tx1 + 1 - j.rect.tx0)
  addr := (if mode = .part then c.shownBase else c.stageBase) + y * c.stride + 8 * j.rect.tx0
  data := []

/-- The engine `e` with its next fill begun (R112, R113): where a place is free, none is filling, the feed goes on and rows
remain, the next row pair is in fill, its first read asked for and the feed position one on; else nothing changes. -/
def Engine.FillsNext (e e' : Engine) (c : PanelCfg) (p : PanelNo) (j : Job) (mode : DriveMode) (frames : Nat) : Prop :=
  (e.fill.isSome = true ∨ e.feedStopped = true ∨ e.feed = none ∨ 4 ≤ e.buffer.length → e' = e)
    ∧ ∀ x, e.fill = none → e.feedStopped = false → e.feed = some x → e.buffer.length < 4 →
      e' = { e with
        fill := some ⟨x.1, x.2, [], []⟩, feed := j.rowAfter frames x, request := some (j.feedAsked mode c p x.2) }

/-- What a line slot of window `w` sends for a DRIVING job, and what it leaves but for the port's record (R115, R116, R131).
A frame that is being ended and a rail that is not UP: a null row, and nothing changes. A row pair at the head of the buffer:
its codes; it leaves the buffer and the next fill begins. None: an underrun; a null row, UNDERRUN latched, the mark set on
the tiles of the row's tile row and no other; the place that was filling is freed, its request withdrawn and the data of its
burst in flight discarded, or with none filling the feed position moved past the row; then the next fill begins. -/
def Part.RowSent (before after : Part) (g : Setup) (c : PanelCfg) (p : PanelNo) (w : Window) (j : Job) (r : RunFields)
    (e e' : Engine) (codes : List DriveCode) : Prop :=
  (w.ending = true ∨ before.rail.state ≠ .up →
      after = before ∧ e' = e ∧ codes = List.replicate (w.x1 + 1 - w.x0) .keep)
    ∧ (∀ pair rest, w.ending = false → before.rail.state = .up → e.buffer = pair :: rest →
      after = { before with engines := before.engines.set p (some e') }
        ∧ codes = rowCodes r.mode (g.frameCount r) (w.frame.getD 0) pair
        ∧ Engine.FillsNext { e with buffer := rest } e' c p j r.mode (g.frameCount r))
    ∧ (w.ending = false → before.rail.state = .up → e.buffer = [] →
      ∃ left : Engine,
        after = { before with
          engines := before.engines.set p (some e'), unit := { before.unit with causes := after.unit.causes } }
        ∧ codes = List.replicate (w.x1 + 1 - w.x0) .keep
        ∧ before.Latched after .underrun p.val
        ∧ left = { e with
            context := left.context
            fill := none
            request := if e.fill.isSome then none else e.request
            discard := if e.fill.isSome then e.inFlight else e.discard
            feed := if e.fill.isSome then e.feed else e.feed.bind (j.rowAfter (g.frameCount r)) }
        ∧ left.context.length = e.context.length
        ∧ (e.context.length = j.rect.cols * j.rect.rows → j.rect.ty0 ≤ (w.y0 + w.slots) / 32 →
            (w.y0 + w.slots) / 32 ≤ j.rect.ty1 → ∀ tx ty, j.rect.contains tx ty = true →
            left.entry j.rect tx ty
              = if ty = (w.y0 + w.slots) / 32 then { e.entry j.rect tx ty with underrun := true }
                else e.entry j.rect tx ty)
        ∧ left.FillsNext e' c p j r.mode (g.frameCount r))

/-- The next group of a commit over a rectangle from pixel row `y0`, tile column `x0` on (R119): `n` adjacent tiles of row
`row` from tile column `tx`, at most 16, all to be copied; fewer than 16 only where the run ends, and every tile row segment
passed over is of a tile that is not to be copied. -/
def Rect.NextGroup (b : Rect) (copied : Nat → Nat → Prop) (y0 x0 row tx n : Nat) : Prop :=
  0 < n ∧ n ≤ 16 ∧ row ≤ 32 * b.ty1 + 31 ∧ tx + n ≤ b.tx1 + 1 ∧ (b.tx0 ≤ x0 → b.tx0 ≤ tx)
    ∧ (y0 < row ∨ (row = y0 ∧ x0 ≤ tx))
    ∧ (∀ x, tx ≤ x → x < tx + n → copied x row)
    ∧ (n < 16 → tx + n ≤ b.tx1 → ¬copied (tx + n) row)
    ∧ ∀ y x, b.tx0 ≤ x → x ≤ b.tx1 → (y0 < y ∨ (y = y0 ∧ x0 ≤ x)) → (y < row ∨ (y = row ∧ x < tx)) → ¬copied x y

/-- Nothing of a rectangle is left to be copied from pixel row `y0`, tile column `x0` on (R119). -/
def Rect.NoneLeft (b : Rect) (copied : Nat → Nat → Prop) (y0 x0 : Nat) : Prop :=
  ∀ y x, b.tx0 ≤ x → x ≤ b.tx1 → y ≤ 32 * b.ty1 + 31 → (y0 < y ∨ (y = y0 ∧ x0 ≤ x)) → ¬copied x y

/-- No zone waits for a slot, so that a slot that frees places nothing (R32). -/
def Part.NoneHeld (part : Part) : Prop := ∀ z ∈ part.zones, z.held = none

/-- No zone waits for a slot and no zone's settle timer is stopped, so that the end of a job places nothing (R32,
R33). -/
def Part.ZonesQuiet (part : Part) : Prop := ∀ z ∈ part.zones, z.held = none ∧ z.timer.isSome = true

/-! ### Ports -/

/-- A port under a rest delay of 0 that has no running job (R129): it rests at once where it is READY with query due and
TEMP outstanding clear. -/
def Port.restsAtOnce (x : Port) (c : PanelCfg) (now : Stamp) : Port :=
  if c.restDelay = 0 ∧ x.state = .ready ∧ x.queryDue = false ∧ x.tempOutstanding = false then
    { x with state := .off, lastRest := some now, sent := some .rest }
  else x

/-- The record `x` that an event leaves port `p`, which may rest at once where its panel is enabled and has no running
job (R129). -/
def Part.rested (part : Part) (p : PanelNo) (x : Port) : Port :=
  match part.setup.bind fun g => g.panels.get p with
  | some c => if part.running? p = none then x.restsAtOnce c ⟨part.clock.mono, part.clock.tick⟩ else x
  | none => x

/-- The record of a port whose panel's job starts its drive (R124, R130, R132): DRIVING, with OPEN sent for the window in
pixels, the frame count and the line period. -/
def Port.opened (x : Port) (g : Setup) (c : PanelCfg) (j : Job) (r : RunFields) : Port :=
  { x with
    state := .driving, limit := none
    window := some
      { x0 := 32 * j.rect.tx0, x1 := 32 * j.rect.tx1 + 31, y0 := 32 * j.rect.ty0, y1 := 32 * j.rect.ty1 + 31
        frames := g.frameCount r, linePeriod := c.linePeriod
        spacing := max (1000 * (g.band r.band).period) (32 * (j.rect.ty1 + 1 - j.rect.ty0) * c.linePeriod)
        frame := none, slots := 0, settled := true, ending := false }
    sent := some (.openWindow (32 * j.rect.tx0) (32 * j.rect.tx1 + 31) (32 * j.rect.ty0) (32 * j.rect.ty1 + 31)
      (g.frameCount r) c.linePeriod) }

/-- The record of a port that RESTORE_PORT restores (R137): OFF, the fault and its retries gone, an owed CLOSE abandoned, and
a wake demanded where a poll is due. -/
def Part.restored (part : Part) (p : PanelNo) (x : Port) : Port :=
  { x with
    state := .off, cause := .none, held := false, attempts := 0, retry := none, retryWake := false, limit := none
    window := none, restoreWaits := false
    wakePending := x.wakePending || ((part.selector? p).map (·.pollDue)).getD false }

/-- The rail once a job has become POISED (R140, R141): LINGER returns to UP, and OFF with no negation recorded rises at
once; OFF with one waits for RAIL_RAISE (log 11), and in every other state the rail stays. -/
def Rail.wanted (x : Rail) (g : Setup) : Rail :=
  if x.state = .linger then { x with state := .up, timer := none }
  else if x.state = .off ∧ x.lastNegation = none then { x with state := .rising, timer := some g.globals.riseLimit }
  else x

/-- A port between frames: its window, if it has one, has had all slots of its last frame (R131, R132). -/
def Port.betweenFrames (x : Port) : Prop :=
  ∀ w, x.window = some w → w.frame = none ∨ w.y1 + 1 - w.y0 ≤ w.slots

/-- What faults a port with a cause (R125, R127, R128): a limit that runs, an awaited TEMP, an IDENT of another size. -/
def Port.FaultedBy (x : Port) (p : PanelNo) (c : PanelCfg) (o : Instr) (cause : FaultCause) : Prop :=
  (o = .wakeBusyLimit p ∧ cause = .busyStuck ∧ ∃ l, x.limit = some l ∧ l.kind = .wakeBusy)
    ∨ (o = .identReplyTimeout p ∧ cause = .noReply ∧ ∃ l, x.limit = some l ∧ l.kind = .identReply)
    ∨ (o = .tempReplyTimeout p ∧ cause = .noReply ∧ x.tempOutstanding = true)
    ∨ (o = .closeBusyLimit p ∧ cause = .busyStuck ∧ ∃ l, x.limit = some l ∧ l.kind = .closeBusy)
    ∨ (o = .frameBusyLimit p ∧ cause = .busyStuck ∧ x.state ≠ .fault ∧ x.betweenFrames
        ∧ ∃ l, x.limit = some l ∧ l.kind = .frameBusy)
    ∨ (∃ width height, o = .ident p width height ∧ cause = .geometry ∧ x.state = .waking
        ∧ (width ≠ c.width ∨ height ≠ c.height))

/-! ### Requests (R31, R36 to R45) -/

/-- A zone record brought into step with the tiles (R17): the DIRTY count is the number of the zone's DIRTY tiles,
dirty-since is set as it rises from 0, and at 0 dirty-since is none and HELD is clear. -/
def Zone.counted (tiles : List Tile) (now : Count32) (y : Zone) : Zone :=
  { y with
    dirtyCount := dirtyTiles tiles y.index
    dirtySince :=
      if dirtyTiles tiles y.index = 0 then none else if y.dirtyCount = 0 then some now else y.dirtySince
    held := if dirtyTiles tiles y.index = 0 then none else y.held }

/-- The lowest-numbered free slot (R37). -/
def Part.LowestFree (part : Part) (slot : Nat) : Prop :=
  part.job? slot = none ∧ slot < part.pool.length ∧ ∀ i, i < slot → (part.job? i).isSome = true

/-- The record of a job placed now, under the next sequence number (R36, R38). -/
def Part.newJob (part : Part) (p : PanelNo) (scope : JobScope) (rect : Rect) (cls : RefreshClass) (origin : Origin)
    (full : Bool) : Job where
  panel := p
  scope := scope
  rect := rect
  cls := cls
  origin := origin
  fullRequest := full
  sequence := part.sequence
  enqueued := part.clock.mono
  state := .queued
  running := none
  urgentCarried := false
  starvedReported := false

/-- The DIRTY tiles that a request takes up become QUEUED and every other tile stays; every zone's DIRTY count follows,
and its record changes by `f` besides (R17, R31, R41). -/
def Part.TookUp (before after : Part) (g : Setup) (took : PanelNo → Nat → Nat → Tile → Prop) (f : Zone → Zone) : Prop :=
  (∀ p tx ty x, before.tileAt? g p tx ty = some x →
      (x.state = .dirty ∧ took p tx ty x → after.tileAt? g p tx ty = some { x with state := .queued })
      ∧ (¬(x.state = .dirty ∧ took p tx ty x) → after.tileAt? g p tx ty = some x))
    ∧ ∀ n y, before.zone? n = some y → after.zone? n = some (f (y.counted after.tiles before.clock.mono))

/-- What the zone request of slot `slot` takes up (R31): the zone's DIRTY tiles; HELD and EPOCH_WAIT are cleared, and the
zone's queued job is the slot's. -/
def Part.TookUpZone (before after : Part) (g : Setup) (z : ZoneCfg) (slot : Nat) : Prop :=
  before.TookUp after g (fun p tx ty x => p = z.panel ∧ z.rect.contains tx ty = true ∧ x.zone = some z.index)
    fun y => if y.index = z.index then { y with held := none, epochWait := false, queuedJob := some slot } else y

/-- An enqueue attempt of a zone with an origin (R31, R36 to R39, R43 to R45). A zone that is not dirty makes no request. A
dirty one is merged into its QUEUED job, placed in the lowest free slot, or refused for a full pool: then it is HELD with the
origin, QUEUE_FULL is latched, and nothing else changes but EPOCH_WAIT. -/
def Part.Enqueued (before after : Part) (g : Setup) (z : ZoneCfg) (o : Origin) : Prop :=
  ((∀ x, before.zone? z.index = some x → x.dirtyCount = 0) → after = before)
    ∧ ∀ x box, before.zone? z.index = some x → 0 < x.dirtyCount → box = (before.dirtyBox? g z).getD z.rect →
      (∀ slot, x.queuedJob = none → before.LowestFree slot →
        after = { before with
            tiles := after.tiles, zones := after.zones
            pool := before.pool.set slot (some (before.newJob z.panel (.zone z.index) box z.cls o false))
            sequence := before.sequence + 1
            walkOwed := true }
          ∧ before.TookUpZone after g z slot)
      ∧ (∀ slot j, x.queuedJob = some slot → before.job? slot = some j →
        after = { before with
            tiles := after.tiles, zones := after.zones
            pool := before.pool.set slot (some { j with
              rect := ⟨min j.rect.tx0 box.tx0, max j.rect.tx1 box.tx1, min j.rect.ty0 box.ty0, max j.rect.ty1 box.ty1⟩
              cls := if z.cls.rank < j.cls.rank then z.cls else j.cls
              sequence := if z.cls.rank < j.cls.rank then before.sequence else j.sequence })
            sequence := if z.cls.rank < j.cls.rank then before.sequence + 1 else before.sequence
            walkOwed := true }
          ∧ before.TookUpZone after g z slot)
      ∧ (x.queuedJob = none → (∀ y ∈ before.pool, y.isSome = true) →
        after = { before with
            zones := before.zones.map fun y =>
              if y.index = z.index then { y with epochWait := false, held := some o } else y
            unit := { before.unit with causes := after.unit.causes } }
          ∧ before.Latched after .queueFull z.index)

/-- A sweep request for an enabled panel (R36 to R38, R42 to R45): merged into the panel's QUEUED PANEL job, which it gives
the full request, or placed over the whole panel in the lowest free slot, and every DIRTY tile of the panel becomes QUEUED;
or dropped for a full pool, with QUEUE_FULL latched. -/
def Part.SweepRequested (before after : Part) (g : Setup) (p : PanelNo) (c : PanelCfg) (o : Origin) : Prop :=
  ∀ whole : Rect, whole = ⟨0, c.width / 32 - 1, 0, c.height / 32 - 1⟩ →
    (∀ slot, before.queuedPanelJob? p = none → before.LowestFree slot →
      after = { before with
          tiles := after.tiles, zones := after.zones
          pool := before.pool.set slot (some (before.newJob p (.panel p) whole .sweep o true))
          sequence := before.sequence + 1
          walkOwed := true }
        ∧ before.TookUp after g (fun q _ _ _ => q = p) id)
    ∧ (∀ slot j, before.queuedPanelJob? p = some (slot, j) →
      after = { before with
          tiles := after.tiles, zones := after.zones
          pool := before.pool.set slot (some { j with
            rect := ⟨min j.rect.tx0 0, max j.rect.tx1 whole.tx1, min j.rect.ty0 0, max j.rect.ty1 whole.ty1⟩
            fullRequest := true })
          walkOwed := true }
        ∧ before.TookUp after g (fun q _ _ _ => q = p) id)
    ∧ (before.queuedPanelJob? p = none → (∀ y ∈ before.pool, y.isSome = true) →
      after = { before with unit := { before.unit with causes := after.unit.causes } }
        ∧ before.Latched after .queueFull (0x80 + p.val))

/-! ### The triggers of a zone and of a sweep (R27 to R33, R75, R76) -/

/-- The things of a list are taken in turn, each by `does`. -/
def Passes {α : Type} (does : α → Part → Part → Prop) : List α → Part → Part → Prop
  | [], before, after => after = before
  | x :: xs, before, after => ∃ mid, does x before mid ∧ Passes does xs mid after

/-- A second of day lies in quiet hours (R156). -/
def Setup.QuietAt (g : Setup) (i : Nat) : Prop :=
  (g.globals.quietStart < g.globals.quietEnd ∧ g.globals.quietStart ≤ i ∧ i < g.globals.quietEnd)
    ∨ (g.globals.quietEnd < g.globals.quietStart ∧ (g.globals.quietStart ≤ i ∨ i < g.globals.quietEnd))

/-- The Time Base reports quiet hours (R29, R156): at the tick that ends the last quiet second they are over although the
second event has not been taken (log 28). -/
def Part.QuietHours (part : Part) (g : Setup) : Prop :=
  g.QuietAt part.clock.secondOfDay
    ∧ (part.clock.secondDue = true →
      g.QuietAt (if part.clock.secondOfDay = 86399 then 0 else part.clock.secondOfDay + 1))

/-- The zone's settle timer is stopped; an expiry that waits for its SETTLE_EXPIRY counts as running (log 16). -/
def Zone.TimerStopped (x : Zone) : Prop := x.timer = none ∧ x.expired = false

/-- The HELD retry over zones in ascending index (R32): each HELD zone but a ROUTINE one in quiet hours makes an enqueue
attempt with its held origin, and the first that is refused, so that the zone stays HELD, ends the pass (log 26). -/
def HeldPass (g : Setup) : List ZoneCfg → Part → Part → Prop
  | [], before, after => after = before
  | z :: zs, before, after =>
    ((∀ x, before.zone? z.index = some x → x.held = none ∨ (z.cls = .routine ∧ before.QuietHours g)) →
        HeldPass g zs before after)
      ∧ ∀ x o, before.zone? z.index = some x → x.held = some o → ¬(z.cls = .routine ∧ before.QuietHours g) →
        ∃ mid, before.Enqueued mid g z o
          ∧ ((∃ y, mid.zone? z.index = some y ∧ y.held.isSome = true) → after = mid)
          ∧ ((∀ y, mid.zone? z.index = some y → y.held = none) → HeldPass g zs mid after)

/-- A zone whose record meets `when'` makes an enqueue attempt, and no other does. -/
def Part.EnqueuedWhen (when' : Zone → Prop) (g : Setup) (o : Origin) (z : ZoneCfg) (before after : Part) : Prop :=
  (∀ x, before.zone? z.index = some x → when' x → before.Enqueued after g z o)
    ∧ ((∀ x, before.zone? z.index = some x → ¬when' x) → after = before)

/-- The epoch event at one zone (R28): a dirty TIMED zone is enqueued with origin EPOCH where its settle timer is stopped
and takes EPOCH_WAIT where it runs; no other zone responds. -/
def EpochTaken (g : Setup) (z : ZoneCfg) (before after : Part) : Prop :=
  (z.cls = .timed → ∀ x, before.zone? z.index = some x → 0 < x.dirtyCount →
      (x.TimerStopped → before.Enqueued after g z .epoch)
      ∧ (¬x.TimerStopped →
        after = { before with
          zones := before.zones.map fun y => if y.index = z.index then { y with epochWait := true } else y }))
    ∧ (z.cls ≠ .timed ∨ (∀ x, before.zone? z.index = some x → x.dirtyCount = 0) → after = before)

/-- The quiet-hours end event at one zone (R29): a dirty ROUTINE zone whose settle timer is stopped is enqueued with origin
SETTLE. -/
def QuietEndTaken (g : Setup) (z : ZoneCfg) (before after : Part) : Prop :=
  before.EnqueuedWhen (fun x => z.cls = .routine ∧ x.TimerStopped) g .settle z after

/-- The maximum hold test of one zone (R30): a dirty zone whose hold is above 0 and has passed is enqueued with origin HOLD,
but a ROUTINE one in quiet hours. -/
def HoldTaken (g : Setup) (z : ZoneCfg) (before after : Part) : Prop :=
  before.EnqueuedWhen
    (fun x => 0 < z.hold ∧ (∃ since, x.dirtySince = some since ∧ z.hold < (before.clock.mono - since).toNat)
      ∧ ¬(z.cls = .routine ∧ before.QuietHours g)) g .hold z after

/-- The retire trigger of one concerned zone (R27, R33): where its settle timer is stopped it acts as the zone's settle
expiry, with origin RETIRE. -/
def RetireTaken (g : Setup) (z : ZoneCfg) (before after : Part) : Prop :=
  ((∀ x, before.zone? z.index = some x → ¬x.TimerStopped) → after = before)
    ∧ ∀ x, before.zone? z.index = some x → x.TimerStopped →
      (z.cls ≠ .routine → z.cls ≠ .timed → before.Enqueued after g z .retire)
      ∧ (z.cls = .routine → before.QuietHours g → after = before)
      ∧ (z.cls = .routine → ¬before.QuietHours g → before.Enqueued after g z .retire)
      ∧ (z.cls = .timed → x.epochWait = false → after = before)
      ∧ (z.cls = .timed → x.epochWait = true → 0 < x.dirtyCount → before.Enqueued after g z .retire)
      ∧ (z.cls = .timed → x.epochWait = true → x.dirtyCount = 0 →
        after = { before with
          zones := before.zones.map fun y => if y.index = z.index then { y with epochWait := false } else y })

/-- An enabled panel that is not sweep-busy and meets `when'` makes a sweep request, and no other does (R74). -/
def Part.SweptWhen (when' : PanelCfg → Prop) (g : Setup) (o : Origin) (p : PanelNo) (before after : Part) : Prop :=
  (g.panels.get p = none → after = before)
    ∧ ∀ c (due : Prop), g.panels.get p = some c →
      (due ↔ when' c ∧ ∀ slot j r, before.running? p = some (slot, j, r) → j.scope ≠ .panel p ∨ j.fullRequest = false) →
      (due → before.SweepRequested after g p c o) ∧ (¬due → after = before)

/-- The sweep-time event at one panel (R75): some tile has debt above 0 or UNKNOWN set. -/
def SweepTimeTaken (g : Setup) (p : PanelNo) (before after : Part) : Prop :=
  before.SweptWhen
    (fun _ => ∃ tx ty x, before.tileAt? g p tx ty = some x ∧ (0 < x.debt ∨ x.untrusted = true)) g .sweepTime p after

/-- The surplus sweep test of one panel (R76): some tile has soft debt, and the last sweep lies further back than the sweep
spacing or there was none. -/
def SurplusTaken (g : Setup) (p : PanelNo) (before after : Part) : Prop :=
  before.SweptWhen
    (fun c => (∃ tx ty x, before.tileAt? g p tx ty = some x ∧ c.debtSoft ≤ x.debt)
      ∧ ∀ since, before.lastSweep.get p = some since →
        3600 * g.globals.sweepSpacing < (before.clock.mono - since).toNat) g .surplus p after

/-! ### The refresh queue and the walk (R38, R46 to R49, R64 to R66, R92, R97 to R99, R101 to R103) -/

/-- A class's rank (R38): URGENT, TIMED, ROUTINE, SWEEP. -/
def RefreshClass.standing : RefreshClass → Nat
  | .urgent => 0
  | .timed => 1
  | .routine => 2
  | .sweep => 3

/-- Job `a` stands before job `b` in queue order (R38): by class rank and then by age, the sequence numbers issued since a
job's own, modulo 2³². -/
def Part.StandsBefore (part : Part) (a b : Job) : Prop :=
  a.cls.standing < b.cls.standing
    ∨ (a.cls.standing = b.cls.standing ∧ (part.sequence - b.sequence).toNat < (part.sequence - a.sequence).toNat)

/-- The refresh queue (R38): every QUEUED job of the pool with its slot, each once, and none behind a job that it stands
before. -/
def Part.QueueIs (part : Part) (queue : List (Nat × Job)) : Prop :=
  (∀ slot j, (slot, j) ∈ queue ↔ part.job? slot = some j ∧ j.state = .queued)
    ∧ (queue.map (·.1)).Nodup
    ∧ queue.Pairwise fun a b => ¬part.StandsBefore b.2 a.2

/-- A job is STARVED at this moment (R102, R103): QUEUED, URGENT, not reported, the job of the stop mark or behind it in
queue order, and older than the starvation limit. -/
def Part.Starves (part : Part) (g : Setup) (slot : Nat) (j : Job) : Prop :=
  j.state = .queued ∧ j.cls = .urgent ∧ j.starvedReported = false
    ∧ (∃ m q, part.stopMark = some m ∧ part.job? m = some q ∧ q.state = .queued
        ∧ (m = slot ∨ part.StandsBefore q j))
    ∧ g.globals.starvationLimit < (part.clock.mono - j.enqueued).toNat

/-- A part with the jobs that are STARVED reported so, and no other change to the pool (R103). -/
def Part.StarvedReported (before after : Part) (g : Setup) : Prop :=
  ∀ slot,
    (before.job? slot = none → after.job? slot = none)
    ∧ ∀ j, before.job? slot = some j →
      ∃ starves : Bool, (starves = true ↔ before.Starves g slot j)
        ∧ after.job? slot = some { j with starvedReported := j.starvedReported || starves }

/-- The STARVED test of the queued jobs (R103): the jobs that are STARVED are reported so, and the cause is latched where
there is one. -/
def Part.StarvedTested (before after : Part) (g : Setup) : Prop :=
  after = { before with pool := after.pool, unit := { before.unit with causes := after.unit.causes } }
    ∧ before.StarvedReported after g
    ∧ (∀ k, k ≠ .starved → after.unit.detail? k = before.unit.detail? k)
    ∧ ((∃ slot j, before.job? slot = some j ∧ before.Starves g slot j) → before.unit.causes.length = 13 →
      (after.unit.detail? .starved).isSome = true)
    ∧ ((∀ slot j, before.job? slot = some j → ¬before.Starves g slot j) → after.unit.causes = before.unit.causes)

/-- A walk skips a job (R47): the running count has reached the running limit, the job's panel has a running job, or its port
is in FAULT. -/
def Part.PassedOver (part : Part) (g : Setup) (j : Job) : Prop :=
  g.globals.runningLimit ≤ part.runningCount ∨ part.running? j.panel ≠ none ∨ (part.port j.panel).state = .fault

/-- The policy level is NORMAL or SURPLUS, at which soft debt counts (R65, R66). -/
def Part.SpendsOnDebt (part : Part) : Prop := part.energy.level = .normal ∨ part.energy.level = .surplus

/-- The QUEUED ZONE job `q` of slot `k` is one that the admission of job `j` withdraws: `j` is of scope PANEL, and `q` of its
panel (R49). -/
def Part.Withdraws (part : Part) (j : Job) (k : Nat) (q : Job) : Prop :=
  (∃ p, j.scope = .panel p) ∧ part.job? k = some q ∧ q.state = .queued ∧ q.panel = j.panel ∧ ∃ n, q.scope = .zone n

/-- The mode that a walk fixes for a job (R64): by R65 for a ZONE job, by R66 for a PANEL job. -/
def Part.ModeIs (part : Part) (g : Setup) (c : PanelCfg) (j : Job) (mode : DriveMode) : Prop :=
  match j.scope with
  | .zone n =>
    mode = .full ↔
      (∃ tx ty x, j.rect.contains tx ty = true ∧ part.tileAt? g j.panel tx ty = some x
          ∧ (x.untrusted = true ∨ c.debtHard ≤ x.debt))
        ∨ j.fullRequest = true ∨ (∃ z, g.zone? n = some z ∧ z.policy = .fullAlways)
        ∨ ((∀ z, g.zone? n = some z → z.policy = .auto) ∧ part.SpendsOnDebt
            ∧ ∃ tx ty x, j.rect.contains tx ty = true ∧ part.tileAt? g j.panel tx ty = some x ∧ c.debtSoft ≤ x.debt)
  | .panel _ =>
    mode = .full ↔
      (∃ tx ty x, part.tileAt? g j.panel tx ty = some x ∧ (x.untrusted = true ∨ c.debtHard ≤ x.debt))
        ∨ j.cls = .sweep ∨ j.fullRequest = true ∨ (∃ k q, part.Withdraws j k q ∧ q.fullRequest = true)
        ∨ (∃ tx ty x n z, part.tileAt? g j.panel tx ty = some x ∧ (x.state = .dirty ∨ x.state = .queued)
            ∧ x.zone = some n ∧ g.zone? n = some z ∧ z.policy = .fullAlways)
        ∨ (part.SpendsOnDebt ∧ ∃ tx ty x, part.tileAt? g j.panel tx ty = some x ∧ c.debtSoft ≤ x.debt
            ∧ ∀ n z, x.zone = some n → g.zone? n = some z → z.policy = .auto)

/-- The estimated cost that a walk fixes for a job of a mode and band (R97, R98): that of `pixels` pixels, the rectangle's of a
FULL job and those of its DIRTY and QUEUED tiles of a PARTIAL one, with the boost where the rail must be raised (R99). -/
def Part.CostIs (part : Part) (g : Setup) (c : PanelCfg) (j : Job) (mode : DriveMode) (band pixels cost : Nat) : Prop :=
  pixels = (if mode = .part then
      1024 * (part.tilesIn g j.panel j.rect).countP (fun x => x.2.state == .dirty || x.2.state == .queued)
    else 1024 * (j.rect.cols * j.rect.rows))
  ∧ ∃ frames, frames = (if mode = .part then (g.band band).partialFrames else (g.band band).fullFrames)
    ∧ cost = ceilDiv (ceilDiv (pixels * frames * c.pixelCost) 1000 + frames * c.frameCost
        + (if part.rail.state = .off ∨ part.rail.state = .falling ∨ part.rail.state = .fault then g.globals.boost
          else 0)) 1000

/-- The policy level admits the job's class, and its cost fits the spendable energy (R92, R101). -/
def Part.Fits (part : Part) (g : Setup) (j : Job) (cost : Nat) : Prop :=
  (part.SpendsOnDebt ∨ (part.energy.level = .lean ∧ (j.cls = .urgent ∨ j.cls = .timed)))
    ∧ cost ≤ part.energy.usable
        - (if part.energy.dark then g.globals.holdbackNight else g.globals.holdbackDay) - part.committed

/-- The engine of a job at its admission (R106, R107, R110): one context entry for each tile, the capture cursor at the
rectangle's first pixel row, and the read of the first group of TARGET asked for. -/
def Engine.begun (c : PanelCfg) (slot : Nat) (j : Job) : Engine where
  slot := slot
  context := List.replicate (j.rect.cols * j.rect.rows) ⟨0, false, false, false⟩
  cursor := 32 * j.rect.ty0
  group := j.rect.tx0
  feed := none
  fill := none
  buffer := []
  feedStopped := false
  commit := none
  request := some
    { kind := .captureTarget, panel := j.panel, row := 32 * j.rect.ty0, tx := j.rect.tx0
      tiles := min 16 (j.rect.tx1 + 1 - j.rect.tx0)
      addr := c.targetBase + 32 * j.rect.ty0 * c.stride + 8 * j.rect.tx0, data := [] }
  inFlight := false
  discard := false

/-- The admission of the QUEUED job `j` of `slot` (R48, R49): withdrawals first; the admitted fields, K and the running count;
the tiles ACTIVE, of which the carried set marks those that were DIRTY or QUEUED; the zones, the engine, and a wake of an OFF
port. A withdrawal owes a further walk (R46). -/
def Part.Admitted (before after : Part) (g : Setup) (c : PanelCfg) (slot : Nat) (j : Job) (mode : DriveMode)
    (band pixels cost : Nat) : Prop :=
  ∃ (r : RunFields) (full urgent : Bool), r = ⟨mode, band, cost, pixels, none, r.carried⟩
    ∧ (∀ i, i ∈ r.carried ↔
        ∃ tx ty x, j.rect.contains tx ty = true ∧ before.tileAt? g j.panel tx ty = some x
          ∧ (x.state = .dirty ∨ x.state = .queued) ∧ i = g.firstTile j.panel + ty * (c.width / 32) + tx)
    ∧ (full = true ↔ j.fullRequest = true ∨ ∃ k q, before.Withdraws j k q ∧ q.fullRequest = true)
    ∧ (urgent = true ↔ j.urgentCarried = true ∨ ∃ k q, before.Withdraws j k q ∧ q.cls = .urgent)
    ∧ after = { before with
        tiles := after.tiles, zones := after.zones, pool := after.pool, stopMark := after.stopMark
        walkOwed := after.walkOwed
        committed := before.committed + cost
        runningCount := before.runningCount + 1
        engines := before.engines.set j.panel (some (Engine.begun c slot j))
        ports := before.ports.set j.panel
          (if (before.port j.panel).state = .off
              ∨ ((before.port j.panel).state = .closing ∧ (before.port j.panel).closingOver = true)
            then { before.port j.panel with wakePending := true } else before.port j.panel) }
    ∧ (after.walkOwed = true ↔ before.walkOwed = true ∨ ∃ k q, before.Withdraws j k q)
    ∧ after.pool.length = before.pool.length
    ∧ (∀ k, (∃ q, before.Withdraws j k q) → after.job? k = none)
    ∧ (∀ k, k ≠ slot → (∀ q, ¬before.Withdraws j k q) → after.job? k = before.job? k)
    ∧ after.job? slot
        = some { j with state := .capturing, fullRequest := full, urgentCarried := urgent, running := some r }
    ∧ (∀ p tx ty x, before.tileAt? g p tx ty = some x →
        after.tileAt? g p tx ty
          = some (if p = j.panel ∧ j.rect.contains tx ty = true then { x with state := .active, redirty := false } else x))
    ∧ ∀ n y, before.zone? n = some y →
        ∃ queued, after.zone? n = some { y.counted after.tiles before.clock.mono with
            queuedJob := queued, runningJob := if j.scope = .zone n then some slot else y.runningJob }
          ∧ (j.scope = .zone n ∨ (∃ k q, before.Withdraws j k q ∧ q.scope = .zone n) → queued = none)
          ∧ (j.scope ≠ .zone n → (∀ k q, before.Withdraws j k q → q.scope ≠ .zone n) → queued = y.queuedJob)

/-- What a walk does with the jobs of the queue from one on (R47, R102). A job that has left the queue since is not tested, and
one that is passed over is skipped. Of a job that passes, the mode, band and estimated cost are fixed at the part as the
admissions so far have left it: where it fits, it is admitted and the walk goes on; the first that does not ends the walk, and
the stop mark is at it. A walk that passes the end of the queue sets no stop mark. -/
def WalkTaken (g : Setup) : List (Nat × Job) → Part → Part → Prop
  | [], before, after => after = { before with stopMark := none }
  | x :: rest, before, after =>
    (before.job? x.1 = none → WalkTaken g rest before after)
      ∧ ∀ j, before.job? x.1 = some j →
        (j.state ≠ .queued ∨ g.panels.get j.panel = none ∨ before.selector? j.panel = none ∨ before.PassedOver g j →
          WalkTaken g rest before after)
        ∧ ∀ c sel mode pixels cost, j.state = .queued → g.panels.get j.panel = some c →
            before.selector? j.panel = some sel → ¬before.PassedOver g j → before.ModeIs g c j mode →
            before.CostIs g c j mode sel.band pixels cost →
          (before.Fits g j cost →
              ∃ mid, before.Admitted mid g c x.1 j mode sel.band pixels cost ∧ WalkTaken g rest mid after)
            ∧ (¬before.Fits g j cost → after = { before with stopMark := some x.1 })

/-- One walk (R46, R47, R102, R103): in RUNNING the jobs of the queue are taken in its order, and where one was withdrawn the
HELD retry is made with all the freed slots free (R32, R49); in another run state nothing is admitted and there is no stop
mark. The STARVED test follows. -/
def Part.Walked (before after : Part) : Prop :=
  (before.setup = none → after = { before with walkOwed := false, stopMark := none })
    ∧ ∀ g, before.setup = some g →
      ∃ mid : Part,
        (before.unit.runState ≠ .running → mid = { before with walkOwed := false, stopMark := none })
        ∧ (before.unit.runState = .running →
          ∃ queue walked, before.QueueIs queue ∧ WalkTaken g queue { before with walkOwed := false } walked
            ∧ (walked.walkOwed = true → HeldPass g g.zones walked mid) ∧ (walked.walkOwed = false → mid = walked))
        ∧ mid.StarvedTested after g

/-- The walks at the end of a step (R46): while one is owed it is taken, up to `n`, and then none is owed. -/
def WalksOver : Nat → Part → Part → Prop
  | 0, before, after => after = { before with walkOwed := false }
  | n + 1, before, after =>
    (before.walkOwed = false → after = before)
      ∧ (before.walkOwed = true → ∃ mid, before.Walked mid ∧ WalksOver n mid after)

/-! ### The tests of a second (R28 to R30, R75, R76, R84, R85, R88, R103, R154 to R157) -/

/-- A second of day is an epoch boundary (R154). -/
def Setup.Boundary (g : Setup) (i : Nat) : Prop :=
  ((i : Int) - (g.globals.epochOffset : Int)) % (g.globals.epochPeriod : Int) = 0

/-- One test of a second, taken at the part as it then stands (log 6): what it does to zones, tiles and the pool, with the
fields it may change otherwise. -/
def TestMade (g : Setup) (t : SecondTask) (before after : Part) : Prop :=
  match t with
  | .epochZones =>
    (g.Boundary before.clock.secondOfDay → Passes (EpochTaken g) g.zones before after)
      ∧ (¬g.Boundary before.clock.secondOfDay → after = before)
  | .epochSweeps =>
    (g.Boundary before.clock.secondOfDay ∧ before.energy.level = .surplus →
        Passes (SurplusTaken g) panelNos before after)
      ∧ (¬(g.Boundary before.clock.secondOfDay ∧ before.energy.level = .surplus) → after = before)
  | .quietEnd =>
    (g.globals.quietStart ≠ g.globals.quietEnd ∧ before.clock.secondOfDay = g.globals.quietEnd →
        Passes (QuietEndTaken g) g.zones before after)
      ∧ (g.globals.quietStart = g.globals.quietEnd ∨ before.clock.secondOfDay ≠ g.globals.quietEnd → after = before)
  | .sweepTime =>
    (g.globals.sweepTime = some before.clock.secondOfDay → Passes (SweepTimeTaken g) panelNos before after)
      ∧ (g.globals.sweepTime ≠ some before.clock.secondOfDay → after = before)
  | .maximumHold => Passes (HoldTaken g) g.zones before after
  | .sample =>
    ∃ mid, mid = { before with
        energy := mid.energy, walkOwed := true, unit := { before.unit with causes := mid.unit.causes } }
      ∧ (∀ k, k ≠ .policyChanged → mid.unit.detail? k = before.unit.detail? k)
      ∧ (mid.energy.level = .surplus ∧ before.energy.level ≠ .surplus → Passes (SurplusTaken g) panelNos mid after)
      ∧ (mid.energy.level ≠ .surplus ∨ before.energy.level = .surplus → after = mid)
  | .starved => before.StarvedTested after g
  | .epochLead =>
    after = { before with unit := { before.unit with causes := after.unit.causes } }
      ∧ ∀ k, k ≠ .epochLead → after.unit.detail? k = before.unit.detail? k
  | .polls => after = { before with selectors := after.selectors, ports := after.ports }
  | .staleness =>
    after = { before with selectors := after.selectors, unit := { before.unit with causes := after.unit.causes } }
      ∧ ∀ k, k ≠ .tempStale → after.unit.detail? k = before.unit.detail? k
  | .walk => (before.walkOwed = true → before.Walked after) ∧ (before.walkOwed = false → after = before)

/-! ### What the end of a job leaves (R32 to R34, R52, R54, R141) -/

/-- The zones that a job concerns, in ascending index (R33): its zone, or every enabled zone of its panel. -/
def Setup.zonesConcerned (g : Setup) (j : Job) : List ZoneCfg :=
  match j.scope with
  | .zone n => (g.zone? n).toList
  | .panel p => g.zones.filter fun z => z.panel == p

/-- The zone of a ZONE job has no running job (R33, R34). -/
def Part.withoutRunning (part : Part) (j : Job) : Part :=
  { part with
    zones := part.zones.map fun y => if j.scope = .zone y.index then { y with runningJob := none } else y }

/-- The end of a halt (R59): in HALTING, where the running count is 0, the run state becomes STOPPED, HALTED is latched and a
walk caused; elsewhere nothing happens. -/
def Part.Halted (before after : Part) : Prop :=
  (before.unit.runState = .halting ∧ before.runningCount = 0 →
      after = { before with
          walkOwed := true, unit := { before.unit with runState := .stopped, causes := after.unit.causes } }
        ∧ before.Latched after .halted 0)
    ∧ (¬(before.unit.runState = .halting ∧ before.runningCount = 0) → after = before)

/-- What the tiles of the ended job `j` do to the attention causes (R23): LOOSE_WRITE is latched with the job's panel where a
LOOSE tile of its rectangle is left DIRTY, and no other cause changes. -/
def Part.LooseLatched (before after : Part) (g : Setup) (j : Job) : Prop :=
  ((∃ tx ty x, j.rect.contains tx ty = true ∧ after.tileAt? g j.panel tx ty = some x ∧ x.zone = none
      ∧ x.state = .dirty) → before.Latched after .looseWrite j.panel.val)
    ∧ ((∀ tx ty x, j.rect.contains tx ty = true → after.tileAt? g j.panel tx ty = some x → x.zone = none →
      x.state ≠ .dirty) → after.unit.causes = before.unit.causes)

/-- The retirement of job `j` once its tiles are settled and its slot is free (R32, R33): the HELD retry first, then the
zones it concerns, in ascending index. -/
def Part.Retires (ended after : Part) (g : Setup) (j : Job) : Prop :=
  ∃ mid, HeldPass g g.zones ended mid ∧ Passes (RetireTaken g) (g.zonesConcerned j) (mid.withoutRunning j) after

/-- URGENT_SHOWN at a retirement (R53): latched where a tile was copied and the job is URGENT or carries urgent content. -/
def Part.ShownLatched (before after : Part) (j : Job) (r : RunFields) (e : Engine) : Prop :=
  ((∃ x ∈ e.context, x.outcome r.mode = .copied) → j.cls = .urgent ∨ j.urgentCarried = true →
      after = { before with unit := { before.unit with causes := after.unit.causes } }
        ∧ before.Latched after .urgentShown j.scope.code)
    ∧ ((∀ x ∈ e.context, x.outcome r.mode ≠ .copied) ∨ (j.cls ≠ .urgent ∧ j.urgentCarried = false) → after = before)

/-- What is left of a job when it ends (R50, R52, R54): its cost out of K, the running count one less, its slot and context
free, the stop mark off its slot, its panel's port at rest where the rest delay is 0 (R129; before the walk: log 29), and a
walk caused. Its tiles, the zones' DIRTY counts and the causes are `settled`'s. -/
def Part.without (before settled : Part) (c : PanelCfg) (slot : Nat) (j : Job) (r : RunFields) : Part :=
  { before with
    tiles := settled.tiles, zones := settled.zones
    pool := before.pool.set slot none
    stopMark := if before.stopMark = some slot then none else before.stopMark
    committed := before.committed - r.cost
    runningCount := before.runningCount - 1
    engines := before.engines.set j.panel none
    ports := before.ports.set j.panel
      ((before.port j.panel).restsAtOnce c ⟨before.clock.mono, before.clock.tick⟩)
    walkOwed := true
    unit := { before.unit with causes := settled.unit.causes } }

/-- The tiles of job `j`'s rectangle are changed by `f` and every other tile stays; every zone's DIRTY count follows (R17),
and LOOSE_WRITE with it (R23). -/
def Part.SettledBy (before after : Part) (g : Setup) (j : Job) (f : Nat → Nat → Tile → Tile) : Prop :=
  (∀ p tx ty x, before.tileAt? g p tx ty = some x →
      after.tileAt? g p tx ty
        = some (if p = j.panel ∧ j.rect.contains tx ty = true then f tx ty x else x))
    ∧ (∀ n y, before.zone? n = some y → after.zone? n = some (y.counted after.tiles before.clock.mono))
    ∧ before.LooseLatched after g j

/-- The retirement of a null job (R50): its tiles CLEAN or, where REDIRTY, DIRTY, with debt and UNKNOWN kept (`ended`); then
the HELD retry and the zones it concerns (`retired`), and the end of a halt. -/
def Part.NullRetired (before ended retired after : Part) (g : Setup) (c : PanelCfg) (slot : Nat) (j : Job)
    (r : RunFields) : Prop :=
  ended = before.without ended c slot j r
    ∧ before.SettledBy ended g j (fun _ _ x =>
        { x with state := if x.redirty then .dirty else .clean, redirty := false })
    ∧ ended.Retires retired g j ∧ retired.Halted after

/-- A tile settled by its context entry at the retirement of a job after its commit (R71, R72, R73, R120): an uncommitted one
DIRTY with UNKNOWN set and its debt kept; a copied or unchanged one CLEAN or, where REDIRTY, DIRTY; a FULL copy sets debt 0
and clears UNKNOWN but where a late SHOWN mark keeps it, a PARTIAL copy adds the band's weight to the debt, up to 255. -/
def Tile.settledBy (x : Tile) (mode : DriveMode) (weight : Nat) (k : TileContext) : Tile :=
  if k.tainted = true ∨ k.underrun = true then { x with state := .dirty, untrusted := true, redirty := false }
  else
    { x with
      state := if x.redirty then .dirty else .clean
      redirty := false
      debt := if mode = .full then 0 else if 0 < k.changed then min 255 (x.debt + weight) else x.debt
      untrusted := if mode = .full then k.lateShown && x.untrusted else x.untrusted }

/-- The retirement of a job whose commit copy has ended (R52, R53, R74, R120): its tiles settled by their context entries and
the last sweep second set where a FULL PANEL job copied a tile (`ended`); then the HELD retry and the zones it concerns
(`retired`), URGENT_SHOWN, and the end of a halt. -/
def Part.CommitRetired (before ended retired after : Part) (g : Setup) (c : PanelCfg) (slot : Nat) (j : Job)
    (r : RunFields) (e : Engine) : Prop :=
  ended = { before.without ended c slot j r with lastSweep := ended.lastSweep }
    ∧ before.SettledBy ended g j (fun tx ty x => x.settledBy r.mode (g.band r.band).weight (e.entry j.rect tx ty))
    ∧ (∀ p, j.scope = .panel p → r.mode = .full → (∃ x ∈ e.context, x.outcome .full = .copied) →
        ended.lastSweep = before.lastSweep.set p (some before.clock.mono))
    ∧ ((∀ p, j.scope ≠ .panel p) ∨ r.mode = .part ∨ (∀ x ∈ e.context, x.outcome .full ≠ .copied) →
        ended.lastSweep = before.lastSweep)
    ∧ ended.Retires retired g j ∧ ∃ shown, retired.ShownLatched shown j r e ∧ shown.Halted after

/-- The handling of the zones that the abort of job `j` concerns, once it is cut and its slot is free (R32, R34): the HELD retry
first; then each zone it concerns has its settle timer restarted with its full settle time, a TIMED one EPOCH_WAIT set, and a
ZONE job's zone no running job; every other zone's record stays. The end of a halt comes last (R59). -/
def Part.Aborts (cut after : Part) (g : Setup) (j : Job) : Prop :=
  ∃ mid handled : Part, HeldPass g g.zones cut mid ∧ handled = { mid with zones := handled.zones } ∧ handled.Halted after
    ∧ (∀ z y, z ∈ g.zones → (∀ z' ∈ g.zones, z'.index = z.index → z' = z) →
        j.scope = .zone z.index ∨ j.scope = .panel z.panel → mid.zone? z.index = some y →
        handled.zone? z.index = some { y with
          timer := some z.settle, expired := false
          epochWait := y.epochWait || decide (z.cls = .timed)
          runningJob := if j.scope = .zone z.index then none else y.runningJob })
    ∧ ∀ n y, j.scope ≠ .zone n → (∀ z ∈ g.zones, z.index = n → j.scope ≠ .panel z.panel) → mid.zone? n = some y →
        handled.zone? n = some y

/-- The rail once the job of `slot` demands it no longer (R141): from UP with no other job POISED or DRIVING it takes
LINGER, or with a linger time of 0 FALLING; otherwise it stays. -/
def Part.RailReleased (before after : Part) (g : Setup) (slot : Nat) : Prop :=
  (before.rail.state ≠ .up
      ∨ (∃ k q, k ≠ slot ∧ before.job? k = some q ∧ (q.state = .poised ∨ q.state = .driving)) →
    after.rail = before.rail)
  ∧ (before.rail.state = .up →
      (∀ k q, k ≠ slot → before.job? k = some q → q.state ≠ .poised ∧ q.state ≠ .driving) →
      after.rail
        = if g.globals.lingerTime = 0 then
            { state := .falling, timer := some 50, lastNegation := some ⟨before.clock.mono, before.clock.tick⟩
              minimumOff := g.globals.minimumOff }
          else { before.rail with state := .linger, timer := some g.globals.lingerTime })

/-- The abort of the one job that an event ends (R54): its tiles DIRTY with UNKNOWN set and their debt kept, its demand on
the rail withdrawn (`cut`); then the HELD retry, the zones it concerns and the end of a halt. -/
def Part.Aborted (before cut after : Part) (g : Setup) (c : PanelCfg) (slot : Nat) (j : Job) (r : RunFields) : Prop :=
  cut = { before.without cut c slot j r with rail := cut.rail }
    ∧ before.SettledBy cut g j (fun _ _ x => { x with state := .dirty, untrusted := true, redirty := false })
    ∧ before.RailReleased cut g slot ∧ cut.Aborts after g j

/-! ### The status block (R159, R166) -/

/-- The number that `n` bytes of a block spell from an offset on, least significant byte first (R159). -/
def blockField (data : List Byte) (offset n : Nat) : Nat := leNat ((data.drop offset).take n)

/-- The 16 bytes of panel `p` in a block, at their offsets from 40h + 16 p (R166). The frame index of a DRIVING job that has
had no FRAME_START is FFh, the model's choice (log 32). -/
def Part.PanelPosted (part : Part) (p : PanelNo) (data : List Byte) : Prop :=
  let at' := 0x40 + 16 * p.val
  (∀ c sel, part.panelCfg? p = some c → part.selector? p = some sel →
    blockField data at' 1 = (part.port p).state.code ∧ blockField data (at' + 1) 1 = (part.port p).cause.code
      ∧ blockField data (at' + 2) 1 = sel.band % 256
      ∧ blockField data (at' + 3) 1 = (match sel.reading with
        | some t => (t % 256).toNat
        | none => 0x80)
      ∧ blockField data (at' + 4) 1 = (if sel.stale then 1 else 0)
      ∧ (part.running? p = none →
          blockField data (at' + 5) 1 = 0xFF ∧ blockField data (at' + 6) 1 = 0xFF ∧ blockField data (at' + 7) 1 = 0
            ∧ blockField data (at' + 8) 1 = 0xFF)
      ∧ (∀ slot j r, part.running? p = some (slot, j, r) →
          blockField data (at' + 5) 1 = (match j.scope with
              | .zone n => n % 256
              | .panel q => 0x80 + q.val)
            ∧ blockField data (at' + 6) 1 = j.origin.code
            ∧ blockField data (at' + 7) 1 = (match j.state with
              | .queued => 0
              | .capturing => 1
              | .poised => 2
              | .driving => 3
              | .committing => 4)
            ∧ blockField data (at' + 8) 1 = (match j.state, r.frame with
              | .driving, some f => f % 256
              | _, _ => 0xFF)))
  ∧ (part.panelCfg? p = none →
      blockField data at' 1 = 0 ∧ blockField data (at' + 1) 1 = 0 ∧ blockField data (at' + 2) 1 = 0
        ∧ blockField data (at' + 3) 1 = 0x80 ∧ blockField data (at' + 4) 1 = 0 ∧ blockField data (at' + 5) 1 = 0xFF
        ∧ blockField data (at' + 6) 1 = 0xFF ∧ blockField data (at' + 7) 1 = 0 ∧ blockField data (at' + 8) 1 = 0xFF)
  ∧ blockField data (at' + 9) 7 = 0

/-- The 128 bytes of a posting composed from the part (R166), field by field at their offsets; a number that does not fit
its bytes is taken modulo them, and a byte that the layout does not list is 0 (R159). -/
def Part.PostedAs (part : Part) (data : List Byte) : Prop :=
  data.length = 128
    ∧ blockField data 0x00 1 = part.unit.runState.code
    ∧ blockField data 0x01 1 = part.unit.setupResult.code
    ∧ blockField data 0x02 1 = part.unit.setupCause.code
    ∧ blockField data 0x03 1 = part.unit.setupIndex % 256
    ∧ blockField data 0x04 2 = part.unit.fieldsClamped % 65536
    ∧ blockField data 0x06 1 = (if part.unit.setupEdited then 1 else 0) + (if part.energy.dark then 2 else 0)
        + (if part.unit.attn then 4 else 0)
    ∧ blockField data 0x07 1 = part.energy.level.code
    ∧ blockField data 0x08 4 = part.energy.usable % 2 ^ 32
    ∧ blockField data 0x0C 4 = part.committed % 2 ^ 32
    ∧ blockField data 0x10 2 = part.energy.vs % 65536
    ∧ blockField data 0x12 2 = part.energy.vsol % 65536
    ∧ blockField data 0x14 1 = (part.pool.countP fun x => (x.map (·.state)) == some .queued) % 256
    ∧ blockField data 0x15 1 = part.unit.lastOrder.toNat
    ∧ blockField data 0x16 1 = part.unit.lastResult.toNat
    ∧ blockField data 0x17 1 = 0
    ∧ blockField data 0x18 2 = part.unit.ordersTaken.toNat
    ∧ blockField data 0x1A 2 = part.clock.dayCount % 65536
    ∧ blockField data 0x1C 4 = part.clock.secondOfDay % 2 ^ 32
    ∧ (∀ k : Cause, (blockField data 0x20 2).testBit k.bit = (part.unit.detail? k).isSome)
    ∧ blockField data 0x22 2 = 0
    ∧ (∀ k : Cause, k ≠ .epochLead →
        blockField data (0x24 + 2 * k.bit) 2 = ((part.unit.detail? k).getD 0) % 65536)
    ∧ blockField data 0x3C 4 = ((part.unit.detail? .epochLead).getD 0) % 2 ^ 32
    ∧ ∀ p : PanelNo, part.PanelPosted p data

/-! ### The setup data and its checks (R163, R165) -/

/-- An unsigned field of the setup data (R159, R165): `n` bytes from an offset on, least significant byte first. -/
def setupNumber (d : Memory) (offset n : Nat) : Nat :=
  ((List.range n).map fun i => (Memory.read d (offset + i)).toNat * 256 ^ i).sum

/-- A signed field of the setup data, two's complement. -/
def setupInteger (d : Memory) (offset n : Nat) : Int :=
  if 2 * setupNumber d offset n < 256 ^ n then (setupNumber d offset n : Int)
  else (setupNumber d offset n : Int) - (256 ^ n : Nat)

/-- A scalar of the setup data: what was read, the ends of its range, and the value taken. -/
structure Scalar where
  raw : Int
  low : Int
  high : Int
  value : Int

/-- A scalar within its range is taken as read, and one outside it is clamped to the nearer end (R163). -/
def Scalar.Taken (k : Scalar) : Prop := k.value = if k.raw < k.low then k.low else if k.high < k.raw then k.high else k.raw

/-- The scalar read lies outside its range, so that taking it is a clamp (R163). -/
def Scalar.outside (k : Scalar) : Bool := decide (k.raw < k.low ∨ k.high < k.raw)

/-- The class codes of a zone record (R165); no zone has class SWEEP. -/
def RefreshClass.setupCode : RefreshClass → Nat
  | .urgent => 0
  | .timed => 1
  | .routine => 2
  | .sweep => 3

/-- The mode policy codes of a zone record (R165). -/
def ModePolicy.setupCode : ModePolicy → Nat
  | .auto => 0
  | .partialOnly => 1
  | .fullAlways => 2

/-- The scalars of the global settings but for the sweep time, at their offsets and with their ranges (R48, R76, R79, R89, R114,
R139, R153, R165). -/
def GlobalSettings.scalars (g : GlobalSettings) (d : Memory) : List Scalar :=
  [⟨setupNumber d 0x200 1, 1, 4, g.runningLimit⟩,
    ⟨setupNumber d 0x201 1, 1, 3, g.feedThreshold⟩,
    ⟨setupNumber d 0x204 1, 0, 7, g.bandHysteresis⟩,
    ⟨setupNumber d 0x205 1, 0, 255, g.policyHysteresis⟩,
    ⟨setupNumber d 0x208 2, 1, 5000, g.capacitance⟩,
    ⟨setupNumber d 0x20A 2, 1500, 5500, g.vFloor⟩,
    ⟨setupNumber d 0x20C 2, 1500, 6000, g.vFreeze⟩,
    ⟨setupNumber d 0x20E 2, 1500, 6000, g.vLean⟩,
    ⟨setupNumber d 0x210 2, 1500, 6000, g.vSurplus⟩,
    ⟨setupNumber d 0x212 2, 0, 30000, g.darkThreshold⟩,
    ⟨setupNumber d 0x214 2, 0, 30000, g.lightThreshold⟩,
    ⟨setupNumber d 0x216 2, 0, 65535, g.boost⟩,
    ⟨setupNumber d 0x218 4, 0, 9000000, g.holdbackDay⟩,
    ⟨setupNumber d 0x21C 4, 0, 9000000, g.holdbackNight⟩,
    ⟨setupNumber d 0x220 2, 1, 3600, g.starvationLimit⟩,
    ⟨setupNumber d 0x222 2, 1, 168, g.sweepSpacing⟩,
    ⟨setupInteger d 0x224 2, -255, 255, g.compensation⟩,
    ⟨setupNumber d 0x226 2, 10, 3600, g.epochPeriod⟩,
    ⟨setupNumber d 0x228 2, 0, g.epochPeriod - 1, g.epochOffset⟩,
    ⟨setupNumber d 0x22A 2, 0, g.epochPeriod - 1, g.epochLead⟩,
    ⟨setupNumber d 0x22C 4, 0, 86399, g.quietStart⟩,
    ⟨setupNumber d 0x230 4, 0, 86399, g.quietEnd⟩,
    ⟨setupNumber d 0x238 2, 5, 500, g.riseLimit⟩,
    ⟨setupNumber d 0x23A 2, 0, 10000, g.lingerTime⟩,
    ⟨setupNumber d 0x23C 2, 0, 2000, g.minimumOff⟩,
    ⟨setupNumber d 0x23E 2, 1, 600, g.railRetryInterval⟩]

/-- The sweep time is a scalar unless the marker of none is read (R153). -/
def GlobalSettings.sweepScalars (g : GlobalSettings) (d : Memory) : List Scalar :=
  match g.sweepTime with
  | some i => [⟨setupNumber d 0x234 4, 0, 86399, i⟩]
  | none => []

/-- The scalars of band record `i` (R79, R80, R165). -/
def Band.scalars (b : Band) (d : Memory) (i : Nat) : List Scalar :=
  [⟨setupNumber d (0x300 + 16 * i + 1) 1, 1, 63, b.partialFrames⟩,
    ⟨setupNumber d (0x300 + 16 * i + 2) 1, 4, 127, b.fullFrames⟩,
    ⟨setupNumber d (0x300 + 16 * i + 3) 1, 1, 15, b.weight⟩,
    ⟨setupNumber d (0x300 + 16 * i + 4) 2, 10, 250, b.period⟩]

/-- The scalars of panel descriptor `p` (R63, R84, R89, R124, R125, R127, R129, R136, R165). -/
def PanelCfg.scalars (c : PanelCfg) (d : Memory) (p : PanelNo) : List Scalar :=
  [⟨setupNumber d (0x400 + 64 * p.val + 0x01) 1, 5, 255, c.busyMargin⟩,
    ⟨setupNumber d (0x400 + 64 * p.val + 0x14) 2, 20, 2000, c.linePeriod⟩,
    ⟨setupNumber d (0x400 + 64 * p.val + 0x16) 2, 0, 1000, c.restHold⟩,
    ⟨setupNumber d (0x400 + 64 * p.val + 0x18) 2, 1, 600, c.retryInterval⟩,
    ⟨setupNumber d (0x400 + 64 * p.val + 0x1A) 2, 10, 3600, c.pollPeriod⟩,
    ⟨setupNumber d (0x400 + 64 * p.val + 0x1C) 1, 0, 60, c.restDelay⟩,
    ⟨setupNumber d (0x400 + 64 * p.val + 0x1D) 1, 1, 254, c.debtSoft⟩,
    ⟨setupNumber d (0x400 + 64 * p.val + 0x1E) 1, c.debtSoft + 1, 255, c.debtHard⟩,
    ⟨setupNumber d (0x400 + 64 * p.val + 0x20) 2, 1, 1023, c.pixelCost⟩,
    ⟨setupNumber d (0x400 + 64 * p.val + 0x22) 2, 0, 4095, c.frameCost⟩]

/-- The scalars of an enabled zone record (R15, R165). -/
def ZoneCfg.scalars (z : ZoneCfg) (d : Memory) : List Scalar :=
  [⟨setupNumber d (0x600 + 32 * z.index + 6) 1, 0, 2, z.cls.setupCode⟩,
    ⟨setupNumber d (0x600 + 32 * z.index + 7) 1, 0, 2, z.policy.setupCode⟩,
    ⟨setupNumber d (0x600 + 32 * z.index + 8) 1, 1, 255, z.settle⟩,
    ⟨setupNumber d (0x600 + 32 * z.index + 0x0A) 2, 0, 3600, z.hold⟩]

/-- Every scalar that an APPLY examines (R163): those of the global settings, the band count, the band records in use, the enabled
panel descriptors and the enabled zone records. -/
def ReadSetup.scalars (x : ReadSetup) (d : Memory) : List Scalar :=
  x.globals.scalars d ++ x.globals.sweepScalars d ++ [⟨setupNumber d 0x203 1, 1, 8, x.bands.length⟩]
    ++ ((List.range x.bands.length).flatMap fun i => (x.bands[i]?.map fun b => b.scalars d i).getD [])
    ++ (panelNos.flatMap fun p => ((x.panels.get p).map fun c => c.scalars d p).getD [])
    ++ x.zones.flatMap fun z => z.cfg.scalars d

/-- `x` is what the setup data `d` say by the layouts of R165: every scalar is taken within its range and the clamps are counted
(R163); the fields that are not scalars stand as they were read, an enable field of 0 means disabled, a feed stall field of 0
off, and bits 13 to 15 of the attention mask are disregarded (R167). -/
def ReadSetup.ReadAs (x : ReadSetup) (d : Memory) : Prop :=
  (∀ k ∈ x.scalars d, k.Taken) ∧ x.clamps = (x.scalars d).countP Scalar.outside
    ∧ (x.globals.sweepTime = none ↔ setupNumber d 0x234 4 = 0xFFFFFFFF)
    ∧ (x.globals.feedStall = true ↔ setupNumber d 0x202 1 ≠ 0)
    ∧ (∀ i, i < 13 → x.mask.getLsbD i = (setupNumber d 0x206 2).testBit i)
    ∧ (∀ i b, x.bands[i]? = some b → b.lower = setupInteger d (0x300 + 16 * i) 1)
    ∧ (∀ p, x.panels.get p = none ↔ setupNumber d (0x400 + 64 * p.val) 1 = 0)
    ∧ (∀ p c, x.panels.get p = some c →
        c.width = setupNumber d (0x400 + 64 * p.val + 0x02) 2 ∧ c.height = setupNumber d (0x400 + 64 * p.val + 0x04) 2
          ∧ c.stride = setupNumber d (0x400 + 64 * p.val + 0x06) 2
          ∧ c.targetBase = setupNumber d (0x400 + 64 * p.val + 0x08) 4
          ∧ c.shownBase = setupNumber d (0x400 + 64 * p.val + 0x0C) 4
          ∧ c.stageBase = setupNumber d (0x400 + 64 * p.val + 0x10) 4)
    ∧ x.zones.map (·.cfg.index) = (List.range 64).filter (fun z => setupNumber d (0x600 + 32 * z) 1 != 0)
    ∧ ∀ z ∈ x.zones,
        z.panelNumber = setupNumber d (0x600 + 32 * z.cfg.index + 1) 1
          ∧ (∀ p : PanelNo, z.panelNumber = p.val → z.cfg.panel = p)
          ∧ z.cfg.rect = ⟨setupNumber d (0x600 + 32 * z.cfg.index + 2) 1, setupNumber d (0x600 + 32 * z.cfg.index + 3) 1,
              setupNumber d (0x600 + 32 * z.cfg.index + 4) 1, setupNumber d (0x600 + 32 * z.cfg.index + 5) 1⟩

/-- A structural check of an APPLY: the cause and the index with which it rejects, and when it passes. -/
abbrev SetupCheck := SetupCause × Nat × Prop

/-- Two ranges of addresses, each from its first up to but not its last, have none in common. -/
def Apart (a b : Nat × Nat) : Prop := a.2 ≤ b.1 ∨ b.2 ≤ a.1

/-- The geometry of an enabled panel (R3). -/
def PanelCfg.GeometryKept (c : PanelCfg) : Prop :=
  (64 ≤ c.width ∧ c.width ≤ 1280 ∧ c.width % 32 = 0) ∧ (64 ≤ c.height ∧ c.height ≤ 960 ∧ c.height % 32 = 0)
    ∧ c.width / 4 ≤ c.stride ∧ c.stride ≤ 4096 ∧ c.stride % 8 = 0

/-- The tiles of the enabled panels up to panel `p` (R7). -/
def ReadSetup.tilesUpTo (x : ReadSetup) (p : PanelNo) : Nat :=
  (panelNos.map fun q =>
    if q.val ≤ p.val then ((x.panels.get q).map fun c => (c.width / 32) * (c.height / 32)).getD 0 else 0).sum

/-- The planes of the enabled panels in the order in which they are checked, each with its panel and its addresses (R3). -/
def ReadSetup.planes (x : ReadSetup) : List (Nat × (Nat × Nat)) :=
  panelNos.flatMap fun p =>
    ((x.panels.get p).map fun c =>
      [(p.val, (c.targetBase, c.targetBase + c.height * c.stride)), (p.val, (c.shownBase, c.shownBase + c.height * c.stride)),
        (p.val, (c.stageBase, c.stageBase + c.height * c.stride))]).getD []

/-- The checks of planes: each ends below 1000000h and is apart from the control window and from every plane already checked. -/
def planeChecks (base : Nat) : List (Nat × Nat) → List (Nat × (Nat × Nat)) → List SetupCheck
  | _, [] => []
  | checked, (p, r) :: rest =>
    (.planeOverlap, p, r.2 < 0x1000000 ∧ Apart r (base, base + 0x1000) ∧ ∀ y ∈ checked, Apart r y)
      :: planeChecks base (r :: checked) rest

/-- The checks of enabled zones (R12, R15): each has an enabled panel and its corners in order within the panel's tiles, and
shares no tile with one already checked of its panel. -/
def ReadSetup.zoneChecks (x : ReadSetup) : List ReadZone → List ReadZone → List SetupCheck
  | _, [] => []
  | checked, z :: rest =>
    (.zoneOutside, z.cfg.index, ∃ p c, z.panelNumber = p.val ∧ x.panels.get p = some c
        ∧ z.cfg.rect.tx0 ≤ z.cfg.rect.tx1 ∧ z.cfg.rect.tx1 < c.width / 32
        ∧ z.cfg.rect.ty0 ≤ z.cfg.rect.ty1 ∧ z.cfg.rect.ty1 < c.height / 32)
      :: (.zoneOverlap, z.cfg.index, ∀ y ∈ checked, y.panelNumber = z.panelNumber →
        y.cfg.rect.tx1 < z.cfg.rect.tx0 ∨ z.cfg.rect.tx1 < y.cfg.rect.tx0 ∨ y.cfg.rect.ty1 < z.cfg.rect.ty0
          ∨ z.cfg.rect.ty1 < y.cfg.rect.ty0)
      :: x.zoneChecks (z :: checked) rest

/-- The structural checks of an APPLY in the order of R163's table, with the control window at `base`. -/
def ReadSetup.checks (x : ReadSetup) (base : Nat) : List SetupCheck :=
  (panelNos.flatMap fun p => ((x.panels.get p).map fun c => [(.badGeometry, p.val, c.GeometryKept)]).getD [])
    ++ (panelNos.flatMap fun p => ((x.panels.get p).map fun _ => [(.tileCapacity, p.val, x.tilesUpTo p ≤ 4096)]).getD [])
    ++ planeChecks base [] x.planes
    ++ ((List.range x.bands.length).map fun i =>
      (.bandOrder, i, ∀ b, x.bands[i]? = some b → -40 ≤ b.lower ∧ b.lower ≤ 85 ∧ (i = 0 → b.lower = -40)
        ∧ ∀ k a, i = k + 1 → x.bands[k]? = some a → a.lower < b.lower))
    ++ x.zoneChecks [] x.zones
    ++ [(.energyOrder, 0, x.globals.vFloor ≤ x.globals.vFreeze),
      (.energyOrder, 1, x.globals.vFreeze + x.globals.policyHysteresis < x.globals.vLean),
      (.energyOrder, 2, x.globals.vLean + 2 * x.globals.policyHysteresis < x.globals.vSurplus),
      (.energyOrder, 3, x.globals.darkThreshold ≤ x.globals.lightThreshold)]

/-- The first check of a list that does not pass, with its cause and index. -/
def FirstFails : List SetupCheck → Option (SetupCause × Nat) → Prop
  | [], first => first = none
  | (cause, index, passes) :: rest, first =>
    (passes → FirstFails rest first) ∧ (¬passes → first = some (cause, index))

/-- A panel of a setup is preserved by the setup installed before (R14): it was enabled with the same geometry and bases. -/
def Part.PreservedBy (part : Part) (p : PanelNo) (c : PanelCfg) (old : Setup) (was : PanelCfg) : Prop :=
  part.setup = some old ∧ old.panels.get p = some was ∧ was.width = c.width ∧ was.height = c.height
    ∧ was.stride = c.stride ∧ was.targetBase = c.targetBase ∧ was.shownBase = c.shownBase ∧ was.stageBase = c.stageBase

/-! ### Orders -/

/-- The order command that the 16 bytes of the order capture copy spell (R160). -/
def orderCommand (copy : List Byte) : Instr :=
  match (orderOf copy).code with
  | 1 => .apply
  | 2 => .run
  | 3 => .halt
  | 4 => .refreshZone (orderByte copy 1) (orderByte copy 2) (orderByte copy 3)
  | 5 => .refreshPanel (orderByte copy 1) (orderByte copy 2) (orderByte copy 3)
  | 6 => .sweep (orderByte copy 1)
  | 7 => .setClock (orderOf copy).arg1 (orderOf copy).arg2
  | 8 => .clearAttn (orderOf copy).arg1
  | 9 => .restorePort (orderByte copy 1)
  | _ => .unknownOrder (orderByte copy 0)

end Sys2Proof.Machine
end

