-- ==== Sys2Proof/Certificates/Slice0/Obligations.lean ====
section
/-! DEFINITION. The statements for the provers: what the commands of the Delfra 2418 do, by the numbered rules of the
spec. A command's next state is compared with its own effect by `CompletesWith` or by an agreement of Safety.lean,
which also states the frame: nothing else changes but what every step ends with. -/

open Sys2Proof Sys2Proof.Machine

/-! ### The machine as a whole -/

/-- A step runs the command at the front of the queue on the state with the queue's rest; on an empty queue the part
idles (log 17). -/
def Obligations.StepRunsFrontCommand : Prop :=
  (∀ (c : Instr) (rest : List Instr) (s : State), s.pending = c :: rest → step s = exec c { s with pending := rest })
    ∧ ∀ s : State, s.pending = [] → step s = .next s

/-- Every command answers a next state at every state and leaves the queue alone: no command stops the part. -/
def Obligations.EveryCommandAnswers : Prop :=
  ∀ (c : Instr) (s : State), ∃ t, exec c s = .next t ∧ t.pending = s.pending

/-- The part is in reset from a HARDWARE_RESET to a RESET_END and at no other time, and in reset no other command changes
the memory, the burst in progress or anything inside the part (R150). -/
def Obligations.ResetBracketsEverything : Prop :=
  ∀ (c : Instr) (s t : State), exec c s = .next t →
    (match c with
      | .hardwareReset _ => t.path.inReset = true
      | .resetEnd _ _ => t.path.inReset = false
      | _ =>
        t.path.inReset = s.path.inReset
          ∧ (s.path.inReset = true → t.part = s.part ∧ t.memory = s.memory ∧ t.path.burst = s.path.burst))

/-- Where the sign memory may change: at the address of a forwarded host byte, or inside the write burst in progress at
its end or at the reset that cuts it (R2, R108, R143, R149, R150). That a host byte at or beyond 1000000h changes no byte
is the model's choice (log 9), and so is that a transaction with a command other than an array write changes none (log 27). -/
def Obligations.MemoryChangesOnlyWhereWritten : Prop :=
  ∀ (c : Instr) (s t : State) (a : Nat), exec c s = .next t → Memory.read t.memory a ≠ Memory.read s.memory a →
    (a < 0x1000000 ∧ s.forwards a = true ∧ ∃ d, c = .targetTouch a d ∨ c = .shownTouch a d ∨ c = .stageTouch a d
        ∨ c = .orderBlockWrite a d ∨ c = .setupEdit a d ∨ c = .untappedWrite a d)
      ∨ (∃ b, s.path.burst = some b ∧ b.addr ≤ a ∧ a < b.addr + b.data.length
          ∧ ((c = .captureBurstEnd ∧ b.kind = .captureStage) ∨ (c = .commitWriteEnd ∧ b.kind = .commitWrite)
            ∨ (c = .statusPostEnd ∧ b.kind = .statusPost) ∨ ((∃ n, c = .hardwareReset n) ∧ b.kind.writes = true)))

/-- Monotonic seconds are changed by the second event and by the hardware reset alone (R152). -/
def Obligations.MonotonicSecondsOnlyCount : Prop :=
  ∀ (c : Instr) (s t : State), exec c s = .next t →
    t.part.clock.mono =
      match c with
      | .hardwareReset _ => 0
      | .second _ _ _ =>
        if s.part.clock.secondDue = true ∧ s.path.inReset = false then s.part.clock.mono + 1 else s.part.clock.mono
      | _ => s.part.clock.mono

/-! ### Invariants -/

/-- Every step keeps the sign memory in canonical form. -/
def Obligations.MemoryStaysCanonical : Prop :=
  ∀ s t : State, s.MemoryCanonical → step s = .next t → t.MemoryCanonical

/-- Every step keeps what the memory path keeps between steps: no burst runs while a host transaction is forwarded (R144),
a free port with no host transaction active leaves no request waiting (R146), and a posting owed is waiting or in
progress (R149). -/
def Obligations.MemoryPathStaysSound : Prop :=
  ∀ s t : State, s.PathSound → step s = .next t → t.PathSound

/-- Every step keeps the counts of the Time Base and the Energy Monitor's figures in their ranges (R88, R91, R151, R152),
leaves no walk owed (R46, log 8) and keeps the 13 attention causes (R167). -/
def Obligations.CountsStayInRange : Prop :=
  ∀ s t : State, s.part.clock.InRange ∧ s.part.energy.InRange ∧ s.part.Settled → step s = .next t →
    t.part.clock.InRange ∧ t.part.energy.InRange ∧ t.part.Settled

/-- Every step keeps K equal to the sum of the current costs of the running jobs and the running count equal to their
number, where a job holds its admitted fields exactly while it is not QUEUED (R36, R48, R96). -/
def Obligations.CommittedEnergyIsRunningCost : Prop :=
  ∀ s t : State, s.part.PoolSound → step s = .next t → t.part.PoolSound

/-- Every step keeps a tile record for each tile of the setup installed (R7, R13), every tile's debt within 0 to 255 and
REDIRTY off every tile that is not ACTIVE (R9, R11), and every zone's DIRTY count the number of its DIRTY tiles, with no
dirty-since and no HELD at 0 (R17). -/
def Obligations.TileRecordsStaySound : Prop :=
  ∀ s t : State, s.part.TilesSound ∧ s.part.ZonesInStep → step s = .next t → t.part.TilesSound ∧ t.part.ZonesInStep

/-- The state in reset meets every invariant above. -/
def Obligations.ResetMeetsInvariants : Prop :=
  State.reset.MemoryCanonical ∧ State.reset.PathSound ∧ State.reset.part.clock.InRange
    ∧ State.reset.part.energy.InRange ∧ State.reset.part.Settled ∧ State.reset.part.PoolSound ∧ State.reset.part.TilesSound
    ∧ State.reset.part.ZonesInStep

/-! ### The reset and the memory path -/

/-- What a hardware reset leaves, from every state (R13, R60, R95, R121, R123, R126, R139, R147, R150, R152, R160, R167):
no record, job, context, request or timer survives, and the sign memory keeps every byte but those of its write burst in
progress that had landed. That a host transaction still held behind a burst is dropped with the one being forwarded is the
model's choice (log 33). -/
def Obligations.HardwareResetClears : Prop :=
  ∀ (landed : Nat) (s : State), ∃ t, exec (.hardwareReset landed) s = .next t
    ∧ t.path.inReset = true ∧ t.path.burst = none ∧ t.path.lastServed = ⟨3, 3, 3, 3⟩
    ∧ (∀ h, t.path.host = some h → h.phase = .dropped)
    ∧ t.part.setup = none ∧ t.part.tiles = [] ∧ t.part.zones = [] ∧ t.part.pool = List.replicate 32 none
    ∧ t.part.sequence = 0 ∧ t.part.runningCount = 0 ∧ t.part.committed = 0 ∧ t.part.stopMark = none
    ∧ t.part.engines = ⟨none, none, none, none⟩ ∧ t.part.selectors = ⟨none, none, none, none⟩
    ∧ t.part.lastSweep = ⟨none, none, none, none⟩
    ∧ (∀ p, (t.part.port p).state = .unused ∧ (t.part.port p).cause = .none ∧ (t.part.port p).held = false
        ∧ (t.part.port p).attempts = 0 ∧ (t.part.port p).limit = none ∧ (t.part.port p).retry = none
        ∧ (t.part.port p).lastRest = none ∧ (t.part.port p).window = none
        ∧ (t.part.port p).wakePending = false ∧ (t.part.port p).retryWake = false
        ∧ (t.part.port p).queryDue = false ∧ (t.part.port p).tempOutstanding = false
        ∧ (t.part.port p).closingOver = false ∧ (t.part.port p).restoreWaits = false)
    ∧ t.part.rail.state = .off ∧ t.part.rail.enable = false ∧ t.part.rail.lastNegation = none ∧ t.part.rail.timer = none
    ∧ t.part.energy = ⟨0, 0, false, 0, false, 0, .frozen⟩
    ∧ t.part.clock = ⟨0, 0, 0, 0, 0, 1024, false⟩
    ∧ t.part.unit.runState = .noSetup ∧ t.part.unit.ordersTaken = 0 ∧ t.part.unit.lastOrder = 0
    ∧ t.part.unit.lastResult = 0 ∧ t.part.unit.orderCopy = List.replicate 16 0 ∧ t.part.unit.setupResult = .none
    ∧ t.part.unit.setupEdited = false ∧ t.part.unit.causes = List.replicate 13 none ∧ t.part.unit.mask = 1
    ∧ t.part.unit.attn = false ∧ t.part.unit.postingOwed = false ∧ t.part.unit.postWaiting = false
    ∧ t.part.unit.setupRequest = none
    ∧ (∀ b i, s.path.burst = some b → b.kind.writes = true → i < landed → i < b.data.length →
        Memory.read t.memory (b.addr + i) = b.data.getD i 0)
    ∧ (∀ a, (∀ b, s.path.burst = some b → b.kind.writes = true →
        a < b.addr ∨ b.addr + (b.data.take landed).length ≤ a) → Memory.read t.memory a = Memory.read s.memory a)

/-- The end of a reset samples the straps for the window base, lets the path forward again and owes a posting (R149, R150,
R159); outside a reset it reports nothing. -/
def Obligations.ResetEndSamplesStraps : Prop :=
  ∀ (second first : Bool) (s : State),
    (s.path.inReset = true →
      CompletesWith (.resetEnd second first) s
        { s with
          path := { s.path with inReset := false }
          part := { s.part with
            unit := { s.part.unit with
              base :=
                if second then (if first then 0x7FF000 else 0x3FF000) else (if first then 0x1FF000 else 0x0FF000)
              postingOwed := true } } })
    ∧ (s.path.inReset = false → exec (.resetEnd second first) s = .next s)

/-- The start of a host transaction (R144, R148): held behind a burst in progress; with the port free held behind one
inserted urgent feed where feed stall is on and a level-1 request waits; else forwarded at once. Between the steps of a part
that keeps R146 a free port with no host transaction active leaves no request waiting (MemoryPathStaysSound), so that the
third clause speaks of states that no run leaves; the inserted burst of a transaction held behind a burst is
HeldTransactionIsForwarded's. -/
def Obligations.HostTransactionStarts : Prop :=
  ∀ (command : HostCommand) (addr : Nat) (s : State), s.Ready → s.path.host = none →
    (∃ t, exec (.hostTransactionStart command addr) s = .next t
      ∧ t.AgreesOutsidePath
          { s with path := { s.path with host := some ⟨command, addr, addr, .held, false, false⟩ } }
      ∧ (∀ b, s.path.burst = some b →
          t.path.host = some ⟨command, addr, addr, .held, false, false⟩ ∧ t.path.burst = some b)
      ∧ (s.path.burst = none →
          ((∀ g, s.part.setup = some g → g.globals.feedStall = false) ∨ ∀ p, s.part.requestLevel? p ≠ some 0) →
          t.path.host = some ⟨command, addr, addr, .forwarding, false, false⟩ ∧ t.path.burst = none)
      ∧ (∀ g p, s.path.burst = none → s.part.setup = some g → g.globals.feedStall = true →
          s.nextPanel? 0 = some p →
          t.path.host = some ⟨command, addr, addr, .held, true, false⟩ ∧ t.path.lastServed.get 0 = p
            ∧ ∃ e b, s.part.engine? p = some e ∧ e.request = some b ∧ t.path.burst = some b))

/-- What becomes of a held host transaction when the burst of the part's own in progress ends, whatever that burst was (R144,
R148). One that has had its inserted burst, or is held with feed stall off, is forwarded. With feed stall on and no inserted
burst yet, the feed stall test decides by the requests as the burst's end leaves them: where a level-1 request waits, one
urgent feed burst is inserted, of the first panel that has one in the order that starts after the level's last-served (R114,
R147), and the transaction stays held with its insertion noted; where none waits, it is forwarded. -/
def Obligations.HeldTransactionIsForwarded : Prop :=
  ∀ (c : Instr) (s : State) (h : HostTransaction) (b : Burst), s.Ready → s.path.host = some h → h.phase = .held →
    s.path.burst = some b →
    ((c = .captureBurstEnd ∧ b.kind.isCapture = true) ∨ (c = .feedBurstEnd ∧ b.kind.isFeed = true)
      ∨ (c = .commitReadEnd ∧ b.kind = .commitRead) ∨ (c = .commitWriteEnd ∧ b.kind = .commitWrite)
      ∨ (c = .setupReadEnd ∧ b.kind = .setupRead) ∨ (c = .statusPostEnd ∧ b.kind = .statusPost)) →
    (h.inserted = true
        ∨ (c ≠ .setupReadEnd ∧ ∀ g, s.part.setup = some g → g.globals.feedStall = false) →
      ∃ t, exec c s = .next t ∧ t.path.host = some { h with phase := .forwarding } ∧ t.path.burst = none)
    ∧ (h.inserted = false →
      ∃ t, exec c s = .next t ∧ (c ≠ .setupReadEnd → t.part.setup = s.part.setup)
        ∧ ((∀ g, t.part.setup = some g → g.globals.feedStall = false) →
          t.path.host = some { h with phase := .forwarding } ∧ t.path.burst = none)
        ∧ ∀ g, t.part.setup = some g → g.globals.feedStall = true →
          (((∀ q, t.part.requestLevel? q ≠ some 0) ∧ t.path.host = some { h with phase := .forwarding }
              ∧ t.path.burst = none ∧ t.path.lastServed = s.path.lastServed)
          ∨ ∃ p e slot j r b', t.path.host = some { h with inserted := true } ∧ t.path.burst = some b'
              ∧ t.path.lastServed = s.path.lastServed.set 0 p
              ∧ t.part.running? p = some (slot, j, r) ∧ j.state = .driving
              ∧ t.part.engine? p = some e ∧ e.buffer.length < g.globals.feedThreshold ∧ e.inFlight = true
              ∧ b'.kind.isFeed = true
              ∧ ∀ q, t.part.requestLevel? q = some 0 →
                  (p - s.path.lastServed.get 0 - 1).val ≤ (q - s.path.lastServed.get 0 - 1).val))
    ∧ (∀ g, c = .statusPostEnd → h.inserted = false → s.part.setup = some g → g.globals.feedStall = true →
      ((∀ q, s.part.requestLevel? q ≠ some 0) →
        ∃ t, exec c s = .next t ∧ t.path.host = some { h with phase := .forwarding } ∧ t.path.burst = none
          ∧ t.path.lastServed = s.path.lastServed)
      ∧ ∀ p, s.part.requestLevel? p = some 0 →
        (∀ q, s.part.requestLevel? q = some 0 →
          (p - s.path.lastServed.get 0 - 1).val ≤ (q - s.path.lastServed.get 0 - 1).val) →
        ∃ t e b', exec c s = .next t ∧ t.path.host = some { h with inserted := true }
          ∧ s.part.engine? p = some e ∧ e.request = some b' ∧ t.path.burst = some b'
          ∧ t.path.lastServed = s.path.lastServed.set 0 p
          ∧ t.part.requestLevel? p = none ∧ ∀ q, q ≠ p → t.part.requestLevel? q = s.part.requestLevel? q)

/-- The end of a host transaction that gives no order (R143): a read has returned exactly the bytes of the sign memory,
and the part sees nothing of it; an array write ends with nothing; a transaction with any other command has been forwarded
with its command, its start address and its write bytes and has returned exactly the bytes the sign memory supplied. The
record of the last such transaction, and that it changes no byte of the array, are the model's (logs 4 and 27). -/
def Obligations.HostTransactionEnds : Prop :=
  ∀ (data : HostData) (grantFirst : Bool) (s : State) (h : HostTransaction), s.Ready →
    s.path.host = some h → h.phase = .forwarding →
    (h.command = .arrayRead →
      ∃ t, exec (.hostTransactionEnd data grantFirst) s = .next t ∧ t.path.hostRead.length = data.bytesRead
        ∧ (∀ i, i < data.bytesRead → h.start + i < 0x1000000 → t.path.hostRead[i]? = some (Memory.read s.memory (h.start + i)))
        ∧ t.AgreesOutsidePath { s with path := { s.path with host := none, hostRead := t.path.hostRead } })
    ∧ (h.command = .arrayWrite → h.givesOrder = false →
      CompletesWith (.hostTransactionEnd data grantFirst) s
        { s with path := { s.path with host := none } })
    ∧ ∀ opcode, h.command = .other opcode →
      CompletesWith (.hostTransactionEnd data grantFirst) s
        { s with
          path := { s.path with
            host := none, hostRead := data.supplied
            forwarded := some { opcode := opcode, start := h.start, written := data.written } } }

/-- The end of a host write that covered offset 10Fh gives one order, formed from the order capture copy as it then stands
(R160): the part answers exactly as to that order's command at the state with the transaction over, and where the
arbiter's grant comes first the order is taken all the same; either way the orders-taken count rises by one and the last
order code is the copy's first byte. -/
def Obligations.TransactionEndGivesOrder : Prop :=
  ∀ (data : HostData) (grantFirst : Bool) (s : State) (h : HostTransaction), s.Ready →
    s.path.host = some h → h.phase = .forwarding → h.command = .arrayWrite → h.givesOrder = true →
    (grantFirst = false →
      exec (.hostTransactionEnd data grantFirst) s
        = exec (orderCommand s.part.unit.orderCopy) { s with path := { s.path with host := none } })
    ∧ ∃ t, exec (.hostTransactionEnd data grantFirst) s = .next t
      ∧ t.part.unit.ordersTaken = s.part.unit.ordersTaken + 1
      ∧ t.part.unit.lastOrder = s.part.unit.orderCopy.getD 0 0 ∧ t.memory = s.memory

/-- The grant within one level (R147): at each of levels 1 to 4 the arbiter serves the first panel with a request there in
the order that starts after the level's last-served panel, which then is the level's last-served panel, whatever the other
levels hold; a request at a level waits while a lower-numbered level has one. An engine whose burst is in progress,
abandoned or not, has no request (R108, log 18). -/
def Obligations.RoundRobinWithinLevels : Prop :=
  (∀ (s : State) (p : PanelNo) (e : Engine), s.part.engine? p = some e → e.inFlight = true →
    s.part.requestLevel? p = none)
  ∧ ∀ (s : State) (level p : PanelNo), s.path.burst = none → s.path.host = none →
    s.part.requestLevel? p = some level →
    (∀ l : PanelNo, l < level → ∀ q, s.part.requestLevel? q ≠ some l) →
    (∀ q, s.part.requestLevel? q = some level →
      (p - s.path.lastServed.get level - 1).val ≤ (q - s.path.lastServed.get level - 1).val) →
    ∃ e b, s.part.engine? p = some e ∧ e.request = some b ∧ s.advancePath.path.burst = some b
      ∧ s.advancePath.path.lastServed.get level = p
      ∧ (∀ l : PanelNo, l ≠ level → s.advancePath.path.lastServed.get l = s.path.lastServed.get l)
      ∧ s.advancePath.part.requestLevel? p = none
      ∧ ∀ q, q ≠ p → s.advancePath.part.requestLevel? q = s.part.requestLevel? q

/-! ### The bytes of a host write -/

/-- The map from a byte address to a plane's pixel area (R5): the offset from the plane's base gives the pixel row and the
byte column, the column gives the tile column, and a column at or beyond W/4 is padding. -/
def Obligations.AddressMapsToTile : Prop :=
  ∀ (s : State) (g : Setup) (p : PanelNo) (c : PanelCfg) (plane : Plane) (row column : Nat),
    s.part.setup = some g → g.panels.get p = some c → row < c.height → column < c.stride →
    c.planeBase plane + row * c.stride + column < 0x1000000 →
    (c.planeBase plane + row * c.stride + column < s.part.unit.base
      ∨ s.part.unit.base + 0x1000 ≤ c.planeBase plane + row * c.stride + column) →
    (∀ q d plane', g.panels.get q = some d → (q, plane') ≠ (p, plane) →
      c.planeBase plane + row * c.stride + column < d.planeBase plane'
        ∨ d.planeBase plane' + d.height * d.stride ≤ c.planeBase plane + row * c.stride + column) →
    s.classAt (c.planeBase plane + row * c.stride + column)
      = if c.width / 4 ≤ column then .padding else .pixel ⟨plane, p, row, column, column / 8, row / 32⟩

/-- A forwarded host byte of any class reaches the sign memory, every other byte of it stays, and the run's next byte
follows at the next address (R6, R143). -/
def Obligations.ForwardedByteReachesMemory : Prop :=
  ∀ (c : Instr) (s : State) (a : Nat) (d : Byte), s.Ready →
    ((c = .targetTouch a d ∧ (s.touch? .target a).isSome = true)
      ∨ (c = .shownTouch a d ∧ (s.touch? .shown a).isSome = true)
      ∨ (c = .stageTouch a d ∧ (s.touch? .stage a).isSome = true)
      ∨ (c = .orderBlockWrite a d ∧ (s.orderOffset? a).isSome = true)
      ∨ (c = .setupEdit a d ∧ s.editsSetup a = true) ∨ (c = .untappedWrite a d ∧ s.passesBy a = true)) →
    ∃ t, exec c s = .next t
      ∧ (∀ x, Memory.read t.memory x = if x = a ∧ a < 0x1000000 then d else Memory.read s.memory x)
      ∧ ∃ h, t.path.host = some h ∧ h.next = a + 1 ∧ h.phase = .forwarding

/-- A TARGET touch of a CLEAN tile (R19): QUEUED in the zone's queued job, whose rectangle grows to the bounding box of
itself and the tile; else QUEUED in the panel's queued PANEL job; else DIRTY, with LOOSE_WRITE for a LOOSE tile (R23). No
other tile changes and nothing is placed. -/
def Obligations.TargetTouchOfCleanTile : Prop :=
  ∀ (s : State) (a : Nat) (d : Byte) (t : Touch) (g : Setup) (c : PanelCfg) (x : Tile), s.Ready →
    s.touch? .target a = some t → s.part.setup = some g → g.panels.get t.panel = some c →
    s.part.tileAt? g t.panel t.tx t.ty = some x → x.state = .clean →
    ∃ u, exec (.targetTouch a d) s = .next u
      ∧ u.AgreesOutsidePath
          { s.forwardByte a d with
            part := { s.part with
              tiles := u.part.tiles, zones := u.part.zones, pool := u.part.pool
              unit := { s.part.unit with causes := u.part.unit.causes } } }
      ∧ (∀ p tx ty, (p, tx, ty) ≠ (t.panel, t.tx, t.ty) → u.part.tileAt? g p tx ty = s.part.tileAt? g p tx ty)
      ∧ (∀ n z slot j, x.zone = some n → s.part.zone? n = some z → z.queuedJob = some slot →
          s.part.job? slot = some j →
          u.part.tileAt? g t.panel t.tx t.ty = some { x with state := .queued }
            ∧ u.part.pool
                = s.part.pool.set slot (some { j with
                    rect := ⟨min j.rect.tx0 t.tx, max j.rect.tx1 t.tx, min j.rect.ty0 t.ty, max j.rect.ty1 t.ty⟩ })
            ∧ u.part.unit.causes = s.part.unit.causes)
      ∧ ((∀ n z, x.zone = some n → s.part.zone? n = some z → z.queuedJob = none) →
          u.part.pool = s.part.pool
            ∧ ((s.part.queuedPanelJob? t.panel).isSome = true →
                u.part.tileAt? g t.panel t.tx t.ty = some { x with state := .queued }
                  ∧ u.part.unit.causes = s.part.unit.causes)
            ∧ (s.part.queuedPanelJob? t.panel = none →
                u.part.tileAt? g t.panel t.tx t.ty = some { x with state := .dirty }
                  ∧ (∀ n z, x.zone = some n → u.part.zone? n = some z → z.dirtyCount = dirtyTiles u.part.tiles n)
                  ∧ (x.zone.isSome = true → u.part.unit.causes = s.part.unit.causes)
                  ∧ (x.zone = none → s.part.Latched u.part .looseWrite t.panel.val)))

/-- A TARGET touch of a DIRTY or QUEUED tile (R20) changes no tile, job or cause: the byte is forwarded and the settle
timer of the tile's zone, if it has one, restarts. -/
def Obligations.TargetTouchOfWaitingTile : Prop :=
  ∀ (s : State) (a : Nat) (d : Byte) (t : Touch) (g : Setup) (c : PanelCfg) (x : Tile), s.Ready →
    s.touch? .target a = some t → s.part.setup = some g → g.panels.get t.panel = some c →
    s.part.tileAt? g t.panel t.tx t.ty = some x → (x.state = .dirty ∨ x.state = .queued) →
    ∃ u, exec (.targetTouch a d) s = .next u
      ∧ u.AgreesOutsidePath
          { s.forwardByte a d with
            part := { s.part with
              zones := s.part.zones.map fun z =>
                match x.zone.bind g.zone? with
                | some y => if z.index = y.index then { z with timer := some y.settle, expired := false } else z
                | none => z } }

/-- A TARGET touch of an ACTIVE tile (R21): at or beyond the capture cursor of a CAPTURING job it takes a mark in the
carried set if it has none, and no flag; below the cursor, or in any later state of the job, it takes REDIRTY. The tile
stays ACTIVE. -/
def Obligations.TargetTouchOfActiveTile : Prop :=
  ∀ (s : State) (a : Nat) (d : Byte) (t : Touch) (g : Setup) (c : PanelCfg) (x : Tile) (slot : Nat) (j : Job)
    (r : RunFields) (e : Engine), s.Ready →
    s.touch? .target a = some t → s.part.setup = some g → g.panels.get t.panel = some c →
    s.part.tileAt? g t.panel t.tx t.ty = some x → x.state = .active →
    s.part.running? t.panel = some (slot, j, r) → s.part.engine? t.panel = some e →
    ∃ u, exec (.targetTouch a d) s = .next u
      ∧ u.AgreesOutsidePath
          { s.forwardByte a d with
            part := { s.part with tiles := u.part.tiles, zones := u.part.zones, pool := u.part.pool } }
      ∧ (∀ p tx ty, (p, tx, ty) ≠ (t.panel, t.tx, t.ty) → u.part.tileAt? g p tx ty = s.part.tileAt? g p tx ty)
      ∧ (j.state = .capturing → e.cursor ≤ t.row →
          u.part.tiles = s.part.tiles
            ∧ ∃ r', u.part.pool = s.part.pool.set slot (some { j with running := some r' })
              ∧ r' = { r with carried := r'.carried }
              ∧ ∀ i, i ∈ r'.carried ↔ i ∈ r.carried ∨ i = g.firstTile t.panel + t.ty * (c.width / 32) + t.tx)
      ∧ ((j.state = .capturing → t.row < e.cursor) →
          u.part.pool = s.part.pool
            ∧ u.part.tileAt? g t.panel t.tx t.ty = some { x with redirty := true })

/-- R22: every TARGET touch that names a zoned tile restarts the zone's settle timer with its full settle time, in every
tile state, and restarts no other; a touch of a LOOSE tile restarts none, and SHOWN and STAGE touches leave every timer as
it stands. -/
def Obligations.TouchesRestartSettleTimers : Prop :=
  ∀ (s : State) (a : Nat) (d : Byte) (t : Touch) (g : Setup) (c : PanelCfg) (x : Tile), s.Ready →
    s.part.setup = some g → g.panels.get t.panel = some c → s.part.tileAt? g t.panel t.tx t.ty = some x →
    (s.touch? .target a = some t →
      ∃ u, exec (.targetTouch a d) s = .next u
        ∧ (∀ n y, x.zone = some n → g.zone? n = some y →
            u.part.zones.map (fun z => (z.index, z.timer))
              = s.part.zones.map fun z => (z.index, if z.index = n then some y.settle else z.timer))
        ∧ (x.zone = none →
            u.part.zones.map (fun z => (z.index, z.timer)) = s.part.zones.map fun z => (z.index, z.timer)))
    ∧ (s.touch? .shown a = some t →
      ∃ u, exec (.shownTouch a d) s = .next u
        ∧ u.part.zones.map (fun z => (z.index, z.timer)) = s.part.zones.map fun z => (z.index, z.timer))
    ∧ (s.touch? .stage a = some t →
      ∃ u, exec (.stageTouch a d) s = .next u
        ∧ u.part.zones.map (fun z => (z.index, z.timer)) = s.part.zones.map fun z => (z.index, z.timer))

/-- A SHOWN touch (R24, R73): UNKNOWN is set on the tile it names and PLANE_INTRUSION latched; the tile's other fields,
every other tile, every zone and every job stay; a late SHOWN mark falls only where the running job's commit has written
the touched segment. -/
def Obligations.ShownTouchSetsUnknown : Prop :=
  ∀ (s : State) (a : Nat) (d : Byte) (t : Touch) (g : Setup) (c : PanelCfg) (x : Tile), s.Ready →
    s.touch? .shown a = some t → s.part.setup = some g → g.panels.get t.panel = some c →
    s.part.tileAt? g t.panel t.tx t.ty = some x →
    ∃ u, exec (.shownTouch a d) s = .next u
      ∧ u.AgreesOutsidePath
          { s.forwardByte a d with
            part := { s.part with
              tiles := u.part.tiles, engines := u.part.engines
              unit := { s.part.unit with causes := u.part.unit.causes } } }
      ∧ u.part.tileAt? g t.panel t.tx t.ty = some { x with untrusted := true }
      ∧ (∀ p tx ty, (p, tx, ty) ≠ (t.panel, t.tx, t.ty) → u.part.tileAt? g p tx ty = s.part.tileAt? g p tx ty)
      ∧ s.part.Latched u.part .planeIntrusion t.panel.val
      ∧ (∀ p, p ≠ t.panel → (u.part.engine? p).map Engine.outsidePath = (s.part.engine? p).map Engine.outsidePath)
      ∧ (u.part.engine? t.panel).map (fun e => { e.outsidePath with context := [] })
          = (s.part.engine? t.panel).map (fun e => { e.outsidePath with context := [] })
      ∧ (∀ slot j r e pos, s.part.running? t.panel = some (slot, j, r) → s.part.engine? t.panel = some e →
          e.commit = some pos →
          (u.part.engine? t.panel).map (·.context)
            = some (if j.state = .committing ∧ j.rect.contains t.tx t.ty = true ∧ e.toCopy j.rect r.mode t.tx t.ty = true
                ∧ (t.row < pos.row ∨ (t.row = pos.row ∧ t.tx < pos.tx))
              then e.context.set (j.rect.contextIndex t.tx t.ty) { e.entry j.rect t.tx t.ty with lateShown := true }
              else e.context))
      ∧ ((s.part.running? t.panel = none ∨ ∀ e, s.part.engine? t.panel = some e → e.commit = none) →
          (u.part.engine? t.panel).map (·.context) = (s.part.engine? t.panel).map (·.context))

/-- A STAGE touch (R25) latches PLANE_INTRUSION; an ACTIVE tile takes TAINTED below the capture cursor of a CAPTURING job, at
any row of a POISED or DRIVING one, and in a COMMITTING one where the tile is to be copied and the STAGE read that covers the
touched segment has not ended; elsewhere, and for a tile that is not ACTIVE, nothing else happens. A commit's read that waits
with the tile in its group is withdrawn and re-formed without it (R119): here where some tile is left to be copied. No tile,
zone or job changes. -/
def Obligations.StageTouchTaints : Prop :=
  ∀ (s : State) (a : Nat) (d : Byte) (t : Touch) (g : Setup) (c : PanelCfg) (x : Tile), s.Ready →
    s.touch? .stage a = some t → s.part.setup = some g → g.panels.get t.panel = some c →
    s.part.tileAt? g t.panel t.tx t.ty = some x →
    (x.state ≠ .active →
      ∃ u, exec (.stageTouch a d) s = .next u
        ∧ u.AgreesOutsidePath
            { s.forwardByte a d with part := { s.part with unit := { s.part.unit with causes := u.part.unit.causes } } }
        ∧ s.part.Latched u.part .planeIntrusion t.panel.val)
    ∧ (∀ slot j r e, x.state = .active → s.part.running? t.panel = some (slot, j, r) →
        s.part.engine? t.panel = some e → e.commit = none → j.rect.contains t.tx t.ty = true → j.state ≠ .committing →
      ∃ u, exec (.stageTouch a d) s = .next u
        ∧ u.AgreesOutsidePath
            { s.forwardByte a d with
              part := { s.part with
                engines := u.part.engines, unit := { s.part.unit with causes := u.part.unit.causes } } }
        ∧ (u.part.engine? t.panel).map (·.context)
            = some (if j.state = .poised ∨ j.state = .driving ∨ t.row < e.cursor then
                e.context.set (j.rect.contextIndex t.tx t.ty) { e.entry j.rect t.tx t.ty with tainted := true }
              else e.context)
        ∧ s.part.Latched u.part .planeIntrusion t.panel.val
        ∧ (u.part.engine? t.panel).map (fun e => { e.outsidePath with context := [] })
            = some { e.outsidePath with context := [] }
        ∧ ∀ p, p ≠ t.panel → (u.part.engine? p).map Engine.outsidePath = (s.part.engine? p).map Engine.outsidePath)
    ∧ (∀ slot j r e pos, x.state = .active → s.part.running? t.panel = some (slot, j, r) →
        s.part.engine? t.panel = some e → e.commit = some pos → j.rect.contains t.tx t.ty = true →
        j.state = .committing → ∀ ended : Bool,
        (ended = true ↔ t.row < pos.row
          ∨ (t.row = pos.row ∧ t.tx < if pos.writing then pos.tx + pos.tiles else pos.tx)) →
      (e.toCopy j.rect r.mode t.tx t.ty = false ∨ ended = true →
        ∃ u, CompletesWith (.stageTouch a d) s u
          ∧ u = { s.forwardByte a d with
              part := { s.part with unit := { s.part.unit with causes := u.part.unit.causes } } }
          ∧ s.part.Latched u.part .planeIntrusion t.panel.val)
      ∧ (e.toCopy j.rect r.mode t.tx t.ty = true → ended = false →
          (∀ b, e.request = some b → b.kind = .commitRead →
            t.ty ≠ pos.row / 32 ∨ t.tx < pos.tx ∨ pos.tx + pos.tiles ≤ t.tx) →
        ∃ u, CompletesWith (.stageTouch a d) s u
          ∧ u = { s.forwardByte a d with
              part := { s.part with
                engines := s.part.engines.set t.panel (some { e with
                  context := e.context.set (j.rect.contextIndex t.tx t.ty)
                    { e.entry j.rect t.tx t.ty with tainted := true } })
                unit := { s.part.unit with causes := u.part.unit.causes } } }
          ∧ s.part.Latched u.part .planeIntrusion t.panel.val)
      ∧ (∀ b (copied : Nat → Nat → Prop), e.toCopy j.rect r.mode t.tx t.ty = true → ended = false →
          e.request = some b → b.kind = .commitRead → t.ty = pos.row / 32 → pos.tx ≤ t.tx → t.tx < pos.tx + pos.tiles →
          j.rect.tx0 ≤ pos.tx → e.context.length = j.rect.cols * j.rect.rows →
          (∀ x y, copied x y ↔ e.toCopy j.rect r.mode x (y / 32) = true ∧ ¬(x = t.tx ∧ y / 32 = t.ty)) →
          ¬j.rect.NoneLeft copied pos.row pos.tx →
        ∃ u row tx w, CompletesWith (.stageTouch a d) s u
          ∧ u = { s.forwardByte a d with
              part := { s.part with
                engines := s.part.engines.set t.panel (some { e with
                  context := e.context.set (j.rect.contextIndex t.tx t.ty)
                    { e.entry j.rect t.tx t.ty with tainted := true }
                  commit := some ⟨row, tx, w, false⟩
                  request := some
                    { kind := .commitRead, panel := t.panel, row := row, tx := tx, tiles := w
                      addr := c.stageBase + row * c.stride + 8 * tx, data := [] } })
                unit := { s.part.unit with causes := u.part.unit.causes } } }
          ∧ s.part.Latched u.part .planeIntrusion t.panel.val
          ∧ j.rect.NextGroup copied pos.row pos.tx row tx w))

/-- The classes of a forwarded byte (R145, R159): in the 4 KiB window, offsets 100h to 10Fh are the order block, 200h to 37Fh,
400h to 4FFh and 600h to DFFh the setup areas, and every other offset, the padding of a plane, every byte in no plane and every
byte at or beyond 1000000h is handed to no one. An order block byte updates the order capture copy with the written value, and
the transaction will give an order where the byte stands at offset 10Fh; a setup area byte sets the setup edited flag, and in
APPLYING the edit mark; a byte handed to no one only reaches the memory (R160, R162). -/
def Obligations.WindowBytes : Prop :=
  ∀ (s : State) (a : Nat) (d : Byte), s.Ready →
    (s.forwards a = true → a < 0x1000000 →
      (∀ o, a = s.part.unit.base + o → o < 0x1000 →
        s.orderOffset? a = (if 0x100 ≤ o ∧ o < 0x110 then some (o - 0x100) else none)
          ∧ (s.editsSetup a = true ↔
              (0x200 ≤ o ∧ o < 0x380) ∨ (0x400 ≤ o ∧ o < 0x500) ∨ (0x600 ≤ o ∧ o < 0xE00))
          ∧ (s.passesBy a = true ↔
              o < 0x100 ∨ (0x110 ≤ o ∧ o < 0x200) ∨ (0x380 ≤ o ∧ o < 0x400) ∨ (0x500 ≤ o ∧ o < 0x600) ∨ 0xE00 ≤ o))
      ∧ (a < s.part.unit.base ∨ s.part.unit.base + 0x1000 ≤ a →
        s.orderOffset? a = none ∧ s.editsSetup a = false
          ∧ ((∀ g p c plane, s.part.setup = some g → g.panels.get p = some c →
                a < c.planeBase plane ∨ c.planeBase plane + c.height * c.stride ≤ a) →
              s.passesBy a = true)
          ∧ (s.classAt a = .padding → s.passesBy a = true)
          ∧ ∀ x, s.classAt a = .pixel x → s.passesBy a = false ∧ s.touch? x.plane a = some x))
    ∧ (s.forwards a = true → 0x1000000 ≤ a →
      s.orderOffset? a = none ∧ s.editsSetup a = false ∧ s.passesBy a = true)
    ∧ (∀ o, s.orderOffset? a = some o →
      ∃ u, exec (.orderBlockWrite a d) s = .next u
        ∧ u.AgreesOutsidePath
            { s.forwardByte a d with
              path := { s.path with host := u.path.host }
              part := { s.part with unit := { s.part.unit with orderCopy := s.part.unit.orderCopy.set o d } } }
        ∧ ∀ h, s.path.host = some h →
            u.path.host = some { h with next := a + 1, givesOrder := h.givesOrder || o == 15 })
    ∧ (s.editsSetup a = true →
      CompletesWith (.setupEdit a d) s
        { s.forwardByte a d with
          part := { s.part with
            unit := { s.part.unit with
              setupEdited := true
              editMark := s.part.unit.editMark || s.part.unit.runState == .applying } } })
    ∧ (s.passesBy a = true → CompletesWith (.untappedWrite a d) s (s.forwardByte a d))

/-! ### Orders -/

/-- APPLY and RUN by the run state (R55, R161, R162). APPLY, taken in NO_SETUP and STOPPED, is answered STARTED, remembers
the run state it left, clears the edit mark and asks for the first setup read. RUN, taken in STOPPED, makes the run state
RUNNING and causes a walk, and in RUNNING is answered DONE and changes nothing. Elsewhere either is refused with
REFUSED_STATE and nothing else happens. -/
def Obligations.ApplyAndRunOrders : Prop :=
  ∀ s : State, s.Ready →
    (s.part.unit.runState = .noSetup ∨ s.part.unit.runState = .stopped →
      CompletesWith .apply s
        { s with
          part := { s.part with
            unit := { s.part.unit with
              runState := .applying, leftState := s.part.unit.runState, editMark := false, setupData := []
              setupRequest := some 0
              ordersTaken := s.part.unit.ordersTaken + 1, lastOrder := 1, lastResult := 2 } } })
    ∧ (s.part.unit.runState = .applying ∨ s.part.unit.runState = .running ∨ s.part.unit.runState = .halting →
      CompletesWith .apply s
        { s with
          part := { s.part with
            unit := { s.part.unit with
              ordersTaken := s.part.unit.ordersTaken + 1, lastOrder := 1, lastResult := 3 } } })
    ∧ (s.part.unit.runState = .stopped →
      CompletesWith .run s
        { s with
          part := { s.part with
            walkOwed := true
            unit := { s.part.unit with
              runState := .running
              ordersTaken := s.part.unit.ordersTaken + 1, lastOrder := 2, lastResult := 1 } } })
    ∧ (s.part.unit.runState = .running →
      CompletesWith .run s
        { s with
          part := { s.part with
            unit := { s.part.unit with
              ordersTaken := s.part.unit.ordersTaken + 1, lastOrder := 2, lastResult := 1 } } })
    ∧ (s.part.unit.runState = .noSetup ∨ s.part.unit.runState = .applying ∨ s.part.unit.runState = .halting →
      CompletesWith .run s
        { s with
          part := { s.part with
            unit := { s.part.unit with
              ordersTaken := s.part.unit.ordersTaken + 1, lastOrder := 2, lastResult := 3 } } })

/-- HALT (R35, R56 to R59, R111): in RUNNING with one running job, CAPTURING or POISED, the job goes back to QUEUED under its own
sequence number with its admitted fields absent, its cost leaves K, its context is freed, its demand on the rail is withdrawn
(R141), its tiles become QUEUED where marked or REDIRTY and CLEAN otherwise, its zone's running job becomes none and queued job
its slot, the port rests at once under a rest delay of 0 (R129), and the part is STOPPED with HALTED latched. A QUEUED job of the
same scope is merged into it (R58): the rectangles joined, the class the more urgent with a new sequence number where that raises
it, the two flags either's; its slot is freed and the HELD retry made (R32). With no job but a DRIVING or COMMITTING one the run
state becomes HALTING and the job is left alone. In STOPPED it is answered DONE, elsewhere REFUSED_STATE, and nothing else
happens. -/
def Obligations.HaltOrder : Prop :=
  ∀ (s : State) (g : Setup), s.Ready → s.part.setup = some g →
    (∀ p slot j r c, s.part.unit.runState = .running → g.panels.get p = some c →
      s.part.running? p = some (slot, j, r) → j.panel = p → (∀ q, q ≠ p → s.part.running? q = none) →
      j.state = .capturing ∨ j.state = .poised → (∀ k q, s.part.job? k = some q → q.state = .queued → q.scope ≠ j.scope) →
      s.part.runningCount = 1 →
      ∃ t, exec .halt s = .next t
        ∧ t.AgreesOutsidePath
            { s with
              part := { s.part with
                pool := s.part.pool.set slot (some { j with state := .queued, running := none })
                committed := s.part.committed - r.cost, runningCount := 0
                tiles := t.part.tiles, zones := t.part.zones, engines := t.part.engines, rail := t.part.rail
                ports := s.part.ports.set p
                  ((s.part.port p).restsAtOnce c ⟨s.part.clock.mono, s.part.clock.tick⟩)
                stopMark := none
                unit := { s.part.unit with
                  causes := t.part.unit.causes, runState := .stopped
                  ordersTaken := s.part.unit.ordersTaken + 1, lastOrder := 3, lastResult := 1 } } }
        ∧ s.part.RailReleased t.part g slot
        ∧ t.part.engine? p = none
        ∧ (∀ q, q ≠ p → (t.part.engine? q).map Engine.outsidePath = (s.part.engine? q).map Engine.outsidePath)
        ∧ (∀ tx ty x, s.part.tileAt? g p tx ty = some x → j.rect.contains tx ty = true →
            t.part.tileAt? g p tx ty
              = some { x with
                  state := if x.redirty = true ∨ g.tileIndex p c tx ty ∈ r.carried then .queued else .clean
                  redirty := false })
        ∧ (∀ q tx ty, (q ≠ p ∨ j.rect.contains tx ty = false) →
            t.part.tileAt? g q tx ty = s.part.tileAt? g q tx ty)
        ∧ (∀ n y, s.part.zone? n = some y →
            t.part.zone? n = some { y.counted t.part.tiles s.part.clock.mono with
              runningJob := if j.scope = .zone n then none else y.runningJob
              queuedJob := if j.scope = .zone n then some slot else y.queuedJob })
        ∧ s.part.Latched t.part .halted 0)
    ∧ (∀ p slot j r c k q rises, s.part.unit.runState = .running → g.panels.get p = some c →
      s.part.running? p = some (slot, j, r) → j.panel = p → (∀ q, q ≠ p → s.part.running? q = none) →
      j.state = .capturing ∨ j.state = .poised → s.part.job? k = some q → q.state = .queued → q.scope = j.scope →
      (∀ i y, s.part.job? i = some y → y.state = .queued → y.scope = j.scope → i = k) →
      s.part.runningCount = 1 → rises = decide (q.cls.rank < j.cls.rank) →
      ∃ (t : State) (returned retried : Machine.Part), exec .halt s = .next t
        ∧ returned = { s.part with
            pool := (s.part.pool.set slot (some { j with
              state := .queued, running := none
              rect := ⟨min j.rect.tx0 q.rect.tx0, max j.rect.tx1 q.rect.tx1, min j.rect.ty0 q.rect.ty0,
                max j.rect.ty1 q.rect.ty1⟩
              cls := if rises then q.cls else j.cls
              sequence := if rises then s.part.sequence else j.sequence
              fullRequest := j.fullRequest || q.fullRequest
              urgentCarried := j.urgentCarried || q.urgentCarried })).set k none
            sequence := if rises then s.part.sequence + 1 else s.part.sequence
            committed := s.part.committed - r.cost, runningCount := 0
            tiles := returned.tiles, zones := returned.zones, engines := s.part.engines.set p none
            rail := returned.rail
            ports := s.part.ports.set p
              ((s.part.port p).restsAtOnce c ⟨s.part.clock.mono, s.part.clock.tick⟩)
            stopMark := none, walkOwed := true
            unit := { s.part.unit with
              runState := .stopped
              ordersTaken := s.part.unit.ordersTaken + 1, lastOrder := 3, lastResult := 1 } }
        ∧ s.part.RailReleased returned g slot
        ∧ (∀ q tx ty x, s.part.tileAt? g q tx ty = some x →
            returned.tileAt? g q tx ty
              = some (if q = p ∧ j.rect.contains tx ty = true then
                  { x with
                    state := if x.redirty = true ∨ g.tileIndex p c tx ty ∈ r.carried then .queued else .clean
                    redirty := false }
                else x))
        ∧ (∀ n y, s.part.zone? n = some y →
            returned.zone? n = some { y.counted returned.tiles s.part.clock.mono with
              runningJob := if j.scope = .zone n then none else y.runningJob
              queuedJob := if j.scope = .zone n then some slot else y.queuedJob })
        ∧ HeldPass g g.zones returned retried
        ∧ t.AgreesOutsidePath
            { s with part := { retried with unit := { retried.unit with causes := t.part.unit.causes } } }
        ∧ retried.Latched t.part .halted 0)
    ∧ (s.part.unit.runState = .running →
      (∀ p slot j r, s.part.running? p = some (slot, j, r) → j.state = .driving ∨ j.state = .committing) →
      s.part.runningCount ≠ 0 →
      CompletesWith .halt s
        { s with
          part := { s.part with
            unit := { s.part.unit with
              runState := .halting
              ordersTaken := s.part.unit.ordersTaken + 1, lastOrder := 3, lastResult := 1 } } })
    ∧ (s.part.unit.runState ≠ .running →
      CompletesWith .halt s
        { s with
          part := { s.part with
            unit := { s.part.unit with
              ordersTaken := s.part.unit.ordersTaken + 1, lastOrder := 3
              lastResult := if s.part.unit.runState = .stopped then 1 else 3 } } })

/-- A REFRESH_ZONE that needs a new job and finds a free slot (R36, R38, R39, R40): the job takes the lowest-numbered free
slot with the zone's whole rectangle, the order's class, origin ORDER and the full request by the mode, and a newly issued
sequence number; the zone's DIRTY tiles become QUEUED, its other tiles and every other zone's stay, its DIRTY count falls to
0 and HELD clears, its settle timer and EPOCH_WAIT stay; a walk is caused and the result is DONE. -/
def Obligations.RefreshZonePlaces : Prop :=
  ∀ (s : State) (g : Setup) (z : ZoneCfg) (target mode cls : Byte) (k : RefreshClass) (slot : Nat), s.Ready →
    s.part.setup = some g → s.part.unit.runState = .stopped ∨ s.part.unit.runState = .running →
    g.zone? target.toNat = some z →
    ((cls = 0 ∧ k = .urgent) ∨ (cls = 1 ∧ k = .timed) ∨ (cls = 2 ∧ k = .routine)) → mode = 0 ∨ mode = 1 →
    (∀ x, s.part.zone? z.index = some x → x.queuedJob = none) →
    s.part.job? slot = none → slot < s.part.pool.length → (∀ i, i < slot → (s.part.job? i).isSome = true) →
    ∃ u, CompletesWith (.refreshZone target mode cls) s u
      ∧ u = { s with
          part := { s.part with
            tiles := u.part.tiles, zones := u.part.zones
            pool := s.part.pool.set slot (some
              { panel := z.panel, scope := .zone z.index, rect := z.rect, cls := k, origin := .order
                fullRequest := decide (mode = 1), sequence := s.part.sequence, enqueued := s.part.clock.mono
                state := .queued, running := none, urgentCarried := false, starvedReported := false })
            sequence := s.part.sequence + 1
            walkOwed := true
            unit := { s.part.unit with
              ordersTaken := s.part.unit.ordersTaken + 1, lastOrder := 4, lastResult := 1 } } }
      ∧ (∀ p tx ty x, s.part.tileAt? g p tx ty = some x →
          u.part.tileAt? g p tx ty
            = some (if p = z.panel ∧ z.rect.contains tx ty = true ∧ x.zone = some z.index ∧ x.state = .dirty
              then { x with state := .queued } else x))
      ∧ (∀ x y, s.part.zone? z.index = some x → u.part.zone? z.index = some y →
          y.queuedJob = some slot ∧ y.timer = x.timer ∧ y.epochWait = x.epochWait
            ∧ y.dirtyCount = dirtyTiles u.part.tiles z.index ∧ (y.dirtyCount = 0 → y.held = none ∧ y.dirtySince = none))
      ∧ (∀ n x, n ≠ z.index → s.part.zone? n = some x → x.dirtyCount = dirtyTiles s.part.tiles n →
          (x.dirtyCount = 0 → x.held = none ∧ x.dirtySince = none) → u.part.zone? n = some x)

/-- A request for a zone that already has a QUEUED job merges into it (R43, R44): here a REFRESH_ZONE. The rectangle grows to
the bounding box, the class becomes the more urgent of the two and the full request either's; the job keeps its sequence
number unless its class has risen, when it takes a newly issued one; nothing is placed, and a full pool does not refuse
it. -/
def Obligations.RefreshZoneMerges : Prop :=
  ∀ (s : State) (g : Setup) (z : ZoneCfg) (target mode cls : Byte) (k : RefreshClass) (slot : Nat) (x : Zone) (j : Job),
    s.Ready → s.part.setup = some g → s.part.unit.runState = .stopped ∨ s.part.unit.runState = .running →
    g.zone? target.toNat = some z →
    ((cls = 0 ∧ k = .urgent) ∨ (cls = 1 ∧ k = .timed) ∨ (cls = 2 ∧ k = .routine)) → mode = 0 ∨ mode = 1 →
    s.part.zone? z.index = some x → x.queuedJob = some slot → s.part.job? slot = some j →
    ∃ u, CompletesWith (.refreshZone target mode cls) s u
      ∧ u = { s with
          part := { s.part with
            tiles := u.part.tiles, zones := u.part.zones
            pool := s.part.pool.set slot (some { j with
              rect := ⟨min j.rect.tx0 z.rect.tx0, max j.rect.tx1 z.rect.tx1, min j.rect.ty0 z.rect.ty0,
                max j.rect.ty1 z.rect.ty1⟩
              cls := if k.rank < j.cls.rank then k else j.cls
              fullRequest := j.fullRequest || decide (mode = 1)
              sequence := if k.rank < j.cls.rank then s.part.sequence else j.sequence })
            sequence := if k.rank < j.cls.rank then s.part.sequence + 1 else s.part.sequence
            walkOwed := true
            unit := { s.part.unit with
              ordersTaken := s.part.unit.ordersTaken + 1, lastOrder := 4, lastResult := 1 } } }
      ∧ (∀ p tx ty y, s.part.tileAt? g p tx ty = some y →
          u.part.tileAt? g p tx ty
            = some (if p = z.panel ∧ z.rect.contains tx ty = true ∧ y.zone = some z.index ∧ y.state = .dirty
              then { y with state := .queued } else y))
      ∧ (∀ y, u.part.zone? z.index = some y → y.queuedJob = some slot ∧ y.timer = x.timer ∧ y.epochWait = x.epochWait)

/-- A REFRESH_PANEL or a one-panel SWEEP that needs a new job and finds a free slot (R41, R42, R77): a PANEL job over the
whole panel, and every DIRTY tile of the panel QUEUED. -/
def Obligations.PanelRequestPlaces : Prop :=
  ∀ (s : State) (g : Setup) (p : PanelNo) (c : PanelCfg) (target mode cls : Byte) (k : RefreshClass) (slot : Nat),
    s.Ready → s.part.setup = some g → s.part.unit.runState = .stopped ∨ s.part.unit.runState = .running →
    g.panels.get p = some c → s.part.queuedPanelJob? p = none →
    s.part.job? slot = none → slot < s.part.pool.length → (∀ i, i < slot → (s.part.job? i).isSome = true) →
    (∀ o, (o = .refreshPanel target mode cls ∧ target.toNat = p.val ∧ (mode = 0 ∨ mode = 1)
          ∧ ((cls = 0 ∧ k = .urgent) ∨ (cls = 1 ∧ k = .timed) ∨ (cls = 2 ∧ k = .routine)))
        ∨ (o = .sweep target ∧ target.toNat = 2 ^ p.val ∧ k = .sweep) →
      ∃ u, CompletesWith o s u
        ∧ u = { s with
            part := { s.part with
              tiles := u.part.tiles, zones := u.part.zones
              pool := s.part.pool.set slot (some
                { panel := p, scope := .panel p, rect := ⟨0, c.width / 32 - 1, 0, c.height / 32 - 1⟩, cls := k
                  origin := .order, fullRequest := decide (mode = 1 ∨ k = .sweep), sequence := s.part.sequence
                  enqueued := s.part.clock.mono, state := .queued, running := none, urgentCarried := false
                  starvedReported := false })
              sequence := s.part.sequence + 1
              walkOwed := true
              unit := { s.part.unit with
                ordersTaken := s.part.unit.ordersTaken + 1
                lastOrder := if k = .sweep then 6 else 5
                lastResult := 1 } } }
        ∧ (∀ q tx ty x, s.part.tileAt? g q tx ty = some x →
            u.part.tileAt? g q tx ty
              = some (if q = p ∧ x.state = .dirty then { x with state := .queued } else x))
        ∧ (∀ n y, u.part.zone? n = some y → y.dirtyCount = dirtyTiles u.part.tiles n))

/-- A refresh or sweep order that needs a new slot and finds the pool full (R45): REFUSED_STATE, QUEUE_FULL latched with the
request's scope where it is not latched already, and no job, tile or zone changed. -/
def Obligations.FullPoolRefusesOrders : Prop :=
  ∀ (s : State) (g : Setup) (target mode cls : Byte) (d : Nat), s.Ready → s.part.setup = some g →
    s.part.unit.runState = .stopped ∨ s.part.unit.runState = .running → mode.toNat < 2 → cls.toNat < 3 →
    (∀ x ∈ s.part.pool, x.isSome = true) →
    ∀ o, (o = .refreshZone target mode cls ∧ (∃ z, g.zone? target.toNat = some z ∧ d = z.index
            ∧ ∀ x, s.part.zone? z.index = some x → x.queuedJob = none))
        ∨ (o = .refreshPanel target mode cls ∧ ∃ p : PanelNo, target.toNat = p.val ∧ (g.panels.get p).isSome = true
            ∧ s.part.queuedPanelJob? p = none ∧ d = 0x80 + p.val)
        ∨ (o = .sweep target ∧ ∃ p : PanelNo, target.toNat = 2 ^ p.val ∧ (g.panels.get p).isSome = true
            ∧ s.part.queuedPanelJob? p = none ∧ d = 0x80 + p.val) →
      ∃ t, exec o s = .next t ∧ t.part.unit.lastResult = 3
        ∧ s.part.Latched t.part .queueFull d
        ∧ t.AgreesOutsidePath
            { s with
              part := { s.part with
                unit := { s.part.unit with
                  causes := t.part.unit.causes, ordersTaken := s.part.unit.ordersTaken + 1
                  lastOrder := t.part.unit.lastOrder, lastResult := 3 } } }

/-- The refusals of the refresh, sweep and restore orders, in the order of their tests (R40, R41, R77, R137, R161): the run
state, the target, the mode and class; a refused order has no effect beyond its code, its result and the count. -/
def Obligations.OrdersRefusedInTurn : Prop :=
  ∀ (s : State) (target mode cls : Byte) (o : Instr), s.Ready →
    (o = .refreshZone target mode cls ∨ o = .refreshPanel target mode cls ∨ o = .sweep target ∨ o = .restorePort target) →
    ∀ result : Byte,
    ((s.part.unit.runState ≠ .stopped ∧ s.part.unit.runState ≠ .running ∧ result = 3)
      ∨ (∃ g, (s.part.unit.runState = .stopped ∨ s.part.unit.runState = .running) ∧ s.part.setup = some g
          ∧ ((result = 4 ∧ o = .refreshZone target mode cls ∧ g.zone? target.toNat = none)
            ∨ (result = 4 ∧ (o = .refreshPanel target mode cls ∨ o = .restorePort target)
                ∧ (∀ p : PanelNo, p.val = target.toNat → g.panels.get p = none))
            ∨ (result = 4 ∧ o = .sweep target ∧ (target.toNat % 16 = 0
                ∨ ∃ p : PanelNo, target.toNat.testBit p.val = true ∧ g.panels.get p = none))
            ∨ (result = 5 ∧ o = .refreshZone target mode cls ∧ (g.zone? target.toNat).isSome = true
                ∧ (2 < cls.toNat ∨ 1 < mode.toNat))
            ∨ (result = 5 ∧ o = .refreshPanel target mode cls
                ∧ (∃ p : PanelNo, p.val = target.toNat ∧ (g.panels.get p).isSome = true)
                ∧ (2 < cls.toNat ∨ 1 < mode.toNat))))) →
    CompletesWith o s
      { s with
        part := { s.part with
          unit := { s.part.unit with
            ordersTaken := s.part.unit.ordersTaken + 1
            lastOrder := match o with
              | .refreshZone _ _ _ => 4
              | .refreshPanel _ _ _ => 5
              | .sweep _ => 6
              | _ => 9
            lastResult := result } } }

/-- SET_CLOCK (R158): in every run state the second of day and the day count take the values given, and nothing else of the
part changes but the order's code, result and count: not monotonic seconds, not the tick, not the window, no timer, no
cause; a second of day above 86,399 or a day count above 65,535 is refused with REFUSED_ARGUMENT and nothing changes. -/
def Obligations.SetClockOrder : Prop :=
  ∀ (s : State) (arg1 arg2 : BitVec 32), s.Ready →
    (arg1.toNat ≤ 86399 → arg2.toNat ≤ 65535 →
      CompletesWith (.setClock arg1 arg2) s
        { s with
          part := { s.part with
            clock := { s.part.clock with secondOfDay := arg1.toNat, dayCount := arg2.toNat }
            unit := { s.part.unit with
              ordersTaken := s.part.unit.ordersTaken + 1, lastOrder := 7, lastResult := 1 } } })
    ∧ (86399 < arg1.toNat ∨ 65535 < arg2.toNat →
      CompletesWith (.setClock arg1 arg2) s
        { s with
          part := { s.part with
            unit := { s.part.unit with
              ordersTaken := s.part.unit.ordersTaken + 1, lastOrder := 7, lastResult := 5 } } })

/-- CLEAR_ATTN (R167): exactly the causes whose bits are set in the mask are unlatched, in every run state; ATTN is asserted
exactly while some latched cause has its bit set in the attention mask; and a code outside 1 to 9 is answered UNKNOWN_ORDER
with no other effect (R160, R161). -/
def Obligations.ClearAttnAndUnknownOrders : Prop :=
  (∀ u : WindowUnit, u.attn = true ↔ ∃ k : Cause, (u.detail? k).isSome = true ∧ u.mask.getLsbD k.bit = true)
  ∧ ∀ s : State, s.Ready →
    (∀ mask : BitVec 32, ∃ t, exec (.clearAttn mask) s = .next t
      ∧ (∀ k : Cause, t.part.unit.detail? k = if mask.getLsbD k.bit = true then none else s.part.unit.detail? k)
      ∧ t.AgreesOutsidePath
          { s with
            part := { s.part with
              unit := { s.part.unit with
                causes := t.part.unit.causes
                ordersTaken := s.part.unit.ordersTaken + 1, lastOrder := 8, lastResult := 1 } } })
    ∧ (∀ code : Byte, code.toNat = 0 ∨ 9 < code.toNat →
      CompletesWith (.unknownOrder code) s
        { s with
          part := { s.part with
            unit := { s.part.unit with
              ordersTaken := s.part.unit.ordersTaken + 1, lastOrder := code, lastResult := 6 } } })

/-- RESTORE_PORT (R137): a port in FAULT takes OFF with cause none, held no, attempts 0 and no retry timer, a wake demanded
where a poll is due, and a walk is caused; while it owes null rows the change waits; a port in any other state is left
alone. The result is DONE. -/
def Obligations.RestorePortOrder : Prop :=
  ∀ (s : State) (g : Setup) (p : PanelNo) (c : PanelCfg) (target : Byte), s.Ready → s.part.setup = some g →
    s.part.unit.runState = .stopped ∨ s.part.unit.runState = .running → target.toNat = p.val →
    g.panels.get p = some c →
    ∃ u, CompletesWith (.restorePort target) s u
      ∧ u = { s with
          part := { s.part with
            ports := u.part.ports, walkOwed := u.part.walkOwed
            unit := { s.part.unit with
              ordersTaken := s.part.unit.ordersTaken + 1, lastOrder := 9, lastResult := 1 } } }
      ∧ (∀ q, q ≠ p → u.part.port q = s.part.port q)
      ∧ ((s.part.port p).state ≠ .fault → u.part.port p = s.part.port p ∧ u.part.walkOwed = false)
      ∧ ((s.part.port p).state = .fault → (s.part.port p).owesRows = true →
          u.part.port p = { s.part.port p with restoreWaits := true } ∧ u.part.walkOwed = false)
      ∧ ((s.part.port p).state = .fault → (s.part.port p).owesRows = false →
          u.part.walkOwed = true ∧ u.part.port p = s.part.restored p (s.part.port p))

/-! ### The bursts of the part's own -/

/-- The bursts of a capture (R108, R109, R110): a TARGET read is followed by a SHOWN read of the same bytes for a PARTIAL job
and by the STAGE write of its data for a FULL one; a SHOWN read counts, for each tile of the group, the pixels whose two
levels differ and is followed by the STAGE write of the TARGET data; a STAGE write puts its data into the sign memory and is
followed by the TARGET read of the next group of the row, or of the first group of the next row. -/
def Obligations.CaptureBurstsFollow : Prop :=
  ∀ (s : State) (b : Burst) (g : Setup) (c : PanelCfg) (slot : Nat) (j : Job) (r : RunFields) (e : Engine),
    s.Serves b g c slot j r e →
    (b.kind = .captureTarget →
      CompletesWith .captureBurstEnd s
        { s with
          path := { s.path with burst := none }
          part := s.part.setEngine b.panel (some { e with
            inFlight := false
            request := some
              { kind := if r.mode = .part then .captureShown else .captureStage
                panel := b.panel, row := b.row, tx := b.tx, tiles := b.tiles
                addr := (if r.mode = .part then c.shownBase else c.stageBase) + b.row * c.stride + 8 * b.tx
                data := Memory.readRun s.memory b.addr (8 * b.tiles) } }) })
    ∧ (b.kind = .captureShown → j.rect.tx0 ≤ b.tx → b.tx + b.tiles ≤ j.rect.tx1 + 1 → j.rect.ty0 ≤ b.row / 32 →
        b.row / 32 ≤ j.rect.ty1 → e.context.length = j.rect.cols * j.rect.rows →
      ∃ e', CompletesWith .captureBurstEnd s
          { s with path := { s.path with burst := none }, part := s.part.setEngine b.panel (some e') }
        ∧ e' = { e with
            inFlight := false, context := e'.context
            request := some
              { kind := .captureStage, panel := b.panel, row := b.row, tx := b.tx, tiles := b.tiles
                addr := c.stageBase + b.row * c.stride + 8 * b.tx, data := b.data } }
        ∧ ∀ tx ty, j.rect.contains tx ty = true →
            e'.entry j.rect tx ty
              = if ty = b.row / 32 ∧ b.tx ≤ tx ∧ tx < b.tx + b.tiles then
                  { e.entry j.rect tx ty with
                    changed := (e.entry j.rect tx ty).changed
                      + changedPixels ((b.data.drop (8 * (tx - b.tx))).take 8)
                          (((Memory.readRun s.memory b.addr (8 * b.tiles)).drop (8 * (tx - b.tx))).take 8) }
                else e.entry j.rect tx ty)
    ∧ (b.kind = .captureStage → b.tx + b.tiles ≤ j.rect.tx1 ∨ b.row < 32 * j.rect.ty1 + 31 →
      ∃ row tx, (row, tx) = (if b.tx + b.tiles ≤ j.rect.tx1 then (b.row, b.tx + b.tiles) else (b.row + 1, j.rect.tx0))
        ∧ CompletesWith .captureBurstEnd s
          { s with
            memory := s.memory.writeRun b.addr b.data
            path := { s.path with burst := none }
            part := s.part.setEngine b.panel (some { e with
              inFlight := false, group := tx
              request := some
                { kind := .captureTarget, panel := b.panel, row := row, tx := tx
                  tiles := min 16 (j.rect.tx1 + 1 - tx)
                  addr := c.targetBase + row * c.stride + 8 * tx, data := [] } }) })

/-- The capture end (R50, R97, R99, R100, R110, R113); the STAGE data has reached the memory. A null job, which is PARTIAL with
no changed pixel, retires at once: each tile of its rectangle CLEAN or, where REDIRTY, DIRTY, with debt and UNKNOWN
unchanged; its cost leaves K, the running count falls by one, its context and slot are freed, the port rests at once under a
rest delay of 0 (R129; before the walk: log 29), and a walk is caused; no rail demand, and URGENT_SHOWN is not latched. The
DIRTY counts follow the tiles, LOOSE_WRITE is latched where a LOOSE one is left DIRTY (R23); then the HELD retry is made with
the freed slot (R32), the zones the job concerns are handled as at a retirement (R33), and a halt may end (R59). For any other
job the actual cost takes the place of the estimate in the job and in K. At a port in FAULT it is aborted. Else it becomes
POISED and demands the rail: LINGER returns to UP, and OFF rises at once where no negation is recorded (R140, R141; with one,
by RAIL_RAISE: log 11); the feed begins with the top row of frame 0; and where the rail is then UP and the port READY with no
query due, its drive starts in the same event (R130). -/
def Obligations.CaptureEnds : Prop :=
  ∀ (s : State) (b : Burst) (g : Setup) (c : PanelCfg) (slot : Nat) (j : Job) (r : RunFields) (e : Engine)
      (wrote : Machine.Part → State),
    s.Serves b g c slot j r e → b.kind = .captureStage → j.rect.tx1 < b.tx + b.tiles → 32 * j.rect.ty1 + 31 ≤ b.row →
    (∀ part, wrote part = { s with
      memory := s.memory.writeRun b.addr b.data, path := { s.path with burst := none }, part := part }) →
    (∀ n cost run, r.mode = .full ∨ 0 < e.changedTotal →
      n = (if r.mode = .part then min e.changedTotal r.estimatePixels else r.estimatePixels) →
      cost = ceilDiv (ceilDiv (n * g.frameCount r * c.pixelCost) 1000 + g.frameCount r * c.frameCost
        + (if s.part.rail.state = .off ∨ s.part.rail.state = .falling ∨ s.part.rail.state = .fault then g.globals.boost
          else 0)) 1000 →
      run = { r with cost := cost } →
      ((s.part.port b.panel).state ≠ .fault → ∀ (rail : Rail) (starts : Bool), rail = s.part.rail.wanted g →
        (starts = true ↔ rail.state = .up ∧ (s.part.port b.panel).state = .ready
          ∧ (s.part.port b.panel).queryDue = false) →
        ∃ e', Engine.FillsNext { e with inFlight := false, feed := some (0, 32 * j.rect.ty0) } e' c b.panel j r.mode
            (g.frameCount r)
          ∧ CompletesWith .captureBurstEnd s
            (wrote { s.part with
              pool := s.part.pool.set slot
                (some { j with state := if starts then .driving else .poised, running := some run })
              committed := s.part.committed - r.cost + cost
              engines := s.part.engines.set b.panel (some e')
              ports := if starts then s.part.ports.set b.panel ((s.part.port b.panel).opened g c j r) else s.part.ports
              rail := rail
              walkOwed := starts || decide (rail.state ≠ s.part.rail.state) }))
      ∧ ((s.part.port b.panel).state = .fault →
        ∃ charged cut aborted : Machine.Part, CompletesWith .captureBurstEnd s (wrote aborted)
          ∧ charged = { s.part with
              pool := s.part.pool.set slot (some { j with state := .poised, running := some run })
              committed := s.part.committed - r.cost + cost }
          ∧ charged.Aborted cut aborted g c slot j run))
    ∧ (r.mode = .part → e.changedTotal = 0 →
      ∃ ended retired after : Machine.Part, CompletesWith .captureBurstEnd s (wrote after)
        ∧ s.part.NullRetired ended retired after g c slot j r
        ∧ after.unit.detail? .urgentShown = s.part.unit.detail? .urgentShown
        ∧ (s.part.ZonesQuiet →
          retired = { ended with zones := retired.zones }
            ∧ ∀ n y, s.part.zone? n = some y →
              retired.zone? n = some { y.counted retired.tiles s.part.clock.mono with
                runningJob := if j.scope = .zone n then none else y.runningJob }))

/-- The bursts of the feed (R113): a PARTIAL group's SHOWN read is followed by its STAGE read, a STAGE read by the next group
of the row; the last STAGE read of a row fills a place of the row buffer, and the next row's fill begins where a place is
free and rows remain; the data of an abandoned burst is discarded at its end, after which the job's next request is presented
(R108, R112, R116, log 18). -/
def Obligations.FeedBurstsFollow : Prop :=
  (∀ (s : State) (b : Burst) (g : Setup) (c : PanelCfg) (slot : Nat) (j : Job) (r : RunFields) (e : Engine)
      (pair : RowPair) (data : List Byte),
    s.Serves b g c slot j r e → e.fill = some pair → e.feedStopped = false →
    data = Memory.readRun s.memory b.addr (8 * b.tiles) →
    (b.kind = .feedShown →
      CompletesWith .feedBurstEnd s
        { s with
          path := { s.path with burst := none }
          part := s.part.setEngine b.panel (some { e with
            inFlight := false
            fill := some { pair with shown := pair.shown ++ data }
            request := some
              { kind := .feedStage, panel := b.panel, row := b.row, tx := b.tx, tiles := b.tiles
                addr := c.stageBase + b.row * c.stride + 8 * b.tx, data := [] } }) })
    ∧ (b.kind = .feedStage → b.tx + b.tiles ≤ j.rect.tx1 →
      CompletesWith .feedBurstEnd s
        { s with
          path := { s.path with burst := none }
          part := s.part.setEngine b.panel (some { e with
            inFlight := false
            fill := some { pair with stage := pair.stage ++ data }
            request := some
              { kind := if r.mode = .part then .feedShown else .feedStage, panel := b.panel, row := b.row
                tx := b.tx + b.tiles, tiles := min 16 (j.rect.tx1 + 1 - (b.tx + b.tiles))
                addr := (if r.mode = .part then c.shownBase else c.stageBase) + b.row * c.stride + 8 * (b.tx + b.tiles)
                data := [] } }) })
    ∧ (b.kind = .feedStage → j.rect.tx1 < b.tx + b.tiles →
      ∃ e', CompletesWith .feedBurstEnd s
          { s with path := { s.path with burst := none }, part := s.part.setEngine b.panel (some e') }
        ∧ Engine.FillsNext
            { e with
              inFlight := false, fill := none, buffer := e.buffer ++ [{ pair with stage := pair.stage ++ data }] }
            e' c b.panel j r.mode (g.frameCount r)))
  ∧ ∀ (s : State) (b : Burst) (e : Engine), s.Ready → s.path.burst = some b → b.kind = .feedShown ∨ b.kind = .feedStage →
    s.part.engine? b.panel = some e →
    (e.inFlight = false → CompletesWith .feedBurstEnd s { s with path := { s.path with burst := none } })
    ∧ (e.inFlight = true → e.discard = true →
      CompletesWith .feedBurstEnd s
        { s with
          path := { s.path with burst := none }
          part := s.part.setEngine b.panel (some { e with inFlight := false, discard := false }) })

/-- The bursts of a commit (R118, R119): a STAGE read is followed by the SHOWN write of the same data into the same bytes; a
SHOWN write puts its data into the sign memory, and the STAGE read that follows is of at most 16 adjacent tiles of one row
that are all to be copied, the first such run after the group written, and of fewer than 16 only where the run ends: every tile
row segment passed over is of a tile not to be copied. -/
def Obligations.CommitBurstsFollow : Prop :=
  ∀ (s : State) (b : Burst) (g : Setup) (c : PanelCfg) (slot : Nat) (j : Job) (r : RunFields) (e : Engine),
    s.Serves b g c slot j r e →
    (b.kind = .commitRead →
      CompletesWith .commitReadEnd s
        { s with
          path := { s.path with burst := none }
          part := s.part.setEngine b.panel (some { e with
            inFlight := false
            commit := e.commit.map fun pos => { pos with writing := true }
            request := some
              { kind := .commitWrite, panel := b.panel, row := b.row, tx := b.tx, tiles := b.tiles
                addr := c.shownBase + b.row * c.stride + 8 * b.tx
                data := Memory.readRun s.memory b.addr (8 * b.tiles) } }) })
    ∧ (b.kind = .commitWrite →
      ¬j.rect.NoneLeft (fun x y => e.toCopy j.rect r.mode x (y / 32) = true) b.row (b.tx + b.tiles) →
      ∃ row tx w,
        j.rect.NextGroup (fun x y => e.toCopy j.rect r.mode x (y / 32) = true) b.row (b.tx + b.tiles) row tx w
        ∧ CompletesWith .commitWriteEnd s
          { s with
            memory := s.memory.writeRun b.addr b.data
            path := { s.path with burst := none }
            part := s.part.setEngine b.panel (some { e with
              inFlight := false
              commit := some ⟨row, tx, w, false⟩
              request := some
                { kind := .commitRead, panel := b.panel, row := row, tx := tx, tiles := w
                  addr := c.stageBase + row * c.stride + 8 * tx, data := [] } }) })

/-- The end of the last SHOWN write of a commit retires the job (R52, R53, R71, R72, R73, R120): every tile of the rectangle
is settled by its outcome, an uncommitted one DIRTY with UNKNOWN set and its debt kept, a copied or unchanged one CLEAN or,
where REDIRTY, DIRTY; a FULL copy sets debt 0 and clears UNKNOWN but where a late SHOWN mark keeps it, a PARTIAL copy adds
the band's weight to the debt up to 255; the cost leaves K, the running count falls by one, context and slot are freed, the
port rests at once under a rest delay of 0 (R129; before the walk: log 29), and a walk is caused. The last sweep second is set
where a FULL PANEL job copied a tile (R74). The DIRTY counts follow the tiles as settled, and LOOSE_WRITE is latched where a
LOOSE one is left DIRTY (R23); then the HELD retry is made with the freed slot (R32), and after it the zones the job concerns
are handled (R33): no running job, and where a settle timer is stopped the retire trigger, with origin RETIRE. URGENT_SHOWN is
latched where a tile was copied and the job is URGENT or carries urgent content, and in HALTING the last job's end makes the
run state STOPPED and latches HALTED (R59); no other cause changes but by those. Where no zone is HELD and no settle timer
stopped, neither places anything. -/
def Obligations.CommitEndRetires : Prop :=
  ∀ (s : State) (b : Burst) (g : Setup) (c : PanelCfg) (slot : Nat) (j : Job) (r : RunFields) (e : Engine),
    s.Serves b g c slot j r e → b.kind = .commitWrite →
    j.rect.NoneLeft (fun x y => e.toCopy j.rect r.mode x (y / 32) = true) b.row (b.tx + b.tiles) →
    ∃ ended retired after : Machine.Part,
      CompletesWith .commitWriteEnd s
        { s with memory := s.memory.writeRun b.addr b.data, path := { s.path with burst := none }, part := after }
      ∧ s.part.CommitRetired ended retired after g c slot j r e
      ∧ (s.part.ZonesQuiet →
        retired = { ended with zones := retired.zones }
          ∧ ∀ n y, s.part.zone? n = some y →
            retired.zone? n = some { y.counted retired.tiles s.part.clock.mono with
              runningJob := if j.scope = .zone n then none else y.runningJob })

/-- A setup read but the last brings the 128 bytes of its window offset and asks for the next read, one for each of the 21
places of the setup areas in ascending offset (R162); the end of a posting puts its bytes into the sign memory and changes no
other byte (R149). Where no lower-numbered level has a request, the waiting setup read begins at its place of the window, and
with none the waiting posting begins at the window's base, with posting owed cleared and the 128 bytes of the status block
composed from the part as it stands (R149, R166; the frame index before the first FRAME_START: log 32). -/
def Obligations.SetupReadsAndPostings : Prop :=
  (∀ s : State, s.path.burst = none → s.path.host = none → (∀ p, s.part.requestLevel? p = none) →
    (∀ i, s.part.unit.setupRequest = some i →
      s.advancePath
        = { s with
            path := { s.path with
              burst := some
                { kind := .setupRead, panel := 0, row := i, tx := 0, tiles := 0
                  addr := s.part.unit.base
                    + (if i < 3 then 0x200 + 128 * i else if i < 5 then 0x400 + 128 * (i - 3) else 0x600 + 128 * (i - 5))
                  data := [] } }
            part := { s.part with unit := { s.part.unit with setupRequest := none } } })
    ∧ (s.part.unit.setupRequest = none → s.part.unit.postWaiting = true →
      ∃ data, s.part.PostedAs data
        ∧ s.advancePath
          = { s with
              path := { s.path with
                burst := some
                  { kind := .statusPost, panel := 0, row := 0, tx := 0, tiles := 0, addr := s.part.unit.base
                    data := data } }
              part := { s.part with unit := { s.part.unit with postingOwed := false, postWaiting := false } } }))
  ∧ ∀ (s : State) (b : Burst), s.Ready → s.path.burst = some b →
    (b.kind = .setupRead → s.part.unit.runState = .applying → b.row < 20 →
      ∃ cells : Memory, CompletesWith .setupReadEnd s
          { s with
            path := { s.path with burst := none }
            part := { s.part with
              unit := { s.part.unit with
                setupData := s.part.unit.setupData ++ cells, setupRequest := some (b.row + 1) } } }
        ∧ ∀ k, k < 128 →
          Memory.read cells
              ((if b.row < 3 then 0x200 + 128 * b.row else if b.row < 5 then 0x400 + 128 * (b.row - 3)
                else 0x600 + 128 * (b.row - 5)) + k)
            = Memory.read s.memory (b.addr + k))
    ∧ (b.kind = .statusPost →
      ∃ t, exec .statusPostEnd s = .next t
        ∧ (∀ i, i < b.data.length → Memory.read t.memory (b.addr + i) = b.data.getD i 0)
        ∧ (∀ a, a < b.addr ∨ b.addr + b.data.length ≤ a → Memory.read t.memory a = Memory.read s.memory a)
        ∧ t.AgreesOutsidePath { s with memory := t.memory })

/-- The decision of an APPLY at the end of the 21st setup read (R163, R164, R165). The setup data are read by their layouts, every
scalar clamped into its range with the clamps counted (`ReadAs`), and the structural checks are made in the order of R163's table,
of which the first to fail gives cause and index (`FirstFails`). With the edit mark set the APPLY is rejected with
EDITED_DURING_APPLY, index 0 and no field clamped; where a check fails, with that check's cause and index; a rejection goes back
to the run state left and changes no other state. Where every check passes it is accepted: the settings and the attention mask are
installed, nothing runs, the queue is empty with the sequence counter 0, the run state is STOPPED, the setup edited flag clear and
the result accepted. U is recomputed from the latest sample and the level reselected, POLICY_CHANGED latched where it changes and
the surplus sweep test made at an entry into SURPLUS (R76, R94, R95). Every selector is at band 0 with no reading (R81). A port
found WAKING or READY has sent REST, one found CLOSING stays so until BUSY is negated, and every other is OFF or UNUSED (R138). A
preserved panel's records keep debt and UNKNOWN, CLEAN or DIRTY, and its last sweep second is kept; every other panel's records
are fresh and its last sweep second is none; every zone field is computed from the new table (R14, R74). Each enabled zone's
runtime record is built from the records (R16). -/
def Obligations.ApplyDecided : Prop :=
  ∀ (s : State) (b : Burst) (d : Memory), s.Ready → s.path.burst = some b → b.kind = .setupRead →
    b.row = 20 → s.part.unit.runState = .applying → s.part.unit.causes.length = 13 → s.part.TilesSound →
    d = s.part.unit.setupData ++ s.memory.window b.addr 128 0xD80 →
    ∃ (x : ReadSetup) (failure : Option (SetupCause × Nat)), x.ReadAs d ∧ FirstFails (x.checks s.part.unit.base) failure
      ∧ (∀ cause index clamps, (s.part.unit.editMark = true ∧ cause = .editedDuringApply ∧ index = 0 ∧ clamps = 0)
          ∨ (s.part.unit.editMark = false ∧ failure = some (cause, index) ∧ clamps = x.clamps) →
        ∃ t, exec .setupReadEnd s = .next t ∧ s.part.Latched t.part .setupResult 2
          ∧ t.AgreesOutsidePath
              { s with
                part := { s.part with
                  unit := { s.part.unit with
                    runState := s.part.unit.leftState, setupResult := .rejected, setupCause := cause, setupIndex := index
                    fieldsClamped := clamps, setupData := [], causes := t.part.unit.causes } } })
      ∧ (∀ (g : Setup) (e : Energy) (now : Stamp), s.part.unit.editMark = false → failure = none →
        g = ⟨x.globals, x.bands, x.panels, x.zones.map (·.cfg)⟩ → e = s.part.energy →
        now = ⟨s.part.clock.mono, s.part.clock.tick⟩ →
        ∃ (t : State) (built swept : Machine.Part), exec .setupReadEnd s = .next t
          ∧ built = { s.part with
              setup := some g, tiles := built.tiles, zones := built.zones
              pool := List.replicate 32 none, sequence := 0, runningCount := 0, committed := 0
              stopMark := none, walkOwed := true, lastSweep := built.lastSweep, selectors := built.selectors
              engines := ⟨none, none, none, none⟩, ports := built.ports, energy := built.energy, unit := built.unit }
          ∧ (built.energy.level = .surplus ∧ e.level ≠ .surplus → Passes (SurplusTaken g) panelNos built swept)
          ∧ (built.energy.level ≠ .surplus ∨ e.level = .surplus → swept = built)
          ∧ swept.Latched t.part .setupResult 1
          ∧ t.AgreesOutsidePath
              { s with
                part := { swept with
                  unit := { s.part.unit with
                    runState := .stopped, setupEdited := false, setupResult := .accepted, setupCause := .none
                    setupIndex := 0, fieldsClamped := x.clamps, mask := x.mask, setupData := []
                    causes := t.part.unit.causes } } }
          -- the energy state (R95)
          ∧ built.energy = { e with usable := built.energy.usable, level := built.energy.level }
          ∧ (e.sampled = false → built.energy.usable = 0 ∧ built.energy.level = e.level)
          ∧ (e.sampled = true →
            built.energy.usable
                = (if g.globals.vFloor < e.vs then g.globals.capacitance * (e.vs ^ 2 - g.globals.vFloor ^ 2) / 20000
                  else 0)
            ∧ (∀ l, e.level.rank < l.rank → risingVoltage g.globals l ≤ e.vs →
                (∀ m, l.rank < m.rank → e.vs < risingVoltage g.globals m) → built.energy.level = l)
            ∧ ((∀ l, e.level.rank < l.rank → e.vs < risingVoltage g.globals l) →
                (e.level = .frozen ∨ fallingVoltage g.globals e.level ≤ e.vs → built.energy.level = e.level)
                ∧ (e.vs < fallingVoltage g.globals e.level → ∀ l, l.rank < e.level.rank →
                    fallingVoltage g.globals l ≤ e.vs →
                    (∀ m, l.rank < m.rank → m.rank < e.level.rank → e.vs < fallingVoltage g.globals m) →
                    built.energy.level = l)))
          ∧ built.unit.causes.length = 13
          ∧ (built.energy.level = e.level → built.unit.causes = s.part.unit.causes)
          ∧ (built.energy.level ≠ e.level → s.part.Latched built .policyChanged built.energy.level.code)
          -- the selectors (R81), the ports (R138) and the last sweep seconds (R74)
          ∧ (∀ p, built.selector? p
              = if (x.panels.get p).isSome then some ⟨0, none, s.part.clock.mono, 0, false, false⟩ else none)
          ∧ (∀ p y cleared, y = s.part.port p →
              cleared = { y with
                cause := .none, held := false, attempts := 0, wakePending := false, retryWake := false
                tempOutstanding := false, queryDue := false, limit := none, retry := none, window := none
                closingOver := false, restoreWaits := false
                state := if (x.panels.get p).isSome then .off else .unused } →
              (y.state = .waking ∨ y.state = .ready →
                built.port p = { cleared with lastRest := some now, sent := some .rest })
              ∧ (y.state = .closing →
                built.port p = { cleared with state := .closing, limit := y.limit, closingOver := true })
              ∧ (y.state = .off ∨ y.state = .fault → built.port p = cleared)
              ∧ (y.state = .unused → built.port p = { cleared with lastRest := none }))
          ∧ (∀ p c old was, x.panels.get p = some c → s.part.PreservedBy p c old was →
              built.lastSweep.get p = s.part.lastSweep.get p)
          ∧ (∀ p, (∀ c old was, x.panels.get p = some c → ¬s.part.PreservedBy p c old was) → built.lastSweep.get p = none)
          -- the tile table (R14)
          ∧ (∀ p c tx ty, x.panels.get p = some c → tx < c.width / 32 → ty < c.height / 32 →
              ∃ y, built.tileAt? g p tx ty = some y ∧ y.redirty = false
                ∧ y.zone = ((g.zonesOf p).find? fun z => z.rect.contains tx ty).map (·.index)
                ∧ (∀ old was w, s.part.PreservedBy p c old was → s.part.tileAt? old p tx ty = some w →
                    y.debt = w.debt ∧ y.untrusted = w.untrusted ∧ y.state = if w.state = .clean then .clean else .dirty)
                ∧ ((∀ old was, ¬s.part.PreservedBy p c old was) →
                    y.debt = 0 ∧ y.untrusted = true ∧ y.state = .dirty))
          ∧ built.tiles.length = (panelNos.map fun p =>
              ((x.panels.get p).map fun c => (c.width / 32) * (c.height / 32)).getD 0).sum
          -- the zones (R16)
          ∧ built.zones = g.zones.map fun z =>
              { index := z.index, dirtyCount := dirtyTiles built.tiles z.index
                timer := if dirtyTiles built.tiles z.index = 0 then none else some z.settle
                expired := false
                dirtySince := if dirtyTiles built.tiles z.index = 0 then none else some s.part.clock.mono
                queuedJob := none, runningJob := none, held := none, epochWait := false })

/-! ### Time -/

/-- A tick (R26, R151): every running settle timer loses one tick, and one that reaches 0 stops, which is its zone's settle
expiry; a stopped timer is not disturbed; the tick within the second advances, the 32nd brings the second event due, and the
last tick of a compensation window lasts 1,024 + c periods with the c in force as it begins. Nothing else changes. -/
def Obligations.TickAdvances : Prop :=
  ∀ s : State, s.Ready → s.part.clock.secondDue = false → (∀ z ∈ s.part.zones, z.expired = false) →
    CompletesWith .tick s
      { s with
        part := { s.part with
          zones := s.part.zones.map fun z =>
            { z with
              timer := if z.timer = some 0 ∨ z.timer = some 1 then none else z.timer.map (· - 1)
              expired := decide (z.timer = some 0 ∨ z.timer = some 1) }
          clock :=
            if s.part.clock.tick = 31 then
              { s.part.clock with
                tick := 0, secondDue := true, tickLength := 1024 }
            else
              { s.part.clock with
                tick := s.part.clock.tick + 1
                tickLength := if s.part.clock.windowSecond = 31 ∧ s.part.clock.tick = 30
                  then 1024 + ((s.part.setup.map fun g => g.globals.compensation).getD 0) else 1024 } } }

/-- A settle expiry by the zone's class (R27, R29, R31, R39, R45, R156): a zone that is not dirty, a ROUTINE zone in quiet
hours and a TIMED zone without EPOCH_WAIT place nothing; a dirty URGENT zone, a dirty ROUTINE one outside quiet hours
(origin SETTLE) and a dirty TIMED one with EPOCH_WAIT (origin EPOCH) is, with no queued job and a free slot, placed over the
bounding box of its DIRTY tiles, which become QUEUED; with the pool full it becomes HELD with that origin and QUEUE_FULL is
latched. At the tick that ends the last quiet second, quiet hours are over although the second event has not been taken (log
28). -/
def Obligations.SettleExpiryByClass : Prop :=
  ∀ (s : State) (g : Setup) (z : ZoneCfg) (n : Fin 64) (x : Zone) (quietAt : Nat → Bool) (quiet : Bool), s.Ready →
    s.part.setup = some g →
    (∀ i, quietAt i = true ↔
      (g.globals.quietStart < g.globals.quietEnd ∧ g.globals.quietStart ≤ i ∧ i < g.globals.quietEnd)
        ∨ (g.globals.quietEnd < g.globals.quietStart ∧ (g.globals.quietStart ≤ i ∨ i < g.globals.quietEnd))) →
    quiet = (quietAt s.part.clock.secondOfDay && (!s.part.clock.secondDue
      || quietAt (if s.part.clock.secondOfDay = 86399 then 0 else s.part.clock.secondOfDay + 1))) →
    g.zone? n.val = some z → s.part.zone? n.val = some x →
    (s.part.zones.find? fun y => y.expired) = some x →
    (((x.dirtyCount = 0 ∧ z.cls ≠ .timed) ∨ (z.cls = .routine ∧ quiet = true)
        ∨ (z.cls = .timed ∧ x.epochWait = false)) →
      CompletesWith (.settleExpiry n) s
        { s with
          part := { s.part with
            zones := s.part.zones.map fun y => if y.index = n.val then { y with expired := false } else y } })
    ∧ ∀ o, ((z.cls = .urgent ∧ o = .settle) ∨ (z.cls = .routine ∧ quiet = false ∧ o = .settle)
          ∨ (z.cls = .timed ∧ x.epochWait = true ∧ o = .epoch)) → 0 < x.dirtyCount → x.queuedJob = none →
      (∀ slot, s.part.job? slot = none → slot < s.part.pool.length → (∀ i, i < slot → (s.part.job? i).isSome = true) →
        ∃ u, CompletesWith (.settleExpiry n) s u
          ∧ u = { s with
              part := { s.part with
                tiles := u.part.tiles, zones := u.part.zones
                pool := s.part.pool.set slot (some
                  { panel := z.panel, scope := .zone n.val, rect := (s.part.dirtyBox? g z).getD z.rect, cls := z.cls
                    origin := o, fullRequest := false, sequence := s.part.sequence, enqueued := s.part.clock.mono
                    state := .queued, running := none, urgentCarried := false, starvedReported := false })
                sequence := s.part.sequence + 1
                walkOwed := true } }
          ∧ (∀ p tx ty y, s.part.tileAt? g p tx ty = some y →
              u.part.tileAt? g p tx ty
                = some (if p = z.panel ∧ z.rect.contains tx ty = true ∧ y.zone = some n.val ∧ y.state = .dirty
                  then { y with state := .queued } else y))
          ∧ ∀ y, u.part.zone? n.val = some y →
              y.queuedJob = some slot ∧ y.held = none ∧ y.epochWait = false ∧ y.expired = false ∧ y.timer = x.timer)
      ∧ ((∀ y ∈ s.part.pool, y.isSome = true) →
        ∃ t, exec (.settleExpiry n) s = .next t
          ∧ s.part.Latched t.part .queueFull n.val
          ∧ t.AgreesOutsidePath
              { s with
                part := { s.part with
                  zones := s.part.zones.map fun y =>
                    if y.index = n.val then { y with expired := false, epochWait := false, held := some o } else y
                  unit := { s.part.unit with causes := t.part.unit.causes } } })

/-- The second event (R88, R90, R91, R93, R94, R152): monotonic seconds and the second of day count, the day count rises
past midnight; the two monitor inputs are clamped and sampled, and under an installed setup U, light and dark with their run
count, and the policy level follow; POLICY_CHANGED is latched where the level changes. Then what the second does to tiles,
zones and pool: its tests are made once each, in the sender's order (log 6), the zone tests over the enabled zones in
ascending index. At an epoch boundary a dirty TIMED zone is enqueued with origin EPOCH where its timer is stopped and takes
EPOCH_WAIT where it runs (R28); at the quiet-hours end a dirty ROUTINE zone with its timer stopped is enqueued (R29); a zone
past its maximum hold is enqueued with origin HOLD (R30); the sweep time asks for sweeps (R75), and so does the surplus test
at a boundary in SURPLUS and at the entry into it (R76); an URGENT job held back past the limit is reported STARVED (R103).
In a second with none of these, tiles, zones and pool stay but for the reports, until the walk that ends the second. -/
def Obligations.SecondCountsAndSamples : Prop :=
  (∀ order : List SecondTask,
    (∀ k, k ≠ .walk → (secondTasks order).count k = 1)
      ∧ ((order.filter fun k => k != .walk).Nodup → ∃ rest, secondTasks order = order ++ rest ∧ .walk ∉ rest))
  ∧ ∀ (s : State) (storage solar : Int) (order : List SecondTask), s.Ready → s.part.clock.secondDue = true →
    ∃ (t : State) (e : Energy) (vs vsol : Nat) (after : Machine.Part),
      exec (.second storage solar order) s = .next t ∧ e = s.part.energy
      ∧ CompletesWith (.second storage solar order) s { s with part := after }
      ∧ vs = min 6000 storage.toNat ∧ vsol = min 30000 solar.toNat
      ∧ t.memory = s.memory ∧ t.part.setup = s.part.setup ∧ t.part.rail = s.part.rail
      ∧ t.part.unit.runState = s.part.unit.runState
      ∧ t.part.clock = { s.part.clock with
          secondDue := false
          windowSecond := (s.part.clock.windowSecond + 1) % 32
          mono := s.part.clock.mono + 1
          secondOfDay := if s.part.clock.secondOfDay = 86399 then 0 else s.part.clock.secondOfDay + 1
          dayCount := if s.part.clock.secondOfDay = 86399 then (s.part.clock.dayCount + 1) % 65536
            else s.part.clock.dayCount }
      ∧ t.part.energy.vs = vs ∧ t.part.energy.vsol = vsol ∧ t.part.energy.sampled = true
      ∧ (s.part.setup = none →
        t.part.energy = { e with vs := vs, vsol := vsol, sampled := true }
          ∧ after = { s.part with
              clock := t.part.clock, energy := t.part.energy, stopMark := after.stopMark, walkOwed := after.walkOwed })
      ∧ ∀ g, s.part.setup = some g →
        Passes (TestMade g) (secondTasks order) { s.part with clock := t.part.clock } after
        ∧ (∀ reached, reached = t.part.clock.secondOfDay → .walk ∉ order → ¬g.Boundary reached →
            g.globals.quietStart = g.globals.quietEnd ∨ reached ≠ g.globals.quietEnd →
            g.globals.sweepTime ≠ some reached →
            e.level = .surplus ∨ vs < risingVoltage g.globals .surplus →
            (∀ z x since, z ∈ g.zones → s.part.zone? z.index = some x → x.dirtySince = some since → 0 < z.hold →
              (s.part.clock.mono + 1 - since).toNat ≤ z.hold ∨ (z.cls = .routine ∧ g.QuietAt reached)) →
          after = { s.part with
              clock := t.part.clock, energy := t.part.energy, selectors := after.selectors, ports := after.ports
              pool := after.pool, walkOwed := true, unit := { s.part.unit with causes := after.unit.causes } }
            ∧ ({ s.part with clock := t.part.clock } : Machine.Part).StarvedReported after g)
        ∧
        t.part.energy.usable
            = (if g.globals.vFloor < vs then g.globals.capacitance * (vs ^ 2 - g.globals.vFloor ^ 2) / 20000 else 0)
        ∧ (t.part.energy.dark, t.part.energy.runCount)
            = (if (if e.dark then decide (vsol < g.globals.lightThreshold) else decide (g.globals.darkThreshold ≤ vsol))
              then (e.dark, 0)
              else if e.runCount + 1 = (if e.dark then 60 else 120) then (!e.dark, 0) else (e.dark, e.runCount + 1))
        ∧ (∀ l, e.level.rank < l.rank → risingVoltage g.globals l ≤ vs →
            (∀ m, l.rank < m.rank → vs < risingVoltage g.globals m) → t.part.energy.level = l)
        ∧ ((∀ l, e.level.rank < l.rank → vs < risingVoltage g.globals l) →
            (e.level = .frozen ∨ fallingVoltage g.globals e.level ≤ vs → t.part.energy.level = e.level)
            ∧ (vs < fallingVoltage g.globals e.level → ∀ l, l.rank < e.level.rank → fallingVoltage g.globals l ≤ vs →
                (∀ m, l.rank < m.rank → m.rank < e.level.rank → vs < fallingVoltage g.globals m) →
                t.part.energy.level = l))
        ∧ (t.part.energy.level = e.level →
            t.part.unit.detail? .policyChanged = s.part.unit.detail? .policyChanged)
        ∧ (t.part.energy.level ≠ e.level → s.part.unit.causes.length = 13 →
            t.part.unit.detail? .policyChanged
              = some ((s.part.unit.detail? .policyChanged).getD t.part.energy.level.code))

/-- R155: while L is above 0, EPOCH_LEAD is latched at each second event that makes the second of day a lead second s, one
with (s + L) mod 86,400 a boundary; the detail is the second of day of that boundary, and a cause that is latched keeps the
detail of its first occurrence. At no other second event is it latched. -/
def Obligations.EpochLeadLatches : Prop :=
  ∀ (s : State) (g : Setup) (storage solar : Int) (order : List SecondTask) (reached boundary : Nat), s.Ready →
    s.part.clock.secondDue = true → s.part.setup = some g → s.part.unit.causes.length = 13 →
    reached = (if s.part.clock.secondOfDay = 86399 then 0 else s.part.clock.secondOfDay + 1) →
    boundary = (reached + g.globals.epochLead) % 86400 →
    ∃ t, exec (.second storage solar order) s = .next t ∧ t.part.clock.secondOfDay = reached
      ∧ t.part.unit.detail? .epochLead
          = (if 0 < g.globals.epochLead
                ∧ ((boundary : Int) - (g.globals.epochOffset : Int)) % (g.globals.epochPeriod : Int) = 0
              then some ((s.part.unit.detail? .epochLead).getD boundary)
              else s.part.unit.detail? .epochLead)

/-- Polls and staleness at a second event (R84, R85): a poll falls due where none is due and the reference second lies a poll
period back, and the port answers by its state; a staleness step is taken where the age exceeds 3 × (s + 1) poll periods and
s is 0 or the band is above 0. -/
def Obligations.PollsAndStaleness : Prop :=
  ∀ (s : State) (g : Setup) (c : PanelCfg) (p : PanelNo) (sel : Selector) (storage solar : Int) (order : List SecondTask)
      (age : Nat) (falls step : Bool), s.Ready →
    s.part.clock.secondDue = true → s.part.setup = some g → g.panels.get p = some c → s.part.selector? p = some sel →
    age = (s.part.clock.mono + 1 - sel.reference).toNat →
    falls = (!sel.pollDue && decide (c.pollPeriod ≤ age)) →
    step = (decide (3 * (sel.staleSteps + 1) * c.pollPeriod < age) && (sel.staleSteps == 0 || decide (0 < sel.band))) →
    ∃ t, exec (.second storage solar order) s = .next t
      ∧ t.part.selector? p = some
          { sel with
            band := if step then sel.band - 1 else sel.band
            staleSteps := if step then sel.staleSteps + 1 else sel.staleSteps
            stale := sel.stale || step
            pollDue := sel.pollDue || falls }
      ∧ (step = true → s.part.unit.causes.length = 13 → (t.part.unit.detail? .tempStale).isSome = true)
      ∧ (falls = true → (s.part.port p).state = .off →
          t.part.port p = { s.part.port p with wakePending := true })
      ∧ (falls = true →
          (s.part.port p).state = .ready ∨ (s.part.port p).state = .driving →
          t.part.port p = { s.part.port p with queryDue := true })
      ∧ ((s.part.port p).state = .waking ∨ (s.part.port p).state = .fault → t.part.port p = s.part.port p)

/-! ### Admission -/

/-- The walk of a RUN over a queue of one ZONE job, or of a PANEL job with its panel's ZONE jobs behind it (R47, R48, R49,
R65, R66, R97, R98, R99, R101, R102, R103), at a port not in FAULT with the running limit not reached. The mode is FULL
where a tile of the rectangle has UNKNOWN or hard debt, where the full request is set, where the policy is FULL_ALWAYS, or
where it is AUTO with soft debt at NORMAL or SURPLUS; the band is the panel's current one, and the cost follows from the
pixels, the frames and the rail state. Where the level admits the class and the cost lies within U less holdback less K, the
job is admitted: CAPTURING with its admitted fields and its marks, the cost in K, the running count one more, its tiles
ACTIVE, its zone's fields moved, a wake demanded of an OFF port, and its first TARGET read begins where the memory port is
free; else the stop mark names it, and where it is URGENT and past the starvation limit it is reported STARVED. The mode of
a PANEL job is FULL by UNKNOWN or hard debt anywhere, by its class SWEEP, by its full request or that of a job it withdraws,
by a carried tile of a FULL_ALWAYS zone, or by soft debt in AUTO or LOOSE tiles at NORMAL or SURPLUS; its admission
withdraws the panel's ZONE jobs, whose slots free and whose full requests and urgent class it takes over, marks every DIRTY
or QUEUED tile and makes every tile of the panel ACTIVE. Last, the walks of every step over any queue (R38, R46, R47): a step
of its own effect `u` leaves what `WalksOver` says of `u`'s part. The jobs are taken by class rank and then by age; one is
skipped where the running limit is reached, its panel has a running job or its port is in FAULT; one that fits is admitted and
the walk goes on with K and the running count as the admission left them; the first that does not fit ends it, with the stop
mark at that job and no later one tested. -/
def Obligations.WalkAdmitsWhatFits : Prop :=
  (∀ (s : State) (g : Setup) (c : PanelCfg) (slot : Nat) (j : Job) (n : Nat) (z : ZoneCfg) (sel : Selector)
      (mode : DriveMode) (frames pixels cost : Nat),
    s.Ready → s.part.unit.runState = .stopped → s.part.setup = some g → g.panels.get j.panel = some c →
    s.part.selector? j.panel = some sel → s.part.job? slot = some j → j.state = .queued → j.scope = .zone n →
    g.zone? n = some z → (∀ k, k ≠ slot → s.part.job? k = none) → s.part.runningCount < g.globals.runningLimit →
    (s.part.port j.panel).state ≠ .fault →
    (mode = .full ↔
      (∃ tx ty x, j.rect.contains tx ty = true ∧ s.part.tileAt? g j.panel tx ty = some x
          ∧ (x.untrusted = true ∨ c.debtHard ≤ x.debt))
        ∨ j.fullRequest = true ∨ z.policy = .fullAlways
        ∨ (z.policy = .auto ∧ (s.part.energy.level = .normal ∨ s.part.energy.level = .surplus)
            ∧ ∃ tx ty x, j.rect.contains tx ty = true ∧ s.part.tileAt? g j.panel tx ty = some x ∧ c.debtSoft ≤ x.debt)) →
    frames = (if mode = .part then (g.band sel.band).partialFrames else (g.band sel.band).fullFrames) →
    pixels = (if mode = .part then
        1024 * (s.part.tilesIn g j.panel j.rect).countP (fun x => x.2.state == .dirty || x.2.state == .queued)
      else 1024 * (j.rect.cols * j.rect.rows)) →
    cost = ceilDiv (ceilDiv (pixels * frames * c.pixelCost) 1000 + frames * c.frameCost
        + (if s.part.rail.state = .off ∨ s.part.rail.state = .falling ∨ s.part.rail.state = .fault then g.globals.boost
          else 0)) 1000 →
    ∃ t, exec .run s = .next t
      ∧ (s.part.energy.level.admits j.cls = true →
          cost ≤ s.part.energy.usable
            - (if s.part.energy.dark then g.globals.holdbackNight else g.globals.holdbackDay) - s.part.committed →
          ∃ r : RunFields, r = ⟨mode, sel.band, cost, pixels, none, r.carried⟩
            ∧ (∀ i, i ∈ r.carried ↔
                ∃ tx ty x, j.rect.contains tx ty = true ∧ s.part.tileAt? g j.panel tx ty = some x
                  ∧ (x.state = .dirty ∨ x.state = .queued) ∧ i = g.tileIndex j.panel c tx ty)
            ∧ t.AgreesOutsidePath
                { s with
                  part := { s.part with
                    tiles := t.part.tiles, zones := t.part.zones
                    pool := s.part.pool.set slot (some { j with state := .capturing, running := some r })
                    committed := s.part.committed + cost
                    runningCount := s.part.runningCount + 1
                    stopMark := none
                    engines := s.part.engines.set j.panel (some
                      { slot := slot
                        context := List.replicate (j.rect.cols * j.rect.rows) ⟨0, false, false, false⟩
                        cursor := 0, group := j.rect.tx0, feed := none, fill := none, buffer := []
                        feedStopped := false, commit := none, request := none, inFlight := false, discard := false })
                    ports := s.part.ports.set j.panel
                      (if (s.part.port j.panel).state = .off
                          ∨ ((s.part.port j.panel).state = .closing ∧ (s.part.port j.panel).closingOver = true)
                        then { s.part.port j.panel with wakePending := true } else s.part.port j.panel)
                    unit := { s.part.unit with
                      runState := .running
                      ordersTaken := s.part.unit.ordersTaken + 1, lastOrder := 2, lastResult := 1 } } }
            ∧ (∀ p tx ty x, s.part.tileAt? g p tx ty = some x →
                t.part.tileAt? g p tx ty
                  = some (if p = j.panel ∧ j.rect.contains tx ty = true then
                      { x with state := .active, redirty := false } else x))
            ∧ (∀ y, t.part.zone? n = some y →
                y.queuedJob = none ∧ y.runningJob = some slot ∧ y.dirtyCount = dirtyTiles t.part.tiles n)
            ∧ (s.path.burst = none → s.path.host = none → (∀ q, s.part.requestLevel? q = none) →
                t.path.burst = some
                  { kind := .captureTarget, panel := j.panel, row := 32 * j.rect.ty0, tx := j.rect.tx0
                    tiles := min 16 (j.rect.tx1 + 1 - j.rect.tx0)
                    addr := c.targetBase + 32 * j.rect.ty0 * c.stride + 8 * j.rect.tx0, data := [] }
                ∧ (t.part.engine? j.panel).map (·.cursor) = some (32 * j.rect.ty0 + 1)))
      ∧ (s.part.energy.level.admits j.cls = false
            ∨ s.part.energy.usable
                - (if s.part.energy.dark then g.globals.holdbackNight else g.globals.holdbackDay) - s.part.committed < cost →
          ∃ starves : Bool,
            (starves = true ↔ j.cls = .urgent ∧ j.starvedReported = false
              ∧ g.globals.starvationLimit < (s.part.clock.mono - j.enqueued).toNat)
            ∧ t.AgreesOutsidePath
                { s with
                  part := { s.part with
                    pool := s.part.pool.set slot (some { j with starvedReported := j.starvedReported || starves })
                    stopMark := some slot
                    unit := { s.part.unit with
                      causes := t.part.unit.causes, runState := .running
                      ordersTaken := s.part.unit.ordersTaken + 1, lastOrder := 2, lastResult := 1 } } }
            ∧ (starves = false → t.part.unit.causes = s.part.unit.causes)
            ∧ (starves = true → s.part.Latched t.part .starved n)))
  ∧ (∀ (s : State) (g : Setup) (p : PanelNo) (c : PanelCfg) (slot : Nat) (j : Job) (sel : Selector)
      (mode : DriveMode) (full urgent : Bool) (frames pixels cost : Nat) (withdrawn : Nat → Job → Prop),
    s.Ready → s.part.unit.runState = .stopped → s.part.setup = some g → g.panels.get p = some c →
    s.part.selector? p = some sel → s.part.job? slot = some j → j.state = .queued → j.panel = p → j.scope = .panel p →
    j.rect = ⟨0, c.width / 32 - 1, 0, c.height / 32 - 1⟩ →
    (∀ k q, withdrawn k q ↔ k ≠ slot ∧ s.part.job? k = some q) →
    (∀ k q, withdrawn k q → q.state = .queued ∧ q.panel = p ∧ (∃ n, q.scope = .zone n)
      ∧ s.part.StandsBefore j q) →
    s.part.NoneHeld → s.part.runningCount < g.globals.runningLimit → (s.part.port p).state ≠ .fault →
    (full = true ↔ j.fullRequest = true ∨ ∃ k q, withdrawn k q ∧ q.fullRequest = true) →
    (urgent = true ↔ j.urgentCarried = true ∨ ∃ k q, withdrawn k q ∧ q.cls = .urgent) →
    (mode = .full ↔
      (∃ tx ty x, s.part.tileAt? g p tx ty = some x ∧ (x.untrusted = true ∨ c.debtHard ≤ x.debt))
        ∨ j.cls = .sweep ∨ full = true
        ∨ (∃ tx ty x n z, s.part.tileAt? g p tx ty = some x ∧ (x.state = .dirty ∨ x.state = .queued)
            ∧ x.zone = some n ∧ g.zone? n = some z ∧ z.policy = .fullAlways)
        ∨ ((s.part.energy.level = .normal ∨ s.part.energy.level = .surplus)
            ∧ ∃ tx ty x, s.part.tileAt? g p tx ty = some x ∧ c.debtSoft ≤ x.debt
              ∧ ∀ n z, x.zone = some n → g.zone? n = some z → z.policy = .auto)) →
    frames = (if mode = .part then (g.band sel.band).partialFrames else (g.band sel.band).fullFrames) →
    pixels = (if mode = .part then
        1024 * (s.part.tilesIn g p j.rect).countP (fun x => x.2.state == .dirty || x.2.state == .queued)
      else 1024 * (j.rect.cols * j.rect.rows)) →
    cost = ceilDiv (ceilDiv (pixels * frames * c.pixelCost) 1000 + frames * c.frameCost
        + (if s.part.rail.state = .off ∨ s.part.rail.state = .falling ∨ s.part.rail.state = .fault then g.globals.boost
          else 0)) 1000 →
    s.part.energy.level.admits j.cls = true →
    cost ≤ s.part.energy.usable
      - (if s.part.energy.dark then g.globals.holdbackNight else g.globals.holdbackDay) - s.part.committed →
    ∃ (t : State) (r : RunFields), exec .run s = .next t ∧ r = ⟨mode, sel.band, cost, pixels, none, r.carried⟩
      ∧ (∀ i, i ∈ r.carried ↔
          ∃ tx ty x, s.part.tileAt? g p tx ty = some x ∧ (x.state = .dirty ∨ x.state = .queued)
            ∧ i = g.tileIndex p c tx ty)
      ∧ (∀ k, t.part.job? k
          = if k = slot then
              some { j with state := .capturing, running := some r, fullRequest := full, urgentCarried := urgent }
            else none)
      ∧ t.AgreesOutsidePath
          { s with
            part := { s.part with
              tiles := t.part.tiles, zones := t.part.zones, pool := t.part.pool
              committed := s.part.committed + cost
              runningCount := s.part.runningCount + 1
              stopMark := none
              engines := s.part.engines.set p (some
                { slot := slot
                  context := List.replicate (j.rect.cols * j.rect.rows) ⟨0, false, false, false⟩
                  cursor := 0, group := 0, feed := none, fill := none, buffer := []
                  feedStopped := false, commit := none, request := none, inFlight := false, discard := false })
              ports := s.part.ports.set p
                (if (s.part.port p).state = .off
                    ∨ ((s.part.port p).state = .closing ∧ (s.part.port p).closingOver = true)
                  then { s.part.port p with wakePending := true } else s.part.port p)
              unit := { s.part.unit with
                runState := .running
                ordersTaken := s.part.unit.ordersTaken + 1, lastOrder := 2, lastResult := 1 } } }
      ∧ (∀ q tx ty x, s.part.tileAt? g q tx ty = some x →
          t.part.tileAt? g q tx ty = some (if q = p then { x with state := .active, redirty := false } else x))
      ∧ ∀ n y, s.part.zone? n = some y →
          ∃ y', t.part.zone? n = some y' ∧ y'.dirtyCount = dirtyTiles t.part.tiles n
            ∧ y'.timer = y.timer ∧ y'.epochWait = y.epochWait ∧ y'.runningJob = y.runningJob
            ∧ ((∃ k q, withdrawn k q ∧ q.scope = .zone n) → y'.queuedJob = none)
            ∧ ((∀ k q, withdrawn k q → q.scope ≠ .zone n) → y'.queuedJob = y.queuedJob))
  ∧ ∀ (c : Instr) (s u : State), CompletesWith c s u →
    ∃ (t : State) (after : Machine.Part), exec c s = .next t ∧ WalksOver 8 u.part after
      ∧ t.AgreesOutsidePath { u with part := after }

/-! ### The drive -/

/-- The codes of a row (R69, R70): a PARTIAL pixel that moves by d levels is driven in the first ceil(|d| × Fp / 3)
frames, BLACKWARD to a higher level and WHITEWARD to a lower one; a FULL pixel runs the phases A to D of lengths a, a, a and r,
driven BLACKWARD in D for ceil(level × r / 3) frames. The four pixels of a byte are its bit pairs, highest first. -/
def Obligations.WaveformsOfBothModes : Prop :=
  (∀ (frames f : Nat) (pair : RowPair) (i old new : Nat), (runLevels pair.shown)[i]? = some old →
      (runLevels pair.stage)[i]? = some new →
      (rowCodes .part frames f pair)[i]?
        = some (if old < new ∧ f < ((new - old) * frames + 2) / 3 then .blackward
            else if new < old ∧ f < ((old - new) * frames + 2) / 3 then .whiteward else .keep))
    ∧ (∀ (frames f a r : Nat) (pair : RowPair) (i new : Nat), (runLevels pair.stage)[i]? = some new →
        a = frames / 4 → r = frames - 3 * a →
        (rowCodes .full frames f pair)[i]?
          = some (if f < a then .whiteward else if f < 2 * a then .blackward else if f < 3 * a then .whiteward
              else if f < 3 * a + (new * r + 2) / 3 then .blackward else .keep))
    ∧ ∀ (bs : List Byte) (i : Nat) (b : Byte), bs[i / 4]? = some b →
        (runLevels bs)[i]? = some (b.toNat / 4 ^ (3 - i % 4) % 4)

/-- The start of a drive and of a frame (R125, R130, R132). With the rail UP, the port READY and no query due, a POISED job
starts its drive: OPEN is sent with the window in pixels, the frame count and the line period, and port and job are DRIVING.
With the window between frames, settled and not being ended, and frames left, the next FRAME_START is sent: the job takes its
index and the frame BUSY limit runs for the frame spacing and the busy margin. -/
def Obligations.DriveAndFramesStart : Prop :=
  ∀ (s : State) (g : Setup) (c : PanelCfg) (p : PanelNo) (slot : Nat) (j : Job) (r : RunFields), s.Ready →
    s.part.setup = some g → g.panels.get p = some c → s.part.running? p = some (slot, j, r) →
    (j.state = .poised → s.part.rail.state = .up → (s.part.port p).state = .ready → (s.part.port p).queryDue = false →
      CompletesWith (.driveStart p) s
        { s with
          part := { s.part with
            pool := s.part.pool.set slot (some { j with state := .driving })
            ports := s.part.ports.set p ((s.part.port p).opened g c j r)
            walkOwed := true } })
    ∧ (∀ (w : Window) (k : Nat), j.state = .driving → (s.part.port p).state = .driving →
        (s.part.port p).window = some w → w.settled = true → w.ending = false →
        (w.frame = none ∧ k = 0) ∨ (∃ f, w.frame = some f ∧ k = f + 1 ∧ w.y1 + 1 - w.y0 ≤ w.slots) → k < w.frames →
      CompletesWith (.frameStart p) s
        { s with
          part := { s.part with
            pool := s.part.pool.set slot (some { j with running := some { r with frame := some k } })
            ports := s.part.ports.set p
              { s.part.port p with
                window := some { w with frame := some k, slots := 0, settled := false }
                limit := some ⟨.frameBusy, w.spacing + 1000 * c.busyMargin⟩
                sent := some (.frameStart k) } } })

/-- A line slot of a frame but its last (R115, R116, R131): one ROW is sent, for the next pixel row of the window. Where the
frame is being ended or the rail is not UP it is a null row and the row buffer stands; else it carries the codes of the row
buffer's head, which leaves the buffer, so that the next fill begins where none runs; with no row pair held it is an underrun: a
null row, UNDERRUN latched with the panel's number, and the UNDERRUN mark on every tile of the row's tile row in the job's
rectangle and on no other. At an underrun the place that was filling is freed, its request withdrawn and the data of its burst in
flight discarded, or with none filling the feed position is moved past the row; then the feed goes on with the row that
follows. -/
def Obligations.LineSlotSendsRow : Prop :=
  ∀ (s : State) (g : Setup) (c : PanelCfg) (p : PanelNo) (busy : Bool) (w : Window) (f slot : Nat) (j : Job) (r : RunFields)
      (e : Engine), s.Ready →
    s.part.setup = some g → g.panels.get p = some c → s.part.running? p = some (slot, j, r) → j.state = .driving →
    s.part.engine? p = some e → (s.part.port p).window = some w → w.frame = some f → w.slots + 1 < w.y1 + 1 - w.y0 →
    ∃ (sent : Machine.Part) (e' : Engine) (codes : List DriveCode),
      s.part.RowSent sent g c p w j r e e' codes
      ∧ CompletesWith (.lineSlot p busy) s
        { s with
          part := { sent with
            ports := s.part.ports.set p
              { s.part.port p with
                window := some { w with slots := w.slots + 1, settled := false }
                sent := some (.row (w.y0 + w.slots) codes) } } }

/-- The last line slot of a frame (R54, R115 to R119, R125, R132, R137, R141, R142): its row is sent as any other, from the row
buffer, or null at an underrun, in a frame that is being ended and on a rail that is not UP. The port then watches BUSY: not
asserted, the frame has settled and no limit runs. After a frame that is not the last of the job nothing else happens. After
frame F − 1 the job is COMMITTING with no frame index, its row buffer emptied, and demands the rail no longer (a change of the
rail's state causes a walk); the STAGE read of its first group of tiles to be copied is asked for, or with nothing to copy it
retires at once (R120). After a frame that was being ended, whatever the rail's state, the job is aborted: its tiles DIRTY with
UNKNOWN set and their debt kept, LOOSE_WRITE latched for a LOOSE one (R23), its cost out of K, its context and slot freed; then
the HELD retry is made with the freed slot (R32), after it each zone the job concerns has its settle timer restarted and, where
TIMED, EPOCH_WAIT set (R34), and a halt may end (R59); a RESTORE_PORT that waited for the last null row is carried out. That
BUSY is read once, at the end of the slot, is the model's choice (log 14). -/
def Obligations.LineSlotEndsFrame : Prop :=
  ∀ (s : State) (g : Setup) (c : PanelCfg) (p : PanelNo) (busy : Bool) (w : Window) (f slot : Nat) (j : Job) (r : RunFields)
      (e : Engine), s.Ready →
    s.part.setup = some g → g.panels.get p = some c → s.part.running? p = some (slot, j, r) → j.state = .driving →
    s.part.engine? p = some e → (s.part.port p).window = some w → w.frame = some f → w.slots + 1 = w.y1 + 1 - w.y0 →
    ∃ (sent posted : Machine.Part) (e' : Engine) (codes : List DriveCode),
      s.part.RowSent sent g c p w j r e e' codes
      ∧ posted = { sent with
          ports := s.part.ports.set p
            { s.part.port p with
              window := some { w with slots := w.slots + 1, settled := !busy }
              limit := if busy then (s.part.port p).limit else none
              busy := busy
              sent := some (.row (w.y0 + w.slots) codes) } }
      ∧ (w.ending = false → f + 1 < w.frames → CompletesWith (.lineSlot p busy) s { s with part := posted })
      ∧ (w.ending = false → w.frames ≤ f + 1 →
        ∃ (begun : Machine.Part) (committing : Job) (run : RunFields) (emptied : Engine) (copied : Nat → Nat → Prop),
          run = { r with frame := none }
          ∧ committing = { j with state := .committing, running := some run }
          ∧ emptied = { e' with buffer := [], fill := none, feed := none, request := none, discard := e'.inFlight }
          ∧ begun = { posted with
              pool := s.part.pool.set slot (some committing)
              engines := s.part.engines.set p (some emptied)
              rail := begun.rail, walkOwed := begun.walkOwed }
          ∧ s.part.RailReleased begun g slot
          ∧ (begun.walkOwed = true ↔ begun.rail.state ≠ s.part.rail.state)
          ∧ (∀ x y, copied x y ↔ e'.toCopy j.rect r.mode x (y / 32) = true)
          ∧ (¬j.rect.NoneLeft copied (32 * j.rect.ty0) j.rect.tx0 →
            ∃ row tx n, j.rect.NextGroup copied (32 * j.rect.ty0) j.rect.tx0 row tx n
              ∧ CompletesWith (.lineSlot p busy) s
                { s with
                  part := { begun with
                    engines := s.part.engines.set p (some { emptied with
                      commit := some ⟨row, tx, n, false⟩
                      request := some
                        { kind := .commitRead, panel := p, row := row, tx := tx, tiles := n
                          addr := c.stageBase + row * c.stride + 8 * tx, data := [] } }) } })
          ∧ (j.rect.NoneLeft copied (32 * j.rect.ty0) j.rect.tx0 →
            ∃ ended retired after, CompletesWith (.lineSlot p busy) s { s with part := after }
              ∧ begun.CommitRetired ended retired after g c slot committing run emptied))
      ∧ (w.ending = true →
        ∃ cut aborted, posted.Aborted cut aborted g c slot j r
          ∧ CompletesWith (.lineSlot p busy) s
            { s with
              part :=
                if (s.part.port p).restoreWaits then
                  { aborted with
                    ports := aborted.ports.set p (s.part.restored p (aborted.port p)), walkOwed := true }
                else aborted })

/-! ### The ports -/

/-- The end of a window (R125, R129, R133, R134, R136, R138). CLOSE, between settled frames with no job of the panel DRIVING: the
port is CLOSING with the close BUSY limit, or READY at once where BUSY is not asserted; in FAULT it stays FAULT and its retry
timer starts unless it is held. A BUSY negated: the IDENT reply timeout follows a wake, the frame settles, a close ends in
READY, or, carried over an accepted APPLY, with REST in OFF or UNUSED; inside a frame and elsewhere it is noted only. REST: a
READY port with no running job, query due or TEMP outstanding takes OFF with the moment of the rest; under a rest delay of 0
that is the moment at which it becomes so, in the event that makes it READY, before the walk (log 29). -/
def Obligations.PortsCloseAndRest : Prop :=
  ∀ (s : State) (p : PanelNo) (busy : Bool) (x : Port), s.Ready → x = s.part.port p →
    (∀ g c w, s.part.setup = some g → g.panels.get p = some c → x.window = some w →
      w.frame = none ∨ w.y1 + 1 - w.y0 ≤ w.slots → w.settled = true →
      (∀ slot j r, s.part.running? p = some (slot, j, r) → j.state ≠ .driving) →
      (x.state ≠ .fault →
        CompletesWith (.close p busy) s
          { s with
            part := { s.part with
              ports := s.part.ports.set p (s.part.rested p
                { x with
                  state := if busy then .closing else .ready
                  window := none, busy := busy
                  limit := if busy then some ⟨.closeBusy, 100000⟩ else none
                  sent := some .close })
              walkOwed := true } })
      ∧ (x.state = .fault →
        CompletesWith (.close p busy) s
          { s with
            part := { s.part with
              ports := s.part.ports.set p
                { x with
                  window := none, limit := none, sent := some .close
                  retry := if x.held then x.retry else some c.retryInterval } } }))
    ∧ (∀ l, x.limit = some l →
      (l.kind = .wakeBusy →
        CompletesWith (.busyNegated p) s
          { s with
            part := { s.part with
              ports := s.part.ports.set p { x with busy := false, limit := some ⟨.identReply, 20000⟩ } } })
      ∧ (l.kind = .closeBusy → x.closingOver = false →
        CompletesWith (.busyNegated p) s
          { s with
            part := { s.part with
              ports := s.part.ports.set p (s.part.rested p { x with state := .ready, busy := false, limit := none })
              walkOwed := true } })
      ∧ (l.kind = .closeBusy → x.closingOver = true →
        CompletesWith (.busyNegated p) s
          { s with
            part := { s.part with
              ports := s.part.ports.set p
                { x with
                  state := if (s.part.setup.bind fun g => g.panels.get p).isSome then .off else .unused
                  busy := false, limit := none, closingOver := false
                  lastRest := some ⟨s.part.clock.mono, s.part.clock.tick⟩
                  sent := some .rest }
              walkOwed := true } })
      ∧ (∀ w, l.kind = .frameBusy → x.window = some w → w.frame = none ∨ w.y1 + 1 - w.y0 ≤ w.slots →
        CompletesWith (.busyNegated p) s
          { s with
            part := { s.part with
              ports := s.part.ports.set p
                { x with window := some { w with settled := true }, limit := none, busy := false } } }))
    ∧ ((x.limit = none ∨ (∃ l, x.limit = some l ∧ l.kind = .identReply)
          ∨ (∃ l w f, x.limit = some l ∧ l.kind = .frameBusy ∧ x.window = some w ∧ w.frame = some f
              ∧ w.slots < w.y1 + 1 - w.y0)) →
      CompletesWith (.busyNegated p) s
        { s with part := { s.part with ports := s.part.ports.set p { x with busy := false } } })
    ∧ (∀ g c, s.part.setup = some g → g.panels.get p = some c → x.state = .ready → s.part.running? p = none →
      x.queryDue = false → x.tempOutstanding = false →
      CompletesWith (.rest p) s
        { s with
          part := { s.part with
            ports := s.part.ports.set p
              { x with
                state := .off, lastRest := some ⟨s.part.clock.mono, s.part.clock.tick⟩, sent := some .rest }
            walkOwed := true } })

/-- The wake of a port (R125, R127, R128, R136). WAKE: WAKING with cause none and the wake BUSY limit, or, BUSY not asserted,
the IDENT reply timeout. A retry timer that expires counts an attempt and wakes the port where the rest hold has passed, which
it has where there was no REST or the hold is 0, or leaves the wake to WAKE; whether a hold has gone by since a REST is the
sender's to say (log 11). A matching IDENT: READY with a query due. TEMP_QUERY:
TEMP outstanding. -/
def Obligations.PortsWake : Prop :=
  ∀ (s : State) (g : Setup) (c : PanelCfg) (p : PanelNo) (busy : Bool) (x : Port) (woken : Port → Port), s.Ready →
    s.part.setup = some g → g.panels.get p = some c → x = s.part.port p →
    (∀ y, woken y = { y with
      state := .waking, cause := .none, wakePending := false, retryWake := false, window := none, busy := busy
      limit := some (if busy then ⟨.wakeBusy, 500000⟩ else ⟨.identReply, 20000⟩)
      sent := some .wake }) →
    ((x.state = .off ∧ x.wakePending = true) ∨ (x.state = .fault ∧ x.retryWake = true) →
      CompletesWith (.wake p busy) s
        { s with part := { s.part with ports := s.part.ports.set p (woken x), walkOwed := true } })
    ∧ (x.state = .fault → x.retry.isSome = true →
      (∀ holdPassed, holdPassed = true ∨ x.lastRest = none ∨ c.restHold = 0 →
        CompletesWith (.retryWake p holdPassed busy) s
          { s with
            part := { s.part with
              ports := s.part.ports.set p (woken { x with attempts := x.attempts + 1, retry := none })
              walkOwed := true } })
      ∧ (x.lastRest.isSome = true → c.restHold ≠ 0 →
        CompletesWith (.retryWake p false busy) s
        { s with
          part := { s.part with
            ports := s.part.ports.set p { x with attempts := x.attempts + 1, retry := none, retryWake := true } } }))
    ∧ (x.state = .waking →
      CompletesWith (.ident p c.width c.height) s
        { s with
          part := { s.part with
            ports := s.part.ports.set p { x with state := .ready, queryDue := true, limit := none }, walkOwed := true } })
    ∧ (x.state = .ready → x.queryDue = true →
      CompletesWith (.tempQuery p) s
        { s with
          part := { s.part with
            ports := s.part.ports.set p
              { x with queryDue := false, tempOutstanding := true, sent := some .tempQuery } } })

/-- A TEMP reply that is awaited (R82, R83, R128, R136): the retry sequence ends as a success, and the Thermal Selector takes the
reading clamped to −40 to +85 °C: the largest band above the current one whose lower bound lies H or more below it; else, where
the reading lies more than H below the current band's lower bound, the largest band below whose bound lies at most H above it;
else the current band. Reference second, stale steps, stale flag and poll due start afresh. A READY port with no running job
and no query due rests at once under a rest delay of 0 (R129), before the walk that this causes (log 29). -/
def Obligations.TempTakesReading : Prop :=
  ∀ (s : State) (g : Setup) (c : PanelCfg) (p : PanelNo) (degrees T H : Int) (sel : Selector) (cur : Band), s.Ready →
    s.part.setup = some g → g.panels.get p = some c → s.part.selector? p = some sel →
    (s.part.port p).tempOutstanding = true → g.bands[sel.band]? = some cur →
    T = max (-40) (min 85 degrees) → H = (g.globals.bandHysteresis : Int) →
    ∃ band, CompletesWith (.temp p degrees) s
        { s with
          part := { s.part with
            ports := s.part.ports.set p
              (s.part.rested p { s.part.port p with tempOutstanding := false, attempts := 0 })
            walkOwed := decide (c.restDelay = 0 ∧ (s.part.port p).state = .ready ∧ (s.part.port p).queryDue = false)
              && (s.part.running? p).isNone
            selectors := s.part.selectors.set p (some
              { band := band, reading := some T, reference := s.part.clock.mono, staleSteps := 0, stale := false
                pollDue := false }) } }
      ∧ (∀ k b, sel.band < k → g.bands[k]? = some b → b.lower + H ≤ T →
          (∀ m b', k < m → g.bands[m]? = some b' → T < b'.lower + H) → band = k)
      ∧ ((∀ m b', sel.band < m → g.bands[m]? = some b' → T < b'.lower + H) →
          (cur.lower - H ≤ T → band = sel.band)
          ∧ (T < cur.lower - H → ∀ k b, k < sel.band → g.bands[k]? = some b → b.lower - H ≤ T →
              (∀ m b', k < m → m < sel.band → g.bands[m]? = some b' → T < b'.lower - H) → band = k))

/-- The limits of a port and a wrong IDENT (R125, R127, R134, R135, R136): the port is FAULT with the limit's cause (BUSY_STUCK
for the three BUSY limits, NO_REPLY for the two reply timeouts, GEOMETRY for an IDENT of another size), held by GEOMETRY or by
three attempts; PORT_FAULT is latched with the port's number. An open window is closed at once for BUSY_STUCK and waits for
its settle otherwise; the retry timer starts once no CLOSE is owed, unless the port is held. A CAPTURING or COMMITTING job goes
on; a POISED job, or one DRIVING between frames, is aborted at once, with the HELD retry before its zones are handled (R32, R34);
inside a frame of a DRIVING job the frame is ended early, and the job is not aborted yet: its engine makes no further feed
request, one held back behind an abandoned burst is dropped, and one that waits is served (R117, log 24). In FAULT the frame
BUSY limit sends the owed CLOSE. The close BUSY limit of a disabled panel ends in UNUSED (R138). -/
def Obligations.PortLimitsFault : Prop :=
  ∀ (s : State) (g : Setup) (p : PanelNo) (x : Port), s.Ready → s.part.setup = some g →
    x = s.part.port p →
    (∀ (c : PanelCfg) (o : Instr) (cause : FaultCause) (held : Bool) (faulted closed : Port),
      g.panels.get p = some c → x.FaultedBy p c o cause →
      held = (decide (cause = .geometry) || decide (3 ≤ x.attempts)) →
      faulted = { x with
        state := .fault, cause := cause, held := held, tempOutstanding := false, queryDue := false
        closingOver := false, retry := none
        limit := if x.window.isSome = true ∧ x.limit.map (·.kind) = some .frameBusy ∧ cause ≠ .busyStuck then x.limit
          else none } →
      closed = (if x.window = none ∨ cause = .busyStuck then
          { faulted with
            window := none, limit := none, retry := if held then none else some c.retryInterval
            sent := if x.window.isSome then some .close else x.sent }
        else faulted) →
      (x.betweenFrames →
        (∀ slot j r, s.part.running? p = some (slot, j, r) → j.state = .capturing ∨ j.state = .committing) →
        ∃ u, CompletesWith o s u
          ∧ u = { s with
              part := { s.part with
                ports := s.part.ports.set p closed, walkOwed := true
                unit := { s.part.unit with causes := u.part.unit.causes } } }
          ∧ s.part.Latched u.part .portFault p.val)
      ∧ (∀ slot j r, x.betweenFrames → s.part.running? p = some (slot, j, r) →
          j.state = .poised ∨ (j.state = .driving ∧ x.window.isSome = true) →
        ∃ noted cut aborted : Machine.Part, CompletesWith o s { s with part := aborted }
          ∧ noted = { s.part with
              ports := s.part.ports.set p closed, walkOwed := true
              unit := { s.part.unit with causes := noted.unit.causes } }
          ∧ s.part.Latched noted .portFault p.val
          ∧ noted.Aborted cut aborted g c slot j r)
      ∧ (∀ slot j r e w f, s.part.running? p = some (slot, j, r) → j.state = .driving → s.part.engine? p = some e →
          x.window = some w → w.frame = some f → w.slots < w.y1 + 1 - w.y0 →
        ∃ u, CompletesWith o s u
          ∧ u = { s with
              part := { s.part with
                ports := s.part.ports.set p { faulted with window := some { w with ending := true } }
                engines := s.part.engines.set p
                  (some { e with feedStopped := true, request := if e.inFlight then none else e.request })
                walkOwed := true
                unit := { s.part.unit with causes := u.part.unit.causes } } }
          ∧ s.part.Latched u.part .portFault p.val))
    ∧ (∀ c, g.panels.get p = some c → x.state = .fault → x.betweenFrames →
        (∃ l, x.limit = some l ∧ l.kind = .frameBusy) →
      CompletesWith (.frameBusyLimit p) s
        { s with
          part := { s.part with
            ports := s.part.ports.set p
              { x with
                window := none, limit := none, sent := some .close
                retry := if x.held then x.retry else some c.retryInterval } } })
    ∧ (g.panels.get p = none → (∃ l, x.limit = some l ∧ l.kind = .closeBusy) →
      CompletesWith (.closeBusyLimit p) s
        { s with
          part := { s.part with
            ports := s.part.ports.set p { x with state := .unused, limit := none, closingOver := false }
            walkOwed := true } })

/-! ### The rail -/

/-- The rail raised and risen (R139, R140, R141). RAIL_RAISE: an OFF rail with demand takes RISING with the rise limit.
Rail-good asserted in RISING: UP, and with no job POISED or DRIVING on to LINGER, or with a linger time of 0 to FALLING; with
one, every POISED job at a READY port with no query due starts its drive: the job DRIVING and OPEN sent (R130); every other job
and every other port stays. The end of the discharge and of the rail retry: OFF,
and RISING at once where there is demand and the minimum off time lies within the time since the negation. That the rail rises
in that same event, by 50 ms or the retry interval against the minimum off time kept from the negation, is deduced (log 20). -/
def Obligations.RailRises : Prop :=
  ∀ (s : State) (g : Setup) (demand : Prop) (moved : Rail → State), s.Ready → s.part.setup = some g →
    (demand ↔ ∃ j, some j ∈ s.part.pool ∧ (j.state = .poised ∨ j.state = .driving)) →
    (∀ r, moved r = { s with part := { s.part with rail := r, walkOwed := true } }) →
    (s.part.rail.state = .off → demand →
      CompletesWith .railRaise s (moved { s.part.rail with state := .rising, timer := some g.globals.riseLimit }))
    ∧ (s.part.rail.state = .rising →
      (¬demand →
        CompletesWith .railGoodAsserted s
          (moved (if g.globals.lingerTime = 0 then
              { state := .falling, timer := some 50, lastNegation := some ⟨s.part.clock.mono, s.part.clock.tick⟩
                minimumOff := g.globals.minimumOff }
            else { s.part.rail with state := .linger, timer := some g.globals.lingerTime })))
      ∧ (demand →
        ∃ (u : State) (starts : PanelNo → Nat → Job → RunFields → PanelCfg → Prop),
          CompletesWith .railGoodAsserted s u
          ∧ (∀ p slot j r c, starts p slot j r c ↔ s.part.running? p = some (slot, j, r) ∧ j.state = .poised
              ∧ g.panels.get p = some c ∧ (s.part.port p).state = .ready ∧ (s.part.port p).queryDue = false)
          ∧ u = { s with
              part := { s.part with
                pool := u.part.pool, ports := u.part.ports
                rail := { s.part.rail with state := .up, timer := none }, walkOwed := true } }
          ∧ u.part.pool.length = s.part.pool.length
          ∧ (∀ p slot j r c, starts p slot j r c →
              u.part.port p = (s.part.port p).opened g c j r ∧ u.part.job? slot = some { j with state := .driving })
          ∧ (∀ p, (∀ slot j r c, ¬starts p slot j r c) → u.part.port p = s.part.port p)
          ∧ ∀ k, (∀ p j r c, ¬starts p k j r c) → u.part.job? k = s.part.job? k))
    ∧ (∀ o elapsed, (o = .dischargeEnd ∧ s.part.rail.state = .falling ∧ elapsed = 50)
          ∨ (o = .railRetry ∧ s.part.rail.state = .fault ∧ elapsed = s.part.rail.timer.getD 0) →
      (demand → s.part.rail.minimumOff ≤ elapsed →
        CompletesWith o s (moved { s.part.rail with state := .rising, timer := some g.globals.riseLimit }))
      ∧ (¬demand ∨ elapsed < s.part.rail.minimumOff →
        CompletesWith o s (moved { s.part.rail with state := .off, timer := none })))

/-- The rail lowered and lost (R139, R141, R142). The linger time passes: FALLING with its discharge, the negation recorded. The
rise limit passes in RISING: FAULT with the retry timer, RAIL_FAULT latched with detail 1. Rail-good lost in UP or LINGER: the
same with detail 2; a port inside a frame of its DRIVING job ends the frame early, with no further feed request (R117, log 24), a
job DRIVING between frames is aborted at once, with the HELD retry before its zones are handled (R32, R34) and its port left to
close, and no port that is not DRIVING changes. -/
def Obligations.RailFalls : Prop :=
  ∀ (s : State) (g : Setup) (now : Stamp) (faulted : Rail), s.Ready → s.part.setup = some g →
    now = ⟨s.part.clock.mono, s.part.clock.tick⟩ →
    faulted = { state := .fault, timer := some (1000 * g.globals.railRetryInterval), lastNegation := some now
                minimumOff := g.globals.minimumOff } →
    (s.part.rail.state = .linger →
      CompletesWith .lingerExpiry s
        { s with
          part := { s.part with
            rail := { state := .falling, timer := some 50, lastNegation := some now, minimumOff := g.globals.minimumOff }
            walkOwed := true } })
    ∧ (s.part.rail.state = .rising →
      ∃ u, CompletesWith .riseLimit s u
        ∧ u = { s with
            part := { s.part with
              rail := faulted, walkOwed := true, unit := { s.part.unit with causes := u.part.unit.causes } } }
        ∧ s.part.Latched u.part .railFault 1)
    ∧ (s.part.rail.state = .up ∨ s.part.rail.state = .linger →
      ((∀ p, (s.part.port p).state ≠ .driving) →
        ∃ u, CompletesWith .railGoodNegated s u
          ∧ u = { s with
              part := { s.part with
                rail := faulted, walkOwed := true, unit := { s.part.unit with causes := u.part.unit.causes } } }
          ∧ s.part.Latched u.part .railFault 2)
      ∧ (∀ p slot j r w f e, (∀ q, q ≠ p → (s.part.port q).state ≠ .driving) → (s.part.port p).state = .driving →
          s.part.running? p = some (slot, j, r) → j.state = .driving → (s.part.port p).window = some w →
          w.frame = some f → w.slots < w.y1 + 1 - w.y0 → s.part.engine? p = some e →
        ∃ u, CompletesWith .railGoodNegated s u
          ∧ u = { s with
              part := { s.part with
                ports := s.part.ports.set p { s.part.port p with window := some { w with ending := true } }
                engines := s.part.engines.set p
                  (some { e with feedStopped := true, request := if e.inFlight then none else e.request })
                rail := faulted, walkOwed := true, unit := { s.part.unit with causes := u.part.unit.causes } } }
          ∧ s.part.Latched u.part .railFault 2)
      ∧ (∀ p c slot j r w, (∀ q, q ≠ p → (s.part.port q).state ≠ .driving) → (s.part.port p).state = .driving →
          g.panels.get p = some c → s.part.running? p = some (slot, j, r) → j.state = .driving →
          (s.part.port p).window = some w → w.frame = none ∨ w.y1 + 1 - w.y0 ≤ w.slots →
        ∃ noted cut aborted : Machine.Part, CompletesWith .railGoodNegated s { s with part := aborted }
          ∧ noted = { s.part with
              rail := faulted, walkOwed := true, unit := { s.part.unit with causes := noted.unit.causes } }
          ∧ s.part.Latched noted .railFault 2
          ∧ noted.Aborted cut aborted g c slot j r))
end

