-- ==== Sys2Proof/Laws/State.lean ====
section
/-! SUPPORT. The fields that each named update of the part leaves alone, one lemma per field and update. -/

namespace Sys2Proof.Machine

/-! ### setJob -/

@[simp] theorem Part.setJob_unit (part : Part) (slot : Nat) (j : Job) :
    (part.setJob slot j).unit = part.unit := rfl
@[simp] theorem Part.setJob_setup (part : Part) (slot : Nat) (j : Job) :
    (part.setJob slot j).setup = part.setup := rfl
@[simp] theorem Part.setJob_tiles (part : Part) (slot : Nat) (j : Job) :
    (part.setJob slot j).tiles = part.tiles := rfl
@[simp] theorem Part.setJob_zones (part : Part) (slot : Nat) (j : Job) :
    (part.setJob slot j).zones = part.zones := rfl
@[simp] theorem Part.setJob_sequence (part : Part) (slot : Nat) (j : Job) :
    (part.setJob slot j).sequence = part.sequence := rfl
@[simp] theorem Part.setJob_runningCount (part : Part) (slot : Nat) (j : Job) :
    (part.setJob slot j).runningCount = part.runningCount := rfl
@[simp] theorem Part.setJob_committed (part : Part) (slot : Nat) (j : Job) :
    (part.setJob slot j).committed = part.committed := rfl
@[simp] theorem Part.setJob_stopMark (part : Part) (slot : Nat) (j : Job) :
    (part.setJob slot j).stopMark = part.stopMark := rfl
@[simp] theorem Part.setJob_walkOwed (part : Part) (slot : Nat) (j : Job) :
    (part.setJob slot j).walkOwed = part.walkOwed := rfl
@[simp] theorem Part.setJob_lastSweep (part : Part) (slot : Nat) (j : Job) :
    (part.setJob slot j).lastSweep = part.lastSweep := rfl
@[simp] theorem Part.setJob_selectors (part : Part) (slot : Nat) (j : Job) :
    (part.setJob slot j).selectors = part.selectors := rfl
@[simp] theorem Part.setJob_engines (part : Part) (slot : Nat) (j : Job) :
    (part.setJob slot j).engines = part.engines := rfl
@[simp] theorem Part.setJob_ports (part : Part) (slot : Nat) (j : Job) :
    (part.setJob slot j).ports = part.ports := rfl
@[simp] theorem Part.setJob_rail (part : Part) (slot : Nat) (j : Job) :
    (part.setJob slot j).rail = part.rail := rfl
@[simp] theorem Part.setJob_energy (part : Part) (slot : Nat) (j : Job) :
    (part.setJob slot j).energy = part.energy := rfl
@[simp] theorem Part.setJob_clock (part : Part) (slot : Nat) (j : Job) :
    (part.setJob slot j).clock = part.clock := rfl

/-! ### freeSlot -/

@[simp] theorem Part.freeSlot_unit (part : Part) (slot : Nat) :
    (part.freeSlot slot).unit = part.unit := rfl
@[simp] theorem Part.freeSlot_setup (part : Part) (slot : Nat) :
    (part.freeSlot slot).setup = part.setup := rfl
@[simp] theorem Part.freeSlot_tiles (part : Part) (slot : Nat) :
    (part.freeSlot slot).tiles = part.tiles := rfl
@[simp] theorem Part.freeSlot_zones (part : Part) (slot : Nat) :
    (part.freeSlot slot).zones = part.zones := rfl
@[simp] theorem Part.freeSlot_sequence (part : Part) (slot : Nat) :
    (part.freeSlot slot).sequence = part.sequence := rfl
@[simp] theorem Part.freeSlot_runningCount (part : Part) (slot : Nat) :
    (part.freeSlot slot).runningCount = part.runningCount := rfl
@[simp] theorem Part.freeSlot_committed (part : Part) (slot : Nat) :
    (part.freeSlot slot).committed = part.committed := rfl
@[simp] theorem Part.freeSlot_walkOwed (part : Part) (slot : Nat) :
    (part.freeSlot slot).walkOwed = part.walkOwed := rfl
@[simp] theorem Part.freeSlot_lastSweep (part : Part) (slot : Nat) :
    (part.freeSlot slot).lastSweep = part.lastSweep := rfl
@[simp] theorem Part.freeSlot_selectors (part : Part) (slot : Nat) :
    (part.freeSlot slot).selectors = part.selectors := rfl
@[simp] theorem Part.freeSlot_engines (part : Part) (slot : Nat) :
    (part.freeSlot slot).engines = part.engines := rfl
@[simp] theorem Part.freeSlot_ports (part : Part) (slot : Nat) :
    (part.freeSlot slot).ports = part.ports := rfl
@[simp] theorem Part.freeSlot_rail (part : Part) (slot : Nat) :
    (part.freeSlot slot).rail = part.rail := rfl
@[simp] theorem Part.freeSlot_energy (part : Part) (slot : Nat) :
    (part.freeSlot slot).energy = part.energy := rfl
@[simp] theorem Part.freeSlot_clock (part : Part) (slot : Nat) :
    (part.freeSlot slot).clock = part.clock := rfl

/-! ### updateZone -/

@[simp] theorem Part.updateZone_unit (part : Part) (n : Nat) (f : Zone → Zone) :
    (part.updateZone n f).unit = part.unit := rfl
@[simp] theorem Part.updateZone_setup (part : Part) (n : Nat) (f : Zone → Zone) :
    (part.updateZone n f).setup = part.setup := rfl
@[simp] theorem Part.updateZone_tiles (part : Part) (n : Nat) (f : Zone → Zone) :
    (part.updateZone n f).tiles = part.tiles := rfl
@[simp] theorem Part.updateZone_pool (part : Part) (n : Nat) (f : Zone → Zone) :
    (part.updateZone n f).pool = part.pool := rfl
@[simp] theorem Part.updateZone_sequence (part : Part) (n : Nat) (f : Zone → Zone) :
    (part.updateZone n f).sequence = part.sequence := rfl
@[simp] theorem Part.updateZone_runningCount (part : Part) (n : Nat) (f : Zone → Zone) :
    (part.updateZone n f).runningCount = part.runningCount := rfl
@[simp] theorem Part.updateZone_committed (part : Part) (n : Nat) (f : Zone → Zone) :
    (part.updateZone n f).committed = part.committed := rfl
@[simp] theorem Part.updateZone_stopMark (part : Part) (n : Nat) (f : Zone → Zone) :
    (part.updateZone n f).stopMark = part.stopMark := rfl
@[simp] theorem Part.updateZone_walkOwed (part : Part) (n : Nat) (f : Zone → Zone) :
    (part.updateZone n f).walkOwed = part.walkOwed := rfl
@[simp] theorem Part.updateZone_lastSweep (part : Part) (n : Nat) (f : Zone → Zone) :
    (part.updateZone n f).lastSweep = part.lastSweep := rfl
@[simp] theorem Part.updateZone_selectors (part : Part) (n : Nat) (f : Zone → Zone) :
    (part.updateZone n f).selectors = part.selectors := rfl
@[simp] theorem Part.updateZone_engines (part : Part) (n : Nat) (f : Zone → Zone) :
    (part.updateZone n f).engines = part.engines := rfl
@[simp] theorem Part.updateZone_ports (part : Part) (n : Nat) (f : Zone → Zone) :
    (part.updateZone n f).ports = part.ports := rfl
@[simp] theorem Part.updateZone_rail (part : Part) (n : Nat) (f : Zone → Zone) :
    (part.updateZone n f).rail = part.rail := rfl
@[simp] theorem Part.updateZone_energy (part : Part) (n : Nat) (f : Zone → Zone) :
    (part.updateZone n f).energy = part.energy := rfl
@[simp] theorem Part.updateZone_clock (part : Part) (n : Nat) (f : Zone → Zone) :
    (part.updateZone n f).clock = part.clock := rfl

/-! ### restartTimer -/

@[simp] theorem Part.restartTimer_unit (part : Part) (z : ZoneCfg) :
    (part.restartTimer z).unit = part.unit := rfl
@[simp] theorem Part.restartTimer_setup (part : Part) (z : ZoneCfg) :
    (part.restartTimer z).setup = part.setup := rfl
@[simp] theorem Part.restartTimer_tiles (part : Part) (z : ZoneCfg) :
    (part.restartTimer z).tiles = part.tiles := rfl
@[simp] theorem Part.restartTimer_pool (part : Part) (z : ZoneCfg) :
    (part.restartTimer z).pool = part.pool := rfl
@[simp] theorem Part.restartTimer_sequence (part : Part) (z : ZoneCfg) :
    (part.restartTimer z).sequence = part.sequence := rfl
@[simp] theorem Part.restartTimer_runningCount (part : Part) (z : ZoneCfg) :
    (part.restartTimer z).runningCount = part.runningCount := rfl
@[simp] theorem Part.restartTimer_committed (part : Part) (z : ZoneCfg) :
    (part.restartTimer z).committed = part.committed := rfl
@[simp] theorem Part.restartTimer_stopMark (part : Part) (z : ZoneCfg) :
    (part.restartTimer z).stopMark = part.stopMark := rfl
@[simp] theorem Part.restartTimer_walkOwed (part : Part) (z : ZoneCfg) :
    (part.restartTimer z).walkOwed = part.walkOwed := rfl
@[simp] theorem Part.restartTimer_lastSweep (part : Part) (z : ZoneCfg) :
    (part.restartTimer z).lastSweep = part.lastSweep := rfl
@[simp] theorem Part.restartTimer_selectors (part : Part) (z : ZoneCfg) :
    (part.restartTimer z).selectors = part.selectors := rfl
@[simp] theorem Part.restartTimer_engines (part : Part) (z : ZoneCfg) :
    (part.restartTimer z).engines = part.engines := rfl
@[simp] theorem Part.restartTimer_ports (part : Part) (z : ZoneCfg) :
    (part.restartTimer z).ports = part.ports := rfl
@[simp] theorem Part.restartTimer_rail (part : Part) (z : ZoneCfg) :
    (part.restartTimer z).rail = part.rail := rfl
@[simp] theorem Part.restartTimer_energy (part : Part) (z : ZoneCfg) :
    (part.restartTimer z).energy = part.energy := rfl
@[simp] theorem Part.restartTimer_clock (part : Part) (z : ZoneCfg) :
    (part.restartTimer z).clock = part.clock := rfl

/-! ### followTiles -/

@[simp] theorem Part.followTiles_unit (part : Part) :
    (part.followTiles).unit = part.unit := rfl
@[simp] theorem Part.followTiles_setup (part : Part) :
    (part.followTiles).setup = part.setup := rfl
@[simp] theorem Part.followTiles_tiles (part : Part) :
    (part.followTiles).tiles = part.tiles := rfl
@[simp] theorem Part.followTiles_pool (part : Part) :
    (part.followTiles).pool = part.pool := rfl
@[simp] theorem Part.followTiles_sequence (part : Part) :
    (part.followTiles).sequence = part.sequence := rfl
@[simp] theorem Part.followTiles_runningCount (part : Part) :
    (part.followTiles).runningCount = part.runningCount := rfl
@[simp] theorem Part.followTiles_committed (part : Part) :
    (part.followTiles).committed = part.committed := rfl
@[simp] theorem Part.followTiles_stopMark (part : Part) :
    (part.followTiles).stopMark = part.stopMark := rfl
@[simp] theorem Part.followTiles_walkOwed (part : Part) :
    (part.followTiles).walkOwed = part.walkOwed := rfl
@[simp] theorem Part.followTiles_lastSweep (part : Part) :
    (part.followTiles).lastSweep = part.lastSweep := rfl
@[simp] theorem Part.followTiles_selectors (part : Part) :
    (part.followTiles).selectors = part.selectors := rfl
@[simp] theorem Part.followTiles_engines (part : Part) :
    (part.followTiles).engines = part.engines := rfl
@[simp] theorem Part.followTiles_ports (part : Part) :
    (part.followTiles).ports = part.ports := rfl
@[simp] theorem Part.followTiles_rail (part : Part) :
    (part.followTiles).rail = part.rail := rfl
@[simp] theorem Part.followTiles_energy (part : Part) :
    (part.followTiles).energy = part.energy := rfl
@[simp] theorem Part.followTiles_clock (part : Part) :
    (part.followTiles).clock = part.clock := rfl

/-! ### setPort -/

@[simp] theorem Part.setPort_unit (part : Part) (p : PanelNo) (x : Port) :
    (part.setPort p x).unit = part.unit := rfl
@[simp] theorem Part.setPort_setup (part : Part) (p : PanelNo) (x : Port) :
    (part.setPort p x).setup = part.setup := rfl
@[simp] theorem Part.setPort_tiles (part : Part) (p : PanelNo) (x : Port) :
    (part.setPort p x).tiles = part.tiles := rfl
@[simp] theorem Part.setPort_zones (part : Part) (p : PanelNo) (x : Port) :
    (part.setPort p x).zones = part.zones := rfl
@[simp] theorem Part.setPort_pool (part : Part) (p : PanelNo) (x : Port) :
    (part.setPort p x).pool = part.pool := rfl
@[simp] theorem Part.setPort_sequence (part : Part) (p : PanelNo) (x : Port) :
    (part.setPort p x).sequence = part.sequence := rfl
@[simp] theorem Part.setPort_runningCount (part : Part) (p : PanelNo) (x : Port) :
    (part.setPort p x).runningCount = part.runningCount := rfl
@[simp] theorem Part.setPort_committed (part : Part) (p : PanelNo) (x : Port) :
    (part.setPort p x).committed = part.committed := rfl
@[simp] theorem Part.setPort_stopMark (part : Part) (p : PanelNo) (x : Port) :
    (part.setPort p x).stopMark = part.stopMark := rfl
@[simp] theorem Part.setPort_walkOwed (part : Part) (p : PanelNo) (x : Port) :
    (part.setPort p x).walkOwed = part.walkOwed := rfl
@[simp] theorem Part.setPort_lastSweep (part : Part) (p : PanelNo) (x : Port) :
    (part.setPort p x).lastSweep = part.lastSweep := rfl
@[simp] theorem Part.setPort_selectors (part : Part) (p : PanelNo) (x : Port) :
    (part.setPort p x).selectors = part.selectors := rfl
@[simp] theorem Part.setPort_engines (part : Part) (p : PanelNo) (x : Port) :
    (part.setPort p x).engines = part.engines := rfl
@[simp] theorem Part.setPort_rail (part : Part) (p : PanelNo) (x : Port) :
    (part.setPort p x).rail = part.rail := rfl
@[simp] theorem Part.setPort_energy (part : Part) (p : PanelNo) (x : Port) :
    (part.setPort p x).energy = part.energy := rfl
@[simp] theorem Part.setPort_clock (part : Part) (p : PanelNo) (x : Port) :
    (part.setPort p x).clock = part.clock := rfl

/-! ### changePort -/

@[simp] theorem Part.changePort_unit (part : Part) (p : PanelNo) (x : Port) :
    (part.changePort p x).unit = part.unit := rfl
@[simp] theorem Part.changePort_setup (part : Part) (p : PanelNo) (x : Port) :
    (part.changePort p x).setup = part.setup := rfl
@[simp] theorem Part.changePort_tiles (part : Part) (p : PanelNo) (x : Port) :
    (part.changePort p x).tiles = part.tiles := rfl
@[simp] theorem Part.changePort_zones (part : Part) (p : PanelNo) (x : Port) :
    (part.changePort p x).zones = part.zones := rfl
@[simp] theorem Part.changePort_pool (part : Part) (p : PanelNo) (x : Port) :
    (part.changePort p x).pool = part.pool := rfl
@[simp] theorem Part.changePort_sequence (part : Part) (p : PanelNo) (x : Port) :
    (part.changePort p x).sequence = part.sequence := rfl
@[simp] theorem Part.changePort_runningCount (part : Part) (p : PanelNo) (x : Port) :
    (part.changePort p x).runningCount = part.runningCount := rfl
@[simp] theorem Part.changePort_committed (part : Part) (p : PanelNo) (x : Port) :
    (part.changePort p x).committed = part.committed := rfl
@[simp] theorem Part.changePort_stopMark (part : Part) (p : PanelNo) (x : Port) :
    (part.changePort p x).stopMark = part.stopMark := rfl
@[simp] theorem Part.changePort_lastSweep (part : Part) (p : PanelNo) (x : Port) :
    (part.changePort p x).lastSweep = part.lastSweep := rfl
@[simp] theorem Part.changePort_selectors (part : Part) (p : PanelNo) (x : Port) :
    (part.changePort p x).selectors = part.selectors := rfl
@[simp] theorem Part.changePort_engines (part : Part) (p : PanelNo) (x : Port) :
    (part.changePort p x).engines = part.engines := rfl
@[simp] theorem Part.changePort_rail (part : Part) (p : PanelNo) (x : Port) :
    (part.changePort p x).rail = part.rail := rfl
@[simp] theorem Part.changePort_energy (part : Part) (p : PanelNo) (x : Port) :
    (part.changePort p x).energy = part.energy := rfl
@[simp] theorem Part.changePort_clock (part : Part) (p : PanelNo) (x : Port) :
    (part.changePort p x).clock = part.clock := rfl

/-! ### setEngine -/

@[simp] theorem Part.setEngine_unit (part : Part) (p : PanelNo) (e : Option Engine) :
    (part.setEngine p e).unit = part.unit := rfl
@[simp] theorem Part.setEngine_setup (part : Part) (p : PanelNo) (e : Option Engine) :
    (part.setEngine p e).setup = part.setup := rfl
@[simp] theorem Part.setEngine_tiles (part : Part) (p : PanelNo) (e : Option Engine) :
    (part.setEngine p e).tiles = part.tiles := rfl
@[simp] theorem Part.setEngine_zones (part : Part) (p : PanelNo) (e : Option Engine) :
    (part.setEngine p e).zones = part.zones := rfl
@[simp] theorem Part.setEngine_pool (part : Part) (p : PanelNo) (e : Option Engine) :
    (part.setEngine p e).pool = part.pool := rfl
@[simp] theorem Part.setEngine_sequence (part : Part) (p : PanelNo) (e : Option Engine) :
    (part.setEngine p e).sequence = part.sequence := rfl
@[simp] theorem Part.setEngine_runningCount (part : Part) (p : PanelNo) (e : Option Engine) :
    (part.setEngine p e).runningCount = part.runningCount := rfl
@[simp] theorem Part.setEngine_committed (part : Part) (p : PanelNo) (e : Option Engine) :
    (part.setEngine p e).committed = part.committed := rfl
@[simp] theorem Part.setEngine_stopMark (part : Part) (p : PanelNo) (e : Option Engine) :
    (part.setEngine p e).stopMark = part.stopMark := rfl
@[simp] theorem Part.setEngine_walkOwed (part : Part) (p : PanelNo) (e : Option Engine) :
    (part.setEngine p e).walkOwed = part.walkOwed := rfl
@[simp] theorem Part.setEngine_lastSweep (part : Part) (p : PanelNo) (e : Option Engine) :
    (part.setEngine p e).lastSweep = part.lastSweep := rfl
@[simp] theorem Part.setEngine_selectors (part : Part) (p : PanelNo) (e : Option Engine) :
    (part.setEngine p e).selectors = part.selectors := rfl
@[simp] theorem Part.setEngine_ports (part : Part) (p : PanelNo) (e : Option Engine) :
    (part.setEngine p e).ports = part.ports := rfl
@[simp] theorem Part.setEngine_rail (part : Part) (p : PanelNo) (e : Option Engine) :
    (part.setEngine p e).rail = part.rail := rfl
@[simp] theorem Part.setEngine_energy (part : Part) (p : PanelNo) (e : Option Engine) :
    (part.setEngine p e).energy = part.energy := rfl
@[simp] theorem Part.setEngine_clock (part : Part) (p : PanelNo) (e : Option Engine) :
    (part.setEngine p e).clock = part.clock := rfl

/-! ### setSelector -/

@[simp] theorem Part.setSelector_unit (part : Part) (p : PanelNo) (x : Selector) :
    (part.setSelector p x).unit = part.unit := rfl
@[simp] theorem Part.setSelector_setup (part : Part) (p : PanelNo) (x : Selector) :
    (part.setSelector p x).setup = part.setup := rfl
@[simp] theorem Part.setSelector_tiles (part : Part) (p : PanelNo) (x : Selector) :
    (part.setSelector p x).tiles = part.tiles := rfl
@[simp] theorem Part.setSelector_zones (part : Part) (p : PanelNo) (x : Selector) :
    (part.setSelector p x).zones = part.zones := rfl
@[simp] theorem Part.setSelector_pool (part : Part) (p : PanelNo) (x : Selector) :
    (part.setSelector p x).pool = part.pool := rfl
@[simp] theorem Part.setSelector_sequence (part : Part) (p : PanelNo) (x : Selector) :
    (part.setSelector p x).sequence = part.sequence := rfl
@[simp] theorem Part.setSelector_runningCount (part : Part) (p : PanelNo) (x : Selector) :
    (part.setSelector p x).runningCount = part.runningCount := rfl
@[simp] theorem Part.setSelector_committed (part : Part) (p : PanelNo) (x : Selector) :
    (part.setSelector p x).committed = part.committed := rfl
@[simp] theorem Part.setSelector_stopMark (part : Part) (p : PanelNo) (x : Selector) :
    (part.setSelector p x).stopMark = part.stopMark := rfl
@[simp] theorem Part.setSelector_walkOwed (part : Part) (p : PanelNo) (x : Selector) :
    (part.setSelector p x).walkOwed = part.walkOwed := rfl
@[simp] theorem Part.setSelector_lastSweep (part : Part) (p : PanelNo) (x : Selector) :
    (part.setSelector p x).lastSweep = part.lastSweep := rfl
@[simp] theorem Part.setSelector_engines (part : Part) (p : PanelNo) (x : Selector) :
    (part.setSelector p x).engines = part.engines := rfl
@[simp] theorem Part.setSelector_ports (part : Part) (p : PanelNo) (x : Selector) :
    (part.setSelector p x).ports = part.ports := rfl
@[simp] theorem Part.setSelector_rail (part : Part) (p : PanelNo) (x : Selector) :
    (part.setSelector p x).rail = part.rail := rfl
@[simp] theorem Part.setSelector_energy (part : Part) (p : PanelNo) (x : Selector) :
    (part.setSelector p x).energy = part.energy := rfl
@[simp] theorem Part.setSelector_clock (part : Part) (p : PanelNo) (x : Selector) :
    (part.setSelector p x).clock = part.clock := rfl

/-! ### oweWalk -/

@[simp] theorem Part.oweWalk_unit (part : Part) :
    (part.oweWalk).unit = part.unit := rfl
@[simp] theorem Part.oweWalk_setup (part : Part) :
    (part.oweWalk).setup = part.setup := rfl
@[simp] theorem Part.oweWalk_tiles (part : Part) :
    (part.oweWalk).tiles = part.tiles := rfl
@[simp] theorem Part.oweWalk_zones (part : Part) :
    (part.oweWalk).zones = part.zones := rfl
@[simp] theorem Part.oweWalk_pool (part : Part) :
    (part.oweWalk).pool = part.pool := rfl
@[simp] theorem Part.oweWalk_sequence (part : Part) :
    (part.oweWalk).sequence = part.sequence := rfl
@[simp] theorem Part.oweWalk_runningCount (part : Part) :
    (part.oweWalk).runningCount = part.runningCount := rfl
@[simp] theorem Part.oweWalk_committed (part : Part) :
    (part.oweWalk).committed = part.committed := rfl
@[simp] theorem Part.oweWalk_stopMark (part : Part) :
    (part.oweWalk).stopMark = part.stopMark := rfl
@[simp] theorem Part.oweWalk_lastSweep (part : Part) :
    (part.oweWalk).lastSweep = part.lastSweep := rfl
@[simp] theorem Part.oweWalk_selectors (part : Part) :
    (part.oweWalk).selectors = part.selectors := rfl
@[simp] theorem Part.oweWalk_engines (part : Part) :
    (part.oweWalk).engines = part.engines := rfl
@[simp] theorem Part.oweWalk_ports (part : Part) :
    (part.oweWalk).ports = part.ports := rfl
@[simp] theorem Part.oweWalk_rail (part : Part) :
    (part.oweWalk).rail = part.rail := rfl
@[simp] theorem Part.oweWalk_energy (part : Part) :
    (part.oweWalk).energy = part.energy := rfl
@[simp] theorem Part.oweWalk_clock (part : Part) :
    (part.oweWalk).clock = part.clock := rfl

/-! ### changeRail -/

@[simp] theorem Part.changeRail_unit (part : Part) (r : Rail) :
    (part.changeRail r).unit = part.unit := rfl
@[simp] theorem Part.changeRail_setup (part : Part) (r : Rail) :
    (part.changeRail r).setup = part.setup := rfl
@[simp] theorem Part.changeRail_tiles (part : Part) (r : Rail) :
    (part.changeRail r).tiles = part.tiles := rfl
@[simp] theorem Part.changeRail_zones (part : Part) (r : Rail) :
    (part.changeRail r).zones = part.zones := rfl
@[simp] theorem Part.changeRail_pool (part : Part) (r : Rail) :
    (part.changeRail r).pool = part.pool := rfl
@[simp] theorem Part.changeRail_sequence (part : Part) (r : Rail) :
    (part.changeRail r).sequence = part.sequence := rfl
@[simp] theorem Part.changeRail_runningCount (part : Part) (r : Rail) :
    (part.changeRail r).runningCount = part.runningCount := rfl
@[simp] theorem Part.changeRail_committed (part : Part) (r : Rail) :
    (part.changeRail r).committed = part.committed := rfl
@[simp] theorem Part.changeRail_stopMark (part : Part) (r : Rail) :
    (part.changeRail r).stopMark = part.stopMark := rfl
@[simp] theorem Part.changeRail_lastSweep (part : Part) (r : Rail) :
    (part.changeRail r).lastSweep = part.lastSweep := rfl
@[simp] theorem Part.changeRail_selectors (part : Part) (r : Rail) :
    (part.changeRail r).selectors = part.selectors := rfl
@[simp] theorem Part.changeRail_engines (part : Part) (r : Rail) :
    (part.changeRail r).engines = part.engines := rfl
@[simp] theorem Part.changeRail_ports (part : Part) (r : Rail) :
    (part.changeRail r).ports = part.ports := rfl
@[simp] theorem Part.changeRail_energy (part : Part) (r : Rail) :
    (part.changeRail r).energy = part.energy := rfl
@[simp] theorem Part.changeRail_clock (part : Part) (r : Rail) :
    (part.changeRail r).clock = part.clock := rfl

/-! ### placeJob -/

@[simp] theorem Part.placeJob_unit (part : Part) (slot : Nat) (p : PanelNo) (sc : JobScope) (rect : Rect) (cls : RefreshClass) (o : Origin) (full : Bool) :
    (part.placeJob slot p sc rect cls o full).unit = part.unit := rfl
@[simp] theorem Part.placeJob_setup (part : Part) (slot : Nat) (p : PanelNo) (sc : JobScope) (rect : Rect) (cls : RefreshClass) (o : Origin) (full : Bool) :
    (part.placeJob slot p sc rect cls o full).setup = part.setup := rfl
@[simp] theorem Part.placeJob_tiles (part : Part) (slot : Nat) (p : PanelNo) (sc : JobScope) (rect : Rect) (cls : RefreshClass) (o : Origin) (full : Bool) :
    (part.placeJob slot p sc rect cls o full).tiles = part.tiles := rfl
@[simp] theorem Part.placeJob_zones (part : Part) (slot : Nat) (p : PanelNo) (sc : JobScope) (rect : Rect) (cls : RefreshClass) (o : Origin) (full : Bool) :
    (part.placeJob slot p sc rect cls o full).zones = part.zones := rfl
@[simp] theorem Part.placeJob_runningCount (part : Part) (slot : Nat) (p : PanelNo) (sc : JobScope) (rect : Rect) (cls : RefreshClass) (o : Origin) (full : Bool) :
    (part.placeJob slot p sc rect cls o full).runningCount = part.runningCount := rfl
@[simp] theorem Part.placeJob_committed (part : Part) (slot : Nat) (p : PanelNo) (sc : JobScope) (rect : Rect) (cls : RefreshClass) (o : Origin) (full : Bool) :
    (part.placeJob slot p sc rect cls o full).committed = part.committed := rfl
@[simp] theorem Part.placeJob_stopMark (part : Part) (slot : Nat) (p : PanelNo) (sc : JobScope) (rect : Rect) (cls : RefreshClass) (o : Origin) (full : Bool) :
    (part.placeJob slot p sc rect cls o full).stopMark = part.stopMark := rfl
@[simp] theorem Part.placeJob_lastSweep (part : Part) (slot : Nat) (p : PanelNo) (sc : JobScope) (rect : Rect) (cls : RefreshClass) (o : Origin) (full : Bool) :
    (part.placeJob slot p sc rect cls o full).lastSweep = part.lastSweep := rfl
@[simp] theorem Part.placeJob_selectors (part : Part) (slot : Nat) (p : PanelNo) (sc : JobScope) (rect : Rect) (cls : RefreshClass) (o : Origin) (full : Bool) :
    (part.placeJob slot p sc rect cls o full).selectors = part.selectors := rfl
@[simp] theorem Part.placeJob_engines (part : Part) (slot : Nat) (p : PanelNo) (sc : JobScope) (rect : Rect) (cls : RefreshClass) (o : Origin) (full : Bool) :
    (part.placeJob slot p sc rect cls o full).engines = part.engines := rfl
@[simp] theorem Part.placeJob_ports (part : Part) (slot : Nat) (p : PanelNo) (sc : JobScope) (rect : Rect) (cls : RefreshClass) (o : Origin) (full : Bool) :
    (part.placeJob slot p sc rect cls o full).ports = part.ports := rfl
@[simp] theorem Part.placeJob_rail (part : Part) (slot : Nat) (p : PanelNo) (sc : JobScope) (rect : Rect) (cls : RefreshClass) (o : Origin) (full : Bool) :
    (part.placeJob slot p sc rect cls o full).rail = part.rail := rfl
@[simp] theorem Part.placeJob_energy (part : Part) (slot : Nat) (p : PanelNo) (sc : JobScope) (rect : Rect) (cls : RefreshClass) (o : Origin) (full : Bool) :
    (part.placeJob slot p sc rect cls o full).energy = part.energy := rfl
@[simp] theorem Part.placeJob_clock (part : Part) (slot : Nat) (p : PanelNo) (sc : JobScope) (rect : Rect) (cls : RefreshClass) (o : Origin) (full : Bool) :
    (part.placeJob slot p sc rect cls o full).clock = part.clock := rfl

/-! ### endJob -/

@[simp] theorem Part.endJob_unit (part : Part) (slot : Nat) (j : Job) (r : RunFields) :
    (part.endJob slot j r).unit = part.unit := rfl
@[simp] theorem Part.endJob_setup (part : Part) (slot : Nat) (j : Job) (r : RunFields) :
    (part.endJob slot j r).setup = part.setup := rfl
@[simp] theorem Part.endJob_tiles (part : Part) (slot : Nat) (j : Job) (r : RunFields) :
    (part.endJob slot j r).tiles = part.tiles := rfl
@[simp] theorem Part.endJob_zones (part : Part) (slot : Nat) (j : Job) (r : RunFields) :
    (part.endJob slot j r).zones = part.zones := rfl
@[simp] theorem Part.endJob_sequence (part : Part) (slot : Nat) (j : Job) (r : RunFields) :
    (part.endJob slot j r).sequence = part.sequence := rfl
@[simp] theorem Part.endJob_lastSweep (part : Part) (slot : Nat) (j : Job) (r : RunFields) :
    (part.endJob slot j r).lastSweep = part.lastSweep := rfl
@[simp] theorem Part.endJob_selectors (part : Part) (slot : Nat) (j : Job) (r : RunFields) :
    (part.endJob slot j r).selectors = part.selectors := rfl
@[simp] theorem Part.endJob_ports (part : Part) (slot : Nat) (j : Job) (r : RunFields) :
    (part.endJob slot j r).ports = part.ports := rfl
@[simp] theorem Part.endJob_rail (part : Part) (slot : Nat) (j : Job) (r : RunFields) :
    (part.endJob slot j r).rail = part.rail := rfl
@[simp] theorem Part.endJob_energy (part : Part) (slot : Nat) (j : Job) (r : RunFields) :
    (part.endJob slot j r).energy = part.energy := rfl
@[simp] theorem Part.endJob_clock (part : Part) (slot : Nat) (j : Job) (r : RunFields) :
    (part.endJob slot j r).clock = part.clock := rfl

/-! ### setRunState -/

@[simp] theorem Part.setRunState_setup (part : Part) (r : RunState) :
    (part.setRunState r).setup = part.setup := rfl
@[simp] theorem Part.setRunState_tiles (part : Part) (r : RunState) :
    (part.setRunState r).tiles = part.tiles := rfl
@[simp] theorem Part.setRunState_zones (part : Part) (r : RunState) :
    (part.setRunState r).zones = part.zones := rfl
@[simp] theorem Part.setRunState_pool (part : Part) (r : RunState) :
    (part.setRunState r).pool = part.pool := rfl
@[simp] theorem Part.setRunState_sequence (part : Part) (r : RunState) :
    (part.setRunState r).sequence = part.sequence := rfl
@[simp] theorem Part.setRunState_runningCount (part : Part) (r : RunState) :
    (part.setRunState r).runningCount = part.runningCount := rfl
@[simp] theorem Part.setRunState_committed (part : Part) (r : RunState) :
    (part.setRunState r).committed = part.committed := rfl
@[simp] theorem Part.setRunState_stopMark (part : Part) (r : RunState) :
    (part.setRunState r).stopMark = part.stopMark := rfl
@[simp] theorem Part.setRunState_walkOwed (part : Part) (r : RunState) :
    (part.setRunState r).walkOwed = part.walkOwed := rfl
@[simp] theorem Part.setRunState_lastSweep (part : Part) (r : RunState) :
    (part.setRunState r).lastSweep = part.lastSweep := rfl
@[simp] theorem Part.setRunState_selectors (part : Part) (r : RunState) :
    (part.setRunState r).selectors = part.selectors := rfl
@[simp] theorem Part.setRunState_engines (part : Part) (r : RunState) :
    (part.setRunState r).engines = part.engines := rfl
@[simp] theorem Part.setRunState_ports (part : Part) (r : RunState) :
    (part.setRunState r).ports = part.ports := rfl
@[simp] theorem Part.setRunState_rail (part : Part) (r : RunState) :
    (part.setRunState r).rail = part.rail := rfl
@[simp] theorem Part.setRunState_energy (part : Part) (r : RunState) :
    (part.setRunState r).energy = part.energy := rfl
@[simp] theorem Part.setRunState_clock (part : Part) (r : RunState) :
    (part.setRunState r).clock = part.clock := rfl

/-! ### noteOrder -/

@[simp] theorem Part.noteOrder_setup (part : Part) (code : Byte) (r : OrderResult) :
    (part.noteOrder code r).setup = part.setup := rfl
@[simp] theorem Part.noteOrder_tiles (part : Part) (code : Byte) (r : OrderResult) :
    (part.noteOrder code r).tiles = part.tiles := rfl
@[simp] theorem Part.noteOrder_zones (part : Part) (code : Byte) (r : OrderResult) :
    (part.noteOrder code r).zones = part.zones := rfl
@[simp] theorem Part.noteOrder_pool (part : Part) (code : Byte) (r : OrderResult) :
    (part.noteOrder code r).pool = part.pool := rfl
@[simp] theorem Part.noteOrder_sequence (part : Part) (code : Byte) (r : OrderResult) :
    (part.noteOrder code r).sequence = part.sequence := rfl
@[simp] theorem Part.noteOrder_runningCount (part : Part) (code : Byte) (r : OrderResult) :
    (part.noteOrder code r).runningCount = part.runningCount := rfl
@[simp] theorem Part.noteOrder_committed (part : Part) (code : Byte) (r : OrderResult) :
    (part.noteOrder code r).committed = part.committed := rfl
@[simp] theorem Part.noteOrder_stopMark (part : Part) (code : Byte) (r : OrderResult) :
    (part.noteOrder code r).stopMark = part.stopMark := rfl
@[simp] theorem Part.noteOrder_walkOwed (part : Part) (code : Byte) (r : OrderResult) :
    (part.noteOrder code r).walkOwed = part.walkOwed := rfl
@[simp] theorem Part.noteOrder_lastSweep (part : Part) (code : Byte) (r : OrderResult) :
    (part.noteOrder code r).lastSweep = part.lastSweep := rfl
@[simp] theorem Part.noteOrder_selectors (part : Part) (code : Byte) (r : OrderResult) :
    (part.noteOrder code r).selectors = part.selectors := rfl
@[simp] theorem Part.noteOrder_engines (part : Part) (code : Byte) (r : OrderResult) :
    (part.noteOrder code r).engines = part.engines := rfl
@[simp] theorem Part.noteOrder_ports (part : Part) (code : Byte) (r : OrderResult) :
    (part.noteOrder code r).ports = part.ports := rfl
@[simp] theorem Part.noteOrder_rail (part : Part) (code : Byte) (r : OrderResult) :
    (part.noteOrder code r).rail = part.rail := rfl
@[simp] theorem Part.noteOrder_energy (part : Part) (code : Byte) (r : OrderResult) :
    (part.noteOrder code r).energy = part.energy := rfl
@[simp] theorem Part.noteOrder_clock (part : Part) (code : Byte) (r : OrderResult) :
    (part.noteOrder code r).clock = part.clock := rfl

/-! ### The fields that an update sets -/

@[simp] theorem Part.setPort_ports (part : Part) (p : PanelNo) (x : Port) :
    (part.setPort p x).ports = part.ports.set p x := rfl
@[simp] theorem Part.changePort_ports (part : Part) (p : PanelNo) (x : Port) :
    (part.changePort p x).ports = part.ports.set p x := rfl
@[simp] theorem Part.setEngine_engines (part : Part) (p : PanelNo) (e : Option Engine) :
    (part.setEngine p e).engines = part.engines.set p e := rfl
@[simp] theorem Part.setSelector_selectors (part : Part) (p : PanelNo) (x : Selector) :
    (part.setSelector p x).selectors = part.selectors.set p (some x) := rfl
@[simp] theorem Part.setJob_pool (part : Part) (slot : Nat) (j : Job) :
    (part.setJob slot j).pool = part.pool.set slot (some j) := rfl
@[simp] theorem Part.changeRail_rail (part : Part) (r : Rail) : (part.changeRail r).rail = r := rfl

/-! ### The bundle of four -/

@[simp] theorem Quad.get_set_self {α : Type} (q : Quad α) (p : PanelNo) (a : α) : (q.set p a).get p = a := by
  match p with
  | 0 | 1 | 2 | 3 => rfl

theorem Quad.get_set_ne {α : Type} (q : Quad α) {p r : PanelNo} (a : α) (h : r ≠ p) :
    (q.set p a).get r = q.get r := by
  match p, r with
  | 0, 0 | 1, 1 | 2, 2 | 3, 3 => exact absurd rfl h
  | 0, 1 | 0, 2 | 0, 3 | 1, 0 | 1, 2 | 1, 3 | 2, 0 | 2, 1 | 2, 3 | 3, 0 | 3, 1 | 3, 2 => rfl

theorem Quad.get_set {α : Type} (q : Quad α) (p r : PanelNo) (a : α) :
    (q.set p a).get r = if r = p then a else q.get r := by
  by_cases h : r = p
  · simp [h]
  · simp [h, Quad.get_set_ne]

@[simp] theorem Quad.get_ofPanels {α : Type} (f : PanelNo → α) (p : PanelNo) : (Quad.ofPanels f).get p = f p := by
  match p with
  | 0 | 1 | 2 | 3 => rfl

@[simp] theorem Quad.get_all {α : Type} (a : α) (p : PanelNo) : (Quad.all a).get p = a := by
  match p with
  | 0 | 1 | 2 | 3 => rfl

theorem Quad.ext_get {α : Type} {q r : Quad α} (h : ∀ p : PanelNo, q.get p = r.get p) : q = r := by
  have h0 := h 0; have h1 := h 1; have h2 := h 2; have h3 := h 3
  cases q; cases r
  simp [Quad.get] at h0 h1 h2 h3
  simp [h0, h1, h2, h3]

theorem Quad.set_get_self {α : Type} (q : Quad α) (p : PanelNo) : q.set p (q.get p) = q := by
  match p with
  | 0 | 1 | 2 | 3 => rfl

@[simp] theorem Part.port_setPort_self (part : Part) (p : PanelNo) (x : Port) : (part.setPort p x).port p = x := by
  simp [Part.port]

@[simp] theorem Part.port_changePort_self (part : Part) (p : PanelNo) (x : Port) :
    (part.changePort p x).port p = x := by
  simp [Part.port]

end Sys2Proof.Machine
end

