-- ==== Sys2Proof/Laws/Walk.lean ====
section
/-! SUPPORT. What a walk, an enqueue and the HELD retry may change: nothing outside `Part.outsideWalk`. -/

namespace Sys2Proof.Machine

/-! ### The updates that a walk is made of -/

theorem Part.outsideWalk_setJob (part : Part) (slot : Nat) (j : Job) :
    (part.setJob slot j).outsideWalk = part.outsideWalk := rfl

theorem Part.outsideWalk_freeSlot (part : Part) (slot : Nat) :
    (part.freeSlot slot).outsideWalk = part.outsideWalk := rfl

theorem Part.outsideWalk_updateZone (part : Part) (n : Nat) (f : Zone → Zone) :
    (part.updateZone n f).outsideWalk = part.outsideWalk := rfl

theorem Part.outsideWalk_followTiles (part : Part) : part.followTiles.outsideWalk = part.outsideWalk := rfl

theorem Part.outsideWalk_setEngine (part : Part) (p : PanelNo) (e : Option Engine) :
    (part.setEngine p e).outsideWalk = part.outsideWalk := rfl

theorem Part.outsideWalk_oweWalk (part : Part) : part.oweWalk.outsideWalk = part.outsideWalk := rfl

theorem Part.outsideWalk_placeJob (part : Part) (slot : Nat) (p : PanelNo) (scope : JobScope) (rect : Rect)
    (cls : RefreshClass) (o : Origin) (full : Bool) :
    (part.placeJob slot p scope rect cls o full).outsideWalk = part.outsideWalk := rfl

theorem Part.outsideWalk_mapTiles (part : Part) (g : Setup) (p : PanelNo) (r : Rect) (f : Nat → Nat → Tile → Tile) :
    (part.mapTiles g p r f).outsideWalk = part.outsideWalk := by
  unfold Part.mapTiles
  split <;> rfl

theorem Part.outsideWalk_latch (part : Part) (c : Cause) (d : Nat) :
    (part.latch c d).outsideWalk = part.outsideWalk := by
  unfold Part.latch
  split <;> rfl

theorem Part.outsideWalk_mergeRequest (part : Part) (slot : Nat) (j : Job) (rect : Rect) (cls : RefreshClass)
    (full : Bool) : (part.mergeRequest slot j rect cls full).outsideWalk = part.outsideWalk := by
  unfold Part.mergeRequest
  dsimp only
  split <;> rfl

/-- A demanded wake is all that `demandWake` changes. -/
theorem Port.demandWake_but_wake (x : Port) :
    ({ x.demandWake with wakePending := false } : Port) = { x with wakePending := false } := by
  unfold Port.demandWake
  split <;> rfl

theorem Part.outsideWalk_setPort_wake (part : Part) (p : PanelNo) :
    (part.setPort p (part.port p).demandWake).outsideWalk = part.outsideWalk := by
  have h : portsOutsideWalk (part.ports.set p (part.port p).demandWake) = portsOutsideWalk part.ports := by
    refine Quad.ext_get fun r => ?_
    simp only [portsOutsideWalk, Quad.get_ofPanels, Quad.get_set]
    split
    · next hr =>
      subst hr
      exact Port.demandWake_but_wake _
    · rfl
  simp [Part.outsideWalk, h]

/-! ### Requests, enqueues and the HELD retry -/

theorem Part.outsideWalk_requestZone {part part' : Part} {z : ZoneCfg} {rect : Rect} {cls : RefreshClass} {o : Origin}
    {full : Bool} (h : part.requestZone z rect cls o full = some part') : part'.outsideWalk = part.outsideWalk := by
  unfold Part.requestZone at h
  split at h
  · split at h
    · cases h; exact Part.outsideWalk_mergeRequest ..
    · cases h
  · split at h
    · cases h; rfl
    · cases h

theorem Part.outsideWalk_takeUpZone (part : Part) (g : Setup) (z : ZoneCfg) :
    (part.takeUpZone g z).outsideWalk = part.outsideWalk := by
  rw [Part.takeUpZone, Part.outsideWalk_followTiles, Part.outsideWalk_mapTiles]

theorem Part.outsideWalk_enqueue (part : Part) (g : Setup) (z : ZoneCfg) (o : Origin) :
    (part.enqueue g z o).outsideWalk = part.outsideWalk := by
  unfold Part.enqueue
  split
  · dsimp only
    split
    · next h =>
      rw [Part.outsideWalk_updateZone, Part.outsideWalk_takeUpZone, Part.outsideWalk_requestZone h,
        Part.outsideWalk_updateZone]
    · rw [Part.outsideWalk_latch, Part.outsideWalk_updateZone, Part.outsideWalk_updateZone]
  · rfl

theorem Part.outsideWalk_retryHeld (g : Setup) (zs : List ZoneCfg) (part : Part) :
    (part.retryHeld g zs).outsideWalk = part.outsideWalk := by
  induction zs generalizing part with
  | nil => rfl
  | cons z zs ih =>
    unfold Part.retryHeld
    split
    · exact ih part
    · split
      · exact ih part
      · dsimp only
        split
        · exact Part.outsideWalk_enqueue ..
        · rw [ih, Part.outsideWalk_enqueue]

theorem Part.outsideWalk_slotsFreed (part : Part) (g : Setup) :
    (part.slotsFreed g).outsideWalk = part.outsideWalk := Part.outsideWalk_retryHeld ..

/-! ### Admission and the walk -/

theorem Part.outsideWalk_withdraw (part : Part) (x : Nat × Job) :
    (part.withdraw x).outsideWalk = part.outsideWalk := by
  unfold Part.withdraw
  split <;> rfl

theorem Part.outsideWalk_foldl_withdraw (xs : List (Nat × Job)) (part : Part) :
    (xs.foldl Part.withdraw part).outsideWalk = part.outsideWalk := by
  induction xs generalizing part with
  | nil => rfl
  | cons x xs ih => rw [List.foldl_cons, ih, Part.outsideWalk_withdraw]

theorem Part.outsideWalk_runZone (part : Part) (slot : Nat) (j : Job) :
    (part.runZone slot j).outsideWalk = part.outsideWalk := by
  unfold Part.runZone
  split <;> rfl

/-- K and the running count lie inside what a walk may change. -/
theorem Part.outsideWalk_counts (part : Part) (k n : Nat) :
    ({ part with committed := k, runningCount := n } : Part).outsideWalk = part.outsideWalk := rfl

@[simp] theorem Part.withdraw_ports (part : Part) (x : Nat × Job) : (part.withdraw x).ports = part.ports := by
  unfold Part.withdraw
  split <;> rfl

@[simp] theorem Part.foldl_withdraw_ports (xs : List (Nat × Job)) (part : Part) :
    (xs.foldl Part.withdraw part).ports = part.ports := by
  induction xs generalizing part with
  | nil => rfl
  | cons x xs ih => rw [List.foldl_cons, ih, Part.withdraw_ports]

@[simp] theorem Part.mapTiles_ports (part : Part) (g : Setup) (p : PanelNo) (r : Rect) (f : Nat → Nat → Tile → Tile) :
    (part.mapTiles g p r f).ports = part.ports := by
  unfold Part.mapTiles
  split <;> rfl

@[simp] theorem Part.runZone_ports (part : Part) (slot : Nat) (j : Job) : (part.runZone slot j).ports = part.ports := by
  unfold Part.runZone
  split <;> rfl

theorem Part.outsideWalk_admit (part : Part) (g : Setup) (c : PanelCfg) (slot : Nat) (j : Job) (mode : DriveMode)
    (band cost : Nat) : (part.admitJob g c slot j mode band cost).outsideWalk = part.outsideWalk := by
  unfold Part.admitJob
  extract_lets taken carried running placed admitted active started
  have hA : active.outsideWalk = part.outsideWalk := by
    simp only [active, admitted, placed, Part.outsideWalk_followTiles, Part.outsideWalk_mapTiles, Part.outsideWalk_counts,
      Part.outsideWalk_setJob, Part.outsideWalk_foldl_withdraw]
  have hp : active.ports = part.ports := by simp [active, admitted, placed]
  have hS : started.outsideWalk = part.outsideWalk := by
    have hport : part.port j.panel
        = ((active.runZone slot j).setEngine j.panel (some (Engine.start c j.panel slot j))).port j.panel := by
      simp [Part.port, hp]
    simp only [started]
    rw [hport, Part.outsideWalk_setPort_wake, Part.outsideWalk_setEngine, Part.outsideWalk_runZone, hA]
  split
  · exact hS
  · rw [Part.outsideWalk_oweWalk, hS]

theorem Part.outsideWalk_walkFrom (g : Setup) (queue : List (Nat × Job)) (part : Part) :
    (part.walkFrom g queue).outsideWalk = part.outsideWalk := by
  induction queue generalizing part with
  | nil => rfl
  | cons x rest ih =>
    obtain ⟨slot, q⟩ := x
    unfold Part.walkFrom
    split
    · exact ih part
    · split
      · split
        · exact ih part
        · dsimp only
          split
          · rw [ih, Part.outsideWalk_admit]
          · rfl
      · exact ih part

theorem Part.outsideWalk_admitAll (g : Setup) (queue : List (Nat × Job)) (part : Part) :
    (part.admitAll g queue).outsideWalk = part.outsideWalk := by
  unfold Part.admitAll
  dsimp only
  split
  · rw [Part.outsideWalk_slotsFreed, Part.outsideWalk_walkFrom]
  · exact Part.outsideWalk_walkFrom ..

theorem Part.outsideWalk_starvedAt (g : Setup) (part : Part) (x : Nat × Job) :
    (Part.starvedAt g part x).outsideWalk = part.outsideWalk := by
  unfold Part.starvedAt
  split
  · rfl
  · split
    · rw [Part.outsideWalk_latch, Part.outsideWalk_setJob]
    · rfl

theorem Part.outsideWalk_foldl {α : Type} (f : Part → α → Part)
    (hf : ∀ part x, (f part x).outsideWalk = part.outsideWalk) (xs : List α) (part : Part) :
    (xs.foldl f part).outsideWalk = part.outsideWalk := by
  induction xs generalizing part with
  | nil => rfl
  | cons x xs ih => rw [List.foldl_cons, ih, hf]

theorem Part.outsideWalk_starvedTest (part : Part) (g : Setup) :
    (part.starvedTest g).outsideWalk = part.outsideWalk :=
  Part.outsideWalk_foldl _ (Part.outsideWalk_starvedAt g) _ _

theorem Part.outsideWalk_walk (part : Part) : part.walk.outsideWalk = part.outsideWalk := by
  unfold Part.walk
  split
  · rfl
  · dsimp only
    rw [Part.outsideWalk_starvedTest]
    split
    · rw [Part.outsideWalk_admitAll]; rfl
    · rfl

/-- Walks change nothing outside `Part.outsideWalk`. -/
theorem Part.outsideWalk_takeWalks (n : Nat) (part : Part) :
    (Part.takeWalks n part).outsideWalk = part.outsideWalk := by
  induction n generalizing part with
  | zero => rfl
  | succ n ih =>
    unfold Part.takeWalks
    split
    · rw [ih, Part.outsideWalk_walk]
    · rfl

/-! ### When no walk is owed, and when the walk admits nothing -/

/-- No walk is owed, so none is taken. -/
@[simp] theorem Part.takeWalks_of_not_owed {part : Part} (h : part.walkOwed = false) (n : Nat) :
    Part.takeWalks n part = part := by
  cases n with
  | zero => cases part; simp_all [Part.takeWalks]
  | succ n => simp [Part.takeWalks, h]

/-- After the walks of a step none is owed. -/
@[simp] theorem Part.takeWalks_walkOwed (n : Nat) (part : Part) : (Part.takeWalks n part).walkOwed = false := by
  induction n generalizing part with
  | zero => rfl
  | succ n ih =>
    unfold Part.takeWalks
    split
    · exact ih _
    · simp_all

/-- With no stop mark no job is held back, so none is starved (R102, R103). -/
theorem Part.starvedTest_of_no_mark (part : Part) (g : Setup) (h : part.stopMark = none) : part.starvedTest g = part := by
  have hat : ∀ x, Part.starvedAt g part x = part := by
    intro x
    unfold Part.starvedAt
    split
    · rfl
    · rw [if_neg]
      simp [Part.heldBack, h]
  unfold Part.starvedTest
  generalize part.queue = xs
  induction xs with
  | nil => rfl
  | cons x xs ih => rw [List.foldl_cons, hat, ih]

/-- In a run state other than RUNNING a walk admits nothing and sets the stop mark to none (R46, R102). -/
theorem Part.walk_of_not_running {part : Part} (h : part.unit.runState ≠ .running) :
    part.walk = { part with walkOwed := false, stopMark := none } := by
  unfold Part.walk
  split
  · rfl
  · simp only [h, if_false]
    exact Part.starvedTest_of_no_mark _ _ rfl

/-- The walks of a step in a run state other than RUNNING. -/
theorem Part.takeWalks_of_not_running {part : Part} (h : part.unit.runState ≠ .running) (n : Nat) :
    Part.takeWalks (n + 1) part
      = { part with walkOwed := false, stopMark := if part.walkOwed then none else part.stopMark } := by
  unfold Part.takeWalks
  split
  · next hw => rw [Part.walk_of_not_running h, Part.takeWalks_of_not_owed rfl]
  · next hw => cases part; simp_all

/-! ### Single fields, read off from the frame -/

section
variable {a b : Part} (h : a.outsideWalk = b.outsideWalk)
include h

theorem Part.setup_of_outsideWalk : a.setup = b.setup := by
  have := congrArg (fun x : Part => x.setup) h; exact this

theorem Part.clock_of_outsideWalk : a.clock = b.clock := by
  have := congrArg (fun x : Part => x.clock) h; exact this

theorem Part.energy_of_outsideWalk : a.energy = b.energy := by
  have := congrArg (fun x : Part => x.energy) h; exact this

theorem Part.rail_of_outsideWalk : a.rail = b.rail := by
  have := congrArg (fun x : Part => x.rail) h; exact this

theorem Part.selectors_of_outsideWalk : a.selectors = b.selectors := by
  have := congrArg (fun x : Part => x.selectors) h; exact this

theorem Part.lastSweep_of_outsideWalk : a.lastSweep = b.lastSweep := by
  have := congrArg (fun x : Part => x.lastSweep) h; exact this

theorem Part.runState_of_outsideWalk : a.unit.runState = b.unit.runState := by
  have := congrArg (fun x : Part => x.unit.runState) h; exact this

/-- A port but for the wake that an admission demands of it. -/
theorem Part.port_of_outsideWalk (p : PanelNo) :
    { a.port p with wakePending := false } = { b.port p with wakePending := false } := by
  have := congrArg (fun x : Part => x.ports.get p) h
  simpa only [Part.outsideWalk, portsOutsideWalk, Quad.get_ofPanels, Part.port] using this

theorem Part.portState_of_outsideWalk (p : PanelNo) : (a.port p).state = (b.port p).state := by
  have := congrArg (fun x : Port => x.state) (Part.port_of_outsideWalk h p); exact this

end

end Sys2Proof.Machine
end

