-- ==== Sys2Proof/Laws/Finish.lean ====
section
/-! SUPPORT. What every step ends with: the memory port's business changes nothing outside `State.outsidePath`, the
walks nothing outside `State.outsideWalk`; and what an event answers. -/

namespace Sys2Proof.Machine

/-! ### Grants and the memory port's business -/

theorem State.outsidePath_setEngine_path (s : State) (p : PanelNo) (e e' : Engine)
    (he : s.part.engine? p = some e) (hee : e'.outsidePath = e.outsidePath) (b : Option Burst)
    (l : Quad PanelNo) :
    ({ s with
        path := { s.path with burst := b, lastServed := l }
        part := s.part.setEngine p (some e') } : State).outsidePath = s.outsidePath := by
  have h : enginesOutsidePath (s.part.engines.set p (some e')) = enginesOutsidePath s.part.engines := by
    refine Quad.ext_get fun r => ?_
    simp only [enginesOutsidePath, Quad.get_ofPanels, Quad.get_set]
    split
    · next hr =>
      subst hr
      rw [show s.part.engines.get r = some e from he]
      simp [hee]
    · rfl
  simp [State.outsidePath, Part.outsidePath, Path.outsidePath, h]

theorem State.outsidePath_grantPanel (s : State) (l p : PanelNo) : (s.grantPanel l p).outsidePath = s.outsidePath := by
  unfold State.grantPanel
  split
  · next b e hb he =>
    refine State.outsidePath_setEngine_path s p e _ he ?_ _ _
    rfl
  · rfl

theorem State.outsidePath_grantUnit (s : State) : s.grantUnit.outsidePath = s.outsidePath := by
  unfold State.grantUnit
  split
  · rfl
  · split <;> rfl

theorem State.outsidePath_grantFrom (ls : List PanelNo) (s : State) : (s.grantFrom ls).outsidePath = s.outsidePath := by
  induction ls with
  | nil => exact State.outsidePath_grantUnit s
  | cons l ls ih =>
    unfold State.grantFrom
    split
    · exact State.outsidePath_grantPanel ..
    · exact ih

/-- The memory port's business changes nothing outside `State.outsidePath`. -/
theorem State.outsidePath_advancePath (s : State) : s.advancePath.outsidePath = s.outsidePath := by
  unfold State.advancePath
  split
  · rfl
  · split
    · exact State.outsidePath_grantFrom _ s
    · next h hh =>
      split
      · dsimp only
        split
        · rw [State.outsidePath_grantPanel]
          simp [State.outsidePath, Path.outsidePath, hh]
        · simp [State.outsidePath, Path.outsidePath, hh]
      · rfl

theorem State.outsidePath_owePosting (b u s : State) : (State.owePosting b u s).outsidePath = s.outsidePath := rfl

/-! ### The end of a step -/

/-- A step that has caused no walk ends with nothing but the memory port's business and the posting it owes. -/
theorem State.finish_agreesOutsidePath (b : State) {s : State} (h : s.part.walkOwed = false) :
    (State.finish b s).AgreesOutsidePath s := by
  unfold State.AgreesOutsidePath State.finish
  rw [State.outsidePath_advancePath, State.outsidePath_owePosting, Part.takeWalks_of_not_owed h]

/-- A step ends with its effect and its walks, but for the memory port's business. -/
theorem State.finish_agreesOutsidePath_walks (b s : State) :
    (State.finish b s).AgreesOutsidePath { s with part := s.part.takeWalks 8 } := by
  unfold State.finish State.AgreesOutsidePath
  rw [State.outsidePath_advancePath, State.outsidePath_owePosting]

theorem Part.outsideWalk_outsidePath (part : Part) : part.outsidePath.outsideWalk = part.outsideWalk := rfl

theorem Path.outsidePath_outsidePath (x : Path) : x.outsidePath.outsidePath = x.outsidePath := by
  cases x with
  | mk r h b l hr f => cases h <;> rfl

/-- Agreement outside the memory port's business is agreement outside walks. -/
theorem State.AgreesOutsidePath.outsideWalk {t u : State} (h : t.AgreesOutsidePath u) : t.AgreesOutsideWalk u := by
  have key : ∀ s : State, s.outsideWalk = s.outsidePath.outsideWalk := by
    intro s
    simp only [State.outsideWalk, State.outsidePath, Path.outsidePath_outsidePath, Part.outsideWalk_outsidePath]
  unfold State.AgreesOutsideWalk
  rw [key t, key u, h]

/-- Every step ends within `State.outsideWalk`. -/
theorem State.finish_agreesOutsideWalk (b s : State) : (State.finish b s).AgreesOutsideWalk s := by
  have h1 : (State.finish b s).AgreesOutsidePath { s with part := s.part.takeWalks 8 } := by
    unfold State.AgreesOutsidePath State.finish
    rw [State.outsidePath_advancePath, State.outsidePath_owePosting]
  have h2 := h1.outsideWalk
  unfold State.AgreesOutsideWalk at h2 ⊢
  rw [h2]
  simp only [State.outsideWalk, Part.outsideWalk_takeWalks]

/-- In a run state other than RUNNING a step's walks do no more than clear the stop mark. -/
theorem State.finish_of_not_running (b : State) {s : State} (h : s.part.unit.runState ≠ .running) :
    (State.finish b s).AgreesOutsidePath
      { s with part := { s.part with stopMark := if s.part.walkOwed then none else s.part.stopMark } } := by
  unfold State.AgreesOutsidePath State.finish
  rw [State.outsidePath_advancePath, State.outsidePath_owePosting, Part.takeWalks_of_not_running h 7]
  rfl

/-! ### Fields that the memory port's business keeps -/

section
variable {t u : State} (h : t.AgreesOutsidePath u)
include h

theorem State.AgreesOutsidePath.memory : t.memory = u.memory := by
  have := congrArg (fun x : State => x.memory) h; exact this

theorem State.AgreesOutsidePath.pending : t.pending = u.pending := by
  have := congrArg (fun x : State => x.pending) h; exact this

theorem State.AgreesOutsidePath.inReset : t.path.inReset = u.path.inReset := by
  have := congrArg (fun x : State => x.path.inReset) h; exact this

theorem State.AgreesOutsidePath.hostRead : t.path.hostRead = u.path.hostRead := by
  have := congrArg (fun x : State => x.path.hostRead) h; exact this

theorem State.AgreesOutsidePath.tiles : t.part.tiles = u.part.tiles := by
  have := congrArg (fun x : State => x.part.tiles) h; exact this

theorem State.AgreesOutsidePath.zones : t.part.zones = u.part.zones := by
  have := congrArg (fun x : State => x.part.zones) h; exact this

theorem State.AgreesOutsidePath.pool : t.part.pool = u.part.pool := by
  have := congrArg (fun x : State => x.part.pool) h; exact this

theorem State.AgreesOutsidePath.ports : t.part.ports = u.part.ports := by
  have := congrArg (fun x : State => x.part.ports) h; exact this

theorem State.AgreesOutsidePath.causes : t.part.unit.causes = u.part.unit.causes := by
  have := congrArg (fun x : State => x.part.unit.causes) h; exact this

theorem State.AgreesOutsidePath.committed : t.part.committed = u.part.committed := by
  have := congrArg (fun x : State => x.part.committed) h; exact this

theorem State.AgreesOutsidePath.runningCount : t.part.runningCount = u.part.runningCount := by
  have := congrArg (fun x : State => x.part.runningCount) h; exact this

theorem State.AgreesOutsidePath.sequence : t.part.sequence = u.part.sequence := by
  have := congrArg (fun x : State => x.part.sequence) h; exact this

end

section
variable {t u : State} (h : t.AgreesOutsideWalk u)
include h

theorem State.AgreesOutsideWalk.memory : t.memory = u.memory := by
  have := congrArg (fun x : State => x.memory) h; exact this

theorem State.AgreesOutsideWalk.pending : t.pending = u.pending := by
  have := congrArg (fun x : State => x.pending) h; exact this

theorem State.AgreesOutsideWalk.inReset : t.path.inReset = u.path.inReset := by
  have := congrArg (fun x : State => x.path.inReset) h; exact this

theorem State.AgreesOutsideWalk.part : t.part.outsideWalk = u.part.outsideWalk := by
  have := congrArg (fun x : State => x.part) h; exact this

theorem State.AgreesOutsideWalk.clock : t.part.clock = u.part.clock := Part.clock_of_outsideWalk h.part

theorem State.AgreesOutsideWalk.energy : t.part.energy = u.part.energy := Part.energy_of_outsideWalk h.part

theorem State.AgreesOutsideWalk.rail : t.part.rail = u.part.rail := Part.rail_of_outsideWalk h.part

theorem State.AgreesOutsideWalk.setup : t.part.setup = u.part.setup := Part.setup_of_outsideWalk h.part

end

/-! ### Events -/

/-- An enabled event outside reset. -/
theorem State.event_enabled {s : State} (hr : s.path.inReset = false) {en : Bool} (he : en = true)
    (f : State → State) : s.event en f = .next (State.finish s (f s)) := by
  simp [State.event, hr, he]

/-- An event whose report the state does not bear out changes nothing. -/
theorem State.event_disabled {s : State} {en : Bool} (he : en = false) (f : State → State) :
    s.event en f = .next s := by
  simp [State.event, he]

/-- Every event answers a next state: the state itself, or its effect with what every step ends with. -/
theorem State.event_cases (s : State) (en : Bool) (f : State → State) :
    s.event en f = .next s ∨
      (en = true ∧ s.path.inReset = false ∧ s.event en f = .next (State.finish s (f s))) := by
  unfold State.event
  split
  · next h => simp_all
  · exact Or.inl rfl

theorem State.partEvent_enabled {s : State} (hr : s.path.inReset = false) {en : Bool} (he : en = true)
    (f : Part → Part) : s.partEvent en f = .next (State.finish s { s with part := f s.part }) :=
  State.event_enabled hr he _

/-- A part event that causes no walk. -/
theorem State.partEvent_quiet {s : State} (hs : s.Ready) {en : Bool} (he : en = true) (f : Part → Part)
    (hf : (f s.part).walkOwed = false) :
    ∃ t, s.partEvent en f = .next t ∧ t.AgreesOutsidePath { s with part := f s.part } :=
  ⟨_, State.partEvent_enabled hs.1 he f, State.finish_agreesOutsidePath s hf⟩

/-- A part event, whatever walks it causes. -/
theorem State.partEvent_walk {s : State} (hs : s.Ready) {en : Bool} (he : en = true) (f : Part → Part) :
    ∃ t, s.partEvent en f = .next t ∧ t.AgreesOutsideWalk { s with part := f s.part } :=
  ⟨_, State.partEvent_enabled hs.1 he f, State.finish_agreesOutsideWalk s _⟩

/-- A command that is an enabled event outside reset completes with the event's effect. -/
theorem CompletesWith.of_event {c : Instr} {s u : State} {en : Bool} {f : State → State} (hr : s.path.inReset = false)
    (hc : exec c s = s.event en f) (he : en = true) (hu : f s = u) : CompletesWith c s u :=
  ⟨_, by rw [hc, State.event_enabled hr he f, hu], rfl, State.finish_agreesOutsideWalk s u,
    State.finish_agreesOutsidePath s, State.finish_of_not_running s⟩

/-- A command that is an enabled event of the part outside reset. -/
theorem CompletesWith.of_partEvent {c : Instr} {s u : State} {en : Bool} {f : Part → Part} (hr : s.path.inReset = false)
    (hc : exec c s = s.partEvent en f) (he : en = true) (hu : ({ s with part := f s.part } : State) = u) :
    CompletesWith c s u :=
  CompletesWith.of_event hr hc he hu

/-- The causes latched before a step's walks stay latched with their details (R167). -/
theorem Part.detail_latch_keeps (part : Part) (c k : Cause) (d x : Nat) (h : part.unit.detail? k = some x) :
    (part.latch c d).unit.detail? k = some x := by
  unfold Part.latch
  split
  · exact h
  · next hn =>
    unfold WindowUnit.detail? at h hn ⊢
    by_cases hb : c.bit = k.bit
    · rw [hb] at hn; rw [hn] at h; cases h
    · simpa [List.getElem?_set, hb] using h

end Sys2Proof.Machine
end

