-- ==== Sys2Proof/Laws/Tiles.lean ====
section
/-! SUPPORT. The tile records: what `mapTiles` and `setTile` change, and what they leave alone. -/

namespace Sys2Proof.Machine

@[simp] theorem mapTilesFrom_length (first cols count : Nat) (r : Rect) (f : Nat → Nat → Tile → Tile) (i : Nat)
    (ts : List Tile) : (mapTilesFrom first cols count r f i ts).length = ts.length := by
  induction ts generalizing i with
  | nil => rfl
  | cons t ts ih => simp [mapTilesFrom, ih]

/-- Record `k` of a mapped run that starts at index `i`. -/
theorem mapTilesFrom_getElem? (first cols count : Nat) (r : Rect) (f : Nat → Nat → Tile → Tile) (i : Nat)
    (ts : List Tile) (k : Nat) :
    (mapTilesFrom first cols count r f i ts)[k]? = ts[k]?.map fun t =>
      if first ≤ i + k ∧ i + k < first + count ∧ r.contains ((i + k - first) % cols) ((i + k - first) / cols)
      then f ((i + k - first) % cols) ((i + k - first) / cols) t else t := by
  induction ts generalizing i k with
  | nil => simp [mapTilesFrom]
  | cons t ts ih =>
    cases k with
    | zero => simp [mapTilesFrom]
    | succ k =>
      have : i + 1 + k = i + (k + 1) := by omega
      simp [mapTilesFrom, ih, this]

/-- Inside its panel a tile's index gives its coordinates back. -/
theorem index_coords {cols rows tx ty : Nat} (hx : tx < cols) (hy : ty < rows) :
    (ty * cols + tx) % cols = tx ∧ (ty * cols + tx) / cols = ty ∧ ty * cols + tx < cols * rows := by
  have h0 : 0 < cols := by omega
  refine ⟨?_, ?_, ?_⟩
  · rw [Nat.mul_comm, Nat.mul_add_mod, Nat.mod_eq_of_lt hx]
  · rw [Nat.mul_comm, Nat.mul_add_div h0, Nat.div_eq_of_lt hx, Nat.add_zero]
  · have h1 : (ty + 1) * cols ≤ rows * cols := Nat.mul_le_mul_right cols hy
    have h2 : (ty + 1) * cols = ty * cols + cols := Nat.succ_mul ..
    rw [Nat.mul_comm cols rows]
    omega

/-- A tile of the mapped panel after `mapTiles`. -/
theorem Part.tileAt?_mapTiles (part : Part) (g : Setup) (p : PanelNo) (r : Rect) (f : Nat → Nat → Tile → Tile)
    (tx ty : Nat) :
    (part.mapTiles g p r f).tileAt? g p tx ty
      = (part.tileAt? g p tx ty).map fun t => if r.contains tx ty then f tx ty t else t := by
  unfold Part.tileAt? Part.mapTiles
  cases hc : g.panels.get p with
  | none => simp
  | some c =>
    simp only
    by_cases h : tx < c.cols ∧ ty < c.rows
    · obtain ⟨hm, hd, hlt⟩ := index_coords h.1 h.2
      have e : g.firstTile p + ty * c.cols + tx - g.firstTile p = ty * c.cols + tx := by omega
      have hin : g.firstTile p + ty * c.cols + tx < g.firstTile p + c.tileCount := by
        unfold PanelCfg.tileCount; omega
      have hge : g.firstTile p ≤ g.firstTile p + ty * c.cols + tx := by omega
      simp only [if_pos h, mapTilesFrom_getElem?, Setup.tileIndex, Nat.zero_add, e, hm, hd, hge, hin, true_and]
    · simp [h]

/-- One tile changed: it takes the change, and the panel's other tiles stay. -/
theorem Part.tileAt?_setTile (part : Part) (g : Setup) (p : PanelNo) (tx ty x y : Nat) (f : Tile → Tile) :
    (part.setTile g p tx ty f).tileAt? g p x y
      = (part.tileAt? g p x y).map fun t => if x = tx ∧ y = ty then f t else t := by
  rw [Part.setTile, Part.tileAt?_mapTiles]
  have : (⟨tx, tx, ty, ty⟩ : Rect).contains x y = decide (x = tx ∧ y = ty) := by
    rw [Bool.eq_iff_iff]
    simp only [Rect.contains, Bool.and_eq_true, decide_eq_true_eq]
    omega
  simp [this]

/-- The tile of a touch after it is changed. -/
theorem Part.tileAt?_setTile_self {part : Part} {g : Setup} {p : PanelNo} {tx ty : Nat} {x : Tile}
    (h : part.tileAt? g p tx ty = some x) (f : Tile → Tile) :
    (part.setTile g p tx ty f).tileAt? g p tx ty = some (f x) := by
  simp [Part.tileAt?_setTile, h]

/-- The lookup reads nothing but the records. -/
theorem Part.tileAt?_congr {a b : Part} (h : a.tiles = b.tiles) (g : Setup) (p : PanelNo) (tx ty : Nat) :
    a.tileAt? g p tx ty = b.tileAt? g p tx ty := by
  unfold Part.tileAt?
  rw [h]

@[simp] theorem Part.tileAt?_followTiles (part : Part) (g : Setup) (p : PanelNo) (tx ty : Nat) :
    part.followTiles.tileAt? g p tx ty = part.tileAt? g p tx ty := rfl

/-- A latch reads and writes no record but the unit's. -/
@[simp] theorem Part.latch_tiles (part : Part) (c : Cause) (d : Nat) : (part.latch c d).tiles = part.tiles := by
  unfold Part.latch
  split <;> rfl

/-! ### Two panels' records (R7) -/

/-- The records of a lower-numbered panel lie before those of a higher-numbered one. -/
theorem Setup.firstTile_add_le (g : Setup) {p q : PanelNo} (h : p < q) :
    g.firstTile p + g.tilesOf p ≤ g.firstTile q := by
  match p, q with
  | 0, 1 | 0, 2 | 0, 3 | 1, 2 | 1, 3 | 2, 3 =>
    simp +decide [Setup.firstTile, panelNos]
    try omega
  | 0, 0 | 1, 0 | 1, 1 | 2, 0 | 2, 1 | 2, 2 | 3, 0 | 3, 1 | 3, 2 | 3, 3 => exact absurd h (by decide)

/-- A tile of another panel after `mapTiles`. -/
theorem Part.tileAt?_mapTiles_other (part : Part) (g : Setup) {p q : PanelNo} (h : q ≠ p) (r : Rect)
    (f : Nat → Nat → Tile → Tile) (tx ty : Nat) :
    (part.mapTiles g p r f).tileAt? g q tx ty = part.tileAt? g q tx ty := by
  unfold Part.tileAt? Part.mapTiles
  cases hp : g.panels.get p with
  | none => rfl
  | some c =>
    cases hq : g.panels.get q with
    | none => rfl
    | some d =>
      simp only
      split
      · next hin =>
        rw [mapTilesFrom_getElem?, Nat.zero_add]
        have hi := (index_coords hin.1 hin.2).2.2
        have hne : ¬(g.firstTile p ≤ g.tileIndex q d tx ty ∧ g.tileIndex q d tx ty < g.firstTile p + c.tileCount
            ∧ r.contains ((g.tileIndex q d tx ty - g.firstTile p) % c.cols)
              ((g.tileIndex q d tx ty - g.firstTile p) / c.cols) = true) := by
          rintro ⟨h1, h2, -⟩
          have hpq : g.tilesOf p = c.tileCount ∧ g.tilesOf q = d.tileCount := by simp [Setup.tilesOf, hp, hq]
          simp only [Setup.tileIndex] at h1 h2
          rcases Nat.lt_or_gt_of_ne (fun e => h (Fin.ext e)) with hlt | hlt
          · have := g.firstTile_add_le (show q < p from hlt)
            rw [hpq.2, PanelCfg.tileCount] at this
            omega
          · have := g.firstTile_add_le (show p < q from hlt)
            rw [hpq.1] at this
            omega
        cases part.tiles[g.tileIndex q d tx ty]? with
        | none => rfl
        | some t => rw [Option.map_some, if_neg hne]
      · rfl

/-! ### The tiles of a rectangle -/

theorem Rect.mem_tiles (r : Rect) (tx ty : Nat) : (tx, ty) ∈ r.tiles ↔ r.contains tx ty = true := by
  simp only [Rect.tiles, List.mem_flatMap, List.mem_map, List.mem_range'_1, Prod.mk.injEq, Rect.contains,
    Bool.and_eq_true, decide_eq_true_eq, Rect.rows, Rect.cols]
  constructor
  · rintro ⟨a, ha, b, hb, rfl, rfl⟩
    omega
  · intro h
    exact ⟨ty, by omega, tx, by omega, rfl, rfl⟩

theorem Part.mem_tilesIn (part : Part) (g : Setup) (p : PanelNo) (r : Rect) (tx ty : Nat) (x : Tile) :
    ((tx, ty), x) ∈ part.tilesIn g p r ↔ r.contains tx ty = true ∧ part.tileAt? g p tx ty = some x := by
  simp only [Part.tilesIn, List.mem_filterMap]
  constructor
  · rintro ⟨⟨a, b⟩, h1, h2⟩
    cases h3 : part.tileAt? g p a b with
    | none => simp [h3] at h2
    | some y =>
      simp [h3] at h2
      obtain ⟨⟨rfl, rfl⟩, rfl⟩ := h2
      exact ⟨(Rect.mem_tiles _ _ _).1 h1, h3⟩
  · rintro ⟨h1, h2⟩
    exact ⟨(tx, ty), (Rect.mem_tiles _ _ _).2 h1, by simp [h2]⟩

/-- Some tile of a rectangle satisfies a test. -/
theorem Part.any_tilesIn (part : Part) (g : Setup) (p : PanelNo) (r : Rect) (f : Tile → Bool) :
    ((part.tilesIn g p r).any fun x => f x.2) = true
      ↔ ∃ tx ty x, r.contains tx ty = true ∧ part.tileAt? g p tx ty = some x ∧ f x = true := by
  rw [List.any_eq_true]
  constructor
  · rintro ⟨⟨⟨tx, ty⟩, x⟩, h1, h2⟩
    have := (Part.mem_tilesIn _ _ _ _ _ _ _).1 h1
    exact ⟨tx, ty, x, this.1, this.2, h2⟩
  · rintro ⟨tx, ty, x, h1, h2, h3⟩
    exact ⟨((tx, ty), x), (Part.mem_tilesIn _ _ _ _ _ _ _).2 ⟨h1, h2⟩, h3⟩

end Sys2Proof.Machine
end

