-- ==== Sys2Proof/Laws/Attention.lean ====
section
/-! SUPPORT. The attention latches (R167): a latch changes the causes alone, and one cause's detail alone. -/

namespace Sys2Proof.Machine

/-- A latch changes nothing but the causes. -/
theorem Part.latch_eq (part : Part) (c : Cause) (d : Nat) :
    part.latch c d = { part with unit := { part.unit with causes := (part.latch c d).unit.causes } } := by
  unfold Part.latch
  split <;> rfl

theorem Cause.bit_lt (c : Cause) : c.bit < 13 := by cases c <;> decide

/-- After a latch its cause has the detail it had, or the one given. -/
theorem Part.detail_latch (part : Part) (c : Cause) (d : Nat) (h : part.unit.causes.length = 13) :
    (part.latch c d).unit.detail? c = some ((part.unit.detail? c).getD d) := by
  have hb := c.bit_lt
  unfold Part.latch
  split
  · next h => simp [h]
  · next hn => rw [hn]; simp [WindowUnit.detail?, h, hb]

/-- A latch leaves every other cause. -/
theorem Part.detail_latch_ne (part : Part) {c k : Cause} (d : Nat) (h : k ≠ c) :
    (part.latch c d).unit.detail? k = part.unit.detail? k := by
  unfold Part.latch
  split
  · rfl
  · have : c.bit ≠ k.bit := by revert h; cases c <;> cases k <;> decide
    simp [WindowUnit.detail?, this]

/-- What a latch does (R167). -/
theorem Part.latched_latch (part : Part) (c : Cause) (d : Nat) : part.Latched (part.latch c d) c d :=
  ⟨Part.detail_latch part c d, fun _ h => Part.detail_latch_ne part d h⟩

@[simp] theorem Part.latch_causes_length (part : Part) (c : Cause) (d : Nat) :
    (part.latch c d).unit.causes.length = part.unit.causes.length := by
  unfold Part.latch
  split <;> simp

theorem WindowUnit.detail?_congr {a b : WindowUnit} (h : a.causes = b.causes) (c : Cause) :
    a.detail? c = b.detail? c := by
  simp [WindowUnit.detail?, h]

end Sys2Proof.Machine
end

