-- ==== Sys2Proof/Laws/Ports.lean ====
section
/-! SUPPORT. Ports, windows and the rail: the lookups that their commands make, and what a demand for the rail is. -/

namespace Sys2Proof.Machine

theorem Quad.set_set {α : Type} (q : Quad α) (p : PanelNo) (a b : α) : (q.set p a).set p b = q.set p b := by
  refine Quad.ext_get fun r => ?_
  by_cases h : r = p <;> simp [Quad.get_set, h]

/-- A port event under an installed setup, for an enabled panel. -/
theorem Part.withPanel_eq {part : Part} {g : Setup} {c : PanelCfg} {p : PanelNo} (hg : part.setup = some g)
    (hc : g.panels.get p = some c) (f : Setup → PanelCfg → Part) : part.withPanel p f = f g c := by
  simp [Part.withPanel, hg, hc]

/-- A window is between frames before its first frame and when all slots of a frame have begun (R131, R132). -/
theorem Window.insideFrame_eq_false {w : Window} (h : w.frame = none ∨ w.y1 + 1 - w.y0 ≤ w.slots) :
    w.insideFrame = false := by
  rcases h with h | h <;> simp [Window.insideFrame, Window.rows, h]
  intro _
  exact decide_eq_false (by omega)

/-- The rail is demanded while some job is POISED or DRIVING (R140). -/
theorem Part.railDemanded_iff (part : Part) :
    part.railDemanded = true ↔ ∃ j, some j ∈ part.pool ∧ (j.state = .poised ∨ j.state = .driving) := by
  unfold Part.railDemanded
  rw [List.any_eq_true]
  constructor
  · rintro ⟨x, hx, h⟩
    cases x with
    | none => simp at h
    | some j => refine ⟨j, hx, ?_⟩; cases hj : j.state <;> simp [hj, JobState.demandsRail] at h ⊢
  · rintro ⟨j, hj, h⟩
    exact ⟨some j, hj, by rcases h with h | h <;> simp [h, JobState.demandsRail]⟩

/-! ### The early end of a frame (R117) -/

section
variable (e : Engine)

@[simp] theorem Engine.stopFeed_context : e.stopFeed.context = e.context := rfl
@[simp] theorem Engine.stopFeed_buffer : e.stopFeed.buffer = e.buffer := rfl
@[simp] theorem Engine.stopFeed_fill : e.stopFeed.fill = e.fill := rfl
@[simp] theorem Engine.stopFeed_feedStopped : e.stopFeed.feedStopped = true := rfl
@[simp] theorem Engine.stopFeed_inFlight : e.stopFeed.inFlight = e.inFlight := rfl
@[simp] theorem Engine.stopFeed_request : e.stopFeed.request = if e.inFlight then none else e.request := rfl

end

/-- The early end of a frame changes the panel's engine alone. -/
theorem Part.stopFeed_eq {part : Part} {p : PanelNo} {e : Engine} (h : part.engine? p = some e) :
    part.stopFeed p = part.setEngine p (some e.stopFeed) := by
  unfold Part.stopFeed
  rw [h]

end Sys2Proof.Machine
end

