-- ==== Sys2Proof/Laws/Engine.lean ====
section
/-! SUPPORT. The engine: its context entries, and what a fill, an underrun and an abandoned row leave alone. -/

namespace Sys2Proof.Machine

/-- The frame count of a running job is its band's (R67). -/
theorem Setup.frames_eq_frameCount (g : Setup) (r : RunFields) : (g.band r.band).frames r.mode = g.frameCount r := by
  unfold Setup.frameCount Band.frames
  cases r.mode <;> rfl

/-! ### The row buffer (R112, R113, R116) -/

section
variable (e : Engine) (c : PanelCfg) (p : PanelNo) (j : Job) (m : DriveMode) (f : Nat)

@[simp] theorem Engine.startFill_buffer : (e.startFill c p j m f).buffer = e.buffer := by
  unfold Engine.startFill
  split
  · cases e.feed <;> rfl
  · rfl

@[simp] theorem Engine.startFill_context : (e.startFill c p j m f).context = e.context := by
  unfold Engine.startFill
  split
  · cases e.feed <;> rfl
  · rfl

@[simp] theorem Engine.startFill_commit : (e.startFill c p j m f).commit = e.commit := by
  unfold Engine.startFill
  split
  · cases e.feed <;> rfl
  · rfl

/-- No fill begins where one runs, the frame is being ended or no rows remain (R112, R117). -/
theorem Engine.startFill_eq_self (h : e.fill.isSome = true ∨ e.feedStopped = true ∨ e.feed = none) :
    e.startFill c p j m f = e := by
  unfold Engine.startFill
  rcases h with h | h | h
  · cases h2 : e.fill <;> simp_all
  · simp [h]
  · split <;> simp [h]

@[simp] theorem Engine.abandonRow_buffer : (e.abandonRow j f).buffer = e.buffer := by
  unfold Engine.abandonRow
  split <;> rfl

@[simp] theorem Engine.abandonRow_context : (e.abandonRow j f).context = e.context := by
  unfold Engine.abandonRow
  split <;> rfl

end

theorem Engine.markUnderrun_buffer (r : Rect) (ty n : Nat) :
    ∀ (tx : Nat) (e : Engine), (Engine.markUnderrun r ty n tx e).buffer = e.buffer := by
  induction n with
  | zero => intros; rfl
  | succ n ih => intro tx e; simp only [Engine.markUnderrun, ih]; rfl

/-! ### Context entries (R106) -/

/-- Two tiles of a rectangle have two places in its context. -/
theorem Rect.contextIndex_inj {r : Rect} {tx ty x y : Nat} (h1 : r.contains tx ty = true)
    (h2 : r.contains x y = true) (h : r.contextIndex tx ty = r.contextIndex x y) : tx = x ∧ ty = y := by
  simp [Rect.contains] at h1 h2
  simp only [Rect.contextIndex, Rect.cols] at h
  have a : tx - r.tx0 < r.tx1 + 1 - r.tx0 := by omega
  have b : x - r.tx0 < r.tx1 + 1 - r.tx0 := by omega
  have e1 := index_coords (ty := ty - r.ty0) (rows := ty - r.ty0 + 1) a (by omega)
  have e2 := index_coords (ty := y - r.ty0) (rows := y - r.ty0 + 1) b (by omega)
  have m1 := e1.1
  have m2 := e2.1
  have d1 := e1.2.1
  have d2 := e2.2.1
  rw [h] at m1 d1
  omega

theorem Rect.contextIndex_lt {r : Rect} {tx ty : Nat} (h : r.contains tx ty = true) :
    r.contextIndex tx ty < r.cols * r.rows := by
  simp [Rect.contains] at h
  exact (index_coords (cols := r.cols) (rows := r.rows) (by simp [Rect.cols]; omega)
    (by simp [Rect.rows]; omega)).2.2

/-- A context entry after one is changed. -/
theorem Engine.entry_updateEntry {r : Rect} {e : Engine} {tx ty x y : Nat} (f : TileContext → TileContext)
    (hl : e.context.length = r.cols * r.rows) (h1 : r.contains tx ty = true) (h2 : r.contains x y = true) :
    (e.updateEntry r tx ty f).entry r x y = if x = tx ∧ y = ty then f (e.entry r x y) else e.entry r x y := by
  by_cases h : x = tx ∧ y = ty
  · obtain ⟨rfl, rfl⟩ := h
    have := Rect.contextIndex_lt h2
    simp [Engine.entry, Engine.updateEntry, List.getD_eq_getElem?_getD, hl, this]
  · have : r.contextIndex tx ty ≠ r.contextIndex x y := by
      intro hh
      have := Rect.contextIndex_inj h1 h2 hh
      omega
    simp [Engine.entry, Engine.updateEntry, List.getD_eq_getElem?_getD, this, h]

/-- An underrun marks the tiles of its row from `tx` on and no other (R116). -/
theorem Engine.markUnderrun_entry (r : Rect) (ty : Nat) (hty : r.ty0 ≤ ty ∧ ty ≤ r.ty1) (n : Nat) :
    ∀ (tx : Nat) (e : Engine), r.tx0 ≤ tx → tx + n ≤ r.tx1 + 1 → e.context.length = r.cols * r.rows →
      ∀ x y, r.contains x y = true →
        (Engine.markUnderrun r ty n tx e).entry r x y
          = if y = ty ∧ tx ≤ x ∧ x < tx + n then { e.entry r x y with underrun := true } else e.entry r x y := by
  induction n with
  | zero => intro tx e _ _ _ x y _; simp only [Engine.markUnderrun]; rw [if_neg (by omega)]
  | succ n ih =>
    intro tx e h0 h1 hl x y hxy
    have hc : r.contains tx ty = true := by simp [Rect.contains]; omega
    simp only [Engine.markUnderrun]
    rw [ih (tx + 1) _ (by omega) (by omega) (by simpa [Engine.updateEntry] using hl) x y hxy,
      Engine.entry_updateEntry _ hl hc hxy]
    by_cases a : x = tx ∧ y = ty
    · rw [if_pos a, if_neg (by omega), if_pos (by omega)]
    · rw [if_neg a]
      by_cases b : y = ty ∧ tx + 1 ≤ x ∧ x < tx + 1 + n
      · rw [if_pos b, if_pos (by omega)]
      · rw [if_neg b, if_neg (by omega)]

end Sys2Proof.Machine
end

