-- ==== Sys2Proof/Laws/Rest.lean ====
section
/-! SUPPORT. The rest at a rest delay of 0, quiet hours at their last tick, a burst that is no longer wanted, and the jobs
that one event aborts: what each of these shared operations does, and what it leaves alone. -/

namespace Sys2Proof.Machine

/-! ### REST (R129) -/

@[simp] theorem Port.rest_state (x : Port) (now : Stamp) : (x.rest now).state = .off := rfl
@[simp] theorem Port.rest_lastRest (x : Port) (now : Stamp) : (x.rest now).lastRest = some now := rfl
@[simp] theorem Port.rest_sent (x : Port) (now : Stamp) : (x.rest now).sent = some .rest := rfl
@[simp] theorem Port.rest_cause (x : Port) (now : Stamp) : (x.rest now).cause = x.cause := rfl
@[simp] theorem Port.rest_queryDue (x : Port) (now : Stamp) : (x.rest now).queryDue = x.queryDue := rfl
@[simp] theorem Port.rest_attempts (x : Port) (now : Stamp) : (x.rest now).attempts = x.attempts := rfl
@[simp] theorem Port.rest_wakePending (x : Port) (now : Stamp) : (x.rest now).wakePending = x.wakePending := rfl

theorem Port.idle_iff (x : Port) :
    x.idle = true ↔ x.state = .ready ∧ x.queryDue = false ∧ x.tempOutstanding = false := by
  simp [Port.idle, and_assoc]

@[simp] theorem Port.idle_of_not_ready {x : Port} (h : x.state ≠ .ready) : x.idle = false := by simp [Port.idle, h]

/-- A rest at delay 0 is the statements' `Port.restsAtOnce`. -/
theorem Port.restsAtOnce_eq (x : Port) (c : PanelCfg) (now : Stamp) :
    x.restsAtOnce c now = if c.restDelay = 0 ∧ x.idle = true then x.rest now else x := by
  unfold Port.restsAtOnce Port.rest
  simp only [Port.idle_iff]

/-- All that `restIfIdle` can do: nothing, or the REST of an idle port under a rest delay of 0. -/
theorem Part.restIfIdle_cases (part : Part) (p : PanelNo) :
    part.restIfIdle p = part ∨
      (∃ c, part.panelCfg? p = some c ∧ c.restDelay = 0 ∧ (part.port p).idle = true
        ∧ part.restIfIdle p = part.changePort p ((part.port p).rest part.now)) := by
  unfold Part.restIfIdle
  split
  · next c hc =>
    split
    · next h => exact .inr ⟨c, hc, h.1, h.2, rfl⟩
    · exact .inl rfl
  · exact .inl rfl

/-- `restIfIdle` changes the panel's port and the walk owed alone. -/
theorem Part.restIfIdle_eq (part : Part) (p : PanelNo) :
    part.restIfIdle p
      = { part with ports := (part.restIfIdle p).ports, walkOwed := (part.restIfIdle p).walkOwed } := by
  rcases part.restIfIdle_cases p with h | ⟨c, -, -, -, h⟩ <;> rw [h]; rfl

section
variable (part : Part) (p : PanelNo)

@[simp] theorem Part.restIfIdle_unit : (part.restIfIdle p).unit = part.unit := by rw [Part.restIfIdle_eq]
@[simp] theorem Part.restIfIdle_setup : (part.restIfIdle p).setup = part.setup := by rw [Part.restIfIdle_eq]
@[simp] theorem Part.restIfIdle_tiles : (part.restIfIdle p).tiles = part.tiles := by rw [Part.restIfIdle_eq]
@[simp] theorem Part.restIfIdle_zones : (part.restIfIdle p).zones = part.zones := by rw [Part.restIfIdle_eq]
@[simp] theorem Part.restIfIdle_pool : (part.restIfIdle p).pool = part.pool := by rw [Part.restIfIdle_eq]
@[simp] theorem Part.restIfIdle_sequence : (part.restIfIdle p).sequence = part.sequence := by rw [Part.restIfIdle_eq]
@[simp] theorem Part.restIfIdle_runningCount : (part.restIfIdle p).runningCount = part.runningCount := by
  rw [Part.restIfIdle_eq]
@[simp] theorem Part.restIfIdle_committed : (part.restIfIdle p).committed = part.committed := by rw [Part.restIfIdle_eq]
@[simp] theorem Part.restIfIdle_stopMark : (part.restIfIdle p).stopMark = part.stopMark := by rw [Part.restIfIdle_eq]
@[simp] theorem Part.restIfIdle_lastSweep : (part.restIfIdle p).lastSweep = part.lastSweep := by rw [Part.restIfIdle_eq]
@[simp] theorem Part.restIfIdle_selectors : (part.restIfIdle p).selectors = part.selectors := by rw [Part.restIfIdle_eq]
@[simp] theorem Part.restIfIdle_engines : (part.restIfIdle p).engines = part.engines := by rw [Part.restIfIdle_eq]
@[simp] theorem Part.restIfIdle_rail : (part.restIfIdle p).rail = part.rail := by rw [Part.restIfIdle_eq]
@[simp] theorem Part.restIfIdle_energy : (part.restIfIdle p).energy = part.energy := by rw [Part.restIfIdle_eq]
@[simp] theorem Part.restIfIdle_clock : (part.restIfIdle p).clock = part.clock := by rw [Part.restIfIdle_eq]

end

/-- Another panel's port is not touched. -/
theorem Part.restIfIdle_port_ne (part : Part) {p r : PanelNo} (h : r ≠ p) : (part.restIfIdle p).port r = part.port r := by
  rcases part.restIfIdle_cases p with hr | ⟨c, -, -, -, hr⟩ <;> rw [hr]
  simp [Part.port, Quad.get_set_ne _ _ h]

/-- An event that leaves port `p` the record `x`, and the rest that may follow at once (R129). -/
theorem Part.changePort_restAtOnce (part : Part) (p : PanelNo) (x : Port) :
    (part.changePort p x).restAtOnce p = part.changePort p (part.rested p x) := by
  have hr : (part.changePort p x).running? p = part.running? p := rfl
  have hc : (part.changePort p x).panelCfg? p = part.setup.bind fun g => g.panels.get p := by
    show part.panelCfg? p = _
    unfold Part.panelCfg?
    cases part.setup <;> rfl
  unfold Part.restAtOnce Part.rested Part.restIfIdle
  rw [hr, hc]
  cases h : part.running? p with
  | some y => cases hb : (part.setup.bind fun g => g.panels.get p) <;> simp
  | none =>
    cases hb : (part.setup.bind fun g => g.panels.get p) with
    | none => simp
    | some c =>
      simp only [Option.isNone_none, if_true, Part.port_changePort_self, Port.restsAtOnce_eq]
      split
      · simp only [Part.changePort, Part.setPort, Part.oweWalk, Quad.set_set]; rfl
      · rfl

/-- An event that leaves port `p` the record `x` and causes no walk of itself: the rest that may follow causes one. -/
theorem Part.setPort_restAtOnce {part : Part} {p : PanelNo} {c : PanelCfg} (hc : part.panelCfg? p = some c) (x : Port) :
    (part.setPort p x).restAtOnce p
      = { part with
          ports := part.ports.set p (part.rested p x)
          walkOwed := part.walkOwed || (decide (c.restDelay = 0) && x.idle && (part.running? p).isNone) } := by
  have hr : (part.setPort p x).running? p = part.running? p := rfl
  have hc' : (part.setPort p x).panelCfg? p = some c := hc
  have hb : (part.setup.bind fun g => g.panels.get p) = some c := by
    rw [← hc]; unfold Part.panelCfg?; cases part.setup <;> rfl
  unfold Part.restAtOnce Part.rested Part.restIfIdle
  rw [hr, hc', hb]
  cases part.running? p with
  | some y => simp [Part.setPort]
  | none =>
    simp only [Option.isNone_none, if_true, Part.port_setPort_self, Port.restsAtOnce_eq]
    by_cases h : c.restDelay = 0 ∧ x.idle = true
    · simp only [h, and_self, if_true, decide_true, Bool.and_true, Bool.or_true, Part.changePort, Part.setPort,
        Part.oweWalk, Quad.set_set]
      rfl
    · have : (decide (c.restDelay = 0) && x.idle) = false := by simpa using h
      simp [this, h, Part.setPort]

/-- Where there was no REST, or the rest hold is 0, the hold is over whatever the sender says (R127). -/
theorem Port.restHoldOver_iff (x : Port) (c : PanelCfg) (b : Bool) :
    x.restHoldOver c b = true ↔ b = true ∨ x.lastRest = none ∨ c.restHold = 0 := by
  simp [Port.restHoldOver, or_assoc]

/-! ### Quiet hours (R29, R156) -/

/-- Between second events quiet hours are those of the second of day (R156). -/
theorem Part.quiet_of_not_due {part : Part} (h : part.clock.secondDue = false) (g : Setup) :
    part.quiet g = g.globals.quietAt part.clock.secondOfDay := by
  simp [Part.quiet, h]

/-- After the last tick of a second they hold only if the second that follows is quiet too (R29). -/
theorem Part.quiet_of_due {part : Part} (h : part.clock.secondDue = true) (g : Setup) :
    part.quiet g
      = (g.globals.quietAt part.clock.secondOfDay && g.globals.quietAt part.clock.nextSecond) := by
  simp [Part.quiet, h]

/-! ### Requests and abandoned bursts (R108, R112, R116) -/

/-- What an engine presents is its request while no burst of its job is in progress (R108, R146). -/
theorem Engine.presented?_eq_some {e : Engine} {b : Burst} :
    e.presented? = some b ↔ e.inFlight = false ∧ e.request = some b := by
  unfold Engine.presented?
  cases e.inFlight <;> simp

/-- The end of an abandoned burst clears the two marks of it in the panel's engine. -/
theorem Part.engine?_discardEnded {part : Part} {p : PanelNo} {e : Engine} (he : part.engine? p = some e)
    (hf : e.inFlight = true) (hd : e.discard = true) :
    (part.discardEnded p).engine? p = some { e with inFlight := false, discard := false } := by
  unfold Part.discardEnded
  rw [he]
  simp [hf, hd, Part.engine?]

/-- With no abandoned burst nothing is done. -/
theorem Part.discardEnded_eq_self {part : Part} {p : PanelNo}
    (h : ∀ e, part.engine? p = some e → (e.inFlight && e.discard) = false) : part.discardEnded p = part := by
  unfold Part.discardEnded
  split
  · next e he => simp [h e he]
  · rfl

/-- The engines alone change. -/
theorem Part.discardEnded_eq (part : Part) (p : PanelNo) :
    part.discardEnded p = { part with engines := (part.discardEnded p).engines } := by
  unfold Part.discardEnded
  split
  · split <;> rfl
  · rfl

/-! ### Jobs aborted or returned by one event (R37, R54, R56) -/

/-- An event that aborts no job does nothing. -/
@[simp] theorem Part.abortJobs_nil (part : Part) (g : Setup) : part.abortJobs g [] = part := rfl

/-- Jobs aborted by one event: every job is cut, then one HELD retry, then the zones of each (R37, R54). -/
theorem Part.abortJobs_cons (part : Part) (g : Setup) (x : RunningJob) (xs : List RunningJob) :
    part.abortJobs g (x :: xs)
      = ((x :: xs).foldl (Part.abortZones g)
          ((((x :: xs).foldl (Part.cutJob g) part).releaseRail g).slotsFreed g)).checkHalted := rfl

/-- A HALT that frees no slot makes no HELD retry (R37). -/
theorem Part.haltJobs_of_none_freed {part : Part} {g : Setup}
    (h : part.occupied ≤ (panelNos.foldl (Part.haltAt g) part).occupied) :
    part.haltJobs g = panelNos.foldl (Part.haltAt g) part := if_neg (Nat.not_lt.mpr h)

end Sys2Proof.Machine
end

