-- ==== Sys2Proof/Laws/Arbiter.lean ====
section
/-! SUPPORT. The Memory Arbiter: the panel that a level grants, what an urgent feed request is, a grant, and the memory port's
next business where a host transaction is held. -/

namespace Sys2Proof.Machine

/-! ### The round robin of a level (R147) -/

theorem afterPanel_first : ∀ (k p q : PanelNo) (a b c d : Bool),
    (afterPanel k).find? (fun x => (⟨a, b, c, d⟩ : Quad Bool).get x) = some p →
    (⟨a, b, c, d⟩ : Quad Bool).get q = true → (p - k - 1).val ≤ (q - k - 1).val := by decide

theorem afterPanel_none : ∀ (k q : PanelNo) (a b c d : Bool),
    (afterPanel k).find? (fun x => (⟨a, b, c, d⟩ : Quad Bool).get x) = none →
    (⟨a, b, c, d⟩ : Quad Bool).get q = false := by decide

theorem Quad.get_ofPanels_fun {α : Type} (f : PanelNo → α) : (fun x => (Quad.ofPanels f).get x) = f :=
  funext fun x => Quad.get_ofPanels f x

/-- The panel that a level grants has a request there, and no panel nearer after the last-served one has. -/
theorem State.nextPanel?_eq_some {s : State} {l p : PanelNo} (h : s.nextPanel? l = some p) :
    s.part.requestLevel? p = some l ∧ ∀ q, s.part.requestLevel? q = some l →
      (p - s.path.lastServed.get l - 1).val ≤ (q - s.path.lastServed.get l - 1).val := by
  unfold State.nextPanel? at h
  refine ⟨by simpa using List.find?_some h, fun q hq => ?_⟩
  rw [← Quad.get_ofPanels_fun (fun p => s.part.requestLevel? p == some l)] at h
  refine afterPanel_first _ _ _ _ _ _ _ h ?_
  have := Quad.get_ofPanels (fun p => s.part.requestLevel? p == some l) q
  rw [hq] at this
  simpa [Quad.ofPanels] using this

/-- A level that grants none has no request. -/
theorem State.nextPanel?_eq_none {s : State} {l : PanelNo} (h : s.nextPanel? l = none) (q : PanelNo) :
    s.part.requestLevel? q ≠ some l := by
  unfold State.nextPanel? at h
  rw [← Quad.get_ofPanels_fun (fun p => s.part.requestLevel? p == some l)] at h
  have h1 := afterPanel_none _ q _ _ _ _ h
  have h2 := Quad.get_ofPanels (fun p => s.part.requestLevel? p == some l) q
  have h3 : (s.part.requestLevel? q == some l) = false := h2.symm.trans h1
  simpa using h3

/-- The first panel of a level with a request is the one that it grants. -/
theorem State.nextPanel?_eq {s : State} {l p : PanelNo} (h : s.part.requestLevel? p = some l)
    (hm : ∀ q, s.part.requestLevel? q = some l →
      (p - s.path.lastServed.get l - 1).val ≤ (q - s.path.lastServed.get l - 1).val) : s.nextPanel? l = some p := by
  cases hn : s.nextPanel? l with
  | none => exact absurd h (State.nextPanel?_eq_none hn p)
  | some p' =>
    obtain ⟨a, b⟩ := State.nextPanel?_eq_some hn
    have one : ∀ k p p' : PanelNo, (p - k - 1).val = (p' - k - 1).val → p' = p := by decide
    rw [one _ p p' (Nat.le_antisymm (hm p' a) (b p h))]

/-! ### Requests and grants (R114, R146) -/

/-- A request at level 1 is a feed burst of a DRIVING job whose held count is below the feed threshold (R114). -/
theorem Part.requestLevel?_eq_zero {part : Part} {p : PanelNo} (h : part.requestLevel? p = some 0) :
    ∃ g e b slot j r, part.setup = some g ∧ part.engine? p = some e ∧ e.inFlight = false ∧ e.request = some b
      ∧ b.kind.isFeed = true ∧ part.running? p = some (slot, j, r) ∧ j.state = .driving
      ∧ e.buffer.length < g.globals.feedThreshold := by
  unfold Part.requestLevel? at h
  cases hg : part.setup with
  | none => simp [hg] at h
  | some g =>
    cases he : part.engine? p with
    | none => simp [hg, he] at h
    | some e =>
      cases hb : e.presented? with
      | none => simp [hg, he, hb] at h
      | some b =>
        simp only [hg, he, Option.bind_some, hb] at h
        obtain ⟨hf, hr⟩ := Engine.presented?_eq_some.1 hb
        have hu : part.feedUrgent g p = true ∧ b.kind.isFeed = true := by
          cases hk : b.kind <;> simp [hk] at h <;>
            by_cases hu : part.feedUrgent g p <;> simp [hu, BurstKind.isFeed] at h ⊢
        obtain ⟨hu, hk⟩ := hu
        unfold Part.feedUrgent Part.stage? at hu
        rw [he] at hu
        cases hj : part.running? p with
        | none => simp [hj] at hu
        | some x =>
          obtain ⟨slot, j, r⟩ := x
          simp [hj] at hu
          exact ⟨g, e, b, slot, j, r, rfl, rfl, hf, hr, hk, rfl, hu.1, hu.2⟩

/-- A grant (R109, R146, R147): the request is the burst in progress and the panel the level's last-served. -/
theorem State.grantPanel_eq {s : State} {l p : PanelNo} {e : Engine} {b : Burst} (he : s.part.engine? p = some e)
    (hf : e.inFlight = false) (hb : e.request = some b) :
    ∃ k, s.grantPanel l p = { s with
      path := { s.path with burst := some b, lastServed := s.path.lastServed.set l p }
      part := s.part.setEngine p (some { e with request := none, inFlight := true, cursor := k }) } := by
  unfold State.grantPanel
  rw [he]
  simp only [Option.bind_some, Engine.presented?_eq_some.2 ⟨hf, hb⟩]
  exact ⟨_, rfl⟩

theorem Part.requestLevel?_setEngine_ne {part : Part} {p q : PanelNo} (h : q ≠ p) (e : Option Engine) :
    (part.setEngine p e).requestLevel? q = part.requestLevel? q := by
  unfold Part.requestLevel? Part.feedUrgent Part.engine? Part.stage? Part.running? Part.setEngine
  simp only [Quad.get_set_ne _ _ h]

/-- An engine whose burst is in progress presents no request (R108, log 18). -/
theorem Part.requestLevel?_setEngine_inFlight {part : Part} {p : PanelNo} {e : Engine} (h : e.inFlight = true) :
    (part.setEngine p (some e)).requestLevel? p = none := by
  unfold Part.requestLevel?
  simp [Part.engine?, Engine.presented?, h]

/-! ### A held host transaction (R148) -/

/-- The memory port's next business while a host transaction is held and no burst runs: with feed stall on, none inserted yet
and a level-1 request waiting, one urgent feed burst; else the transaction is forwarded. -/
theorem State.advancePath_held {v : State} {h : HostTransaction} (hb : v.path.burst = none) (hh : v.path.host = some h)
    (hp : h.phase = .held) :
    (h.inserted = true ∨ (∀ g, v.part.setup = some g → g.globals.feedStall = false)
        ∨ (∀ q, v.part.requestLevel? q ≠ some 0) →
      v.advancePath = { v with path := { v.path with host := some { h with phase := .forwarding } } })
    ∧ ∀ g p e b, h.inserted = false → v.part.setup = some g → g.globals.feedStall = true →
      v.nextPanel? 0 = some p → v.part.engine? p = some e → e.request = some b →
      ∃ k, v.advancePath = { v with
        path := { v.path with
          host := some { h with inserted := true }, burst := some b, lastServed := v.path.lastServed.set 0 p }
        part := v.part.setEngine p (some { e with request := none, inFlight := true, cursor := k }) } := by
  refine ⟨fun hc => ?_, fun g p e b hi hg hs hn he hr => ?_⟩
  · have hno : ∀ stalls : Bool, (stalls = true → ∀ q, v.part.requestLevel? q ≠ some 0) →
        (if stalls then v.nextPanel? 0 else none) = none := by
      intro stalls hst
      cases stalls with
      | false => rfl
      | true =>
        cases hn : v.nextPanel? 0 with
        | none => rfl
        | some p => exact absurd (State.nextPanel?_eq_some hn).1 (hst rfl p)
    unfold State.advancePath
    rw [hb, hh]
    simp only [hp, if_true]
    rw [hno]
    intro hst
    rcases hc with hc | hc | hc
    · simp [hc] at hst
    · cases hg : v.part.setup with
      | none => simp [hg] at hst
      | some g => simp [hg, hc g hg] at hst
    · exact hc
  · obtain ⟨-, e', b', -, -, -, -, he', hf, hr', -⟩ := Part.requestLevel?_eq_zero (State.nextPanel?_eq_some hn).1
    rw [he] at he'
    cases he'
    obtain ⟨command, start, next, phase, inserted, givesOrder⟩ := h
    cases hp
    cases hi
    unfold State.advancePath
    rw [hb, hh]
    simp only [if_true, hg, hs, hn, Bool.not_false, Bool.true_and]
    exact State.grantPanel_eq
      (s := { v with path := { v.path with host := some ⟨command, start, next, .held, true, givesOrder⟩ } }) he hf hr

end Sys2Proof.Machine
end

