-- ==== Sys2Proof/Laws/Planner.lean ====
section
/-! SUPPORT. The Job Planner's requests: the slot a job takes, the zone records after an update, and what a request and an
enqueue of a zone leave (R31, R39, R43, R45). -/

namespace Sys2Proof.Machine

/-! ### Slots (R37) -/

/-- The lowest-numbered free slot. -/
theorem Part.lowestFree?_eq {part : Part} {slot : Nat} (hn : part.job? slot = none) (hl : slot < part.pool.length)
    (hb : ∀ i, i < slot → (part.job? i).isSome = true) : part.lowestFree? = some slot := by
  unfold Part.lowestFree?
  rw [List.findIdx?_eq_some_iff_getElem]
  refine ⟨hl, ?_, fun i hi => ?_⟩
  · unfold Part.job? at hn
    rw [List.getElem?_eq_getElem hl] at hn
    simpa using hn
  · have h := hb i hi
    unfold Part.job? at h
    rw [List.getElem?_eq_getElem (Nat.lt_trans hi hl)] at h
    cases hx : part.pool[i] with
    | none => simp [hx] at h
    | some j => simp

/-- A full pool has no free slot. -/
theorem Part.lowestFree?_eq_none {part : Part} (h : ∀ x ∈ part.pool, x.isSome = true) : part.lowestFree? = none := by
  unfold Part.lowestFree?
  rw [List.findIdx?_eq_none_iff]
  intro x hx
  cases x with
  | none => exact absurd (h none hx) (by simp)
  | some j => rfl

/-- A pool with no job has an empty queue. -/
theorem queuedJobs_eq_nil (pool : List (Option Job)) :
    ∀ i, (∀ k : Nat, (pool[k]?).join = none) → queuedJobs i pool = [] := by
  induction pool with
  | nil => intros; rfl
  | cons a pool ih =>
    intro i h
    have h0 := h 0
    simp at h0
    subst h0
    exact ih _ fun k => by simpa using h (k + 1)

/-- A pool of one QUEUED job has a queue of one. -/
theorem queuedJobs_eq_single (pool : List (Option Job)) (j : Job) (hj : j.state = .queued) :
    ∀ i slot, (pool[slot]?).join = some j → (∀ k, k ≠ slot → (pool[k]?).join = none) →
      queuedJobs i pool = [(i + slot, j)] := by
  induction pool with
  | nil => intro i slot h; simp at h
  | cons a pool ih =>
    intro i slot h hn
    cases slot with
    | zero =>
      simp at h
      subst h
      simp only [queuedJobs, hj, if_true]
      rw [queuedJobs_eq_nil]
      · simp
      · intro k
        simpa using hn (k + 1) (by omega)
    | succ k =>
      have h0 := hn 0 (by omega)
      simp at h0
      subst h0
      simp only [queuedJobs]
      rw [ih (i + 1) k (by simpa using h) fun m hm => by simpa using hn (m + 1) (by omega)]
      congr 2
      omega

/-- No job of a pool satisfies a test, so none is found. -/
theorem findJob_eq_none (f : Job → Bool) (pool : List (Option Job)) :
    ∀ i, (∀ (k : Nat) j, (pool[k]?).join = some j → f j = false) → findJob f i pool = none := by
  induction pool with
  | nil => intros; rfl
  | cons a pool ih =>
    intro i h
    have h1 := ih (i + 1) fun k j hk => h (k + 1) j (by simpa using hk)
    cases a with
    | none => exact h1
    | some j =>
      have := h 0 j rfl
      simp [findJob, this, h1]

/-! ### Zone records -/

/-- A lookup after a change of every zone that keeps the indices. -/
theorem find_map_zone (zs : List Zone) (f : Zone → Zone) (n : Nat) (hf : ∀ z, (f z).index = z.index) :
    (zs.map f).find? (fun z => z.index == n) = (zs.find? fun z => z.index == n).map f := by
  induction zs with
  | nil => rfl
  | cons z zs ih =>
    simp only [List.map_cons, List.find?_cons, hf]
    split
    · rfl
    · exact ih

theorem Part.zone?_index {part : Part} {n : Nat} {x : Zone} (h : part.zone? n = some x) : x.index = n := by
  have := List.find?_some h
  simpa using this

theorem Setup.zone?_index {g : Setup} {n : Nat} {z : ZoneCfg} (h : g.zone? n = some z) : z.index = n := by
  have := List.find?_some h
  simpa using this

/-- A zone's record after an update of one zone that keeps its index. -/
theorem Part.zone?_updateZone (part : Part) (m n : Nat) (f : Zone → Zone) (hf : ∀ z, (f z).index = z.index) :
    (part.updateZone m f).zone? n = (part.zone? n).map fun z => if n = m then f z else z := by
  unfold Part.zone? Part.updateZone
  rw [find_map_zone _ _ _ fun z => by split <;> simp [hf]]
  cases h : part.zones.find? fun z => z.index == n with
  | none => rfl
  | some z =>
    have : z.index = n := by simpa using List.find?_some h
    simp [this]

/-- A zone's record after the DIRTY counts follow the tiles. -/
theorem Part.zone?_followTiles (part : Part) (n : Nat) :
    part.followTiles.zone? n = (part.zone? n).map (Zone.follow part.tiles part.clock.mono) :=
  find_map_zone _ _ _ fun _ => rfl

theorem Part.zoneDirty_eq {part : Part} {n : Nat} {x : Zone} (h : part.zone? n = some x) :
    part.zoneDirty n = decide (0 < x.dirtyCount) := by
  simp [Part.zoneDirty, h]

/-! ### Requests of scope ZONE (R39, R43, R45) -/

/-- With no queued job of the zone and a free slot, the request is placed. -/
theorem Part.requestZone_placed {part : Part} {z : ZoneCfg} {slot : Nat} (rect : Rect) (cls : RefreshClass)
    (origin : Origin) (full : Bool) (hz : (part.zone? z.index).bind (·.queuedJob) = none)
    (hs : part.lowestFree? = some slot) :
    part.requestZone z rect cls origin full
      = some ((part.placeJob slot z.panel (.zone z.index) rect cls origin full).updateZone z.index fun x =>
          { x with queuedJob := some slot }) := by
  simp [Part.requestZone, hz, hs]

/-- With no queued job of the zone and the pool full, the request is refused. -/
theorem Part.requestZone_refused {part : Part} {z : ZoneCfg} (rect : Rect) (cls : RefreshClass) (origin : Origin)
    (full : Bool) (hz : (part.zone? z.index).bind (·.queuedJob) = none) (hs : part.lowestFree? = none) :
    part.requestZone z rect cls origin full = none := by
  simp [Part.requestZone, hz, hs]

/-- With a queued job of the zone, the request is merged into it. -/
theorem Part.requestZone_merged {part : Part} {z : ZoneCfg} {slot : Nat} {j : Job} (rect : Rect) (cls : RefreshClass)
    (origin : Origin) (full : Bool) (hz : (part.zone? z.index).bind (·.queuedJob) = some slot)
    (hj : part.job? slot = some j) :
    part.requestZone z rect cls origin full = some (part.mergeRequest slot j rect cls full) := by
  simp [Part.requestZone, hz, hj]

/-! ### The DIRTY tiles of a zone taken up (R31) -/

/-- A tile after the DIRTY tiles of a zone become QUEUED. -/
theorem Part.tileAt?_takeUpZone (part : Part) (g : Setup) (z : ZoneCfg) (p : PanelNo) (tx ty : Nat) :
    (part.takeUpZone g z).tileAt? g p tx ty
      = (part.tileAt? g p tx ty).map fun y =>
          if p = z.panel ∧ z.rect.contains tx ty = true ∧ y.zone = some z.index ∧ y.state = .dirty
          then { y with state := .queued } else y := by
  unfold Part.takeUpZone
  rw [Part.tileAt?_followTiles]
  by_cases hp : p = z.panel
  · subst hp
    rw [Part.tileAt?_mapTiles]
    cases part.tileAt? g z.panel tx ty with
    | none => rfl
    | some y =>
      simp only [Option.map_some, true_and]
      by_cases h1 : z.rect.contains tx ty = true
      · by_cases h2 : y.zone = some z.index <;> simp [h1, h2, Tile.takeUp]
      · simp [h1]
  · rw [Part.tileAt?_mapTiles_other _ _ hp]
    simp [hp]

/-- All but the tiles and the zones stay when a zone's DIRTY tiles become QUEUED. -/
theorem Part.takeUpZone_eq (part : Part) (g : Setup) (z : ZoneCfg) :
    part.takeUpZone g z
      = { part with tiles := (part.takeUpZone g z).tiles, zones := (part.takeUpZone g z).zones } := by
  unfold Part.takeUpZone Part.mapTiles
  cases g.panels.get z.panel <;> rfl

/-- The DIRTY tiles of a zone taken up, and the counts with them. -/
theorem Part.zone?_takeUpZone (part : Part) (g : Setup) (z : ZoneCfg) (n : Nat) :
    (part.takeUpZone g z).zone? n
      = (part.zone? n).map (Zone.follow (part.takeUpZone g z).tiles part.clock.mono) := by
  have h : (part.takeUpZone g z).tiles
      = (part.mapTiles g z.panel z.rect fun _ _ t => if t.zone = some z.index then t.takeUp else t).tiles := rfl
  rw [h]
  unfold Part.takeUpZone
  rw [Part.zone?_followTiles]
  unfold Part.mapTiles
  cases g.panels.get z.panel <;> rfl

end Sys2Proof.Machine
end

