-- ==== Sys2Proof/Laws/Triggers.lean ====
section
/-! SUPPORT. What an enqueue attempt, the HELD retry, the zone and sweep triggers and the retirement of a job can do: each
operation meets the relation of Safety.lean that says it. -/

namespace Sys2Proof.Machine

/-! ### Passes -/

/-- A fold whose step meets a relation meets its passes. -/
theorem Passes.foldl {α : Type} {does : α → Part → Part → Prop} {f : Part → α → Part}
    (h : ∀ x part, does x part (f part x)) (xs : List α) (part : Part) : Passes does xs part (xs.foldl f part) := by
  induction xs generalizing part with
  | nil => exact rfl
  | cons x xs ih => exact ⟨f part x, h x part, ih _⟩

/-! ### Quiet hours and the settle timer (R26, R29, R156) -/

theorem Setup.quietAt_iff (g : Setup) (i : Nat) : g.globals.quietAt i = true ↔ g.QuietAt i := by
  unfold GlobalSettings.quietAt Setup.QuietAt
  split
  · simp; omega
  · split <;> simp <;> omega

theorem Part.quiet_iff (part : Part) (g : Setup) : part.quiet g = true ↔ part.QuietHours g := by
  unfold Part.quiet Part.QuietHours Clock.nextSecond
  rw [Bool.and_eq_true, Setup.quietAt_iff, Bool.or_eq_true, Setup.quietAt_iff]
  cases part.clock.secondDue <;> simp [Config.daySeconds]

theorem Part.timerStopped_iff {part : Part} {n : Nat} {x : Zone} (h : part.zone? n = some x) :
    part.timerStopped n = true ↔ x.TimerStopped := by
  simp [Part.timerStopped, h, Zone.TimerStopped]

/-! ### An enqueue attempt (R31) -/

/-- The part in which an enqueue of zone `n` makes its request: EPOCH_WAIT is cleared first. -/
theorem Part.zone?_waited (part : Part) (n m : Nat) :
    (part.updateZone n fun x => { x with epochWait := false }).zone? m
      = (part.zone? m).map fun x => if m = n then { x with epochWait := false } else x :=
  Part.zone?_updateZone part n m (fun x => { x with epochWait := false }) fun _ => rfl

/-- What a placed or merged request leaves, whose own part changes no tile and only the zone's queued job. -/
theorem Part.tookUpZone {part placed : Part} {g : Setup} {z : ZoneCfg} {slot : Nat} (ht : placed.tiles = part.tiles)
    (hm : placed.clock = part.clock)
    (hz : ∀ n y, part.zone? n = some y →
      placed.zone? n = some (if y.index = z.index then { y with epochWait := false, queuedJob := some slot } else y)) :
    part.TookUpZone ((placed.takeUpZone g z).updateZone z.index fun x => { x with held := none }) g z slot := by
  refine ⟨fun p tx ty x hx => ?_, fun n y hy => ?_⟩
  · have e : ((placed.takeUpZone g z).updateZone z.index fun x => { x with held := none }).tileAt? g p tx ty
        = (placed.takeUpZone g z).tileAt? g p tx ty := rfl
    rw [e, Part.tileAt?_takeUpZone, Part.tileAt?_congr ht, hx]
    constructor
    · rintro ⟨h1, h2, h3, h4⟩
      simp [h1, h2, h3, h4]
    · intro h
      have : ¬(p = z.panel ∧ z.rect.contains tx ty = true ∧ x.zone = some z.index ∧ x.state = .dirty) := by
        rintro ⟨a, b, c, d⟩; exact h ⟨d, a, b, c⟩
      simp [this]
  · have hi := Part.zone?_index hy
    rw [Part.zone?_updateZone _ _ _ (fun x => { x with held := none }) fun _ => rfl, Part.zone?_takeUpZone, hz n y hy]
    subst hi
    have e : (((placed.takeUpZone g z).updateZone z.index fun x => { x with held := none }) : Part).tiles
        = (placed.takeUpZone g z).tiles := rfl
    simp only [Option.map_some, e, hm]
    by_cases h : y.index = z.index <;> simp [h, Zone.follow, Zone.counted]

theorem Part.placedRequest_eq (placed : Part) (g : Setup) (z : ZoneCfg) :
    (placed.takeUpZone g z).updateZone z.index (fun x => { x with held := none })
      = { placed with
          tiles := ((placed.takeUpZone g z).updateZone z.index fun x => { x with held := none }).tiles
          zones := ((placed.takeUpZone g z).updateZone z.index fun x => { x with held := none }).zones } := by
  have h := Part.takeUpZone_eq placed g z
  unfold Part.updateZone
  rw [h]

theorem RefreshClass.moreUrgent_eq (a b : RefreshClass) : (a.moreUrgent b = a) ↔ ¬(b.rank < a.rank) := by
  cases a <;> cases b <;> decide

/-- An enqueue attempt does what R31 says. -/
theorem Part.enqueued_enqueue (part : Part) (g : Setup) (z : ZoneCfg) (o : Origin) :
    part.Enqueued (part.enqueue g z o) g z o := by
  refine ⟨fun h => ?_, fun x box hx hd hbox => ⟨fun slot hq hfree => ?_, fun slot j hq hj => ?_, fun hq hfull => ?_⟩⟩
  · unfold Part.enqueue
    have : part.zoneDirty z.index = false := by
      unfold Part.zoneDirty
      split
      · next y hy => simp [h y hy]
      · rfl
    simp [this]
  · have hw := Part.zone?_waited part z.index z.index
    rw [hx] at hw
    have hfree' := Part.lowestFree?_eq (part := part.updateZone z.index fun x => { x with epochWait := false })
      hfree.1 hfree.2.1 hfree.2.2
    have hr := Part.requestZone_placed (part := part.updateZone z.index fun x => { x with epochWait := false })
      ((part.dirtyBox? g z).getD z.rect) z.cls o false (z := z) (by rw [hw]; simp [hq]) hfree'
    unfold Part.enqueue
    simp only [Part.zoneDirty_eq hx, hd, decide_true, if_true, hr]
    refine ⟨?_, Part.tookUpZone rfl rfl fun n y hy => ?_⟩
    · rw [Part.placedRequest_eq]
      subst hbox
      rfl
    · have hi := Part.zone?_index hy
      rw [Part.zone?_updateZone _ _ _ (fun x => { x with queuedJob := some slot }) fun _ => rfl]
      have e : ((part.updateZone z.index fun x => { x with epochWait := false }).placeJob slot z.panel (.zone z.index)
          ((part.dirtyBox? g z).getD z.rect) z.cls o false).zone? n
            = (part.updateZone z.index fun x => { x with epochWait := false }).zone? n := rfl
      rw [e, Part.zone?_waited, hy]
      subst hi
      by_cases h : y.index = z.index <;> simp [h]
  · have hw := Part.zone?_waited part z.index z.index
    rw [hx] at hw
    have hr := Part.requestZone_merged (part := part.updateZone z.index fun x => { x with epochWait := false })
      ((part.dirtyBox? g z).getD z.rect) z.cls o false (z := z) (slot := slot) (j := j) (by rw [hw]; simp [hq]) hj
    unfold Part.enqueue
    simp only [Part.zoneDirty_eq hx, hd, decide_true, if_true, hr]
    have hm : ∀ rect, ∃ s k, (part.updateZone z.index fun x => { x with epochWait := false }).mergeRequest slot j rect z.cls
        false = { part with
          zones := (part.updateZone z.index fun x => { x with epochWait := false }).zones
          pool := s, sequence := k, walkOwed := true } := by
      intro rect
      unfold Part.mergeRequest
      dsimp only
      split <;> exact ⟨_, _, rfl⟩
    refine ⟨?_, Part.tookUpZone ?_ ?_ fun n y hy => ?_⟩
    · rw [Part.placedRequest_eq]
      subst hbox
      unfold Part.mergeRequest
      dsimp only
      by_cases hc : z.cls.rank < j.cls.rank
      · have h1 : ¬(j.merge ((part.dirtyBox? g z).getD z.rect) z.cls false).cls = j.cls := by
          intro h; exact (RefreshClass.moreUrgent_eq j.cls z.cls).1 h hc
        have h2 : j.cls.moreUrgent z.cls = z.cls := by simp [RefreshClass.moreUrgent, hc]
        simp only [h1, if_false, hc, if_true]
        simp [Part.setJob, Part.updateZone, Job.merge, Rect.join, h2]
      · have h1 : (j.merge ((part.dirtyBox? g z).getD z.rect) z.cls false).cls = j.cls := by
          exact (RefreshClass.moreUrgent_eq j.cls z.cls).2 hc
        have h2 : j.cls.moreUrgent z.cls = j.cls := h1
        simp only [h1, if_true, hc, if_false]
        simp [Part.setJob, Part.updateZone, Part.oweWalk, Job.merge, Rect.join, h2]
    · obtain ⟨s, k, h⟩ := hm ((part.dirtyBox? g z).getD z.rect)
      rw [h]
    · obtain ⟨s, k, h⟩ := hm ((part.dirtyBox? g z).getD z.rect)
      rw [h]
    · obtain ⟨s, k, h⟩ := hm ((part.dirtyBox? g z).getD z.rect)
      have hi := Part.zone?_index hy
      rw [h]
      have e : ({ part with
          zones := (part.updateZone z.index fun x => { x with epochWait := false }).zones
          pool := s, sequence := k, walkOwed := true } : Part).zone? n
            = (part.updateZone z.index fun x => { x with epochWait := false }).zone? n := rfl
      rw [e, Part.zone?_waited, hy]
      subst hi
      by_cases hn : y.index = z.index
      · have : y = x := by rw [hn, hx] at hy; exact (Option.some.inj hy).symm
        simp [this, hq]
      · simp [hn]
  · have hw := Part.zone?_waited part z.index z.index
    rw [hx] at hw
    have hr := Part.requestZone_refused (part := part.updateZone z.index fun x => { x with epochWait := false })
      ((part.dirtyBox? g z).getD z.rect) z.cls o false (z := z) (by rw [hw]; simp [hq]) (Part.lowestFree?_eq_none hfull)
    unfold Part.enqueue
    simp only [Part.zoneDirty_eq hx, hd, decide_true, if_true, hr]
    refine ⟨?_, ?_, fun q hq' => Part.detail_latch_ne _ _ hq'⟩
    · rw [Part.latch_eq]
      simp only [Part.updateZone, List.map_map]
      congr 1
      apply List.map_congr_left
      intro y _
      by_cases h : y.index = z.index <;> simp [h]
    · intro h13
      exact Part.detail_latch _ _ _ h13

/-! ### The HELD retry (R32) -/

theorem Part.heldPass_retryHeld (g : Setup) (zs : List ZoneCfg) (part : Part) : HeldPass g zs part (part.retryHeld g zs) := by
  induction zs generalizing part with
  | nil => exact rfl
  | cons z zs ih =>
    refine ⟨fun h => ?_, fun x o hx ho hq => ?_⟩
    · have e : part.retryHeld g (z :: zs) = part.retryHeld g zs := by
        rw [Part.retryHeld]
        cases hx : part.zone? z.index with
        | none => rfl
        | some x =>
          rcases h x hx with hn | hr
          · simp [hn]
          · cases hh : x.held <;> simp [hh, hr.1, (Part.quiet_iff part g).2 hr.2]
      rw [e]
      exact ih part
    · have hq' : ¬(z.cls = .routine ∧ part.quiet g = true) := fun h => hq ⟨h.1, (Part.quiet_iff part g).1 h.2⟩
      refine ⟨part.enqueue g z o, Part.enqueued_enqueue part g z o, fun ⟨y, hy, hs⟩ => ?_, fun h => ?_⟩
      · obtain ⟨o', ho'⟩ := Option.isSome_iff_exists.1 hs
        simp [Part.retryHeld, hx, ho, hq', hy, ho']
      · have e : part.retryHeld g (z :: zs) = (part.enqueue g z o).retryHeld g zs := by
          rw [Part.retryHeld]
          simp only [hx, Option.bind_some, ho, hq', if_false]
          cases hy : (part.enqueue g z o).zone? z.index with
          | none => rfl
          | some y => simp [h y hy]
        rw [e]
        exact ih _

theorem Part.heldPass_slotsFreed (part : Part) (g : Setup) : HeldPass g g.zones part (part.slotsFreed g) :=
  Part.heldPass_retryHeld g g.zones part

/-- With no zone HELD a freed slot places nothing. -/
theorem HeldPass.eq_of_noneHeld {g : Setup} {zs : List ZoneCfg} {a b : Part} (hn : a.NoneHeld) (h : HeldPass g zs a b) :
    b = a := by
  induction zs with
  | nil => exact h
  | cons z zs ih => exact ih (h.1 fun x hx => .inl (hn x (List.mem_of_find?_eq_some hx)))

/-! ### The zone triggers (R27 to R30, R33) -/

theorem Part.epochTaken (g : Setup) (z : ZoneCfg) (part : Part) : EpochTaken g z part (part.epochAt g z) := by
  refine ⟨fun hc x hx hd => ⟨fun hs => ?_, fun hs => ?_⟩, fun h => ?_⟩
  · have hd' : part.zoneDirty z.index = true := by rw [Part.zoneDirty_eq hx]; simpa using hd
    have e : part.epochAt g z = part.enqueue g z .epoch := by
      unfold Part.epochAt
      simp only [hc, hd', (Part.timerStopped_iff hx).2 hs, and_self, if_true]
    rw [e]
    exact Part.enqueued_enqueue ..
  · have hd' : part.zoneDirty z.index = true := by rw [Part.zoneDirty_eq hx]; simpa using hd
    have hs' : ¬part.timerStopped z.index = true := fun h => hs ((Part.timerStopped_iff hx).1 h)
    unfold Part.epochAt
    simp only [hc, hd', hs', and_self, if_true]
    rfl
  · unfold Part.epochAt
    rw [if_neg]
    rintro ⟨hc, hd⟩
    rcases h with h | h
    · exact h hc
    · cases hx : part.zone? z.index with
      | none => simp [Part.zoneDirty, hx] at hd
      | some x => simp [Part.zoneDirty, hx, h x hx] at hd

theorem Part.zoneDirty_false_enqueue {part : Part} {z : ZoneCfg} (h : part.zoneDirty z.index = false) (g : Setup)
    (o : Origin) : part.enqueue g z o = part := by
  simp [Part.enqueue, h]

theorem Part.quietEndTaken (g : Setup) (z : ZoneCfg) (part : Part) : QuietEndTaken g z part (part.quietEndAt g z) := by
  refine ⟨fun x hx ⟨hc, hs⟩ => ?_, fun h => ?_⟩
  · have e : part.quietEndAt g z = part.enqueue g z .settle := by
      unfold Part.quietEndAt
      cases hd : part.zoneDirty z.index with
      | false => simp [Part.zoneDirty_false_enqueue hd]
      | true => simp [hc, (Part.timerStopped_iff hx).2 hs]
    rw [e]
    exact Part.enqueued_enqueue ..
  · unfold Part.quietEndAt
    rw [if_neg]
    rintro ⟨hc, hd, hs⟩
    cases hx : part.zone? z.index with
    | none => simp [Part.zoneDirty, hx] at hd
    | some x => exact h x hx ⟨hc, (Part.timerStopped_iff hx).1 hs⟩

theorem Part.holdTaken (g : Setup) (z : ZoneCfg) (part : Part) : HoldTaken g z part (part.holdAt g z) := by
  refine ⟨fun x hx ⟨h0, ⟨since, hs, ha⟩, hq⟩ => ?_, fun h => ?_⟩
  · have hq' : ¬(z.cls = .routine ∧ part.quiet g = true) := fun h => hq ⟨h.1, (Part.quiet_iff part g).1 h.2⟩
    have e : part.holdAt g z = part.enqueue g z .hold := by
      unfold Part.holdAt
      simp only [hx, Option.bind_some, hs]
      cases hd : part.zoneDirty z.index with
      | false => simp [Part.zoneDirty_false_enqueue hd]
      | true => exact if_pos ⟨h0, rfl, ha, hq'⟩
    rw [e]
    exact Part.enqueued_enqueue ..
  · unfold Part.holdAt
    cases hx : part.zone? z.index with
    | none => rfl
    | some x =>
      cases hs : x.dirtySince with
      | none => simp [hs]
      | some since =>
        simp only [Option.bind_some, hs]
        rw [if_neg]
        rintro ⟨h0, -, ha, hq⟩
        exact h x hx ⟨h0, ⟨since, hs, ha⟩, fun hr => hq ⟨hr.1, (Part.quiet_iff part g).2 hr.2⟩⟩

theorem Part.retireTaken (g : Setup) (z : ZoneCfg) (part : Part) : RetireTaken g z part (Part.retireTriggerAt g part z) := by
  refine ⟨fun h => ?_, fun x hx hs => ?_⟩
  · unfold Part.retireTriggerAt
    cases hx : part.zone? z.index with
    | none =>
      have hd : part.zoneDirty z.index = false := by simp [Part.zoneDirty, hx]
      simp only [Part.timerStopped, hx, if_true]
      unfold Part.expire
      cases z.cls <;> simp [Part.zoneDirty_false_enqueue hd, hx]
    | some x =>
      rw [if_neg]
      exact fun ht => h x hx ((Part.timerStopped_iff hx).1 ht)
  · have e : Part.retireTriggerAt g part z = part.expire g z .retire .retire := by
      simp [Part.retireTriggerAt, (Part.timerStopped_iff hx).2 hs]
    rw [e]
    unfold Part.expire
    refine ⟨fun h1 h2 => ?_, fun hc hq => ?_, fun hc hq => ?_, fun hc hw => ?_, fun hc hw hd => ?_, fun hc hw hd => ?_⟩
    · cases hc : z.cls with
      | urgent => exact Part.enqueued_enqueue ..
      | sweep => exact Part.enqueued_enqueue ..
      | routine => exact absurd hc h1
      | timed => exact absurd hc h2
    · simp [hc, (Part.quiet_iff part g).2 hq]
    · have : ¬part.quiet g = true := fun h => hq ((Part.quiet_iff part g).1 h)
      simp only [hc, this]
      exact Part.enqueued_enqueue ..
    · simp [hc, hx, hw]
    · simp only [hc, hx, hw, if_true]
      have e2 : (part.updateZone z.index fun y => { y with epochWait := false }).enqueue g z .retire
          = part.enqueue g z .retire := by
        have hd1 : (part.updateZone z.index fun y => { y with epochWait := false }).zoneDirty z.index
            = part.zoneDirty z.index := by
          unfold Part.zoneDirty
          rw [Part.zone?_waited, hx]
          simp
        have hb : (part.updateZone z.index fun y => { y with epochWait := false }).dirtyBox? g z = part.dirtyBox? g z := rfl
        have hu : (part.updateZone z.index fun y => { y with epochWait := false }).updateZone z.index
            (fun y => { y with epochWait := false }) = part.updateZone z.index fun y => { y with epochWait := false } := by
          unfold Part.updateZone
          simp only [List.map_map]
          congr 1
          apply List.map_congr_left
          intro y _
          by_cases h : y.index = z.index <;> simp [h]
        unfold Part.enqueue
        rw [hd1, hb, hu]
        simp only [Part.zoneDirty_eq hx, hd, decide_true, if_true]
      rw [e2]
      exact Part.enqueued_enqueue ..
    · simp only [hc, hx, hw, if_true]
      rw [Part.zoneDirty_false_enqueue]
      · rfl
      · unfold Part.zoneDirty
        rw [Part.zone?_waited, hx]
        simp [hd]

/-! ### Sweeps (R42, R75, R76) -/

theorem Part.mapTiles_eq (part : Part) (g : Setup) (p : PanelNo) (r : Rect) (f : Nat → Nat → Tile → Tile) :
    part.mapTiles g p r f = { part with tiles := (part.mapTiles g p r f).tiles } := by
  unfold Part.mapTiles
  split <;> rfl

/-- Every tile of a panel lies in the whole panel (R36). -/
theorem Part.contains_whole {part : Part} {g : Setup} {p : PanelNo} {c : PanelCfg} (hc : g.panels.get p = some c)
    {tx ty : Nat} {x : Tile} (hx : part.tileAt? g p tx ty = some x) : c.whole.contains tx ty = true := by
  unfold Part.tileAt? at hx
  rw [hc] at hx
  dsimp only at hx
  split at hx
  · next h =>
    unfold Rect.contains PanelCfg.whole
    rw [decide_eq_true (Nat.zero_le tx), decide_eq_true (Nat.le_sub_one_of_lt h.1), decide_eq_true (Nat.zero_le ty),
      decide_eq_true (Nat.le_sub_one_of_lt h.2)]
    rfl
  · cases hx

/-- The DIRTY tiles of a panel taken up by a request that itself changes no tile and no zone (R41, R42). -/
theorem Part.tookUp_panel {part placed : Part} {g : Setup} {p : PanelNo} {c : PanelCfg} (hc : g.panels.get p = some c)
    (ht : placed.tiles = part.tiles) (hz : placed.zones = part.zones) (hm : placed.clock = part.clock) :
    part.TookUp (placed.mapTiles g p c.whole fun _ _ t => t.takeUp).followTiles g (fun q _ _ _ => q = p) id := by
  refine ⟨fun q tx ty x hx => ?_, fun n y hy => ?_⟩
  · rw [Part.tileAt?_followTiles]
    by_cases hq : q = p
    · subst hq
      rw [Part.tileAt?_mapTiles, Part.tileAt?_congr ht, hx]
      simp only [Option.map_some, Part.contains_whole hc hx, if_true, Tile.takeUp, and_true]
      by_cases hd : x.state = .dirty <;> simp [hd]
    · rw [Part.tileAt?_mapTiles_other _ _ hq, Part.tileAt?_congr ht, hx]
      simp [hq]
  · rw [Part.zone?_followTiles]
    have e : (placed.mapTiles g p c.whole fun _ _ t => t.takeUp).zone? n = part.zone? n := by
      rw [Part.mapTiles_eq]
      unfold Part.zone?
      simp only [hz]
    have ek : (placed.mapTiles g p c.whole fun _ _ t => t.takeUp).clock = part.clock := by
      rw [Part.mapTiles_eq]
      exact hm
    rw [e, hy, ek]
    rfl

/-- A sweep request does what R42 says. -/
theorem Part.sweepRequested (part : Part) (g : Setup) {p : PanelNo} {c : PanelCfg} (hc : g.panels.get p = some c)
    (o : Origin) : part.SweepRequested (part.requestSweep g p c o) g p c o := by
  rintro whole rfl
  refine ⟨fun slot hq hf => ?_, fun slot j hq => ?_, fun hq hfull => ?_⟩
  · have hs := Part.lowestFree?_eq hf.1 hf.2.1 hf.2.2
    unfold Part.requestSweep Part.requestPanel
    simp only [hq, hs]
    refine ⟨?_, Part.tookUp_panel hc rfl rfl rfl⟩
    conv => lhs; rw [Part.mapTiles_eq]
    conv => rhs; rw [Part.mapTiles_eq]
    rfl
  · unfold Part.requestSweep Part.requestPanel
    simp only [hq]
    have h1 : (j.merge c.whole .sweep true).cls = j.cls := by
      show j.cls.moreUrgent .sweep = j.cls
      cases j.cls <;> rfl
    have hm : part.mergeRequest slot j c.whole .sweep true
        = { part with pool := part.pool.set slot (some (j.merge c.whole .sweep true)), walkOwed := true } := by
      unfold Part.mergeRequest
      simp only [h1, if_true]
      rfl
    have hj : j.merge c.whole .sweep true
        = { j with
            rect := ⟨min j.rect.tx0 0, max j.rect.tx1 (c.width / 32 - 1), min j.rect.ty0 0, max j.rect.ty1 (c.height / 32 - 1)⟩
            fullRequest := true } := by
      have : j.cls.moreUrgent .sweep = j.cls := h1
      simp [Job.merge, this, Rect.join, PanelCfg.whole, PanelCfg.cols, PanelCfg.rows]
    rw [hm, hj]
    refine ⟨?_, Part.tookUp_panel hc rfl rfl rfl⟩
    conv => lhs; rw [Part.mapTiles_eq]
    conv => rhs; rw [Part.mapTiles_eq]
    rfl
  · unfold Part.requestSweep Part.requestPanel
    simp only [hq, Part.lowestFree?_eq_none hfull]
    exact ⟨Part.latch_eq .., fun h => Part.detail_latch _ _ _ h, fun q h => Part.detail_latch_ne _ _ h⟩

/-- A panel is sweep-busy exactly while a PANEL job of it with the full request set is running (R74). -/
theorem Part.sweepBusy_iff (part : Part) (p : PanelNo) :
    (!part.sweepBusy p) = true
      ↔ ∀ slot j r, part.running? p = some (slot, j, r) → j.scope ≠ .panel p ∨ j.fullRequest = false := by
  unfold Part.sweepBusy
  cases h : part.running? p with
  | none => simp
  | some x =>
    obtain ⟨slot, j, r⟩ := x
    simp only [Option.some.injEq, Prod.mk.injEq]
    constructor
    · rintro hb s k q ⟨rfl, rfl, rfl⟩
      by_cases hs : j.scope = .panel p
      · right; simpa [hs] using hb
      · exact .inl hs
    · intro hb
      rcases hb slot j r ⟨rfl, rfl, rfl⟩ with h | h
      · simp [h]
      · simp [h]

theorem Part.any_whole (part : Part) (g : Setup) {p : PanelNo} {c : PanelCfg} (hc : g.panels.get p = some c)
    (f : Tile → Bool) :
    ((part.tilesIn g p c.whole).any fun x => f x.2) = true ↔ ∃ tx ty x, part.tileAt? g p tx ty = some x ∧ f x = true := by
  rw [Part.any_tilesIn]
  constructor
  · rintro ⟨tx, ty, x, -, hx, hf⟩
    exact ⟨tx, ty, x, hx, hf⟩
  · rintro ⟨tx, ty, x, hx, hf⟩
    exact ⟨tx, ty, x, Part.contains_whole hc hx, hx, hf⟩

theorem Part.sweepTimeTaken (g : Setup) (p : PanelNo) (part : Part) : SweepTimeTaken g p part (Part.sweepTimeAt g part p) := by
  refine ⟨fun h => by simp [Part.sweepTimeAt, h], fun c due hc hdue => ?_⟩
  have e : ((!part.sweepBusy p && (part.tilesIn g p c.whole).any fun x => decide (0 < x.2.debt) || x.2.untrusted) = true)
      ↔ due := by
    rw [hdue, Bool.and_eq_true, Part.sweepBusy_iff, Part.any_whole part g hc fun x => decide (0 < x.debt) || x.untrusted]
    simp [and_comm]
  unfold Part.sweepTimeAt
  simp only [hc]
  refine ⟨fun h => ?_, fun h => if_neg fun h' => h (e.1 h')⟩
  rw [if_pos (e.2 h)]
  exact Part.sweepRequested part g hc _

theorem Part.sweepSpaced_iff (part : Part) (g : Setup) (p : PanelNo) :
    part.sweepSpaced g p = true
      ↔ ∀ since, part.lastSweep.get p = some since → 3600 * g.globals.sweepSpacing < (part.clock.mono - since).toNat := by
  unfold Part.sweepSpaced
  cases part.lastSweep.get p with
  | none => simp
  | some s =>
    rw [decide_eq_true_eq]
    exact ⟨fun h since hs => by cases hs; exact h, fun h => h s rfl⟩

theorem Part.surplusTaken (g : Setup) (p : PanelNo) (part : Part) : SurplusTaken g p part (Part.surplusAt g part p) := by
  refine ⟨fun h => by simp [Part.surplusAt, h], fun c due hc hdue => ?_⟩
  have e : ((!part.sweepBusy p && (part.tilesIn g p c.whole).any (fun x => decide (c.debtSoft ≤ x.2.debt))
      && part.sweepSpaced g p) = true) ↔ due := by
    rw [hdue, Bool.and_eq_true, Bool.and_eq_true, Part.sweepBusy_iff,
      Part.any_whole part g hc fun x => decide (c.debtSoft ≤ x.debt), Part.sweepSpaced_iff]
    simp only [decide_eq_true_eq]
    constructor
    · rintro ⟨⟨a, b⟩, d⟩; exact ⟨⟨b, d⟩, a⟩
    · rintro ⟨⟨b, d⟩, a⟩; exact ⟨⟨a, b⟩, d⟩
  unfold Part.surplusAt
  simp only [hc]
  refine ⟨fun h => ?_, fun h => if_neg fun h' => h (e.1 h')⟩
  rw [if_pos (e.2 h)]
  exact Part.sweepRequested part g hc _

/-! ### The end of a job (R32 to R34) -/

theorem Part.clearRunning_eq (part : Part) (j : Job) : part.clearRunning j = part.withoutRunning j := by
  unfold Part.clearRunning Part.withoutRunning
  cases hj : j.scope with
  | zone n =>
    unfold Part.updateZone
    dsimp only
    congr 1
    apply List.map_congr_left
    intro y _
    by_cases h : y.index = n
    · simp [h]
    · have : ¬(JobScope.zone n = JobScope.zone y.index) := by rintro ⟨⟩; exact h rfl
      simp [h, this]
  | panel p => simp

theorem Part.retires (part : Part) (g : Setup) (j : Job) : part.Retires ((part.slotsFreed g).retireZones g j) g j := by
  refine ⟨_, Part.heldPass_slotsFreed part g, ?_⟩
  rw [← Part.clearRunning_eq]
  have e : g.zonesConcerned j = g.concerned j := by
    unfold Setup.zonesConcerned Setup.concerned Setup.zonesOf
    cases j.scope <;> rfl
  rw [e]
  exact Passes.foldl (fun z x => Part.retireTaken g z x) _ _

end Sys2Proof.Machine
end

