-- ==== Sys2Proof/Laws/Endings.lean ====
section
/-! SUPPORT. What the end of a job can do: the tiles and DIRTY counts it settles, the demand on the rail it withdraws, and
the abort, each said once by the relations of Safety.lean. -/

namespace Sys2Proof.Machine

/-! ### The tiles of an ended job (R17, R23) -/

/-- LOOSE_WRITE is the only cause that an ended job's tiles can latch (R23), and nothing else changes. -/
theorem Part.latchLoose_frame (part : Part) (g : Setup) (j : Job) :
    part.latchLoose g j = { part with unit := { part.unit with causes := (part.latchLoose g j).unit.causes } }
      ∧ ∀ k, k ≠ .looseWrite → (part.latchLoose g j).unit.detail? k = part.unit.detail? k := by
  unfold Part.latchLoose
  split
  · exact ⟨Part.latch_eq .., fun k hk => Part.detail_latch_ne _ _ hk⟩
  · exact ⟨rfl, fun _ _ => rfl⟩

/-- The tiles of a job's rectangle are changed, the DIRTY counts follow and LOOSE_WRITE may be latched. -/
def Part.settled (part : Part) (g : Setup) (j : Job) (f : Nat → Nat → Tile → Tile) : Part :=
  ((part.mapTiles g j.panel j.rect f).followTiles).latchLoose g j

theorem Part.settled_frame (part : Part) (g : Setup) (j : Job) (f : Nat → Nat → Tile → Tile) :
    part.settled g j f = { part with
        tiles := (part.settled g j f).tiles, zones := (part.settled g j f).zones
        unit := { part.unit with causes := (part.settled g j f).unit.causes } }
      ∧ ∀ k, k ≠ .looseWrite → (part.settled g j f).unit.detail? k = part.unit.detail? k := by
  obtain ⟨h, hk⟩ := Part.latchLoose_frame ((part.mapTiles g j.panel j.rect f).followTiles) g j
  have hm : (part.mapTiles g j.panel j.rect f).followTiles = { part with
      tiles := (part.mapTiles g j.panel j.rect f).followTiles.tiles
      zones := (part.mapTiles g j.panel j.rect f).followTiles.zones } := by
    unfold Part.followTiles
    rw [Part.mapTiles_eq]
  refine ⟨?_, fun k h' => (hk k h').trans ?_⟩
  · unfold Part.settled
    rw [h, hm]
  · rw [hm]

theorem Part.settled_tiles (part : Part) (g : Setup) (j : Job) (f : Nat → Nat → Tile → Tile) :
    (part.settled g j f).tiles = (part.mapTiles g j.panel j.rect f).tiles := by
  unfold Part.settled
  rw [(Part.latchLoose_frame _ g j).1]
  rfl

/-- Every tile of the rectangle is changed and no other tile is. -/
theorem Part.tileAt?_settled (part : Part) (g : Setup) (j : Job) (f : Nat → Nat → Tile → Tile) (p : PanelNo) (tx ty : Nat) :
    (part.settled g j f).tileAt? g p tx ty
      = (part.tileAt? g p tx ty).map fun x => if p = j.panel ∧ j.rect.contains tx ty = true then f tx ty x else x := by
  rw [Part.tileAt?_congr (Part.settled_tiles part g j f)]
  by_cases h : p = j.panel
  · subst h
    rw [Part.tileAt?_mapTiles]
    simp
  · rw [Part.tileAt?_mapTiles_other _ _ h]
    simp [h]

/-- Every zone's DIRTY count follows (R17). -/
theorem Part.zone?_settled (part : Part) (g : Setup) (j : Job) (f : Nat → Nat → Tile → Tile) (n : Nat) :
    (part.settled g j f).zone? n
      = (part.zone? n).map fun y => y.counted (part.settled g j f).tiles part.clock.mono := by
  have e : (part.settled g j f).zone? n = (part.mapTiles g j.panel j.rect f).followTiles.zone? n := by
    unfold Part.settled
    rw [(Part.latchLoose_frame _ g j).1]
    rfl
  rw [e, Part.zone?_followTiles, Part.settled_tiles]
  have hz : (part.mapTiles g j.panel j.rect f).zone? n = part.zone? n := by rw [Part.mapTiles_eq]; rfl
  have hc : (part.mapTiles g j.panel j.rect f).clock = part.clock := by rw [Part.mapTiles_eq]
  rw [hz, hc]
  rfl

/-- LOOSE_WRITE is latched where a LOOSE tile of the rectangle is left DIRTY (R23). -/
theorem Part.looseLatched (part : Part) (g : Setup) (j : Job) (f : Nat → Nat → Tile → Tile) :
    part.LooseLatched (part.settled g j f) g j := by
  let moved := (part.mapTiles g j.panel j.rect f).followTiles
  have hu : moved.unit = part.unit := by
    show ((part.mapTiles g j.panel j.rect f).followTiles).unit = part.unit
    rw [Part.mapTiles_eq]
    rfl
  have ht : ∀ tx ty, (part.settled g j f).tileAt? g j.panel tx ty = moved.tileAt? g j.panel tx ty := fun tx ty =>
    Part.tileAt?_congr ((Part.settled_tiles part g j f).trans rfl) ..
  have hany : ((moved.tilesIn g j.panel j.rect).any fun x => x.2.zone == none && x.2.state == .dirty) = true
      ↔ ∃ tx ty x, j.rect.contains tx ty = true ∧ (part.settled g j f).tileAt? g j.panel tx ty = some x ∧ x.zone = none
        ∧ x.state = .dirty := by
    rw [Part.any_tilesIn moved g j.panel j.rect fun x => x.zone == none && x.state == .dirty]
    simp [ht]
  have he : part.settled g j f
      = if (moved.tilesIn g j.panel j.rect).any fun x => x.2.zone == none && x.2.state == .dirty
        then moved.latch .looseWrite j.panel.val else moved := rfl
  refine ⟨fun h => ?_, fun h => ?_⟩
  · rw [he, if_pos (hany.2 h)]
    have hl := Part.latched_latch moved .looseWrite j.panel.val
    unfold Part.Latched at hl ⊢
    rwa [hu] at hl
  · rw [he, if_neg fun hp => ?_, hu]
    obtain ⟨tx, ty, x, a, b, c, d⟩ := hany.1 hp
    exact h tx ty x a b c d

/-- Every tile of an ended job's rectangle is changed by `f`, the DIRTY counts follow and LOOSE_WRITE with them. -/
theorem Part.settledBy (part : Part) (g : Setup) (j : Job) (f : Nat → Nat → Tile → Tile) :
    part.SettledBy (part.settled g j f) g j f :=
  ⟨fun p tx ty x hx => by rw [Part.tileAt?_settled, hx]; rfl,
    fun n y hy => by rw [Part.zone?_settled, hy]; rfl, Part.looseLatched part g j f⟩

/-- A part with the tiles, zones and causes of a settled one is settled alike. -/
theorem Part.SettledBy.congr {before a b : Part} {g : Setup} {j : Job} {f : Nat → Nat → Tile → Tile}
    (h : before.SettledBy a g j f) (ht : b.tiles = a.tiles) (hz : b.zones = a.zones)
    (hk : b.unit.causes = a.unit.causes) : before.SettledBy b g j f := by
  have e : ∀ p tx ty, b.tileAt? g p tx ty = a.tileAt? g p tx ty := Part.tileAt?_congr ht g
  have z : ∀ n, b.zone? n = a.zone? n := fun n => by unfold Part.zone?; rw [hz]
  have d : ∀ k, b.unit.detail? k = a.unit.detail? k := WindowUnit.detail?_congr hk
  unfold Part.SettledBy Part.LooseLatched Part.Latched at h ⊢
  simpa only [e, z, d, ht, hk] using h

/-- An enabled panel's port after the end of its job, in a step that owes a walk already (R129). -/
theorem Part.restIfIdle_eq_ports {part : Part} {p : PanelNo} {c : PanelCfg} (hc : part.panelCfg? p = some c)
    (hw : part.walkOwed = true) :
    part.restIfIdle p
      = { part with ports := part.ports.set p ((part.port p).restsAtOnce c ⟨part.clock.mono, part.clock.tick⟩) } := by
  unfold Part.restIfIdle
  rw [hc]
  dsimp only
  rw [Port.restsAtOnce_eq]
  split
  · unfold Part.changePort Part.oweWalk Part.setPort Part.now
    rw [hw]
  · rw [Part.port, Quad.set_get_self]

/-- What is left of a job that ends reads of the settled part its tiles, zones and causes alone. -/
theorem Part.without_congr {before a b : Part} (ht : b.tiles = a.tiles) (hz : b.zones = a.zones)
    (hk : b.unit.causes = a.unit.causes) (c : PanelCfg) (slot : Nat) (j : Job) (r : RunFields) :
    before.without b c slot j r = before.without a c slot j r := by
  unfold Part.without
  rw [ht, hz, hk]

/-- What is left of a job that ends with its tiles settled, and a last sweep second set (R50, R52, R54, R74, R129). -/
theorem Part.ended_without {part x : Part} {c : PanelCfg} (slot : Nat) (j : Job) (r : RunFields)
    (hx : x = { part with
      tiles := x.tiles, zones := x.zones, lastSweep := x.lastSweep
      unit := { part.unit with causes := x.unit.causes } }) (hc : part.panelCfg? j.panel = some c) :
    (x.endJob slot j r).restIfIdle j.panel = { part.without x c slot j r with lastSweep := x.lastSweep } := by
  have hc' : (x.endJob slot j r).panelCfg? j.panel = some c := by
    have e : x.setup = part.setup := by rw [hx]
    unfold Part.panelCfg? at hc ⊢
    rw [Part.endJob_setup, e]
    exact hc
  rw [Part.restIfIdle_eq_ports hc' rfl]
  unfold Part.without Part.endJob Part.freeSlot Part.setEngine Part.port
  revert hx
  generalize x.tiles = ts, x.zones = zs, x.lastSweep = ls, x.unit.causes = cs
  rintro rfl
  rfl

theorem Part.ended_eq (part : Part) (g : Setup) (slot : Nat) (j : Job) (r : RunFields) {c : PanelCfg}
    (hc : part.panelCfg? j.panel = some c) (f : Nat → Nat → Tile → Tile) :
    ((part.settled g j f).endJob slot j r).restIfIdle j.panel = part.without (part.settled g j f) c slot j r := by
  have h := (Part.settled_frame part g j f).1
  have hl : (part.settled g j f).lastSweep = part.lastSweep := by rw [h]
  rw [Part.ended_without slot j r (h.trans (by rw [hl])) hc, hl]
  rfl

/-! ### The rail (R141) -/

/-- A job of a slot other than one that has been freed. -/
theorem Part.job?_of_mem {part : Part} {j : Job} (h : some j ∈ part.pool) : ∃ k, part.job? k = some j := by
  obtain ⟨k, hk, e⟩ := List.mem_iff_getElem.1 h
  exact ⟨k, by simp [Part.job?, hk, e]⟩

theorem Part.mem_of_job? {part : Part} {k : Nat} {j : Job} (h : part.job? k = some j) : some j ∈ part.pool := by
  unfold Part.job? at h
  cases e : part.pool[k]? with
  | none => simp [e] at h
  | some x =>
    simp only [e] at h
    subst h
    exact List.mem_of_getElem? e

/-- What the withdrawal of a demand does (R141), where only the slot of the job that made it has changed since `before`. -/
theorem Part.railReleased {before part : Part} (g : Setup) {slot : Nat} (hr : part.rail = before.rail)
    (hm : part.clock = before.clock) (hj : ∀ k, k ≠ slot → part.job? k = before.job? k)
    (hs : ∀ q, part.job? slot = some q → q.state ≠ .poised ∧ q.state ≠ .driving) :
    before.RailReleased (part.releaseRail g) g slot := by
  refine ⟨fun h => ?_, fun hu hn => ?_⟩
  · unfold Part.releaseRail
    split
    · next h' =>
      rcases h with h | ⟨k, q, hk, hq, hst⟩
      · exact absurd (hr ▸ h'.1) h
      · exact absurd ((Part.railDemanded_iff part).2 ⟨q, Part.mem_of_job? ((hj k hk).trans hq), hst⟩) (by simp [h'.2])
    · exact hr
  · have hd : part.railDemanded = false := by
      rw [Bool.eq_false_iff]
      intro h
      obtain ⟨q, hq, hst⟩ := (Part.railDemanded_iff part).1 h
      obtain ⟨k, hk⟩ := Part.job?_of_mem hq
      by_cases e : k = slot
      · subst e
        exact hst.elim (hs q hk).1 (hs q hk).2
      · exact hst.elim (hn k q e ((hj k e).symm.trans hk)).1 (hn k q e ((hj k e).symm.trans hk)).2
    unfold Part.releaseRail
    rw [if_pos ⟨by rw [hr]; exact hu, hd⟩]
    split
    · show (part.lowerRail g).rail = _
      unfold Part.lowerRail Part.changeRail Part.now
      rw [hm]
      rfl
    · show Part.rail (Part.changeRail _ _) = _
      rw [← hr]
      rfl

theorem Part.releaseRail_frame (part : Part) (g : Setup) :
    part.releaseRail g
      = { part with rail := (part.releaseRail g).rail, walkOwed := (part.releaseRail g).walkOwed } := by
  unfold Part.releaseRail Part.lowerRail Part.changeRail
  split
  · split <;> rfl
  · rfl

/-! ### The abort (R34, R54) -/

theorem Part.zone?_abortZoneAt (part : Part) (z : ZoneCfg) (n : Nat) :
    (part.abortZoneAt z).zone? n = (part.zone? n).map fun y => if n = z.index then
      { y with timer := some z.settle, expired := false, epochWait := y.epochWait || decide (z.cls = .timed) } else y := by
  unfold Part.abortZoneAt Part.restartTimer
  rw [Part.zone?_updateZone _ _ _ (fun x => { x with epochWait := x.epochWait || z.cls == .timed }) fun _ => rfl,
    Part.zone?_updateZone _ _ _ (fun y => { y with timer := some z.settle, expired := false }) fun _ => rfl]
  cases part.zone? n with
  | none => rfl
  | some y =>
    by_cases h : n = z.index
    · simp only [Option.map_some, h, if_true]
      cases z.cls <;> rfl
    · simp [h]

theorem Part.foldl_abortZoneAt_frame (zs : List ZoneCfg) (part : Part) :
    zs.foldl Part.abortZoneAt part = { part with zones := (zs.foldl Part.abortZoneAt part).zones } := by
  induction zs generalizing part with
  | nil => rfl
  | cons z zs ih =>
    rw [List.foldl_cons, ih]
    rfl

/-- A zone that none of the handled ones is keeps its record. -/
theorem Part.zone?_foldl_abortZoneAt_ne (zs : List ZoneCfg) (part : Part) (n : Nat) (h : ∀ z ∈ zs, z.index ≠ n) :
    (zs.foldl Part.abortZoneAt part).zone? n = part.zone? n := by
  induction zs generalizing part with
  | nil => rfl
  | cons z zs ih =>
    have hz : ¬n = z.index := fun e => h z List.mem_cons_self e.symm
    rw [List.foldl_cons, ih _ fun z' hz' => h z' (List.mem_cons_of_mem _ hz'), Part.zone?_abortZoneAt]
    cases part.zone? n <;> simp [hz]

/-- A handled zone whose index is its own has its timer restarted, once or again. -/
theorem Part.zone?_foldl_abortZoneAt (zs : List ZoneCfg) (part : Part) (z : ZoneCfg) (hz : z ∈ zs)
    (hu : ∀ z' ∈ zs, z'.index = z.index → z' = z) :
    (zs.foldl Part.abortZoneAt part).zone? z.index = (part.zone? z.index).map fun y =>
      { y with timer := some z.settle, expired := false, epochWait := y.epochWait || decide (z.cls = .timed) } := by
  induction zs generalizing part with
  | nil => cases hz
  | cons z' zs ih =>
    rw [List.foldl_cons]
    by_cases hin : z ∈ zs
    · rw [ih _ hin fun w hw => hu w (List.mem_cons_of_mem _ hw), Part.zone?_abortZoneAt]
      by_cases e : z.index = z'.index
      · have := hu z' List.mem_cons_self e.symm
        subst this
        cases part.zone? z'.index with
        | none => rfl
        | some y => simp
      · cases part.zone? z.index <;> simp [e]
    · have hz' : z = z' := by
        rcases List.mem_cons.1 hz with h | h
        · exact h
        · exact absurd h hin
      subst hz'
      rw [Part.zone?_foldl_abortZoneAt_ne _ _ _ fun w hw e => hin (hu w (List.mem_cons_of_mem _ hw) e ▸ hw),
        Part.zone?_abortZoneAt]
      cases part.zone? z.index <;> simp

theorem Part.zone?_withoutRunning (part : Part) (j : Job) (n : Nat) :
    (part.withoutRunning j).zone? n = (part.zone? n).map fun y =>
      { y with runningJob := if j.scope = .zone n then none else y.runningJob } := by
  unfold Part.withoutRunning Part.zone?
  rw [find_map_zone _ _ _ fun y => by split <;> rfl]
  cases h : part.zones.find? fun y => y.index == n with
  | none => rfl
  | some y =>
    have e : y.index = n := by simpa using List.find?_some h
    subst e
    by_cases h' : j.scope = .zone y.index <;> simp [h']

/-- The zones a job concerns (R33). -/
theorem Setup.mem_concerned (g : Setup) (j : Job) (z : ZoneCfg) (hu : ∀ z' ∈ g.zones, z'.index = z.index → z' = z)
    (hz : z ∈ g.zones) (h : j.scope = .zone z.index ∨ j.scope = .panel z.panel) : z ∈ g.concerned j := by
  unfold Setup.concerned
  rcases h with h | h <;> rw [h]
  · have : ∃ z', g.zones.find? (fun z' => z'.index == z.index) = some z' := by
      rw [← Option.isSome_iff_exists, List.find?_isSome]
      exact ⟨z, hz, by simp⟩
    obtain ⟨z', e⟩ := this
    have := hu z' (List.mem_of_find?_eq_some e) (by simpa using List.find?_some e)
    subst this
    show z' ∈ (g.zones.find? fun w => w.index == z'.index).toList
    rw [e]
    simp
  · simp [Setup.zonesOf, hz]

theorem Setup.concerned_subset (g : Setup) (j : Job) (z : ZoneCfg) (h : z ∈ g.concerned j) :
    z ∈ g.zones ∧ (j.scope = .zone z.index ∨ j.scope = .panel z.panel) := by
  unfold Setup.concerned at h
  cases hs : j.scope with
  | zone n =>
    rw [hs] at h
    have e : g.zones.find? (fun w => w.index == n) = some z := by
      cases e : g.zone? n with
      | none => simp [e] at h
      | some w =>
        simp only [e, Option.toList_some, List.mem_singleton] at h
        subst h
        exact e
    exact ⟨List.mem_of_find?_eq_some e, .inl (by rw [show z.index = n by simpa using List.find?_some e])⟩
  | panel p =>
    rw [hs] at h
    simp only [Setup.zonesOf, List.mem_filter, beq_iff_eq] at h
    exact ⟨h.1, .inr (by rw [h.2])⟩

/-- In HALTING the running count reaching 0 ends the halt (R59). -/
theorem Part.halted (part : Part) : part.Halted part.checkHalted := by
  unfold Part.checkHalted
  refine ⟨fun h => ?_, fun h => if_neg h⟩
  rw [if_pos h]
  have hl := Part.latched_latch { part with unit := { part.unit with runState := .stopped } } .halted 0
  refine ⟨?_, hl⟩
  rw [Part.latch_eq]
  rfl

/-- The HELD retry, the handling of the zones that the abort of a job concerns, and the end of a halt (R32, R34, R59). -/
theorem Part.aborts (part : Part) (g : Setup) (x : RunningJob) :
    part.Aborts (Part.abortZones g (part.slotsFreed g) x).checkHalted g x.2.1 := by
  refine ⟨_, Part.abortZones g (part.slotsFreed g) x, Part.heldPass_slotsFreed part g, ?_, Part.halted _,
    fun z y hz hu hs hy => ?_, fun n y h1 h2 hy => ?_⟩
  · unfold Part.abortZones
    rw [Part.clearRunning_eq, Part.foldl_abortZoneAt_frame]
    rfl
  · unfold Part.abortZones
    rw [Part.clearRunning_eq, Part.zone?_foldl_abortZoneAt _ _ z (Setup.mem_concerned g x.2.1 z hu hz hs)
      fun w hw => hu w (Setup.concerned_subset g _ w hw).1, Part.zone?_withoutRunning, hy]
    simp
  · unfold Part.abortZones
    rw [Part.clearRunning_eq, Part.zone?_foldl_abortZoneAt_ne _ _ _ ?_, Part.zone?_withoutRunning, hy]
    · simp [h1]
    · rintro z hz rfl
      obtain ⟨a, b | b⟩ := Setup.concerned_subset g _ z hz
      · exact h1 b
      · exact h2 z a rfl b

/-- The abort of one job (R54): it is cut, its demand on the rail withdrawn, and its zones handled. -/
theorem Part.aborted (part : Part) (g : Setup) {c : PanelCfg} (slot : Nat) (j : Job) (r : RunFields)
    (hc : part.panelCfg? j.panel = some c) :
    ∃ cut, part.Aborted cut (part.abortJob g slot j r) g c slot j r := by
  let f : Nat → Nat → Tile → Tile := fun _ _ t => { t with state := .dirty, untrusted := true, redirty := false }
  have e : Part.cutJob g part (slot, j, r) = part.without (part.settled g j f) c slot j r :=
    Part.ended_eq part g slot j r hc f
  have hf := Part.releaseRail_frame (Part.cutJob g part (slot, j, r)) g
  have hw : ((Part.cutJob g part (slot, j, r)).releaseRail g).walkOwed = true := by
    rw [e]
    unfold Part.releaseRail Part.lowerRail Part.changeRail
    split
    · split <;> rfl
    · rfl
  rw [hw] at hf
  refine ⟨(Part.cutJob g part (slot, j, r)).releaseRail g, ?_, ?_, ?_, Part.aborts _ g (slot, j, r)⟩
  · rw [Part.without_congr (a := part.settled g j f) (by rw [hf, e]; rfl) (by rw [hf, e]; rfl) (by rw [hf, e]; rfl)]
    rw [e] at hf ⊢
    exact hf
  · have hb : part.SettledBy (part.settled g j f) g j f := Part.settledBy part g j f
    refine hb.congr ?_ ?_ ?_ <;> rw [hf, e] <;> rfl
  · refine Part.railReleased g ?_ ?_ (fun k hk => ?_) fun q hq => ?_
    · rw [e]; rfl
    · rw [e]; rfl
    · rw [e]
      simp [Part.job?, Part.without, Ne.symm hk]
    · rw [e] at hq
      by_cases hl : slot < part.pool.length
      · simp [Part.job?, Part.without, hl] at hq
      · simp [Part.job?, Part.without, Nat.not_lt.1 hl] at hq

/-! ### The retirement (R50, R52, R53, R59) -/

/-- The two ways of saying what a tile's settling does at a retirement (R72, R73, R120). -/
theorem Tile.settle_eq (mode : DriveMode) (weight : Nat) (k : TileContext) (x : Tile) :
    x.settle mode weight k = x.settledBy mode weight k := by
  unfold Tile.settle Tile.settledBy TileContext.outcome
  cases mode <;> cases k.tainted <;> cases k.underrun <;> by_cases h : 0 < k.changed <;> simp [h]

/-- A null job's retirement (R50). -/
theorem Part.nullRetired (part : Part) (g : Setup) {c : PanelCfg} (slot : Nat) (j : Job) (r : RunFields)
    (hc : part.panelCfg? j.panel = some c) :
    ∃ ended retired, part.NullRetired ended retired (part.retireNull g slot j r) g c slot j r := by
  let f : Nat → Nat → Tile → Tile := fun _ _ x =>
    { x with state := if x.redirty then .dirty else .clean, redirty := false }
  have e : ((part.settled g j f).endJob slot j r).restIfIdle j.panel = part.without (part.settled g j f) c slot j r :=
    Part.ended_eq part g slot j r hc f
  refine ⟨((part.settled g j f).endJob slot j r).restIfIdle j.panel, _, ?_, ?_, Part.retires _ g j, Part.halted _⟩
  · rw [e]; rfl
  · exact (Part.settledBy part g j f).congr (by rw [e]; rfl) (by rw [e]; rfl) (by rw [e]; rfl)

theorem Engine.copiedTiles_pos (e : Engine) (mode : DriveMode) :
    0 < e.copiedTiles mode ↔ ∃ x ∈ e.context, x.outcome mode = .copied := by
  simp [Engine.copiedTiles, List.countP_pos_iff]

/-- URGENT_SHOWN at a retirement (R53). -/
theorem Part.shownLatched (part : Part) (j : Job) (r : RunFields) (e : Engine) :
    part.ShownLatched (part.noteUrgent j (e.copiedTiles r.mode)) j r e := by
  unfold Part.noteUrgent
  refine ⟨fun h1 h2 => ?_, fun h => if_neg ?_⟩
  · rw [if_pos ⟨(Engine.copiedTiles_pos e r.mode).2 h1, h2⟩]
    exact ⟨Part.latch_eq .., Part.latched_latch ..⟩
  · rw [Engine.copiedTiles_pos]
    rintro ⟨⟨x, hx, hk⟩, hu⟩
    rcases h with h | ⟨h1, h2⟩
    · exact h x hx hk
    · simp_all

theorem Part.noteSweep_frame (part : Part) (j : Job) (r : RunFields) (n : Nat) :
    part.noteSweep j r n = { part with lastSweep := (part.noteSweep j r n).lastSweep } := by
  unfold Part.noteSweep
  split
  · split <;> rfl
  · rfl

/-- The retirement of a job whose commit copy has ended (R52, R53, R74, R120). -/
theorem Part.commitRetired (part : Part) (g : Setup) {c : PanelCfg} (slot : Nat) (j : Job) (r : RunFields) (e : Engine)
    (hc : part.panelCfg? j.panel = some c) :
    ∃ ended retired, part.CommitRetired ended retired (part.retireJob g slot j r e) g c slot j r e := by
  let f : Nat → Nat → Tile → Tile := fun tx ty t => t.settle r.mode (g.band r.band).weight (e.entry j.rect tx ty)
  let noted := (part.settled g j f).noteSweep j r (e.copiedTiles r.mode)
  have hn : noted = { part.settled g j f with lastSweep := noted.lastSweep } := Part.noteSweep_frame ..
  have he : (noted.endJob slot j r).restIfIdle j.panel
      = { part.without (part.settled g j f) c slot j r with lastSweep := noted.lastSweep } := by
    have h := (Part.settled_frame part g j f).1
    have := Part.ended_without (x := noted) slot j r (hn.trans ?_) hc
    · rw [this, Part.without_congr (a := part.settled g j f)] <;> rw [hn]
    · generalize noted.lastSweep = l at hn
      rw [hn, h]
  have hl0 : (part.settled g j f).lastSweep = part.lastSweep := by rw [(Part.settled_frame part g j f).1]
  have hc0 : (part.settled g j f).clock = part.clock := by rw [(Part.settled_frame part g j f).1]
  refine ⟨(noted.endJob slot j r).restIfIdle j.panel, _, ?_, ?_, ?_, ?_, Part.retires _ g j, _, Part.shownLatched _ j r e,
    Part.halted _⟩
  · rw [he]; rfl
  · have := (Part.settledBy part g j f).congr (b := (noted.endJob slot j r).restIfIdle j.panel)
      (by rw [he]; rfl) (by rw [he]; rfl) (by rw [he]; rfl)
    simpa only [f, Tile.settle_eq] using this
  · intro p hp hm hx
    rw [he]
    show ((part.settled g j f).noteSweep j r (e.copiedTiles r.mode)).lastSweep = _
    have h' : 0 < e.copiedTiles r.mode := by rw [hm]; exact (Engine.copiedTiles_pos e .full).2 hx
    unfold Part.noteSweep
    rw [hp]
    simp only [hm, true_and]
    rw [if_pos (by rw [← hm]; exact h')]
    show (part.settled g j f).lastSweep.set p (some (part.settled g j f).clock.mono) = _
    rw [hl0, hc0]
  · intro h
    rw [he]
    show ((part.settled g j f).noteSweep j r (e.copiedTiles r.mode)).lastSweep = _
    unfold Part.noteSweep
    split
    · next p hp =>
      rw [if_neg, hl0]
      rintro ⟨hm, hx⟩
      rw [hm, Engine.copiedTiles_pos] at hx
      obtain ⟨x, hx1, hx2⟩ := hx
      rcases h with h | h | h
      · exact h p hp
      · rw [hm] at h; cases h
      · exact h x hx1 hx2
    · exact hl0

end Sys2Proof.Machine
end

