-- ==== Sys2Proof/Laws/Drive.lean ====
section
/-! SUPPORT. The drive: the next fill, what a line slot sends, the start of a drive, the demand on the rail, a commit's next
group and its beginning, each said once by the relations of Safety.lean. -/

namespace Sys2Proof.Machine

/-! ### The feed and the line slots (R112, R113, R115, R116, R131) -/

theorem nextFeed_eq (j : Job) (frames f y : Nat) : nextFeed j frames f y = j.rowAfter frames (f, y) := rfl

theorem feedBurst_eq (c : PanelCfg) (p : PanelNo) (j : Job) (mode : DriveMode) (y : Nat) :
    feedBurst c p j mode y j.rect.tx0 = j.feedAsked mode c p y := by
  cases mode <;> rfl

/-- The next fill begins where it may, and nothing else happens. -/
theorem Engine.fillsNext (e : Engine) (c : PanelCfg) (p : PanelNo) (j : Job) (mode : DriveMode) (frames : Nat) :
    e.FillsNext (e.startFill c p j mode frames) c p j mode frames := by
  refine ⟨fun h => ?_, fun x hf hs hx hb => ?_⟩
  · rcases h with h | h | h | h
    · exact Engine.startFill_eq_self _ _ _ _ _ _ (.inl h)
    · exact Engine.startFill_eq_self _ _ _ _ _ _ (.inr (.inl h))
    · exact Engine.startFill_eq_self _ _ _ _ _ _ (.inr (.inr h))
    · unfold Engine.startFill
      rw [if_neg (by omega)]
  · obtain ⟨f, y⟩ := x
    unfold Engine.startFill
    rw [if_pos ⟨by simp [hf], hb, hs⟩, hx]
    simp only [nextFeed_eq, feedBurst_eq]

theorem Engine.markUnderrun_eq (r : Rect) (ty n : Nat) :
    ∀ (tx : Nat) (e : Engine), Engine.markUnderrun r ty n tx e
      = { e with context := (Engine.markUnderrun r ty n tx e).context } := by
  induction n with
  | zero => intros; rfl
  | succ n ih => intro tx e; rw [Engine.markUnderrun, ih]; rfl

theorem Engine.markUnderrun_length (r : Rect) (ty n : Nat) :
    ∀ (tx : Nat) (e : Engine), (Engine.markUnderrun r ty n tx e).context.length = e.context.length := by
  induction n with
  | zero => intros; rfl
  | succ n ih => intro tx e; rw [Engine.markUnderrun, ih]; simp [Engine.updateEntry]

/-- What a line slot sends and leaves but for the port's record (R115, R116, R131). -/
theorem Part.rowSent {part : Part} {g : Setup} {c : PanelCfg} {p : PanelNo} {w : Window} {slot : Nat} {j : Job}
    {r : RunFields} {e : Engine} (hr : part.running? p = some (slot, j, r)) (hj : j.state = .driving)
    (he : part.engine? p = some e) :
    ∃ e', part.RowSent (part.slotRow g c p w).1 g c p w j r e e' (part.slotRow g c p w).2
      ∧ (part.slotRow g c p w).1.engine? p = some e' := by
  unfold Part.slotRow
  rw [hr, he]
  simp only [Setup.frames_eq_frameCount, hj]
  by_cases h0 : w.ending = true ∨ part.rail.state ≠ .up
  · rw [if_pos (by simpa using h0)]
    refine ⟨e, ⟨fun _ => ⟨rfl, rfl, rfl⟩, fun _ _ h1 h2 => ?_, fun h1 h2 => ?_⟩, he⟩ <;> simp_all
  · rw [if_neg (by simpa using h0)]
    cases hb : e.buffer with
    | cons pair rest =>
      refine ⟨Engine.startFill { e with buffer := rest } c p j r.mode (g.frameCount r),
        ⟨fun h => absurd h h0, fun _ _ _ _ h => ?_, fun _ _ h => ?_⟩, by simp [Part.engine?]⟩
      · rw [hb] at h
        cases h
        exact ⟨rfl, rfl, Engine.fillsNext ..⟩
      · rw [hb] at h
        cases h
    | nil =>
      dsimp only
      let marked := Engine.markUnderrun j.rect (w.slotRow / 32) j.rect.cols j.rect.tx0 e
      have hm : marked = { e with context := marked.context } := Engine.markUnderrun_eq ..
      have hl : marked.context.length = e.context.length := Engine.markUnderrun_length ..
      have hleft : marked.abandonRow j (g.frameCount r) = { e with
          context := (marked.abandonRow j (g.frameCount r)).context
          fill := none
          request := if e.fill.isSome then none else e.request
          discard := if e.fill.isSome then e.inFlight else e.discard
          feed := if e.fill.isSome then e.feed else e.feed.bind (j.rowAfter (g.frameCount r)) } := by
        rw [Engine.abandonRow_context]
        generalize hcx : marked.context = cx at hm
        rw [hm]
        unfold Engine.abandonRow
        cases hf : e.fill with
        | some x => simp
        | none => cases e.feed <;> simp [nextFeed_eq]
      refine ⟨(marked.abandonRow j (g.frameCount r)).startFill c p j r.mode (g.frameCount r),
        ⟨fun h => absurd h h0, fun _ _ _ _ h => ?_, fun _ _ _ => ?_⟩, ?_⟩
      · rw [hb] at h
        cases h
      · refine ⟨marked.abandonRow j (g.frameCount r), ?_, rfl, ?_, hleft, by rw [Engine.abandonRow_context, hl], ?_,
          Engine.fillsNext ..⟩
        · rw [Part.latch_eq]
          rfl
        · exact Part.latched_latch (part.setEngine p _) .underrun p.val
        · intro hc h1 h2 tx ty hxy
          have := Engine.markUnderrun_entry j.rect (w.slotRow / 32) ⟨h1, h2⟩ j.rect.cols j.rect.tx0 e (Nat.le_refl _)
            (by simp [Rect.contains] at hxy; simp [Rect.cols]; omega) hc tx ty hxy
          unfold Engine.entry at this ⊢
          rw [Engine.abandonRow_context]
          refine this.trans ?_
          simp only [Window.slotRow]
          have hin : j.rect.tx0 ≤ tx ∧ tx < j.rect.tx0 + j.rect.cols := by
            simp [Rect.contains] at hxy
            simp [Rect.cols]
            omega
          by_cases h : ty = (w.y0 + w.slots) / 32 <;> simp [h, hin]
      · rw [Part.latch_eq]
        simp [Part.engine?]
        rfl

/-! ### The start of a drive and the demand on the rail (R130, R140, R141) -/

/-- A drive starts: the job is DRIVING and its port opened (R130). -/
theorem Part.startDrive_eq {part : Part} {g : Setup} {c : PanelCfg} {p : PanelNo} {slot : Nat} {j : Job} {r : RunFields}
    (hr : part.running? p = some (slot, j, r)) (hc : g.panels.get p = some c) :
    part.startDrive g p = { part with
      pool := part.pool.set slot (some { j with state := .driving })
      ports := part.ports.set p ((part.port p).opened g c j r)
      walkOwed := true } := by
  unfold Part.startDrive
  rw [hr, hc]
  simp only [Setup.frames_eq_frameCount]
  rfl

/-- A POISED job's drive starts where the rail is UP and its port READY with no query due, and else nothing happens. -/
theorem Part.driveIfReady_eq {part : Part} {g : Setup} {c : PanelCfg} {p : PanelNo} {slot : Nat} {j : Job}
    {r : RunFields} (hr : part.running? p = some (slot, j, r)) (hj : j.state = .poised) (hc : g.panels.get p = some c)
    {starts : Bool} (hs : starts = true ↔
      part.rail.state = .up ∧ (part.port p).state = .ready ∧ (part.port p).queryDue = false) :
    part.driveIfReady g p = if starts then { part with
      pool := part.pool.set slot (some { j with state := .driving })
      ports := part.ports.set p ((part.port p).opened g c j r)
      walkOwed := true } else part := by
  have hd : part.canDrive p = starts := by
    rw [Bool.eq_iff_iff, hs]
    simp [Part.canDrive, Part.stage?, hr, hj, and_assoc]
  unfold Part.driveIfReady
  rw [hd, Part.startDrive_eq hr hc]

/-- A job that has become POISED demands the rail (R140, R141); a change of the rail's state causes a walk. -/
theorem Part.demandRail_eq (part : Part) (g : Setup) :
    part.demandRail g = { part with
      rail := part.rail.wanted g
      walkOwed := part.walkOwed || decide ((part.rail.wanted g).state ≠ part.rail.state) } := by
  unfold Part.demandRail Rail.wanted
  cases h : part.rail.state with
  | linger => simp [Part.changeRail]
  | off => cases hn : part.rail.lastNegation <;> simp [Part.raiseRail, Part.changeRail, h, hn]
  | _ => simp [h]

/-! ### The commit (R118, R119) -/

theorem Engine.copyRun_bounds (e : Engine) (r : Rect) (mode : DriveMode) (ty : Nat) (n : Nat) :
    ∀ tx, e.copyRun r mode ty n tx ≤ n
      ∧ (0 < e.copyRun r mode ty n tx → tx + e.copyRun r mode ty n tx ≤ r.tx1 + 1)
      ∧ (∀ x, tx ≤ x → x < tx + e.copyRun r mode ty n tx → e.toCopy r mode x ty = true)
      ∧ (e.copyRun r mode ty n tx < n → tx + e.copyRun r mode ty n tx ≤ r.tx1 →
          e.toCopy r mode (tx + e.copyRun r mode ty n tx) ty = false) := by
  induction n with
  | zero =>
    intro tx
    simp only [Engine.copyRun]
    exact ⟨Nat.le_refl _, fun h => absurd h (by omega), fun x a d => absurd d (by omega), fun h => absurd h (by omega)⟩
  | succ n ih =>
    intro tx
    obtain ⟨h1, h2, h3, h4⟩ := ih (tx + 1)
    unfold Engine.copyRun
    split
    · next h =>
      refine ⟨by omega, fun _ => ?_, fun x ha hb => ?_, fun ha hb => ?_⟩
      · by_cases h0 : 0 < e.copyRun r mode ty n (tx + 1)
        · have := h2 h0; omega
        · omega
      · by_cases hx : x = tx
        · rw [hx]; exact h.2
        · exact h3 x (by omega) (by omega)
      · have := h4 (by omega) (by omega)
        rw [show tx + (1 + e.copyRun r mode ty n (tx + 1)) = tx + 1 + e.copyRun r mode ty n (tx + 1) by omega]
        exact this
    · next h =>
      refine ⟨by omega, by omega, by omega, fun _ hb => ?_⟩
      rw [Nat.add_zero] at hb ⊢
      cases hc : e.toCopy r mode tx ty
      · rfl
      · exact absurd ⟨hb, hc⟩ h

theorem Engine.copyRun_pos (e : Engine) (r : Rect) (mode : DriveMode) (ty n tx : Nat) (h : tx ≤ r.tx1)
    (hc : e.toCopy r mode tx ty = true) : 0 < e.copyRun r mode ty (n + 1) tx := by
  unfold Engine.copyRun
  rw [if_pos ⟨h, hc⟩]
  omega

theorem Engine.groupFrom_some (e : Engine) (r : Rect) (mode : DriveMode) (ty : Nat) (n : Nat) :
    ∀ tx x w, tx + n = r.tx1 + 1 → e.groupFrom r mode ty n tx = some (x, w) →
      tx ≤ x ∧ x ≤ r.tx1 ∧ e.toCopy r mode x ty = true ∧ w = e.copyRun r mode ty 16 x
        ∧ ∀ y, tx ≤ y → y < x → e.toCopy r mode y ty = false := by
  induction n with
  | zero => intro tx x w _ h; cases h
  | succ n ih =>
    intro tx x w hn h
    unfold Engine.groupFrom at h
    split at h
    · next hc =>
      cases h
      exact ⟨Nat.le_refl _, by omega, hc, rfl, fun y a b => by omega⟩
    · next hc =>
      obtain ⟨a, b, d, f, k⟩ := ih (tx + 1) x w (by omega) h
      refine ⟨by omega, b, d, f, fun y h1 h2 => ?_⟩
      by_cases hy : y = tx
      · rw [hy]; simpa using hc
      · exact k y (by omega) h2

theorem Engine.groupFrom_none (e : Engine) (r : Rect) (mode : DriveMode) (ty : Nat) (n : Nat) :
    ∀ tx, e.groupFrom r mode ty n tx = none → ∀ y, tx ≤ y → y < tx + n → e.toCopy r mode y ty = false := by
  induction n with
  | zero => intro tx _ y a b; omega
  | succ n ih =>
    intro tx h y a b
    unfold Engine.groupFrom at h
    split at h
    · cases h
    · next hc =>
      by_cases hy : y = tx
      · rw [hy]; simpa using hc
      · exact ih (tx + 1) h y (by omega) (by omega)

theorem Engine.commitFrom_spec (e : Engine) (b : Rect) (mode : DriveMode) (n : Nat) :
    ∀ y0 x0, y0 + n = b.lastRow + 1 ∨ (n = 0 ∧ b.lastRow + 1 ≤ y0) →
      (∀ row tx w, e.commitFrom b mode n y0 x0 = some (row, tx, w) →
        b.NextGroup (fun x y => e.toCopy b mode x (y / 32) = true) y0 x0 row tx w)
      ∧ (e.commitFrom b mode n y0 x0 = none → b.NoneLeft (fun x y => e.toCopy b mode x (y / 32) = true) y0 x0) := by
  induction n with
  | zero =>
    intro y0 x0 hn
    refine ⟨fun _ _ _ h => (by cases h), fun _ y x h1 h2 h3 h4 => ?_⟩
    have : b.lastRow = 32 * b.ty1 + 31 := rfl
    omega
  | succ n ih =>
    intro y0 x0 hn
    have hlr : b.lastRow = 32 * b.ty1 + 31 := rfl
    obtain ⟨i1, i2⟩ := ih (y0 + 1) b.tx0 (by omega)
    unfold Engine.commitFrom
    cases hg : e.groupFrom b mode (y0 / 32) (b.tx1 + 1 - x0) x0 with
    | some xw =>
      obtain ⟨x, w⟩ := xw
      refine ⟨fun row tx w' h => ?_, fun h => (by cases h)⟩
      cases h
      have hx0 : x0 + (b.tx1 + 1 - x0) = b.tx1 + 1 := by
        rcases Nat.lt_or_ge b.tx1 x0 with h | h
        · rw [show b.tx1 + 1 - x0 = 0 by omega] at hg
          cases hg
        · omega
      obtain ⟨h1, h2, h3, h4, h5⟩ := Engine.groupFrom_some e b mode _ _ _ _ _ hx0 hg
      obtain ⟨c1, c2, c3, c4⟩ := e.copyRun_bounds b mode (y0 / 32) 16 x
      have hp := e.copyRun_pos b mode (y0 / 32) 15 x h2 h3
      subst h4
      refine ⟨hp, c1, by omega, c2 hp, by omega, .inr ⟨rfl, h1⟩, c3, fun a d => by simpa using c4 a d,
        fun y x' a d f k => ?_⟩
      rcases f with f | ⟨f, f'⟩
      · omega
      · subst f
        simpa using h5 x' f' (by omega)
    | none =>
      have hnone := Engine.groupFrom_none e b mode _ _ _ hg
      have skip : ∀ y x, b.tx0 ≤ x → x ≤ b.tx1 → (y0 < y ∨ (y = y0 ∧ x0 ≤ x)) →
          e.toCopy b mode x (y / 32) = true → y0 + 1 < y ∨ (y = y0 + 1 ∧ b.tx0 ≤ x) := by
        intro y x a d f k
        rcases f with f | ⟨f, f'⟩
        · omega
        · subst f
          rw [hnone x f' (by omega)] at k
          cases k
      refine ⟨fun row tx w h => ?_, fun h y x a d f k hc => i2 h y x a d f (skip y x a d k hc) hc⟩
      obtain ⟨h1, h2, h3, h4, h5, h6, h7, h8, h9⟩ := i1 row tx w h
      refine ⟨h1, h2, h3, h4, fun _ => h5 (Nat.le_refl _), by omega, h7, h8, fun y x a d f k hc => ?_⟩
      exact h9 y x a d (skip y x a d f hc) k hc

/-- A commit's next group, from a row of its rectangle on (R119): the first run of tiles to be copied is asked for, or
nothing is left to be copied. -/
theorem Engine.nextCommit_spec (e : Engine) (c : PanelCfg) (p : PanelNo) (b : Rect) (mode : DriveMode) (y0 x0 : Nat) :
    (∀ e', e.nextCommit c p b mode y0 x0 = some e' → ∃ row tx n,
      b.NextGroup (fun x y => e.toCopy b mode x (y / 32) = true) y0 x0 row tx n
        ∧ e' = { e with
            commit := some ⟨row, tx, n, false⟩
            request := some
              { kind := .commitRead, panel := p, row := row, tx := tx, tiles := n
                addr := c.stageBase + row * c.stride + 8 * tx, data := [] } })
    ∧ (e.nextCommit c p b mode y0 x0 = none →
      b.NoneLeft (fun x y => e.toCopy b mode x (y / 32) = true) y0 x0) := by
  have hn : y0 + (b.lastRow + 1 - y0) = b.lastRow + 1 ∨ (b.lastRow + 1 - y0 = 0 ∧ b.lastRow + 1 ≤ y0) := by omega
  obtain ⟨h1, h2⟩ := e.commitFrom_spec b mode (b.lastRow + 1 - y0) y0 x0 hn
  unfold Engine.nextCommit
  split
  · next row tx n hg =>
    refine ⟨fun e' h => ?_, fun h => (by cases h)⟩
    cases h
    exact ⟨row, tx, n, h1 row tx n hg, rfl⟩
  · next hg => exact ⟨fun _ h => (by cases h), fun _ => h2 hg⟩

end Sys2Proof.Machine
end

