-- ==== Sys2Proof/Laws/Memory.lean ====
section
/-! SUPPORT. The sign memory: a read after a write, and the canonical form that every write keeps. -/

namespace Sys2Proof.Machine

/-! ### Canonical form as a property of the list -/

/-- A cell with a lower address than every cell of a list. -/
theorem Memory.wf_cons {c : Host.Cell} {m : Memory} :
    Memory.wf (c :: m) = true ↔
      (c.2 != Config.unwrittenByte) = true ∧ (∀ d, m.head? = some d → c.1 < d.1) ∧ Memory.wf m = true := by
  cases m with
  | nil => simp [Memory.wf]
  | cons d m => simp [Memory.wf, and_assoc]

theorem Memory.wf_tail {c : Host.Cell} {m : Memory} (h : Memory.wf (c :: m) = true) : Memory.wf m = true :=
  (Memory.wf_cons.mp h).2.2

/-- In canonical form the first address lies below every later one. -/
theorem Memory.wf_lt {c : Host.Cell} {m : Memory} (h : Memory.wf (c :: m) = true) : ∀ d ∈ m, c.1 < d.1 := by
  induction m generalizing c with
  | nil => simp
  | cons e m ih =>
    obtain ⟨-, hlt, htail⟩ := Memory.wf_cons.mp h
    have hce : c.1 < e.1 := hlt e rfl
    intro d hd
    rcases List.mem_cons.mp hd with rfl | hd
    · exact hce
    · exact Nat.lt_trans hce (ih htail d hd)

theorem Memory.wf_of_lt {c : Host.Cell} {m : Memory} (hc : (c.2 != Config.unwrittenByte) = true)
    (hlt : ∀ d ∈ m, c.1 < d.1) (hm : Memory.wf m = true) : Memory.wf (c :: m) = true :=
  Memory.wf_cons.mpr ⟨hc, fun d hd => hlt d (List.mem_of_mem_head? hd), hm⟩

theorem Memory.wf_filter (f : Host.Cell → Bool) {m : Memory} (h : Memory.wf m = true) :
    Memory.wf (m.filter f) = true := by
  induction m with
  | nil => simp [Memory.wf]
  | cons c m ih =>
    have ht := ih (Memory.wf_tail h)
    rw [List.filter_cons]
    split
    · exact Memory.wf_of_lt (Memory.wf_cons.mp h).1
        (fun d hd => Memory.wf_lt h d (List.mem_filter.mp hd).1) ht
    · exact ht

theorem Memory.mem_insert {c d : Host.Cell} {m : Memory} (h : d ∈ Memory.insert c m) : d = c ∨ d ∈ m := by
  induction m with
  | nil => simpa [Memory.insert] using h
  | cons e m ih =>
    rw [Memory.insert] at h
    split at h
    · simpa using h
    · rcases List.mem_cons.mp h with rfl | h
      · simp
      · rcases ih h with h | h <;> simp [h]

theorem Memory.wf_insert {c : Host.Cell} {m : Memory} (hc : (c.2 != Config.unwrittenByte) = true)
    (hne : ∀ d ∈ m, d.1 ≠ c.1) (h : Memory.wf m = true) : Memory.wf (Memory.insert c m) = true := by
  induction m with
  | nil => simpa [Memory.insert, Memory.wf] using hc
  | cons e m ih =>
    rw [Memory.insert]
    split
    · next hlt =>
      refine Memory.wf_of_lt hc (fun d hd => ?_) h
      rcases List.mem_cons.mp hd with rfl | hd
      · exact hlt
      · exact Nat.lt_trans hlt (Memory.wf_lt h d hd)
    · next hle =>
      have hne' := hne e (by simp)
      refine Memory.wf_of_lt (Memory.wf_cons.mp h).1 (fun d hd => ?_)
        (ih (fun d hd => hne d (by simp [hd])) (Memory.wf_tail h))
      rcases Memory.mem_insert hd with rfl | hd
      · omega
      · exact Memory.wf_lt h d hd

/-- A write keeps the canonical form. -/
theorem Memory.wf_write {m : Memory} (h : Memory.wf m = true) (a : Nat) (b : Byte) :
    Memory.wf (m.write a b) = true := by
  have hf := Memory.wf_filter (fun c => c.1 != a) h
  unfold Memory.write
  dsimp only
  split
  · exact hf
  · next hb => exact Memory.wf_insert (by simpa using hb) (fun d hd => by simpa using (List.mem_filter.mp hd).2) hf

/-- A run of writes keeps the canonical form. -/
theorem Memory.wf_writeRun (bs : List Byte) {m : Memory} (h : Memory.wf m = true) (a : Nat) :
    Memory.wf (m.writeRun a bs) = true := by
  induction bs generalizing m a with
  | nil => exact h
  | cons b bs ih => exact ih (Memory.wf_write h a b) (a + 1)

/-! ### Reading what was written -/

theorem Memory.read_filter_ne (m : Memory) {a x : Nat} (h : x ≠ a) :
    Memory.read (m.filter fun c => c.1 != a) x = Memory.read m x := by
  induction m with
  | nil => rfl
  | cons c m ih =>
    rw [List.filter_cons]
    by_cases hc : c.1 = a
    · simp [hc, ih, Memory.read, Ne.symm h]
    · simp [hc, ih, Memory.read]

theorem Memory.read_filter_self (m : Memory) (a : Nat) :
    Memory.read (m.filter fun c => c.1 != a) a = Config.unwrittenByte := by
  induction m with
  | nil => rfl
  | cons c m ih =>
    rw [List.filter_cons]
    by_cases hc : c.1 = a
    · simp [hc, ih]
    · simp [hc, ih, Memory.read]

theorem Memory.read_insert_self (m : Memory) (a : Nat) (b : Byte) (h : ∀ d ∈ m, d.1 ≠ a) :
    Memory.read (Memory.insert (a, b) m) a = b := by
  induction m with
  | nil => simp [Memory.insert, Memory.read]
  | cons e m ih =>
    rw [Memory.insert]
    split
    · simp [Memory.read]
    · simp [Memory.read, h e (by simp), ih fun d hd => h d (by simp [hd])]

theorem Memory.read_insert_ne (m : Memory) {a x : Nat} (b : Byte) (h : x ≠ a) :
    Memory.read (Memory.insert (a, b) m) x = Memory.read m x := by
  induction m with
  | nil => simp [Memory.insert, Memory.read, Ne.symm h]
  | cons e m ih =>
    rw [Memory.insert]
    split
    · simp [Memory.read, Ne.symm h]
    · simp [Memory.read, ih]

/-- A read after a write to the same address gives the value written. -/
theorem Memory.read_write_self (m : Memory) (a : Nat) (b : Byte) : Memory.read (m.write a b) a = b := by
  unfold Memory.write
  dsimp only
  split
  · next hb => rw [Memory.read_filter_self, hb]
  · exact Memory.read_insert_self _ a b fun d hd => by simpa using (List.mem_filter.mp hd).2

/-- A write leaves every other address alone. -/
theorem Memory.read_write_ne (m : Memory) {a x : Nat} (b : Byte) (h : x ≠ a) :
    Memory.read (m.write a b) x = Memory.read m x := by
  unfold Memory.write
  dsimp only
  split
  · exact Memory.read_filter_ne m h
  · rw [Memory.read_insert_ne _ b h, Memory.read_filter_ne m h]

/-- A run of writes leaves every address outside it alone. -/
theorem Memory.read_writeRun_out (bs : List Byte) (m : Memory) (a x : Nat) (h : x < a ∨ a + bs.length ≤ x) :
    Memory.read (m.writeRun a bs) x = Memory.read m x := by
  induction bs generalizing m a with
  | nil => rfl
  | cons b bs ih =>
    simp only [List.length_cons] at h
    rw [Memory.writeRun, ih _ _ (by omega), Memory.read_write_ne _ b (by omega)]

/-- A run of writes leaves its bytes in the memory. -/
theorem Memory.read_writeRun_in (bs : List Byte) (m : Memory) (a i : Nat) (h : i < bs.length) :
    Memory.read (m.writeRun a bs) (a + i) = bs[i] := by
  induction bs generalizing m a i with
  | nil => simp at h
  | cons b bs ih =>
    cases i with
    | zero =>
      rw [Memory.writeRun, Memory.read_writeRun_out _ _ _ _ (by omega)]
      simpa using Memory.read_write_self m a b
    | succ i =>
      have := ih (m.write a b) (a + 1) i (by simpa using h)
      simpa [Memory.writeRun, Nat.add_assoc, Nat.add_comm 1 i] using this

/-- Reading a run back gives the bytes written. -/
theorem Memory.readRun_writeRun (bs : List Byte) (m : Memory) (a : Nat) :
    Memory.readRun (m.writeRun a bs) a bs.length = bs := by
  have key : ∀ (n : Nat) (m : Memory) (a : Nat), Memory.readRun m a n = (List.range n).map fun i => m.read (a + i) := by
    intro n
    induction n with
    | zero => intros; rfl
    | succ n ih =>
      intro m a
      rw [Memory.readRun, ih, List.range_succ_eq_map]
      simp [Function.comp_def, Nat.add_assoc, Nat.add_comm 1]
  rw [key]
  refine List.ext_getElem (by simp) fun i h1 h2 => ?_
  simp [Memory.read_writeRun_in bs m a i (by simpa using h2)]

end Sys2Proof.Machine
end

