-- ==== Sys2Proof/WellFormed.lean ====
section
/-! DEFINITION. Which operands a command may carry: what the sender of a command must respect. A meaning is total,
so an ill-formed command still has one; nothing is claimed of it. -/

namespace Sys2Proof

/-- Each per-second task at most once in a SECOND's order, the walk as often as it likes. -/
def SecondTask.orderOk : List SecondTask → Bool
  | [] => true
  | t :: ts => (t == .walk || !ts.contains t) && SecondTask.orderOk ts

/-- A start address lies in the 24-bit space (00_scope.md, Units); a SECOND names no test twice; an UNKNOWN_ORDER's
code lies outside 1 to 9 (R160); a cut burst has landed no more than a burst's bytes (R146, R150). Every other
operand may take every value. -/
def Instr.wellFormed : Instr → Bool
  | .hardwareReset landed => landed ≤ Config.burstBytes
  | .hostTransactionStart _ addr => addr < Config.memoryEnd
  | .second _ _ order => SecondTask.orderOk order
  | .unknownOrder code => code.toNat == 0 || decide (9 < code.toNat)
  | .resetEnd _ _ | .hostTransactionEnd _ _ | .targetTouch _ _ | .shownTouch _ _ | .stageTouch _ _
  | .orderBlockWrite _ _ | .setupEdit _ _ | .untappedWrite _ _ | .apply | .run | .halt | .refreshZone _ _ _
  | .refreshPanel _ _ _ | .sweep _ | .setClock _ _ | .clearAttn _ | .restorePort _ | .captureBurstEnd
  | .feedBurstEnd | .commitReadEnd | .commitWriteEnd | .setupReadEnd | .statusPostEnd | .tick | .settleExpiry _
  | .driveStart _ | .frameStart _ | .lineSlot _ _ | .close _ _ | .wake _ _ | .busyNegated _ | .ident _ _ _
  | .tempQuery _ | .temp _ _ | .wakeBusyLimit _ | .identReplyTimeout _ | .tempReplyTimeout _
  | .frameBusyLimit _ | .closeBusyLimit _ | .rest _ | .retryWake _ _ _ | .railRaise | .railGoodAsserted
  | .railGoodNegated | .riseLimit | .lingerExpiry | .dischargeEnd | .railRetry => true

end Sys2Proof
end

