-- ==== Sys2Proof/Laws/PerInstr.lean ====
section
/-! SUPPORT. Statements for all commands, made per command: which operands a well-formed command carries. -/

namespace Sys2Proof.Laws

/-- A SECOND's order is well-formed exactly where no test stands in it twice. -/
theorem orderOk_iff (order : List SecondTask) :
    SecondTask.orderOk order = true ↔ ∀ t, t ≠ .walk → order.count t ≤ 1 := by
  induction order with
  | nil => simp [SecondTask.orderOk]
  | cons a ts ih =>
    simp only [SecondTask.orderOk, Bool.and_eq_true, Bool.or_eq_true, beq_iff_eq, Bool.not_eq_true', ih]
    constructor
    · rintro ⟨h1, h2⟩ t ht
      by_cases h : a = t
      · subst h
        have h3 : a ∉ ts := by
          rcases h1 with h1 | h1
          · exact absurd h1 ht
          · simpa [List.contains_iff_mem] using h1
        simp [List.count_eq_zero_of_not_mem h3]
      · rw [List.count_cons_of_ne h]
        exact h2 t ht
    · intro h
      refine ⟨?_, fun t ht => Nat.le_trans List.count_le_count_cons (h t ht)⟩
      by_cases ha : a = .walk
      · exact Or.inl ha
      · right
        have h1 := h a ha
        rw [List.count_cons_self] at h1
        have h2 : ts.count a = 0 := by omega
        simpa [List.contains_iff_mem] using List.count_eq_zero.mp h2

/-- What a well-formed command's operands are: a cut burst has landed at most a burst's 128 bytes, a start address lies
in the 24-bit space, a SECOND names no test twice, an UNKNOWN_ORDER's code is none of the nine; every other operand may
take every value. -/
def WellFormed.Statement (i : Instr) : Prop :=
  i.wellFormed = true ↔
    match i with
    | .hardwareReset landed => landed ≤ 128
    | .hostTransactionStart _ addr => addr < 0x1000000
    | .second _ _ order => ∀ t, t ≠ .walk → order.count t ≤ 1
    | .unknownOrder code => code.toNat = 0 ∨ 9 < code.toNat
    | .resetEnd _ _ | .hostTransactionEnd _ _ | .targetTouch _ _ | .shownTouch _ _ | .stageTouch _ _
    | .orderBlockWrite _ _ | .setupEdit _ _ | .untappedWrite _ _ | .apply | .run | .halt | .refreshZone _ _ _
    | .refreshPanel _ _ _ | .sweep _ | .setClock _ _ | .clearAttn _ | .restorePort _ | .captureBurstEnd
    | .feedBurstEnd | .commitReadEnd | .commitWriteEnd | .setupReadEnd | .statusPostEnd | .tick | .settleExpiry _
    | .driveStart _ | .frameStart _ | .lineSlot _ _ | .close _ _ | .wake _ _ | .busyNegated _ | .ident _ _ _
    | .tempQuery _ | .temp _ _ | .wakeBusyLimit _ | .identReplyTimeout _ | .tempReplyTimeout _ | .frameBusyLimit _
    | .closeBusyLimit _ | .rest _ | .retryWake _ _ _ | .railRaise | .railGoodAsserted | .railGoodNegated
    | .riseLimit | .lingerExpiry | .dischargeEnd | .railRetry => True

theorem WellFormed.hardwareReset (landed : Nat) : WellFormed.Statement (.hardwareReset landed) :=
  decide_eq_true_iff

theorem WellFormed.resetEnd (second first : Bool) : WellFormed.Statement (.resetEnd second first) :=
  iff_of_true rfl trivial

theorem WellFormed.hostTransactionStart (command : HostCommand) (addr : Nat) :
    WellFormed.Statement (.hostTransactionStart command addr) :=
  decide_eq_true_iff

theorem WellFormed.hostTransactionEnd (data : HostData) (grantFirst : Bool) :
    WellFormed.Statement (.hostTransactionEnd data grantFirst) :=
  iff_of_true rfl trivial

theorem WellFormed.targetTouch (addr : Nat) (data : Byte) : WellFormed.Statement (.targetTouch addr data) :=
  iff_of_true rfl trivial

theorem WellFormed.shownTouch (addr : Nat) (data : Byte) : WellFormed.Statement (.shownTouch addr data) :=
  iff_of_true rfl trivial

theorem WellFormed.stageTouch (addr : Nat) (data : Byte) : WellFormed.Statement (.stageTouch addr data) :=
  iff_of_true rfl trivial

theorem WellFormed.orderBlockWrite (addr : Nat) (data : Byte) : WellFormed.Statement (.orderBlockWrite addr data) :=
  iff_of_true rfl trivial

theorem WellFormed.setupEdit (addr : Nat) (data : Byte) : WellFormed.Statement (.setupEdit addr data) :=
  iff_of_true rfl trivial

theorem WellFormed.untappedWrite (addr : Nat) (data : Byte) : WellFormed.Statement (.untappedWrite addr data) :=
  iff_of_true rfl trivial

theorem WellFormed.apply : WellFormed.Statement (.apply) :=
  iff_of_true rfl trivial

theorem WellFormed.run : WellFormed.Statement (.run) :=
  iff_of_true rfl trivial

theorem WellFormed.halt : WellFormed.Statement (.halt) :=
  iff_of_true rfl trivial

theorem WellFormed.refreshZone (target mode cls : Byte) : WellFormed.Statement (.refreshZone target mode cls) :=
  iff_of_true rfl trivial

theorem WellFormed.refreshPanel (target mode cls : Byte) : WellFormed.Statement (.refreshPanel target mode cls) :=
  iff_of_true rfl trivial

theorem WellFormed.sweep (mask : Byte) : WellFormed.Statement (.sweep mask) :=
  iff_of_true rfl trivial

theorem WellFormed.setClock (arg1 arg2 : BitVec 32) : WellFormed.Statement (.setClock arg1 arg2) :=
  iff_of_true rfl trivial

theorem WellFormed.clearAttn (mask : BitVec 32) : WellFormed.Statement (.clearAttn mask) :=
  iff_of_true rfl trivial

theorem WellFormed.restorePort (target : Byte) : WellFormed.Statement (.restorePort target) :=
  iff_of_true rfl trivial

theorem WellFormed.unknownOrder (code : Byte) : WellFormed.Statement (.unknownOrder code) := by
  simp [WellFormed.Statement, Instr.wellFormed]

theorem WellFormed.captureBurstEnd : WellFormed.Statement (.captureBurstEnd) :=
  iff_of_true rfl trivial

theorem WellFormed.feedBurstEnd : WellFormed.Statement (.feedBurstEnd) :=
  iff_of_true rfl trivial

theorem WellFormed.commitReadEnd : WellFormed.Statement (.commitReadEnd) :=
  iff_of_true rfl trivial

theorem WellFormed.commitWriteEnd : WellFormed.Statement (.commitWriteEnd) :=
  iff_of_true rfl trivial

theorem WellFormed.setupReadEnd : WellFormed.Statement (.setupReadEnd) :=
  iff_of_true rfl trivial

theorem WellFormed.statusPostEnd : WellFormed.Statement (.statusPostEnd) :=
  iff_of_true rfl trivial

theorem WellFormed.tick : WellFormed.Statement (.tick) :=
  iff_of_true rfl trivial

theorem WellFormed.settleExpiry (zone : Fin 64) : WellFormed.Statement (.settleExpiry zone) :=
  iff_of_true rfl trivial

theorem WellFormed.second (storage solar : Int) (order : List SecondTask) :
    WellFormed.Statement (.second storage solar order) :=
  orderOk_iff order

theorem WellFormed.driveStart (panel : PanelNo) : WellFormed.Statement (.driveStart panel) :=
  iff_of_true rfl trivial

theorem WellFormed.frameStart (panel : PanelNo) : WellFormed.Statement (.frameStart panel) :=
  iff_of_true rfl trivial

theorem WellFormed.lineSlot (panel : PanelNo) (busy : Bool) : WellFormed.Statement (.lineSlot panel busy) :=
  iff_of_true rfl trivial

theorem WellFormed.close (panel : PanelNo) (busy : Bool) : WellFormed.Statement (.close panel busy) :=
  iff_of_true rfl trivial

theorem WellFormed.wake (panel : PanelNo) (busy : Bool) : WellFormed.Statement (.wake panel busy) :=
  iff_of_true rfl trivial

theorem WellFormed.busyNegated (panel : PanelNo) : WellFormed.Statement (.busyNegated panel) :=
  iff_of_true rfl trivial

theorem WellFormed.ident (panel : PanelNo) (width height : Nat) : WellFormed.Statement (.ident panel width height) :=
  iff_of_true rfl trivial

theorem WellFormed.tempQuery (panel : PanelNo) : WellFormed.Statement (.tempQuery panel) :=
  iff_of_true rfl trivial

theorem WellFormed.temp (panel : PanelNo) (degrees : Int) : WellFormed.Statement (.temp panel degrees) :=
  iff_of_true rfl trivial

theorem WellFormed.wakeBusyLimit (panel : PanelNo) : WellFormed.Statement (.wakeBusyLimit panel) :=
  iff_of_true rfl trivial

theorem WellFormed.identReplyTimeout (panel : PanelNo) : WellFormed.Statement (.identReplyTimeout panel) :=
  iff_of_true rfl trivial

theorem WellFormed.tempReplyTimeout (panel : PanelNo) : WellFormed.Statement (.tempReplyTimeout panel) :=
  iff_of_true rfl trivial

theorem WellFormed.frameBusyLimit (panel : PanelNo) : WellFormed.Statement (.frameBusyLimit panel) :=
  iff_of_true rfl trivial

theorem WellFormed.closeBusyLimit (panel : PanelNo) : WellFormed.Statement (.closeBusyLimit panel) :=
  iff_of_true rfl trivial

theorem WellFormed.rest (panel : PanelNo) : WellFormed.Statement (.rest panel) :=
  iff_of_true rfl trivial

theorem WellFormed.retryWake (panel : PanelNo) (holdPassed busy : Bool) :
    WellFormed.Statement (.retryWake panel holdPassed busy) :=
  iff_of_true rfl trivial

theorem WellFormed.railRaise : WellFormed.Statement (.railRaise) :=
  iff_of_true rfl trivial

theorem WellFormed.railGoodAsserted : WellFormed.Statement (.railGoodAsserted) :=
  iff_of_true rfl trivial

theorem WellFormed.railGoodNegated : WellFormed.Statement (.railGoodNegated) :=
  iff_of_true rfl trivial

theorem WellFormed.riseLimit : WellFormed.Statement (.riseLimit) :=
  iff_of_true rfl trivial

theorem WellFormed.lingerExpiry : WellFormed.Statement (.lingerExpiry) :=
  iff_of_true rfl trivial

theorem WellFormed.dischargeEnd : WellFormed.Statement (.dischargeEnd) :=
  iff_of_true rfl trivial

theorem WellFormed.railRetry : WellFormed.Statement (.railRetry) :=
  iff_of_true rfl trivial

end Sys2Proof.Laws
end

