-- ==== Sys2Proof/Laws/Queue.lean ====
section
/-! SUPPORT. The refresh queue, the STARVED test and the walk: each meets the relation of Safety.lean that says what it can
do. -/

namespace Sys2Proof.Machine

/-! ### The queue (R38) -/

theorem RefreshClass.standing_eq (c : RefreshClass) : c.standing = c.rank := by cases c <;> rfl

/-- Queue order is as R38 says. -/
theorem Part.queuedBefore_iff (part : Part) (a b : Job) : part.queuedBefore a b = true ↔ part.StandsBefore a b := by
  simp only [Part.queuedBefore, Part.StandsBefore, RefreshClass.standing_eq, Bool.or_eq_true, Bool.and_eq_true,
    decide_eq_true_eq, beq_iff_eq]
  exact Iff.rfl

theorem Part.enqueueSlot_perm (part : Part) (x : Nat × Job) (ys : List (Nat × Job)) :
    (part.enqueueSlot x ys).Perm (x :: ys) := by
  induction ys with
  | nil => exact .refl _
  | cons y ys ih =>
    unfold Part.enqueueSlot
    split
    · exact .refl _
    · exact (ih.cons y).trans (.swap x y ys)

theorem Part.foldl_enqueueSlot_perm (part : Part) (xs q : List (Nat × Job)) :
    (xs.foldl (fun q x => part.enqueueSlot x q) q).Perm (xs ++ q) := by
  induction xs generalizing q with
  | nil => exact .refl _
  | cons x xs ih =>
    rw [List.foldl_cons]
    exact (ih _).trans (((part.enqueueSlot_perm x q).append_left xs).trans List.perm_middle)

/-- The queue holds the QUEUED jobs of the pool and no more. -/
theorem Part.queue_perm (part : Part) : part.queue.Perm (queuedJobs 0 part.pool) := by
  simpa [Part.queue] using part.foldl_enqueueSlot_perm (queuedJobs 0 part.pool) []

theorem queuedJobs_cons (i : Nat) (j : Job) (pool : List (Option Job)) :
    queuedJobs i (some j :: pool)
      = if j.state = .queued then (i, j) :: queuedJobs (i + 1) pool else queuedJobs (i + 1) pool := rfl

theorem mem_queuedJobs (pool : List (Option Job)) (i : Nat) (x : Nat × Job) :
    x ∈ queuedJobs i pool ↔ i ≤ x.1 ∧ pool[x.1 - i]? = some (some x.2) ∧ x.2.state = .queued := by
  induction pool generalizing i with
  | nil => simp [queuedJobs]
  | cons a pool ih =>
    have step : (i ≤ x.1 ∧ (a :: pool)[x.1 - i]? = some (some x.2) ∧ x.2.state = .queued)
        ↔ (x.1 = i ∧ a = some x.2 ∧ x.2.state = .queued) ∨ x ∈ queuedJobs (i + 1) pool := by
      rw [ih]
      by_cases h : x.1 = i
      · simp only [h, Nat.le_refl, Nat.sub_self, List.getElem?_cons_zero, Option.some.injEq, true_and]
        refine ⟨.inl, fun hh => hh.resolve_right fun h1 => ?_⟩
        omega
      · by_cases h' : i ≤ x.1
        · obtain ⟨k, hk⟩ : ∃ k, x.1 = i + 1 + k := ⟨x.1 - (i + 1), by omega⟩
          have e1 : x.1 - i = k + 1 := by omega
          have e2 : x.1 - (i + 1) = k := by omega
          have e3 : i + 1 ≤ x.1 := by omega
          simp [h, h', e1, e2, e3]
        · have h1 : ¬i + 1 ≤ x.1 := by omega
          simp [h, h', h1]
    rw [step]
    obtain ⟨k, j⟩ := x
    cases a with
    | none => simp [queuedJobs]
    | some q =>
      rw [queuedJobs_cons]
      split
      · next hq =>
        simp only [List.mem_cons, Prod.mk.injEq, Option.some.injEq]
        constructor
        · rintro (⟨rfl, rfl⟩ | h)
          · exact .inl ⟨rfl, rfl, hq⟩
          · exact .inr h
        · rintro (⟨rfl, rfl, -⟩ | h)
          · exact .inl ⟨rfl, rfl⟩
          · exact .inr h
      · next hq =>
        constructor
        · exact .inr
        · rintro (⟨-, e, h⟩ | h)
          · cases e; exact absurd h hq
          · exact h

theorem Part.job?_eq_some {part : Part} {slot : Nat} {j : Job} : part.job? slot = some j ↔ part.pool[slot]? = some (some j) := by
  unfold Part.job?
  cases part.pool[slot]? <;> simp

/-- The queued jobs of a pool with their slots. -/
theorem Part.mem_queuedJobs (part : Part) (slot : Nat) (j : Job) :
    (slot, j) ∈ queuedJobs 0 part.pool ↔ part.job? slot = some j ∧ j.state = .queued := by
  rw [Machine.mem_queuedJobs, Part.job?_eq_some]
  simp

theorem Part.mem_queue {part : Part} {slot : Nat} {j : Job} :
    (slot, j) ∈ part.queue ↔ part.job? slot = some j ∧ j.state = .queued :=
  part.queue_perm.mem_iff.trans (part.mem_queuedJobs slot j)

theorem queuedJobs_nodup (pool : List (Option Job)) (i : Nat) : ((queuedJobs i pool).map (·.1)).Nodup := by
  induction pool generalizing i with
  | nil => exact List.nodup_nil
  | cons a pool ih =>
    cases a with
    | none => exact ih _
    | some j =>
      rw [queuedJobs_cons]
      split
      · rw [List.map_cons, List.nodup_cons]
        refine ⟨fun h => ?_, ih _⟩
        obtain ⟨x, hx, e⟩ := List.mem_map.1 h
        have := ((mem_queuedJobs pool (i + 1) x).1 hx).1
        omega
      · exact ih _

theorem Part.StandsBefore.trans {part : Part} {a b c : Job} (h : part.StandsBefore a b) (h' : part.StandsBefore b c) :
    part.StandsBefore a c := by
  unfold Part.StandsBefore at *
  generalize (part.sequence - a.sequence).toNat = x at *
  generalize (part.sequence - b.sequence).toNat = y at *
  generalize (part.sequence - c.sequence).toNat = z at *
  omega

theorem Part.StandsBefore.asymm {part : Part} {a b : Job} (h : part.StandsBefore a b) : ¬part.StandsBefore b a := by
  unfold Part.StandsBefore at *
  generalize (part.sequence - a.sequence).toNat = x at *
  generalize (part.sequence - b.sequence).toNat = y at *
  omega

theorem Part.enqueueSlot_sorted (part : Part) (x : Nat × Job) (ys : List (Nat × Job))
    (h : ys.Pairwise fun a b => ¬part.StandsBefore b.2 a.2) :
    (part.enqueueSlot x ys).Pairwise fun a b => ¬part.StandsBefore b.2 a.2 := by
  induction ys with
  | nil => simp [Part.enqueueSlot]
  | cons y ys ih =>
    obtain ⟨h1, h2⟩ := List.pairwise_cons.1 h
    unfold Part.enqueueSlot
    split
    · next hb =>
      rw [Part.queuedBefore_iff] at hb
      refine List.pairwise_cons.2 ⟨fun z hz => ?_, h⟩
      rcases List.mem_cons.1 hz with rfl | hz
      · exact hb.asymm
      · exact fun hzx => h1 z hz (hzx.trans hb)
    · next hb =>
      rw [Part.queuedBefore_iff] at hb
      refine List.pairwise_cons.2 ⟨fun z hz => ?_, ih h2⟩
      rcases List.mem_cons.1 ((part.enqueueSlot_perm x ys).mem_iff.1 hz) with rfl | hz
      · exact hb
      · exact h1 z hz

/-- The queue is as R38 says. -/
theorem Part.queueIs (part : Part) : part.QueueIs part.queue := by
  refine ⟨fun _ _ => Part.mem_queue, ((part.queue_perm.map (·.1)).nodup_iff).2 (queuedJobs_nodup _ _), ?_⟩
  have : ∀ (xs q : List (Nat × Job)), (q.Pairwise fun a b => ¬part.StandsBefore b.2 a.2) →
      ((xs.foldl (fun q x => part.enqueueSlot x q) q).Pairwise fun a b => ¬part.StandsBefore b.2 a.2) := by
    intro xs
    induction xs with
    | nil => exact fun _ h => h
    | cons x xs ih => exact fun q h => ih _ (part.enqueueSlot_sorted x q h)
  exact this _ _ .nil

/-! ### STARVED (R103) -/

/-- What a STARVED test has done once the jobs of the slots `seen` have been taken. -/
structure StarvedSoFar (g : Setup) (part cur : Part) (seen : List Nat) : Prop where
  frame : cur = { part with pool := cur.pool, unit := { part.unit with causes := cur.unit.causes } }
  free : ∀ slot, part.job? slot = none → cur.job? slot = none
  job : ∀ slot j, part.job? slot = some j →
    ∃ starves : Bool, (starves = true ↔ slot ∈ seen ∧ part.Starves g slot j)
      ∧ cur.job? slot = some { j with starvedReported := j.starvedReported || starves }
  other : ∀ k, k ≠ .starved → cur.unit.detail? k = part.unit.detail? k
  length : cur.unit.causes.length = part.unit.causes.length
  latched : (∃ slot j, slot ∈ seen ∧ part.job? slot = some j ∧ part.Starves g slot j) → part.unit.causes.length = 13 →
    (cur.unit.detail? .starved).isSome = true
  quiet : (∀ slot j, part.job? slot = some j → ¬part.Starves g slot j) → cur.unit.causes = part.unit.causes

theorem Part.job?_setJob (part : Part) (slot k : Nat) (j : Job) :
    (part.setJob slot j).job? k = if slot = k ∧ k < part.pool.length then some j else part.job? k := by
  unfold Part.job? Part.setJob
  rw [List.getElem?_set]
  by_cases h : slot = k
  · subst h
    by_cases hl : slot < part.pool.length <;> simp [hl]
  · simp [h]

theorem Part.job?_lt {part : Part} {slot : Nat} {j : Job} (h : part.job? slot = some j) : slot < part.pool.length := by
  unfold Part.job? at h
  cases hp : part.pool[slot]? with
  | none => simp [hp] at h
  | some o => exact (List.getElem?_eq_some_iff.1 hp).1

/-- A job is held back exactly as R102 says, seen through what the test has reported so far. -/
theorem StarvedSoFar.heldBack_iff {g : Setup} {part cur : Part} {seen : List Nat} (h : StarvedSoFar g part cur seen)
    (slot : Nat) (j : Job) (b : Bool) :
    cur.heldBack slot { j with starvedReported := b } = true
      ↔ ∃ m q, part.stopMark = some m ∧ part.job? m = some q ∧ q.state = .queued
          ∧ (m = slot ∨ part.StandsBefore q j) := by
  have hm : cur.stopMark = part.stopMark := by rw [h.frame]
  have hs : cur.sequence = part.sequence := by rw [h.frame]
  unfold Part.heldBack
  rw [hm]
  cases part.stopMark with
  | none => simp
  | some m =>
    cases hq : part.job? m with
    | none => simp [h.free m hq, hq]
    | some q =>
      obtain ⟨b', -, hc⟩ := h.job m q hq
      have hqb : cur.queuedBefore { q with starvedReported := q.starvedReported || b' } { j with starvedReported := b } = true
          ↔ part.StandsBefore q j := by
        rw [← Part.queuedBefore_iff]
        unfold Part.queuedBefore Part.jobAge
        rw [hs]
      simp [hc, hq, hqb]

theorem Part.frame_trans {part cur : Part}
    (h : cur = { part with pool := cur.pool, unit := { part.unit with causes := cur.unit.causes } })
    (pool : List (Option Job)) (causes : List (Option Nat)) :
    ({ cur with pool := pool, unit := { cur.unit with causes := causes } } : Part)
      = { part with pool := pool, unit := { part.unit with causes := causes } } := by
  rw [h]

theorem StarvedSoFar.step {g : Setup} {part cur : Part} {seen : List Nat} (h : StarvedSoFar g part cur seen)
    (x : Nat × Job) : StarvedSoFar g part (Part.starvedAt g cur x) (x.1 :: seen) := by
  obtain ⟨slot, y⟩ := x
  have hclock : cur.clock = part.clock := by rw [h.frame]
  unfold Part.starvedAt
  dsimp only
  cases hp : part.job? slot with
  | none =>
    rw [h.free slot hp]
    refine { h with job := fun k j hj => ?_, latched := ?_ }
    · obtain ⟨b, hb, hc⟩ := h.job k j hj
      have hk : k ≠ slot := by rintro rfl; rw [hp] at hj; cases hj
      exact ⟨b, by rw [hb]; simp [hk], hc⟩
    · rintro ⟨k, j, hk, hj, hs⟩
      have hk' : k ≠ slot := by rintro rfl; rw [hp] at hj; cases hj
      exact h.latched ⟨k, j, (List.mem_cons.1 hk).resolve_left hk', hj, hs⟩
  | some j =>
    obtain ⟨b, hb, hc⟩ := h.job slot j hp
    rw [hc]
    dsimp only
    have hcond : (j.state = .queued ∧ j.cls = .urgent
        ∧ cur.heldBack slot { j with starvedReported := j.starvedReported || b } = true
        ∧ g.globals.starvationLimit < cur.age j.enqueued ∧ (j.starvedReported || b) = false)
        ↔ part.Starves g slot j ∧ b = false := by
      rw [h.heldBack_iff, Part.age, hclock]
      unfold Part.Starves
      rw [Bool.or_eq_false_iff]
      constructor
      · rintro ⟨h1, h2, h3, h4, h5, h6⟩
        exact ⟨⟨h1, h2, h5, h3, h4⟩, h6⟩
      · rintro ⟨⟨h1, h2, h5, h3, h4⟩, h6⟩
        exact ⟨h1, h2, h3, h4, h5, h6⟩
    by_cases hst : part.Starves g slot j ∧ b = false
    · rw [if_pos (hcond.2 hst)]
      have hl : slot < cur.pool.length := Part.job?_lt hc
      let c2 : Part := cur.setJob slot { j with starvedReported := true }
      have hjob : ∀ k, (c2.latch .starved j.scope.code).job? k = c2.job? k := fun k => by
        rw [Part.latch_eq]; rfl
      refine ⟨?_, fun k hk => ?_, fun k q hq => ?_, fun k hk => ?_, ?_, fun _ h13 => ?_, fun hn => ?_⟩
      · obtain ⟨pool, causes, hx⟩ : ∃ pool causes, c2.latch .starved j.scope.code
            = { part with pool := pool, unit := { part.unit with causes := causes } } := by
          refine ⟨c2.pool, (c2.latch .starved j.scope.code).unit.causes, ?_⟩
          rw [← Part.frame_trans h.frame]
          exact Part.latch_eq ..
        show c2.latch .starved j.scope.code = { part with
          pool := (c2.latch .starved j.scope.code).pool
          unit := { part.unit with causes := (c2.latch .starved j.scope.code).unit.causes } }
        rw [hx]
      · show (c2.latch .starved j.scope.code).job? k = none
        have : slot ≠ k := by rintro rfl; rw [hp] at hk; cases hk
        rw [hjob, Part.job?_setJob, if_neg (fun hh => this hh.1)]
        exact h.free k hk
      · show ∃ starves : Bool, (starves = true ↔ _) ∧ (c2.latch .starved j.scope.code).job? k = _
        rw [hjob, Part.job?_setJob]
        by_cases hk : slot = k
        · subst hk
          rw [hp] at hq
          cases hq
          exact ⟨true, by simp [hst.1], by simp [hl]⟩
        · obtain ⟨b', hb', hc'⟩ := h.job k q hq
          refine ⟨b', by rw [hb']; simp [Ne.symm hk], ?_⟩
          rw [if_neg (fun hh => hk hh.1)]
          exact hc'
      · show (c2.latch .starved j.scope.code).unit.detail? k = _
        rw [Part.detail_latch_ne _ _ hk]
        exact h.other k hk
      · show (c2.latch .starved j.scope.code).unit.causes.length = _
        rw [Part.latch_causes_length]
        exact h.length
      · show ((c2.latch .starved j.scope.code).unit.detail? .starved).isSome = true
        rw [Part.detail_latch c2 _ _ (h.length.trans h13)]
        rfl
      · exact absurd hst.1 (hn slot j hp)
    · rw [if_neg (fun hh => hst (hcond.1 hh))]
      have himp : part.Starves g slot j → slot ∈ seen := fun hs => by
        cases b with
        | false => exact absurd ⟨hs, rfl⟩ hst
        | true => exact (hb.1 rfl).1
      refine { h with job := fun k q hq => ?_, latched := ?_ }
      · obtain ⟨b', hb', hc'⟩ := h.job k q hq
        refine ⟨b', ?_, hc'⟩
        rw [hb', List.mem_cons]
        constructor
        · rintro ⟨h1, h2⟩; exact ⟨.inr h1, h2⟩
        · rintro ⟨rfl | h1, h2⟩
          · rw [hp] at hq; cases hq; exact ⟨himp h2, h2⟩
          · exact ⟨h1, h2⟩
      · rintro ⟨k, q, hk, hq, hs⟩
        rcases List.mem_cons.1 hk with rfl | hk
        · rw [hp] at hq; cases hq; exact h.latched ⟨k, j, himp hs, hp, hs⟩
        · exact h.latched ⟨k, q, hk, hq, hs⟩

theorem StarvedSoFar.foldl {g : Setup} {part : Part} (xs : List (Nat × Job)) {cur : Part} {seen : List Nat}
    (h : StarvedSoFar g part cur seen) :
    StarvedSoFar g part (xs.foldl (Part.starvedAt g) cur) ((xs.map (·.1)).reverse ++ seen) := by
  induction xs generalizing cur seen with
  | nil => exact h
  | cons x xs ih =>
    have := ih (h.step x)
    simpa using this

/-- The STARVED test does what R103 says. -/
theorem Part.starvedTest_made (g : Setup) (part : Part) : part.StarvedTested (part.starvedTest g) g := by
  have h0 : StarvedSoFar g part part [] :=
    { frame := rfl
      free := fun _ h => h
      job := fun slot j hj => ⟨false, by simp, by simp [hj]⟩
      other := fun _ _ => rfl
      length := rfl
      latched := by rintro ⟨_, _, h, _⟩; cases h
      quiet := fun _ => rfl }
  have h := h0.foldl part.queue
  have hmem : ∀ slot j, part.job? slot = some j → part.Starves g slot j →
      slot ∈ (part.queue.map (·.1)).reverse ++ ([] : List Nat) := fun slot j hj hs => by
    rw [List.append_nil, List.mem_reverse, List.mem_map]
    exact ⟨(slot, j), Part.mem_queue.2 ⟨hj, hs.1⟩, rfl⟩
  refine ⟨h.frame, fun slot => ⟨h.free slot, fun j hj => ?_⟩, h.other, fun ⟨slot, j, hj, hs⟩ h13 => ?_, h.quiet⟩
  · obtain ⟨b, hb, hc⟩ := h.job slot j hj
    exact ⟨b, hb.trans ⟨fun x => x.2, fun x => ⟨hmem slot j hj x, x⟩⟩, hc⟩
  · exact h.latched ⟨slot, j, hmem slot j hj hs, hj, hs⟩ h13

/-! ### The tests of the walk (R47, R64 to R66, R97 to R101) -/

theorem Part.skips_iff (part : Part) (g : Setup) (j : Job) : part.skips g j = true ↔ part.PassedOver g j := by
  simp only [Part.skips, Part.PassedOver, Bool.or_eq_true, Bool.not_eq_true', decide_eq_false_iff_not, Nat.not_lt, beq_iff_eq,
    Option.isSome_iff_ne_none, or_assoc]

theorem Part.mem_withdrawnBy (part : Part) (j : Job) (k : Nat) (q : Job) :
    (k, q) ∈ part.withdrawnBy j ↔ part.Withdraws j k q := by
  unfold Part.withdrawnBy Part.Withdraws
  cases hs : j.scope with
  | zone n => simp
  | panel p =>
    simp only [Part.queuedZoneJobs, List.mem_filter, Part.mem_queuedJobs, Bool.and_eq_true, beq_iff_eq]
    constructor
    · rintro ⟨⟨h1, h2⟩, h3, h4⟩
      refine ⟨⟨p, rfl⟩, h1, h2, h3, ?_⟩
      cases hq : q.scope with
      | zone n => exact ⟨n, rfl⟩
      | panel p => simp [hq] at h4
    · rintro ⟨-, h1, h2, h3, n, h4⟩
      exact ⟨⟨h1, h2⟩, h3, by simp [h4]⟩

theorem Part.any_withdrawnBy (part : Part) (j : Job) (f : Job → Bool) :
    ((part.withdrawnBy j).any fun x => f x.2) = true ↔ ∃ k q, part.Withdraws j k q ∧ f q = true := by
  rw [List.any_eq_true]
  constructor
  · rintro ⟨⟨k, q⟩, h1, h2⟩
    exact ⟨k, q, (part.mem_withdrawnBy j k q).1 h1, h2⟩
  · rintro ⟨k, q, h1, h2⟩
    exact ⟨(k, q), (part.mem_withdrawnBy j k q).2 h1, h2⟩

theorem Part.spendsOnDebt_iff (part : Part) : part.energy.level.spendsOnDebt = true ↔ part.SpendsOnDebt := by
  unfold Part.SpendsOnDebt
  cases part.energy.level <;> simp [PolicyLevel.spendsOnDebt]

theorem Part.admits_iff (part : Part) (j : Job) :
    part.energy.level.admits j.cls = true
      ↔ part.SpendsOnDebt ∨ (part.energy.level = .lean ∧ (j.cls = .urgent ∨ j.cls = .timed)) := by
  unfold Part.SpendsOnDebt
  cases part.energy.level <;> cases j.cls <;> simp [PolicyLevel.admits]

theorem Part.fits_iff (part : Part) (g : Setup) (j : Job) (cost : Nat) :
    (part.energy.level.admits j.cls = true ∧ cost ≤ part.spendable g) ↔ part.Fits g j cost := by
  rw [Part.admits_iff]
  exact Iff.rfl

theorem DriveMode.eq_of_full_iff {a b : DriveMode} {P : Prop} (ha : a = .full ↔ P) (hb : b = .full ↔ P) : a = b := by
  have h := ha.trans hb.symm
  cases a <;> cases b <;> simp_all

theorem Part.zoneJobMode_full (part : Part) (g : Setup) (c : PanelCfg) (j : Job) (policy : ModePolicy) :
    part.zoneJobMode g c j policy = .full ↔
      (∃ tx ty x, j.rect.contains tx ty = true ∧ part.tileAt? g j.panel tx ty = some x
          ∧ (x.untrusted = true ∨ c.debtHard ≤ x.debt))
        ∨ j.fullRequest = true ∨ policy = .fullAlways
        ∨ (policy = .auto ∧ part.SpendsOnDebt
            ∧ ∃ tx ty x, j.rect.contains tx ty = true ∧ part.tileAt? g j.panel tx ty = some x ∧ c.debtSoft ≤ x.debt) := by
  have e1 := part.any_tilesIn g j.panel j.rect c.forcesFull
  have e2 := part.any_tilesIn g j.panel j.rect c.softDebt
  simp only [PanelCfg.forcesFull, PanelCfg.softDebt, Bool.or_eq_true, decide_eq_true_eq] at e1 e2
  rw [← e1, ← e2, ← part.spendsOnDebt_iff]
  clear e1 e2
  unfold Part.zoneJobMode PanelCfg.forcesFull PanelCfg.softDebt
  dsimp only
  generalize ((part.tilesIn g j.panel j.rect).any fun x => x.2.untrusted || decide (c.debtHard ≤ x.2.debt)) = hard
  generalize ((part.tilesIn g j.panel j.rect).any fun x => decide (c.debtSoft ≤ x.2.debt)) = soft
  cases part.energy.level.spendsOnDebt <;> cases j.fullRequest <;> cases policy <;> cases hard <;> cases soft <;> simp

theorem Setup.policyOf_fullAlways (g : Setup) (x : Tile) :
    g.policyOf x = .fullAlways ↔ ∃ n z, x.zone = some n ∧ g.zone? n = some z ∧ z.policy = .fullAlways := by
  unfold Setup.policyOf
  cases x.zone with
  | none => simp
  | some n => cases h : g.zone? n <;> simp [h]

theorem Setup.policyOf_auto (g : Setup) (x : Tile) :
    g.policyOf x = .auto ↔ ∀ n z, x.zone = some n → g.zone? n = some z → z.policy = .auto := by
  unfold Setup.policyOf
  cases x.zone with
  | none => simp
  | some n =>
    dsimp only
    cases h : g.zone? n with
    | none => simp only [true_iff]; rintro m z e hz; cases e; rw [h] at hz; cases hz
    | some z => exact ⟨fun hp m y e hy => by cases e; rw [h] at hy; cases hy; exact hp, fun hp => hp n z rfl h⟩

theorem Part.panelJobMode_full (part : Part) (g : Setup) (c : PanelCfg) (j : Job) {p : PanelNo} (hs : j.scope = .panel p)
    (hc : g.panels.get j.panel = some c) :
    part.panelJobMode g c j = .full ↔
      (∃ tx ty x, part.tileAt? g j.panel tx ty = some x ∧ (x.untrusted = true ∨ c.debtHard ≤ x.debt))
        ∨ j.cls = .sweep ∨ j.fullRequest = true ∨ (∃ k q, part.Withdraws j k q ∧ q.fullRequest = true)
        ∨ (∃ tx ty x n z, part.tileAt? g j.panel tx ty = some x ∧ (x.state = .dirty ∨ x.state = .queued)
            ∧ x.zone = some n ∧ g.zone? n = some z ∧ z.policy = .fullAlways)
        ∨ (part.SpendsOnDebt ∧ ∃ tx ty x, part.tileAt? g j.panel tx ty = some x ∧ c.debtSoft ≤ x.debt
            ∧ ∀ n z, x.zone = some n → g.zone? n = some z → z.policy = .auto) := by
  have e1 := Part.any_whole part g hc c.forcesFull
  have e2 := Part.any_whole part g hc fun x => g.policyOf x == .auto && c.softDebt x
  have e3 := Part.any_whole part g hc fun x => (x.state == .dirty || x.state == .queued) && g.policyOf x == .fullAlways
  have e4 := part.any_withdrawnBy j (·.fullRequest)
  simp only [Part.withdrawnBy, hs] at e4
  simp only [PanelCfg.forcesFull, PanelCfg.softDebt, Bool.or_eq_true, Bool.and_eq_true, decide_eq_true_eq, beq_iff_eq,
    Setup.policyOf_fullAlways, Setup.policyOf_auto] at e1 e2 e3
  have e2' : (∃ tx ty x, part.tileAt? g j.panel tx ty = some x ∧ c.debtSoft ≤ x.debt
      ∧ ∀ n z, x.zone = some n → g.zone? n = some z → z.policy = .auto)
      ↔ ∃ tx ty x, part.tileAt? g j.panel tx ty = some x ∧
        (∀ n z, x.zone = some n → g.zone? n = some z → z.policy = .auto) ∧ c.debtSoft ≤ x.debt := by
    simp only [and_comm]
  have e3' : (∃ tx ty x n z, part.tileAt? g j.panel tx ty = some x ∧ (x.state = .dirty ∨ x.state = .queued)
        ∧ x.zone = some n ∧ g.zone? n = some z ∧ z.policy = .fullAlways)
      ↔ ∃ tx ty x, part.tileAt? g j.panel tx ty = some x ∧ (x.state = .dirty ∨ x.state = .queued)
        ∧ ∃ n z, x.zone = some n ∧ g.zone? n = some z ∧ z.policy = .fullAlways := by
    simp only [exists_and_left]
  rw [e2', e3', ← e1, ← e2, ← e3, ← e4, ← part.spendsOnDebt_iff]
  clear e1 e2 e3 e4 e2' e3'
  unfold Part.panelJobMode PanelCfg.forcesFull PanelCfg.softDebt
  dsimp only
  generalize ((part.tilesIn g j.panel c.whole).any fun x => x.2.untrusted || decide (c.debtHard ≤ x.2.debt)) = hard
  generalize ((part.tilesIn g j.panel c.whole).any fun x => g.policyOf x.2 == .auto && decide (c.debtSoft ≤ x.2.debt)) = soft
  generalize ((part.tilesIn g j.panel c.whole).any fun x =>
    (x.2.state == .dirty || x.2.state == .queued) && g.policyOf x.2 == .fullAlways) = carried
  generalize ((part.queuedZoneJobs j.panel).any fun x => x.2.fullRequest) = withdrawn
  have hsw : (j.cls == .sweep) = true ↔ j.cls = .sweep := beq_iff_eq
  rw [← hsw]
  clear hsw
  generalize (j.cls == .sweep) = sweep
  cases part.energy.level.spendsOnDebt <;> cases j.fullRequest <;> cases hard <;> cases soft <;> cases carried <;>
    cases withdrawn <;> cases sweep <;> simp

/-- The mode that the walk fixes is the one of R65 and R66. -/
theorem Part.ModeIs.eq {part : Part} {g : Setup} {c : PanelCfg} {j : Job} {mode : DriveMode}
    (hc : g.panels.get j.panel = some c) (h : part.ModeIs g c j mode) : part.modeOf g c j = mode := by
  unfold Part.ModeIs at h
  unfold Part.modeOf
  cases hs : j.scope with
  | zone n =>
    rw [hs] at h
    dsimp only at h ⊢
    refine DriveMode.eq_of_full_iff ?_ h
    cases hz : g.zone? n with
    | none => rw [Part.zoneJobMode_full]; simp
    | some z => rw [Part.zoneJobMode_full]; simp
  | panel p =>
    rw [hs] at h
    exact DriveMode.eq_of_full_iff (part.panelJobMode_full g c j hs hc) h

theorem Part.CostIs.estimate_eq {part : Part} {g : Setup} {c : PanelCfg} {j : Job} {mode : DriveMode} {band pixels cost : Nat}
    (h : part.CostIs g c j mode band pixels cost) :
    part.estimatePixels g j mode = pixels ∧ part.estimate g c j mode band = cost := by
  obtain ⟨rfl, frames, rfl, rfl⟩ := h
  have hb : (part.rail.state = .off ∨ part.rail.state = .falling ∨ part.rail.state = .fault)
      ↔ part.rail.state.boosts = true := by
    cases part.rail.state <;> simp [RailState.boosts]
  simp only [Part.estimate, jobCost, hb, Part.estimatePixels]
  cases mode <;> simp [Band.frames]

/-! ### Admission (R48, R49) -/

theorem Part.foldl_withdraw_frame (xs : List (Nat × Job)) (part : Part) :
    xs.foldl Part.withdraw part = { part with
      pool := (xs.foldl Part.withdraw part).pool, zones := (xs.foldl Part.withdraw part).zones
      stopMark := (xs.foldl Part.withdraw part).stopMark } := by
  induction xs generalizing part with
  | nil => rfl
  | cons x xs ih =>
    rw [List.foldl_cons, ih]
    unfold Part.withdraw
    split <;> rfl

theorem Part.job?_withdraw {part : Part} {x : Nat × Job} {n : Nat} (hx : x.2.scope = .zone n) (k : Nat) :
    (part.withdraw x).job? k = if x.1 = k then none else part.job? k := by
  unfold Part.withdraw
  rw [hx]
  show ((part.pool.set x.1 none)[k]?).join = _
  rw [List.getElem?_set]
  unfold Part.job?
  by_cases h : x.1 = k
  · subst h
    by_cases hl : x.1 < part.pool.length <;> simp [hl]
  · simp [h]

theorem Part.foldl_withdraw_pool (xs : List (Nat × Job)) (part : Part) (hx : ∀ x ∈ xs, ∃ n, x.2.scope = .zone n) :
    (xs.foldl Part.withdraw part).pool.length = part.pool.length
      ∧ ∀ k, (xs.foldl Part.withdraw part).job? k = if k ∈ xs.map (·.1) then none else part.job? k := by
  induction xs generalizing part with
  | nil => exact ⟨rfl, fun _ => rfl⟩
  | cons x xs ih =>
    obtain ⟨n, hn⟩ := hx x List.mem_cons_self
    obtain ⟨h1, h2⟩ := ih (part.withdraw x) fun y hy => hx y (List.mem_cons_of_mem _ hy)
    rw [List.foldl_cons]
    refine ⟨h1.trans ?_, fun k => ?_⟩
    · unfold Part.withdraw
      rw [hn]
      exact List.length_set ..
    · rw [h2, Part.job?_withdraw hn, List.map_cons]
      by_cases ha : k ∈ xs.map (·.1)
      · rw [if_pos ha, if_pos (List.mem_cons_of_mem _ ha)]
      · by_cases hk : x.1 = k
        · simp [hk]
        · simp [ha, hk, Ne.symm hk]

theorem Part.foldl_withdraw_zone (xs : List (Nat × Job)) (part : Part) (n : Nat) :
    (xs.foldl Part.withdraw part).zone? n = (part.zone? n).map fun y =>
      if ∃ x ∈ xs, x.2.scope = .zone n then { y with queuedJob := none } else y := by
  induction xs generalizing part with
  | nil => simp
  | cons x xs ih =>
    rw [List.foldl_cons, ih]
    have hw : (part.withdraw x).zone? n
        = (part.zone? n).map fun y => if x.2.scope = .zone n then { y with queuedJob := none } else y := by
      unfold Part.withdraw
      cases hs : x.2.scope with
      | panel p => simp
      | zone m =>
        dsimp only
        rw [Part.zone?_updateZone _ _ _ (fun z => { z with queuedJob := none }) fun _ => rfl]
        have e : (part.freeSlot x.1).zone? n = part.zone? n := rfl
        rw [e]
        by_cases h : n = m
        · simp [h]
        · simp [h, Ne.symm h]
    rw [hw, Option.map_map]
    congr 1
    funext y
    by_cases h1 : x.2.scope = .zone n <;> by_cases h2 : ∃ x ∈ xs, x.2.scope = .zone n <;> simp [h1, h2]

theorem Engine.start_eq (c : PanelCfg) (slot : Nat) (j : Job) : Engine.start c j.panel slot j = Engine.begun c slot j := by
  rfl

theorem Port.demandWake_eq (x : Port) :
    x.demandWake = if x.state = .off ∨ (x.state = .closing ∧ x.closingOver = true) then { x with wakePending := true } else x :=
  rfl

theorem Part.mapTiles_followTiles_eq (part : Part) (g : Setup) (p : PanelNo) (r : Rect) (f : Nat → Nat → Tile → Tile) :
    (part.mapTiles g p r f).followTiles = { part with
      tiles := (part.mapTiles g p r f).followTiles.tiles, zones := (part.mapTiles g p r f).followTiles.zones } := by
  unfold Part.mapTiles
  split <;> rfl

/-- An admission does what R48 and R49 say. -/
theorem Part.admitted {part : Part} {g : Setup} {c : PanelCfg} {slot : Nat} {j : Job} {mode : DriveMode} {pixels : Nat}
    (band cost : Nat) (hj : part.job? slot = some j)
    (hp : part.estimatePixels g j mode = pixels) :
    part.Admitted (part.admitJob g c slot j mode band cost) g c slot j mode band pixels cost := by
  let taken := part.withdrawnBy j
  let carried := ((part.tilesIn g j.panel j.rect).filter fun x => x.2.state == .dirty || x.2.state == .queued).map
    fun x => g.tileIndex j.panel c x.1.1 x.1.2
  let full := j.fullRequest || taken.any fun x => x.2.fullRequest
  let urgent := j.urgentCarried || taken.any fun x => x.2.cls == .urgent
  let r : RunFields := ⟨mode, band, cost, pixels, none, carried⟩
  let running : Job := { j with state := .capturing, fullRequest := full, urgentCarried := urgent, running := some r }
  let gone := taken.foldl Part.withdraw part
  let counts : Part := { gone.setJob slot running with
    committed := part.committed + cost, runningCount := part.runningCount + 1 }
  let active := (counts.mapTiles g j.panel j.rect fun _ _ t => { t with state := .active, redirty := false }).followTiles
  let started := ((active.runZone slot j).setEngine j.panel (some (Engine.begun c slot j))).setPort j.panel
    (part.port j.panel).demandWake
  have hA : part.admitJob g c slot j mode band cost = if taken.isEmpty then started else started.oweWalk := by
    subst hp
    rfl
  have hscope : ∀ x ∈ taken, ∃ n, x.2.scope = .zone n := fun x hx => ((part.mem_withdrawnBy j x.1 x.2).1 hx).2.2.2.2
  obtain ⟨hl, hjob⟩ := Part.foldl_withdraw_pool taken part hscope
  have hgone : gone = { part with pool := gone.pool, zones := gone.zones, stopMark := gone.stopMark } :=
    Part.foldl_withdraw_frame taken part
  have htaken : ∀ k, k ∈ taken.map (·.1) ↔ ∃ q, part.Withdraws j k q := fun k => by
    rw [List.mem_map]
    constructor
    · rintro ⟨⟨k', q⟩, hq, rfl⟩
      exact ⟨q, (part.mem_withdrawnBy j _ q).1 hq⟩
    · rintro ⟨q, hq⟩
      exact ⟨(k, q), (part.mem_withdrawnBy j k q).2 hq, rfl⟩
  have hslot : ¬∃ q, part.Withdraws j slot q := by
    rintro ⟨q, ⟨p, hs⟩, hq, -, -, n, hn⟩
    rw [hj] at hq
    cases hq
    rw [hs] at hn
    cases hn
  have hempty : taken.isEmpty = false ↔ ∃ k q, part.Withdraws j k q := by
    cases ht : taken with
    | nil =>
      simp only [List.isEmpty_nil, Bool.true_eq_false, false_iff]
      rintro ⟨k, q, hq⟩
      have := (part.mem_withdrawnBy j k q).2 hq
      rw [show part.withdrawnBy j = taken from rfl, ht] at this
      cases this
    | cons x xs =>
      simp only [List.isEmpty_cons, true_iff]
      exact ⟨x.1, x.2, (part.mem_withdrawnBy j x.1 x.2).1 (by
        rw [show part.withdrawnBy j = taken from rfl, ht]; exact List.mem_cons_self)⟩
  have hz : ∀ n y, part.zone? n = some y → active.zone? n
      = some { y.counted active.tiles part.clock.mono with
          queuedJob := if ∃ x ∈ taken, x.2.scope = .zone n then none else y.queuedJob } := fun n y hy => by
    have h1 := Part.foldl_withdraw_zone taken part n
    have h2 : (counts.mapTiles g j.panel j.rect fun _ _ t => { t with state := .active, redirty := false }).zone? n
        = gone.zone? n := by
      rw [Part.mapTiles_eq]; rfl
    have h3 : (counts.mapTiles g j.panel j.rect fun _ _ t => { t with state := .active, redirty := false }).clock
        = part.clock := by
      rw [Part.mapTiles_eq]
      show gone.clock = _
      rw [hgone]
    show (Part.followTiles _).zone? n = _
    rw [Part.zone?_followTiles, h2, h3]
    show ((taken.foldl Part.withdraw part).zone? n).map _ = _
    rw [h1, hy]
    show some _ = some _
    congr 1
    by_cases h : ∃ x ∈ taken, x.2.scope = .zone n
    · simp only [if_pos h]; rfl
    · simp only [if_neg h]; rfl
  have hactive : active = { part with
      tiles := active.tiles, zones := active.zones, pool := active.pool, stopMark := active.stopMark
      committed := part.committed + cost, runningCount := part.runningCount + 1 } := by
    have h1 : active = { counts with tiles := active.tiles, zones := active.zones } := by
      exact Part.mapTiles_followTiles_eq ..
    rw [h1]
    show ({ gone with
      tiles := active.tiles, zones := active.zones, pool := gone.pool.set slot (some running)
      committed := part.committed + cost, runningCount := part.runningCount + 1 } : Part) = _
    rw [hgone]
    rfl
  have hrun : active.runZone slot j = { active with zones := (active.runZone slot j).zones } := by
    unfold Part.runZone
    split <;> rfl
  have hfin : part.admitJob g c slot j mode band cost = { part with
      tiles := active.tiles, zones := (active.runZone slot j).zones, pool := active.pool, stopMark := active.stopMark
      walkOwed := part.walkOwed || !taken.isEmpty
      committed := part.committed + cost
      runningCount := part.runningCount + 1
      engines := part.engines.set j.panel (some (Engine.begun c slot j))
      ports := part.ports.set j.panel (part.port j.panel).demandWake } := by
    have hs : started = { part with
        tiles := active.tiles, zones := (active.runZone slot j).zones, pool := active.pool, stopMark := active.stopMark
        committed := part.committed + cost
        runningCount := part.runningCount + 1
        engines := part.engines.set j.panel (some (Engine.begun c slot j))
        ports := part.ports.set j.panel (part.port j.panel).demandWake } := by
      show ((active.runZone slot j).setEngine j.panel (some (Engine.begun c slot j))).setPort j.panel
        (part.port j.panel).demandWake = _
      rw [hrun, hactive]
      rfl
    rw [hA, hs]
    cases taken.isEmpty <;> simp [Part.oweWalk]
  have hpool : active.pool = gone.pool.set slot (some running) := by
    show ((Part.mapTiles counts g j.panel j.rect fun _ _ t => { t with state := .active, redirty := false }).followTiles).pool = _
    rw [Part.mapTiles_eq]
    rfl
  have hrunz : ∀ n, (active.runZone slot j).zone? n = (active.zone? n).map fun y =>
      if j.scope = .zone n then { y with queuedJob := none, runningJob := some slot } else y := fun n => by
    unfold Part.runZone
    cases hs : j.scope with
    | panel p => simp
    | zone m =>
      dsimp only
      rw [Part.zone?_updateZone _ _ _ (fun z => { z with queuedJob := none, runningJob := some slot }) fun _ => rfl]
      by_cases h : n = m
      · simp [h]
      · simp [h, Ne.symm h]
  have hlt : slot < gone.pool.length := by
    rw [show gone.pool.length = part.pool.length from hl]
    exact Part.job?_lt hj
  have hcarried : ∀ i, i ∈ carried ↔ ∃ tx ty x, j.rect.contains tx ty = true ∧ part.tileAt? g j.panel tx ty = some x
      ∧ (x.state = .dirty ∨ x.state = .queued) ∧ i = g.firstTile j.panel + ty * (c.width / 32) + tx := fun i => by
    simp only [carried, List.mem_map, List.mem_filter, Bool.or_eq_true, beq_iff_eq]
    constructor
    · rintro ⟨⟨⟨tx, ty⟩, x⟩, ⟨hm, hx⟩, rfl⟩
      obtain ⟨h1, h2⟩ := (Part.mem_tilesIn part g j.panel j.rect tx ty x).1 hm
      exact ⟨tx, ty, x, h1, h2, hx, rfl⟩
    · rintro ⟨tx, ty, x, h1, h2, hx, rfl⟩
      exact ⟨((tx, ty), x), ⟨(Part.mem_tilesIn part g j.panel j.rect tx ty x).2 ⟨h1, h2⟩, hx⟩, rfl⟩
  rw [hfin]
  refine ⟨r, full, urgent, rfl, hcarried, ?_, ?_, rfl, ?_, ?_, fun k hk => ?_, fun k hk hw => ?_, ?_,
    fun p tx ty x hx => ?_, fun n y hy => ?_⟩
  · rw [Bool.or_eq_true, part.any_withdrawnBy j (·.fullRequest)]
  · rw [Bool.or_eq_true, part.any_withdrawnBy j (·.cls == .urgent)]
    simp only [beq_iff_eq]
  · rw [Bool.or_eq_true, Bool.not_eq_true', hempty]
  · show active.pool.length = _
    rw [hpool, List.length_set]
    exact hl
  · show (active.pool[k]?).join = none
    have hne : slot ≠ k := by rintro rfl; exact hslot hk
    rw [hpool, List.getElem?_set_ne hne]
    show (taken.foldl Part.withdraw part).job? k = none
    rw [hjob, if_pos ((htaken k).2 hk)]
  · show (active.pool[k]?).join = _
    rw [hpool, List.getElem?_set_ne (Ne.symm hk)]
    show (taken.foldl Part.withdraw part).job? k = _
    rw [hjob, if_neg fun h => (htaken k).1 h |>.elim hw]
  · show (active.pool[slot]?).join = _
    rw [hpool, List.getElem?_set_self hlt]
    rfl
  · show active.tileAt? g p tx ty = _
    show (Part.followTiles _).tileAt? g p tx ty = _
    have e : counts.tileAt? g p tx ty = some x := by
      rw [← hx]
      refine Part.tileAt?_congr ?_ g p tx ty
      show gone.tiles = _
      rw [hgone]
    rw [Part.tileAt?_followTiles]
    by_cases hp : p = j.panel
    · subst hp
      rw [Part.tileAt?_mapTiles, e]
      simp
    · rw [Part.tileAt?_mapTiles_other _ _ hp, e]
      simp [hp]
  · have e := hrunz n
    rw [hz n y hy] at e
    have e' : ((active.runZone slot j).zone? n) = ({ part with zones := (active.runZone slot j).zones } : Part).zone? n := rfl
    refine ⟨if j.scope = .zone n ∨ ∃ x ∈ taken, x.2.scope = .zone n then none else y.queuedJob, ?_, fun h => ?_, fun h1 h2 => ?_⟩
    · show (active.runZone slot j).zone? n = _
      rw [e]
      by_cases h : j.scope = .zone n
      · simp only [Option.map_some, h, if_true, true_or]
      · simp only [Option.map_some, h, if_false, false_or]
        rfl
    · rw [if_pos]
      rcases h with h | ⟨k, q, hq, hn⟩
      · exact .inl h
      · exact .inr ⟨(k, q), (part.mem_withdrawnBy j k q).2 hq, hn⟩
    · rw [if_neg]
      rintro (h | ⟨x, hx, hn⟩)
      · exact h1 h
      · exact h2 x.1 x.2 ((part.mem_withdrawnBy j x.1 x.2).1 hx) hn

/-! ### The walk (R46, R47, R102, R103) -/

/-- The walk over a queue does what R47 says. -/
theorem Part.walkTaken (g : Setup) (queue : List (Nat × Job)) (part : Part) : WalkTaken g queue part (part.walkFrom g queue) := by
  induction queue generalizing part with
  | nil => rfl
  | cons x rest ih =>
    obtain ⟨slot, y⟩ := x
    refine ⟨fun h => ?_, fun j hj => ⟨fun h => ?_, fun c sel mode pixels cost hq hc hs hp hm hk => ?_⟩⟩
    · have e : part.walkFrom g ((slot, y) :: rest) = part.walkFrom g rest := by
        rw [Part.walkFrom]
        rw [show part.job? slot = none from h]
      rw [e]
      exact ih part
    · have e : part.walkFrom g ((slot, y) :: rest) = part.walkFrom g rest := by
        rw [Part.walkFrom]
        rw [show part.job? slot = some j from hj]
        dsimp only
        split
        · next h1 h2 =>
          rw [if_pos]
          rcases h with h | h | h | h
          · exact .inl h
          · rw [h] at h1; cases h1
          · rw [h] at h2; cases h2
          · exact .inr ((part.skips_iff g j).2 h)
        · rfl
      rw [e]
      exact ih part
    · obtain ⟨hpix, hcost⟩ := hk.estimate_eq
      have hmode := hm.eq hc
      have hskip : ¬(j.state ≠ .queued ∨ part.skips g j = true) := by
        rintro (h | h)
        · exact h hq
        · exact hp ((part.skips_iff g j).1 h)
      have e : part.walkFrom g ((slot, y) :: rest)
          = if part.energy.level.admits j.cls = true ∧ cost ≤ part.spendable g then
              (part.admitJob g c slot j mode sel.band cost).walkFrom g rest
            else { part with stopMark := some slot } := by
        rw [Part.walkFrom]
        rw [show part.job? slot = some j from hj]
        dsimp only
        rw [hc, hs]
        dsimp only
        rw [if_neg hskip, hmode, hcost]
      rw [e]
      refine ⟨fun hf => ?_, fun hf => if_neg fun h => hf ((part.fits_iff g j cost).1 h)⟩
      rw [if_pos ((part.fits_iff g j cost).2 hf)]
      exact ⟨_, Part.admitted sel.band cost hj hpix, ih _⟩

/-- A walk does what R46, R47, R102 and R103 say. -/
theorem Part.walked (part : Part) : part.Walked part.walk := by
  refine ⟨fun h => ?_, fun g h => ?_⟩
  · unfold Part.walk
    split
    · rfl
    · next h' => rw [h] at h'; cases h'
  · let taken : Part := { part with walkOwed := false }
    have e : part.walk = (if part.unit.runState = .running then taken.admitAll g part.queue
        else { taken with stopMark := none }).starvedTest g := by
      unfold Part.walk
      split
      · next h' => rw [h] at h'; cases h'
      · next g' h' => rw [h] at h'; cases h'; rfl
    rw [e]
    refine ⟨_, fun hr => if_neg hr, fun hr => ?_, Part.starvedTest_made g _⟩
    rw [if_pos hr]
    refine ⟨part.queue, taken.walkFrom g part.queue, part.queueIs, Part.walkTaken g _ _, fun hw => ?_, fun hw => ?_⟩
    · unfold Part.admitAll
      dsimp only
      rw [if_pos hw]
      exact Part.heldPass_slotsFreed _ g
    · unfold Part.admitAll
      dsimp only
      rw [hw]
      exact if_neg Bool.false_ne_true

/-- The walks of a step do what R46 says. -/
theorem Part.walksOver (n : Nat) (part : Part) : WalksOver n part (Part.takeWalks n part) := by
  induction n generalizing part with
  | zero => rfl
  | succ n ih =>
    refine ⟨fun h => Part.takeWalks_of_not_owed h _, fun h => ⟨part.walk, part.walked, ?_⟩⟩
    rw [Part.takeWalks, if_pos h]
    exact ih _

end Sys2Proof.Machine
end

