-- ==== Sys2Proof/Laws/Second.lean ====
section
/-! SUPPORT. The tests of a second: each meets the relation of Safety.lean that says what it can do, and so does their
sequence. -/

namespace Sys2Proof.Machine

/-! ### The zone and sweep triggers change only what walks change too, and the rest stays -/

theorem Part.outsideWalk_epochAt (g : Setup) (part : Part) (z : ZoneCfg) :
    (part.epochAt g z).outsideWalk = part.outsideWalk := by
  unfold Part.epochAt
  split
  · split
    · exact Part.outsideWalk_enqueue ..
    · exact Part.outsideWalk_updateZone ..
  · rfl

theorem Part.outsideWalk_quietEndAt (g : Setup) (part : Part) (z : ZoneCfg) :
    (part.quietEndAt g z).outsideWalk = part.outsideWalk := by
  unfold Part.quietEndAt
  split
  · exact Part.outsideWalk_enqueue ..
  · rfl

theorem Part.outsideWalk_holdAt (g : Setup) (part : Part) (z : ZoneCfg) :
    (part.holdAt g z).outsideWalk = part.outsideWalk := by
  unfold Part.holdAt
  split
  · split
    · exact Part.outsideWalk_enqueue ..
    · rfl
  · rfl

theorem Part.outsideWalk_requestSweep (g : Setup) (part : Part) (p : PanelNo) (c : PanelCfg) (o : Origin) :
    (part.requestSweep g p c o).outsideWalk = part.outsideWalk := by
  unfold Part.requestSweep
  split
  · next h =>
    unfold Part.requestPanel at h
    split at h
    · cases h
      rw [Part.outsideWalk_followTiles, Part.outsideWalk_mapTiles, Part.outsideWalk_mergeRequest]
    · split at h
      · cases h
        rw [Part.outsideWalk_followTiles, Part.outsideWalk_mapTiles, Part.outsideWalk_placeJob]
      · cases h
  · exact Part.outsideWalk_latch ..

theorem Part.outsideWalk_sweepTimeAt (g : Setup) (part : Part) (p : PanelNo) :
    (Part.sweepTimeAt g part p).outsideWalk = part.outsideWalk := by
  unfold Part.sweepTimeAt
  split
  · rfl
  · split
    · exact Part.outsideWalk_requestSweep ..
    · rfl

theorem Part.outsideWalk_surplusAt (g : Setup) (part : Part) (p : PanelNo) :
    (Part.surplusAt g part p).outsideWalk = part.outsideWalk := by
  unfold Part.surplusAt
  split
  · rfl
  · split
    · exact Part.outsideWalk_requestSweep ..
    · rfl

/-! ### Polls and staleness (R84, R85) -/

theorem Part.pollAt_frame (g : Setup) (part : Part) (p : PanelNo) :
    ∃ selectors ports, Part.pollAt g part p = { part with selectors := selectors, ports := ports } := by
  unfold Part.pollAt
  split
  · split
    · exact ⟨_, _, rfl⟩
    · exact ⟨part.selectors, part.ports, rfl⟩
  · exact ⟨part.selectors, part.ports, rfl⟩

theorem Part.foldl_pollAt_frame (g : Setup) (ps : List PanelNo) (part : Part) :
    ∃ selectors ports, ps.foldl (Part.pollAt g) part = { part with selectors := selectors, ports := ports } := by
  induction ps generalizing part with
  | nil => exact ⟨part.selectors, part.ports, rfl⟩
  | cons p ps ih =>
    obtain ⟨s, q, h⟩ := Part.pollAt_frame g part p
    obtain ⟨s', q', h'⟩ := ih (Part.pollAt g part p)
    exact ⟨s', q', by rw [List.foldl_cons, h', h]⟩

theorem Part.staleAt_frame (g : Setup) (part : Part) (p : PanelNo) :
    ∃ selectors causes, Part.staleAt g part p
        = { part with selectors := selectors, unit := { part.unit with causes := causes } }
      ∧ ∀ k, k ≠ .tempStale → (Part.staleAt g part p).unit.detail? k = part.unit.detail? k := by
  unfold Part.staleAt
  split
  · split
    · rw [Part.latch_eq]
      refine ⟨_, _, rfl, fun k hk => ?_⟩
      exact Part.detail_latch_ne _ _ hk
    · exact ⟨part.selectors, part.unit.causes, rfl, fun _ _ => rfl⟩
  · exact ⟨part.selectors, part.unit.causes, rfl, fun _ _ => rfl⟩

theorem Part.foldl_staleAt_frame (g : Setup) (ps : List PanelNo) (part : Part) :
    ∃ selectors causes, ps.foldl (Part.staleAt g) part
        = { part with selectors := selectors, unit := { part.unit with causes := causes } }
      ∧ ∀ k, k ≠ .tempStale → (ps.foldl (Part.staleAt g) part).unit.detail? k = part.unit.detail? k := by
  induction ps generalizing part with
  | nil => exact ⟨part.selectors, part.unit.causes, rfl, fun _ _ => rfl⟩
  | cons p ps ih =>
    obtain ⟨s, q, h, hk⟩ := Part.staleAt_frame g part p
    obtain ⟨s', q', h', hk'⟩ := ih (Part.staleAt g part p)
    refine ⟨s', q', by rw [List.foldl_cons, h', h], fun k hne => ?_⟩
    rw [List.foldl_cons, hk' k hne, hk k hne]

/-! ### The sample and the sequence of the tests (R88, R152) -/

theorem Part.sample_made (g : Setup) {part : Part} (hg : part.setup = some g) (storage solar : Int) :
    TestMade g .sample part (part.takeSample storage solar) := by
  have hs : part.takeSample storage solar
      = ({ part with
            energy := part.energy.sample g.globals (clampInput 6000 storage) (clampInput 30000 solar)
            walkOwed := true } : Part).levelChanged g part.energy.level := by
    unfold Part.takeSample
    split
    · next hn => rw [hg] at hn; cases hn
    · next g' hg' => rw [hg] at hg'; cases hg'; rfl
  rw [hs]
  generalize part.energy.sample g.globals (clampInput 6000 storage) (clampInput 30000 solar) = e
  unfold Part.levelChanged
  dsimp only
  by_cases h : e.level = part.energy.level
  · rw [if_pos h]
    exact ⟨{ part with energy := e, walkOwed := true }, rfl, fun _ _ => rfl, fun h1 => absurd (h.symm.trans h1.1) h1.2,
      fun _ => rfl⟩
  · rw [if_neg h, Part.latch_eq]
    refine ⟨{ part with
        energy := e, walkOwed := true
        unit := { part.unit with
          causes := (({ part with energy := e, walkOwed := true } : Part).latch .policyChanged e.level.rank).unit.causes } },
      rfl, fun k hk => Part.detail_latch_ne _ _ hk, fun ⟨h1, _⟩ => ?_, fun h1 => ?_⟩
    · simp only [Part.oweWalk]
      rw [if_pos h1]
      exact Passes.foldl (fun p x => Part.surplusTaken g p x) _ _
    · simp only [Part.oweWalk]
      rw [if_neg (fun h2 => h1.elim (fun h3 => h3 h2) (fun h3 => h (h2.trans h3.symm)))]

/-- Each test of a second does what its rules say. -/
theorem Part.testMade (g : Setup) (storage solar : Int) (t : SecondTask) {part : Part} (hg : part.setup = some g) :
    TestMade g t part (Part.secondTaskWith g storage solar part t) := by
  have hb : g.globals.boundary part.clock.secondOfDay = true ↔ g.Boundary part.clock.secondOfDay := by
    simp [GlobalSettings.boundary, Setup.Boundary]
  cases t with
  | epochZones =>
    refine ⟨fun h => ?_, fun h => if_neg fun h' => h (hb.1 h')⟩
    simp only [Part.secondTaskWith, Part.epochZones, hb.2 h, if_true]
    exact Passes.foldl (fun z x => Part.epochTaken g z x) _ _
  | epochSweeps =>
    refine ⟨fun h => ?_, fun h => if_neg fun h' => h ⟨hb.1 h'.1, h'.2⟩⟩
    simp only [Part.secondTaskWith, Part.epochSweeps, hb.2 h.1, h.2, and_self, if_true]
    exact Passes.foldl (fun p x => Part.surplusTaken g p x) _ _
  | epochLead =>
    simp only [Part.secondTaskWith, Part.epochLeadTest]
    split
    · exact ⟨Part.latch_eq .., fun k hk => Part.detail_latch_ne _ _ hk⟩
    · exact ⟨rfl, fun _ _ => rfl⟩
  | quietEnd =>
    refine ⟨fun h => ?_, fun h => if_neg fun h' => h.elim h'.1 fun h2 => h2 h'.2⟩
    simp only [Part.secondTaskWith, Part.quietEndTest]
    rw [if_pos h]
    exact Passes.foldl (fun z x => Part.quietEndTaken g z x) _ _
  | sweepTime =>
    refine ⟨fun h => ?_, fun h => if_neg h⟩
    simp only [Part.secondTaskWith, Part.sweepTimeTest]
    rw [if_pos h]
    exact Passes.foldl (fun p x => Part.sweepTimeTaken g p x) _ _
  | maximumHold => exact Passes.foldl (fun z x => Part.holdTaken g z x) _ _
  | polls =>
    obtain ⟨s, q, h⟩ := Part.foldl_pollAt_frame g panelNos part
    simp only [Part.secondTaskWith, Part.pollTest, TestMade]
    rw [h]
  | staleness =>
    obtain ⟨s, q, h, hk⟩ := Part.foldl_staleAt_frame g panelNos part
    refine ⟨?_, hk⟩
    simp only [Part.secondTaskWith, Part.staleTest]
    rw [h]
  | starved => exact Part.starvedTest_made g part
  | sample => exact Part.sample_made g hg storage solar
  | walk =>
    refine ⟨fun h => ?_, fun h => if_neg (h ▸ Bool.false_ne_true)⟩
    simp only [Part.secondTaskWith, Part.walkIfOwed, h, if_true]
    exact part.walked

/-- No test of a second changes the installed setup. -/
theorem Part.secondTaskWith_setup (g : Setup) (storage solar : Int) (part : Part) (t : SecondTask) :
    (Part.secondTaskWith g storage solar part t).setup = part.setup := by
  cases t with
  | epochZones =>
    simp only [Part.secondTaskWith, Part.epochZones]
    split
    · exact Part.setup_of_outsideWalk (Part.outsideWalk_foldl _ (Part.outsideWalk_epochAt g) _ _)
    · rfl
  | epochSweeps =>
    simp only [Part.secondTaskWith, Part.epochSweeps]
    split
    · exact Part.setup_of_outsideWalk (Part.outsideWalk_foldl _ (Part.outsideWalk_surplusAt g) _ _)
    · rfl
  | epochLead =>
    simp only [Part.secondTaskWith, Part.epochLeadTest]
    split
    · exact Part.setup_of_outsideWalk (Part.outsideWalk_latch ..)
    · rfl
  | quietEnd =>
    simp only [Part.secondTaskWith, Part.quietEndTest]
    split
    · exact Part.setup_of_outsideWalk (Part.outsideWalk_foldl _ (Part.outsideWalk_quietEndAt g) _ _)
    · rfl
  | sweepTime =>
    simp only [Part.secondTaskWith, Part.sweepTimeTest]
    split
    · exact Part.setup_of_outsideWalk (Part.outsideWalk_foldl _ (Part.outsideWalk_sweepTimeAt g) _ _)
    · rfl
  | maximumHold => exact Part.setup_of_outsideWalk (Part.outsideWalk_foldl _ (Part.outsideWalk_holdAt g) _ _)
  | polls =>
    obtain ⟨s, q, h⟩ := Part.foldl_pollAt_frame g panelNos part
    simp only [Part.secondTaskWith, Part.pollTest, h]
  | staleness =>
    obtain ⟨s, q, h, -⟩ := Part.foldl_staleAt_frame g panelNos part
    simp only [Part.secondTaskWith, Part.staleTest, h]
  | starved => exact Part.setup_of_outsideWalk (Part.outsideWalk_starvedTest ..)
  | sample =>
    simp only [Part.secondTaskWith, Part.takeSample]
    split
    · rfl
    · unfold Part.levelChanged
      dsimp only
      split
      · rfl
      · split
        · exact (Part.setup_of_outsideWalk (Part.outsideWalk_foldl _ (Part.outsideWalk_surplusAt _) _ _)).trans
            (by rw [Part.latch_eq]; rfl)
        · rw [Part.latch_eq]; rfl
  | walk =>
    simp only [Part.secondTaskWith, Part.walkIfOwed]
    split
    · exact Part.setup_of_outsideWalk (Part.outsideWalk_walk _)
    · rfl

/-- The tests of a second, in the order they are given. -/
theorem Part.passes_secondTasks {g : Setup} (storage solar : Int) (ts : List SecondTask) {part : Part}
    (hg : part.setup = some g) :
    Passes (TestMade g) ts part (ts.foldl (Part.secondTask storage solar) part) := by
  induction ts generalizing part with
  | nil => exact rfl
  | cons t ts ih =>
    have e : Part.secondTask storage solar part t = Part.secondTaskWith g storage solar part t := by
      unfold Part.secondTask
      rw [hg]
    refine ⟨_, Part.testMade g storage solar t hg, ?_⟩
    rw [List.foldl_cons, e]
    exact ih ((Part.secondTaskWith_setup g storage solar part t).trans hg)

end Sys2Proof.Machine
end

