-- ==== Sys2Proof/Laws/SetupData.lean ====
section
/-! SUPPORT. The setup data of an APPLY: the fields, the clamps and the structural checks of Machine/Apply.lean meet the relations
of Safety.lean that say them by the spec's tables. -/

namespace Sys2Proof.Machine

/-! ### Fields (R159, R165) -/

theorem sum_map_mul (c : Nat) (f : Nat → Nat) (l : List Nat) : (l.map fun i => c * f i).sum = c * (l.map f).sum := by
  induction l with
  | nil => rfl
  | cons a l ih => simp only [List.map_cons, List.sum_cons, ih, Nat.mul_add]

theorem setupField_eq (d : Memory) (o n : Nat) : setupField d o n = setupNumber d o n := by
  unfold setupField setupNumber
  induction n generalizing o with
  | zero => rfl
  | succ n ih =>
    rw [Memory.readRun, leNat, ih, List.range_succ_eq_map, List.map_cons, List.sum_cons, List.map_map, ← sum_map_mul]
    simp only [Nat.pow_zero, Nat.mul_one, Nat.add_zero, Nat.add_left_cancel_iff]
    congr 2
    funext i
    simp only [Function.comp, Nat.succ_eq_add_one, Nat.pow_succ]
    rw [show o + 1 + i = o + (i + 1) by omega]
    ac_rfl

theorem Memory.length_readRun (d : Memory) (o n : Nat) : (d.readRun o n).length = n := by
  induction n generalizing o with
  | zero => rfl
  | succ n ih => simp [Memory.readRun, ih]

theorem setupSigned_eq (d : Memory) (o n : Nat) : setupSigned d o n = setupInteger d o n := by
  unfold setupSigned leInt setupInteger
  rw [Memory.length_readRun, show leNat (d.readRun o n) = setupNumber d o n from setupField_eq d o n]

theorem setupNumber_byte (d : Memory) (o : Nat) : setupNumber d o 1 ≤ 255 := by
  have := (Memory.read d o).isLt
  simp only [setupNumber, List.range_one, List.map_cons, List.map_nil, List.sum_cons, List.sum_nil, Nat.add_zero, Nat.pow_zero,
    Nat.mul_one]
  omega

/-! ### Clamps (R163) -/

/-- One where a scalar is clamped, and else none. -/
def Scalar.count (k : Scalar) : Nat := if k.outside then 1 else 0

theorem countP_outside_cons (k : Scalar) (ks : List Scalar) :
    (k :: ks).countP Scalar.outside = k.count + ks.countP Scalar.outside := by
  rw [List.countP_cons, Nat.add_comm]
  rfl

/-- A clamp of the model is the scalar taken, and its count. -/
theorem clampField_scalar {lo hi v : Nat} {l h : Int} (hl : (lo : Int) = l) (hh : (hi : Int) = h) :
    (Scalar.mk v l h (clampField lo hi v).1).Taken ∧ ∀ w, (Scalar.mk v l h w).count = (clampField lo hi v).2 := by
  subst hl hh
  unfold clampField Scalar.Taken Scalar.count Scalar.outside
  simp only [Int.ofNat_lt, decide_eq_true_eq]
  by_cases h1 : v < lo
  · simp [h1]
  · by_cases h2 : hi < v <;> simp [h1, h2]

theorem clampSigned_scalar (lo hi v : Int) :
    (Scalar.mk v lo hi (clampSigned lo hi v).1).Taken ∧ ∀ w, (Scalar.mk v lo hi w).count = (clampSigned lo hi v).2 := by
  unfold clampSigned Scalar.Taken Scalar.count Scalar.outside
  simp only [decide_eq_true_eq]
  by_cases h1 : v < lo
  · simp [h1]
  · by_cases h2 : hi < v <;> simp [h1, h2]

/-- The scalars of a list are taken, and `n` of them are clamped. -/
def Meets (ks : List Scalar) (n : Nat) : Prop := (∀ k ∈ ks, k.Taken) ∧ ks.countP Scalar.outside = n

theorem Meets.nil : Meets [] 0 := ⟨by simp, rfl⟩

theorem Meets.cons {k : Scalar} {ks : List Scalar} {a n : Nat} (hk : k.Taken ∧ k.count = a) (h : Meets ks n) :
    Meets (k :: ks) (a + n) := by
  refine ⟨fun x hx => ?_, by rw [countP_outside_cons, hk.2, h.2]⟩
  rcases List.mem_cons.1 hx with rfl | hx
  · exact hk.1
  · exact h.1 x hx

theorem Meets.append {ks ls : List Scalar} {m n : Nat} (h : Meets ks m) (h' : Meets ls n) : Meets (ks ++ ls) (m + n) := by
  refine ⟨fun x hx => ?_, by rw [List.countP_append, h.2, h'.2]⟩
  rcases List.mem_append.1 hx with hx | hx
  · exact h.1 x hx
  · exact h'.1 x hx

theorem Meets.flatMap {α : Type} {l : List α} {f : α → List Scalar} {n : α → Nat} (h : ∀ a ∈ l, Meets (f a) (n a)) :
    Meets (l.flatMap f) (l.map n).sum := by
  induction l with
  | nil => exact .nil
  | cons a l ih =>
    rw [List.flatMap_cons, List.map_cons, List.sum_cons]
    exact (h a List.mem_cons_self).append (ih fun b hb => h b (List.mem_cons_of_mem _ hb))

/-- One clamped field. -/
theorem clamped_field {lo hi : Nat} {l h : Int} (d : Memory) (o n : Nat) (hl : (lo : Int) = l) (hh : (hi : Int) = h) :
    (Scalar.mk (setupNumber d o n) l h (clampField lo hi (setupField d o n)).1).Taken
      ∧ (Scalar.mk (setupNumber d o n) l h (clampField lo hi (setupField d o n)).1).count
        = (clampField lo hi (setupField d o n)).2 := by
  rw [setupField_eq]
  exact ⟨(clampField_scalar hl hh).1, (clampField_scalar hl hh).2 _⟩

theorem clampField_ge {lo hi v : Nat} (h : lo ≤ hi) : lo ≤ (clampField lo hi v).1 := by
  unfold clampField
  split
  · exact Nat.le_refl _
  · split <;> simp <;> omega

theorem globals_meet (d : Memory) :
    Meets ((readGlobals d).1.scalars d ++ (readGlobals d).1.sweepScalars d) (readGlobals d).2 := by
  have hE : ((clampField 10 3600 (setupField d 0x226 2)).1 - 1 : Nat)
      = ((clampField 10 3600 (setupField d 0x226 2)).1 : Int) - 1 := by
    have := clampField_ge (lo := 10) (hi := 3600) (v := setupField d 0x226 2) (by omega)
    omega
  have hs : Meets ((readGlobals d).1.sweepScalars d)
      (if decide (setupField d 0x234 4 = 0xFFFFFFFF) then 0 else (clampField 0 86399 (setupField d 0x234 4)).2) := by
    unfold GlobalSettings.sweepScalars readGlobals
    dsimp only
    by_cases h : setupField d 0x234 4 = 0xFFFFFFFF
    · simp only [h, decide_true, if_true]
      exact .nil
    · simp only [h, decide_false, Bool.false_eq_true, if_false]
      exact .cons (clamped_field d _ _ rfl rfl) .nil
  have hg := Meets.append (ks := (readGlobals d).1.scalars d) (
    .cons (clamped_field d _ _ rfl rfl) <| .cons (clamped_field d _ _ rfl rfl) <| .cons (clamped_field d _ _ rfl rfl) <|
    .cons (clamped_field d _ _ rfl rfl) <| .cons (clamped_field d _ _ rfl rfl) <| .cons (clamped_field d _ _ rfl rfl) <|
    .cons (clamped_field d _ _ rfl rfl) <| .cons (clamped_field d _ _ rfl rfl) <| .cons (clamped_field d _ _ rfl rfl) <|
    .cons (clamped_field d _ _ rfl rfl) <| .cons (clamped_field d _ _ rfl rfl) <| .cons (clamped_field d _ _ rfl rfl) <|
    .cons (clamped_field d _ _ rfl rfl) <| .cons (clamped_field d _ _ rfl rfl) <| .cons (clamped_field d _ _ rfl rfl) <|
    .cons (clamped_field d _ _ rfl rfl) <|
    .cons (by rw [← setupSigned_eq]; exact ⟨(clampSigned_scalar ..).1, (clampSigned_scalar ..).2 _⟩) <|
    .cons (clamped_field d _ _ rfl rfl) <| .cons (clamped_field d _ _ rfl hE) <| .cons (clamped_field d _ _ rfl hE) <|
    .cons (clamped_field d _ _ rfl rfl) <| .cons (clamped_field d _ _ rfl rfl) <| .cons (clamped_field d _ _ rfl rfl) <|
    .cons (clamped_field d _ _ rfl rfl) <| .cons (clamped_field d _ _ rfl rfl) <| .cons (clamped_field d _ _ rfl rfl) .nil) hs
  refine ⟨hg.1, hg.2.trans ?_⟩
  unfold readGlobals
  dsimp only
  omega

theorem band_meets (d : Memory) (i : Nat) : Meets ((readBand d i).1.scalars d i) (readBand d i).2 := by
  have h : Meets ((readBand d i).1.scalars d i) _ :=
    .cons (clamped_field d _ _ rfl rfl) <| .cons (clamped_field d _ _ rfl rfl) <| .cons (clamped_field d _ _ rfl rfl) <|
    .cons (clamped_field d _ _ rfl rfl) .nil
  refine ⟨h.1, h.2.trans ?_⟩
  unfold readBand
  dsimp only
  omega

/-- The two debt thresholds (R63). -/
theorem debts_meet (d : Memory) (a b : Nat) :
    Meets
      [⟨setupNumber d a 1, 1, 254, (clampDebts (setupField d a 1) (setupField d b 1)).1.1⟩,
        ⟨setupNumber d b 1, (clampDebts (setupField d a 1) (setupField d b 1)).1.1 + 1, 255,
          (clampDebts (setupField d a 1) (setupField d b 1)).1.2⟩]
      (clampDebts (setupField d a 1) (setupField d b 1)).2 := by
  have hb := setupNumber_byte d b
  have h1 := clamped_field (lo := 1) (hi := 254) d a 1 rfl rfl
  rw [setupField_eq d b]
  unfold clampDebts
  dsimp only
  split
  · next h =>
    have hlt : (setupNumber d b 1 : Int) < ((clampField 1 254 (setupField d a 1)).1 : Int) + 1 := by omega
    refine .cons h1 (.cons (n := 0) (a := 1) ⟨?_, ?_⟩ .nil)
    · unfold Scalar.Taken
      rw [if_pos hlt]
      rfl
    · simp [Scalar.count, Scalar.outside, hlt]
  · next h =>
    have hlt : ¬(setupNumber d b 1 : Int) < ((clampField 1 254 (setupField d a 1)).1 : Int) + 1 := by omega
    have hgt : ¬(255 : Int) < setupNumber d b 1 := by omega
    have := Meets.cons (a := (clampField 1 254 (setupField d a 1)).2) h1 (Meets.cons (n := 0) (a := 0)
      (k := ⟨setupNumber d b 1, ((clampField 1 254 (setupField d a 1)).1 : Int) + 1, 255, setupNumber d b 1⟩) ⟨?_, ?_⟩ .nil)
    · exact this
    · unfold Scalar.Taken
      rw [if_neg hlt, if_neg hgt]
    · simp [Scalar.count, Scalar.outside, hlt, hgt]

theorem panel_meets (d : Memory) (p : PanelNo) :
    Meets (((readPanel d p).1.map fun c => c.scalars d p).getD []) (readPanel d p).2 := by
  unfold readPanel
  dsimp only
  split
  · exact .nil
  · have hd := debts_meet d (0x400 + 64 * p.val + 0x1D) (0x400 + 64 * p.val + 0x1E)
    have h := Meets.append (ks := [_, _, _, _, _, _]) (
      .cons (clamped_field (lo := 5) (hi := 255) d (0x400 + 64 * p.val + 0x01) 1 rfl rfl) <|
      .cons (clamped_field (lo := 20) (hi := 2000) d (0x400 + 64 * p.val + 0x14) 2 rfl rfl) <|
      .cons (clamped_field (lo := 0) (hi := 1000) d (0x400 + 64 * p.val + 0x16) 2 rfl rfl) <|
      .cons (clamped_field (lo := 1) (hi := 600) d (0x400 + 64 * p.val + 0x18) 2 rfl rfl) <|
      .cons (clamped_field (lo := 10) (hi := 3600) d (0x400 + 64 * p.val + 0x1A) 2 rfl rfl) <|
      .cons (clamped_field (lo := 0) (hi := 60) d (0x400 + 64 * p.val + 0x1C) 1 rfl rfl) .nil)
      (hd.append (.cons (clamped_field (lo := 1) (hi := 1023) d (0x400 + 64 * p.val + 0x20) 2 rfl rfl) <|
        .cons (clamped_field (lo := 0) (hi := 4095) d (0x400 + 64 * p.val + 0x22) 2 rfl rfl) .nil))
    refine ⟨h.1, h.2.trans ?_⟩
    omega

theorem zoneClassOf_code (d : Memory) (o : Nat) :
    ((zoneClassOf (clampField 0 2 (setupField d o 1)).1).setupCode : Int) = (clampField 0 2 (setupField d o 1)).1 := by
  have h : (clampField 0 2 (setupField d o 1)).1 ≤ 2 := by
    unfold clampField
    split
    · omega
    · split <;> simp <;> omega
  match (clampField 0 2 (setupField d o 1)).1, h with
  | 0, _ | 1, _ | 2, _ => rfl

theorem zonePolicyOf_code (d : Memory) (o : Nat) :
    ((zonePolicyOf (clampField 0 2 (setupField d o 1)).1).setupCode : Int) = (clampField 0 2 (setupField d o 1)).1 := by
  have h : (clampField 0 2 (setupField d o 1)).1 ≤ 2 := by
    unfold clampField
    split
    · omega
    · split <;> simp <;> omega
  match (clampField 0 2 (setupField d o 1)).1, h with
  | 0, _ | 1, _ | 2, _ => rfl

theorem zone_meets (d : Memory) (z : Nat) :
    Meets (((readZone d z).1.map fun z => z.cfg.scalars d).getD []) (readZone d z).2 := by
  unfold readZone
  dsimp only
  split
  · exact .nil
  · simp only [Option.map_some, Option.getD_some, ZoneCfg.scalars, zoneClassOf_code, zonePolicyOf_code]
    have h := Meets.cons (clamped_field (lo := 0) (hi := 2) d (0x600 + 32 * z + 6) 1 rfl rfl) <|
      .cons (clamped_field (lo := 0) (hi := 2) d (0x600 + 32 * z + 7) 1 rfl rfl) <|
      .cons (clamped_field (lo := 1) (hi := 255) d (0x600 + 32 * z + 8) 1 rfl rfl) <|
      .cons (clamped_field (lo := 0) (hi := 3600) d (0x600 + 32 * z + 0x0A) 2 rfl rfl) .nil
    refine ⟨h.1, h.2.trans ?_⟩
    omega

theorem zones_meet (d : Memory) (zs : List Nat) :
    Meets (((zs.map (readZone d)).filterMap (·.1)).flatMap fun z => z.cfg.scalars d) ((zs.map (readZone d)).map (·.2)).sum := by
  induction zs with
  | nil => exact .nil
  | cons z zs ih =>
    have h := zone_meets d z
    rw [List.map_cons, List.map_cons, List.sum_cons]
    cases hz : (readZone d z).1 with
    | none =>
      rw [hz] at h
      rw [List.filterMap_cons_none hz, ← h.2]
      simpa using ih
    | some y =>
      rw [hz] at h
      rw [List.filterMap_cons_some hz, List.flatMap_cons]
      exact h.append ih

/-- The setup data read by the model are what the layouts of R165 say, with their clamps (R163). -/
theorem readSetup_readAs (d : Memory) : (readSetup d).ReadAs d := by
  have hlen : (readSetup d).bands.length = (readBandCount d).1 := by simp [readSetup]
  have hband : ∀ i, i < (readBandCount d).1 → (readSetup d).bands[i]? = some (readBand d i).1 := fun i hi => by
    simp [readSetup, hi]
  have hpanel : ∀ p, (readSetup d).panels.get p = (readPanel d p).1 := fun p => by simp [readSetup]
  have hm : Meets ((readSetup d).scalars d) (readSetup d).clamps := by
    have hb : Meets ((List.range (readSetup d).bands.length).flatMap fun i =>
        ((readSetup d).bands[i]?.map fun b => b.scalars d i).getD [])
        (((List.range' 0 (readBandCount d).1).map (readBand d)).map (·.2)).sum := by
      rw [hlen, List.map_map, ← List.range_eq_range']
      refine Meets.flatMap fun i hi => ?_
      rw [hband i (List.mem_range.1 hi)]
      exact band_meets d i
    have hp : Meets (panelNos.flatMap fun p => (((readSetup d).panels.get p).map fun c => c.scalars d p).getD [])
        (panelNos.map fun p => ((Quad.ofPanels (readPanel d)).get p).2).sum := by
      refine Meets.flatMap fun p _ => ?_
      rw [hpanel, Quad.get_ofPanels]
      exact panel_meets d p
    have hc : Meets [⟨setupNumber d 0x203 1, 1, 8, (readSetup d).bands.length⟩] ((readBandCount d).2 + 0) := by
      rw [hlen]
      exact .cons (clamped_field d _ _ rfl rfl) .nil
    exact ((((globals_meet d).append hc).append hb).append hp).append (zones_meet d _)
  have hzone : ∀ z ∈ (readSetup d).zones, ∃ i, (readZone d i).1 = some z := fun z hz => by
    obtain ⟨y, hy, e⟩ := List.mem_filterMap.1 hz
    obtain ⟨i, -, rfl⟩ := List.mem_map.1 hy
    exact ⟨i, e⟩
  have hz' : ∀ i, (readZone d i).1.map (·.cfg.index) = if setupNumber d (0x600 + 32 * i) 1 != 0 then some i else none :=
    fun i => by
      unfold readZone
      dsimp only
      rw [setupField_eq d (0x600 + 32 * i) 1]
      by_cases h : setupNumber d (0x600 + 32 * i) 1 = 0 <;> simp [h]
  refine ⟨hm.1, hm.2.symm, ?_, ?_, fun i hi => ?_, fun i b hb => ?_, fun p => ?_, fun p c hc => ?_, ?_, fun z hz => ?_⟩
  · rw [← setupField_eq]
    show (if decide (setupField d 0x234 4 = 0xFFFFFFFF) then none else some _) = none ↔ _
    by_cases h : setupField d 0x234 4 = 0xFFFFFFFF <;> simp [h]
  · rw [← setupField_eq]
    exact decide_eq_true_iff
  · rw [← setupField_eq]
    show (BitVec.ofNat 13 (setupField d 0x206 2)).getLsbD i = _
    rw [BitVec.getLsbD_ofNat]
    simp [hi]
  · by_cases hi : i < (readBandCount d).1
    · rw [hband i hi] at hb
      cases hb
      exact setupSigned_eq ..
    · rw [List.getElem?_eq_none (by omega)] at hb
      cases hb
  · rw [hpanel, ← setupField_eq]
    unfold readPanel
    dsimp only
    split
    · next h => simp [h]
    · next h => simp [h]
  · rw [hpanel] at hc
    unfold readPanel at hc
    dsimp only at hc
    split at hc
    · cases hc
    · cases hc
      simp only [setupField_eq, and_self]
  · show ((((List.range' 0 64).map (readZone d)).filterMap (·.1)).map (·.cfg.index)) = _
    rw [List.filterMap_map, List.map_filterMap, ← List.range_eq_range', ← List.filterMap_eq_filter]
    congr 1
    funext i
    exact hz' i
  · obtain ⟨i, hi⟩ := hzone z hz
    unfold readZone at hi
    dsimp only at hi
    split at hi
    · cases hi
    · cases hi
      dsimp only
      simp only [setupField_eq, true_and, and_true]
      intro p hp
      rw [hp]
      match p with
      | 0 | 1 | 2 | 3 => rfl

/-! ### The structural checks (R163) -/

theorem FirstFails.append {as bs : List SetupCheck} {a b : Option (SetupCause × Nat)} (ha : FirstFails as a)
    (hb : FirstFails bs b) : FirstFails (as ++ bs) (a.orElse fun _ => b) := by
  induction as with
  | nil => rw [show a = none from ha]; exact hb
  | cons k as ih =>
    obtain ⟨cause, index, passes⟩ := k
    exact ⟨fun h => ih (ha.1 h), fun h => by rw [ha.2 h]; rfl⟩

/-- A check made by a test of the model. -/
theorem FirstFails.check {cause : SetupCause} {index : Nat} {passes test : Prop} [Decidable test] {ks : List SetupCheck}
    {r : Option (SetupCause × Nat)} (h : test ↔ passes) (hr : passes → FirstFails ks r) :
    FirstFails ((cause, index, passes) :: ks) (if test then r else some (cause, index)) := by
  refine ⟨fun hp => ?_, fun hp => if_neg fun ht => hp (h.1 ht)⟩
  rw [if_pos (h.2 hp)]
  exact hr hp

theorem PanelCfg.geometryOk_iff (c : PanelCfg) : c.geometryOk = true ↔ c.GeometryKept := by
  simp only [PanelCfg.geometryOk, PanelCfg.GeometryKept, Bool.and_eq_true, decide_eq_true_eq, beq_iff_eq, and_assoc]

theorem geometry_firstFails (q : Quad (Option PanelCfg)) (ps : List PanelNo) :
    FirstFails (ps.flatMap fun p => ((q.get p).map fun c => [(SetupCause.badGeometry, p.val, c.GeometryKept)]).getD [])
      (checkGeometry q ps) := by
  induction ps with
  | nil => rfl
  | cons p ps ih =>
    rw [List.flatMap_cons, checkGeometry]
    cases q.get p with
    | none => exact ih
    | some c => exact FirstFails.check c.geometryOk_iff fun _ => ih

theorem capacity_firstFails (x : ReadSetup) (ps : List PanelNo) (p : PanelNo) (total : Nat)
    (hp : x.tilesUpTo p = total + ((x.panels.get p).map fun c => (c.width / 32) * (c.height / 32)).getD 0)
    (ih : FirstFails
      (ps.flatMap fun p => ((x.panels.get p).map fun _ => [(SetupCause.tileCapacity, p.val, x.tilesUpTo p ≤ 4096)]).getD [])
      (checkCapacity x.panels (x.tilesUpTo p) ps)) :
    FirstFails
      ((p :: ps).flatMap fun p =>
        ((x.panels.get p).map fun _ => [(SetupCause.tileCapacity, p.val, x.tilesUpTo p ≤ 4096)]).getD [])
      (checkCapacity x.panels total (p :: ps)) := by
  rw [List.flatMap_cons, checkCapacity]
  cases hc : x.panels.get p with
  | none =>
    rw [hc] at hp
    rw [show total = x.tilesUpTo p from hp.symm]
    exact ih
  | some c =>
    rw [hc] at hp
    have e : total + c.tileCount = x.tilesUpTo p := hp.symm
    dsimp only [Option.map_some, Option.getD_some, List.cons_append, List.nil_append]
    rw [e]
    refine ⟨fun h => ?_, fun h => if_pos (Nat.lt_of_not_le h)⟩
    rw [if_neg (show ¬Config.maxTiles < _ from Nat.not_lt.2 h)]
    exact ih

theorem rangesMeet_iff (a b : Nat × Nat) : rangesMeet a b = false ↔ Apart a b := by
  simp only [rangesMeet, Apart, Bool.and_eq_false_iff, decide_eq_false_iff_not, Nat.not_lt, or_comm]

theorem planes_firstFails (base : Nat) (rest : List (Nat × (Nat × Nat))) (checked : List (Nat × Nat)) :
    FirstFails (planeChecks base checked rest) (checkPlanes (base, base + Config.windowBytes) checked rest) := by
  induction rest generalizing checked with
  | nil => rfl
  | cons k rest ih =>
    obtain ⟨p, r⟩ := k
    rw [planeChecks, checkPlanes]
    have h : (Config.memoryEnd ≤ r.2 ∨ rangesMeet r (base, base + Config.windowBytes) = true
          ∨ checked.any (rangesMeet r) = true)
        ↔ ¬(r.2 < 0x1000000 ∧ Apart r (base, base + 0x1000) ∧ ∀ y ∈ checked, Apart r y) := by
      rw [← rangesMeet_iff, show (0x1000 : Nat) = Config.windowBytes from rfl, show (0x1000000 : Nat) = Config.memoryEnd from rfl]
      simp only [← rangesMeet_iff]
      rw [Classical.not_and_iff_not_or_not, Classical.not_and_iff_not_or_not, Nat.not_lt, Bool.not_eq_false, List.any_eq_true]
      simp
    refine ⟨fun hp => ?_, fun hp => if_pos (h.2 hp)⟩
    rw [if_neg fun hh => h.1 hh hp]
    exact ih _

theorem planeRanges_eq (x : ReadSetup) : planeRanges x.panels = x.planes := by
  unfold planeRanges ReadSetup.planes
  congr 1
  funext p
  cases x.panels.get p <;> rfl

/-- A lower bound is in its place after the bound before it, if there is one (R80). -/
def bandPlaced (previous : Option Int) (b : Band) : Bool :=
  match previous with
  | none => decide (b.lower = -40)
  | some lo => decide (lo < b.lower)

theorem checkBands_cons (i : Nat) (previous : Option Int) (b : Band) (rest : List Band) :
    checkBands i previous (b :: rest)
      = if (decide (-40 ≤ b.lower) && decide (b.lower ≤ 85) && bandPlaced previous b) = true then
          checkBands (i + 1) (some b.lower) rest
        else some (.bandOrder, i) := by
  cases previous <;> rfl

theorem bands_firstFails (rest seen : List Band) :
    FirstFails
      ((List.range' seen.length rest.length).map fun i =>
        (SetupCause.bandOrder, i, ∀ b, (seen ++ rest)[i]? = some b → -40 ≤ b.lower ∧ b.lower ≤ 85 ∧ (i = 0 → b.lower = -40)
          ∧ ∀ k a, i = k + 1 → (seen ++ rest)[k]? = some a → a.lower < b.lower))
      (checkBands seen.length (seen.getLast?.map (·.lower)) rest) := by
  induction rest generalizing seen with
  | nil => rfl
  | cons b rest ih =>
    have hi : (seen ++ b :: rest)[seen.length]? = some b := by simp
    have := ih (seen ++ [b])
    rw [List.length_append, List.length_singleton, List.append_assoc, List.singleton_append, List.getLast?_append,
      List.getLast?_singleton] at this
    rw [List.length_cons, List.range'_succ, List.map_cons, checkBands_cons]
    refine FirstFails.check ?_ fun _ => this
    have hprev : bandPlaced (seen.getLast?.map (·.lower)) b = true
        ↔ (seen.length = 0 → b.lower = -40)
          ∧ ∀ k a, seen.length = k + 1 → (seen ++ b :: rest)[k]? = some a → a.lower < b.lower := by
      cases hs : seen.getLast? with
      | none =>
        rw [List.getLast?_eq_none_iff] at hs
        subst hs
        simp [bandPlaced]
      | some a =>
        have hne : seen.length ≠ 0 := by
          intro h0
          rw [List.length_eq_zero_iff.1 h0] at hs
          cases hs
        have hk : ∀ k, seen.length = k + 1 → (seen ++ b :: rest)[k]? = some a := fun k hk => by
          rw [List.getElem?_append_left (by omega), ← hs, List.getLast?_eq_getElem?, hk]
          rfl
        simp only [Option.map_some, bandPlaced, decide_eq_true_eq]
        constructor
        · intro h
          refine ⟨fun h0 => absurd h0 hne, fun k a' h1 h2 => ?_⟩
          rw [hk k h1] at h2
          cases h2
          exact h
        · rintro ⟨-, h⟩
          exact h (seen.length - 1) a (by omega) (hk _ (by omega))
    rw [Bool.and_eq_true, Bool.and_eq_true, hprev, decide_eq_true_eq, decide_eq_true_eq]
    constructor
    · rintro ⟨⟨h1, h2⟩, h3⟩ b' hb'
      rw [hi] at hb'
      cases hb'
      exact ⟨h1, h2, h3⟩
    · intro h
      obtain ⟨h1, h2, h3⟩ := h b hi
      exact ⟨⟨h1, h2⟩, h3⟩

theorem ReadZone.inside_iff (x : ReadSetup) (z : ReadZone) :
    z.inside x.panels = true ↔ ∃ p c, z.panelNumber = p.val ∧ x.panels.get p = some c
        ∧ z.cfg.rect.tx0 ≤ z.cfg.rect.tx1 ∧ z.cfg.rect.tx1 < c.width / 32
        ∧ z.cfg.rect.ty0 ≤ z.cfg.rect.ty1 ∧ z.cfg.rect.ty1 < c.height / 32 := by
  unfold ReadZone.inside panelOf?
  by_cases h : z.panelNumber < 4
  · rw [dif_pos h]
    dsimp only
    have hp : ∀ p : PanelNo, z.panelNumber = p.val → p = ⟨z.panelNumber, h⟩ := fun p hp => Fin.ext hp.symm
    cases hc : x.panels.get ⟨z.panelNumber, h⟩ with
    | none =>
      simp only [Bool.false_eq_true, false_iff]
      rintro ⟨p, c, h1, h2, -⟩
      rw [hp p h1, hc] at h2
      cases h2
    | some c =>
      simp only [Bool.and_eq_true, decide_eq_true_eq]
      constructor
      · rintro ⟨⟨⟨h1, h2⟩, h3⟩, h4⟩
        exact ⟨_, c, rfl, hc, h1, h3, h2, h4⟩
      · rintro ⟨p, c', h1, h2, h3, h4, h5, h6⟩
        rw [hp p h1, hc] at h2
        cases h2
        exact ⟨⟨⟨h3, h5⟩, h4⟩, h6⟩
  · rw [dif_neg h]
    simp only [Bool.false_eq_true, false_iff]
    rintro ⟨p, c, h1, -⟩
    exact h (h1 ▸ p.isLt)

theorem zones_firstFails (x : ReadSetup) (rest checked : List ReadZone) :
    FirstFails (x.zoneChecks checked rest) (checkZones x.panels checked rest) := by
  induction rest generalizing checked with
  | nil => rfl
  | cons z rest ih =>
    rw [ReadSetup.zoneChecks, checkZones]
    have hi := ReadZone.inside_iff x z
    refine ⟨fun h => ?_, fun h => if_pos (by simpa using mt hi.1 h)⟩
    rw [if_neg (by simpa using hi.2 h)]
    have hm : (checked.any fun y => y.panelNumber == z.panelNumber && y.cfg.rect.meets z.cfg.rect) = true
        ↔ ¬∀ y ∈ checked, y.panelNumber = z.panelNumber →
          y.cfg.rect.tx1 < z.cfg.rect.tx0 ∨ z.cfg.rect.tx1 < y.cfg.rect.tx0 ∨ y.cfg.rect.ty1 < z.cfg.rect.ty0
            ∨ z.cfg.rect.ty1 < y.cfg.rect.ty0 := by
      rw [List.any_eq_true]
      simp only [Rect.meets, Bool.and_eq_true, decide_eq_true_eq, beq_iff_eq]
      constructor
      · rintro ⟨y, hy, h1, h2⟩ hh
        have := hh y hy h1
        omega
      · intro hh
        refine Classical.byContradiction fun hn => hh fun y hy h1 => ?_
        refine Classical.byContradiction fun h2 => hn ⟨y, hy, h1, ?_⟩
        omega
    refine ⟨fun h2 => ?_, fun h2 => if_pos (hm.2 h2)⟩
    rw [if_neg fun hh => hm.1 hh h2]
    exact ih _

theorem energy_firstFails (g : GlobalSettings) :
    FirstFails
      [(.energyOrder, 0, g.vFloor ≤ g.vFreeze), (.energyOrder, 1, g.vFreeze + g.policyHysteresis < g.vLean),
        (.energyOrder, 2, g.vLean + 2 * g.policyHysteresis < g.vSurplus),
        (.energyOrder, 3, g.darkThreshold ≤ g.lightThreshold)] (checkEnergy g) := by
  unfold checkEnergy
  refine ⟨fun h0 => ?_, fun h0 => if_pos h0⟩
  rw [if_neg fun h => h h0]
  refine ⟨fun h1 => ?_, fun h1 => if_pos h1⟩
  rw [if_neg fun h => h h1]
  refine ⟨fun h2 => ?_, fun h2 => if_pos h2⟩
  rw [if_neg fun h => h h2]
  refine ⟨fun h3 => ?_, fun h3 => if_pos h3⟩
  rw [if_neg fun h => h h3]
  rfl

/-- The first structural check that fails is the first of R163's table. -/
theorem ReadSetup.firstFails (x : ReadSetup) (base : Nat) : FirstFails (x.checks base) (x.failure base) := by
  have hcap : FirstFails
      (panelNos.flatMap fun p => ((x.panels.get p).map fun _ => [(SetupCause.tileCapacity, p.val, x.tilesUpTo p ≤ 4096)]).getD [])
      (checkCapacity x.panels 0 panelNos) := by
    refine capacity_firstFails x _ 0 0 ?_ (capacity_firstFails x _ 1 _ ?_ (capacity_firstFails x _ 2 _ ?_
      (capacity_firstFails x _ 3 _ ?_ rfl))) <;>
      simp +decide [ReadSetup.tilesUpTo, panelNos, Nat.add_assoc]
  have hbands := bands_firstFails x.bands []
  rw [List.nil_append, List.length_nil, ← List.range_eq_range'] at hbands
  have hplanes := planes_firstFails base x.planes []
  rw [← planeRanges_eq] at hplanes
  have h := (geometry_firstFails x.panels panelNos).append <| hcap.append <| hplanes.append <| hbands.append <|
    (zones_firstFails x x.zones []).append (energy_firstFails x.globals)
  unfold ReadSetup.checks
  rw [← planeRanges_eq]
  simp only [List.append_assoc]
  exact h

end Sys2Proof.Machine
end

