-- ==== Sys2Proof/Tests/Slice0.lean ====
section
/-! SUPPORT. Tests: the WellFormed checks, the spec's worked examples, and for every statement with hypotheses the
states and operands that meet them, clause by clause. -/

namespace Sys2Proof.Tests

open Sys2Proof.Machine

/-! ### A small sign: one panel of two by two tiles, three zones of one tile each, one LOOSE tile -/

/-- The settings of the worked examples of R90 (C, Vfloor), R93 (the six voltages) and R83 (H). -/
def signGlobals : GlobalSettings where
  runningLimit := 1
  feedThreshold := 2
  feedStall := true
  bandHysteresis := 2
  policyHysteresis := 50
  capacitance := 250
  vFloor := 3000
  vFreeze := 3100
  vLean := 3400
  vSurplus := 4600
  darkThreshold := 1000
  lightThreshold := 2000
  boost := 30000
  holdbackDay := 100
  holdbackNight := 200
  starvationLimit := 60
  sweepSpacing := 24
  compensation := 21
  epochPeriod := 700
  epochOffset := 0
  epochLead := 60
  quietStart := 0
  quietEnd := 3600
  sweepTime := none
  riseLimit := 100
  lingerTime := 500
  minimumOff := 50
  railRetryInterval := 30

/-- The bands of the worked example of R83, with Fp 14 and Ff 30 (R69, R70). -/
def signBands : List Band :=
  [⟨-40, 14, 30, 20, 3⟩, ⟨-10, 14, 30, 20, 3⟩, ⟨0, 14, 30, 20, 3⟩, ⟨10, 14, 30, 20, 3⟩, ⟨20, 14, 30, 20, 3⟩]

/-- k and s of the worked example of R100. -/
def signPanel : PanelCfg where
  busyMargin := 10
  width := 64
  height := 64
  stride := 16
  targetBase := 0x40000
  shownBase := 0x50000
  stageBase := 0x60000
  linePeriod := 100
  restHold := 100
  retryInterval := 30
  pollPeriod := 60
  restDelay := 5
  debtSoft := 20
  debtHard := 40
  pixelCost := 38
  frameCost := 180

def signZones : List ZoneCfg :=
  [⟨0, 0, ⟨0, 0, 0, 0⟩, .urgent, .auto, 3, 0⟩, ⟨1, 0, ⟨1, 1, 0, 0⟩, .routine, .auto, 3, 0⟩,
    ⟨2, 0, ⟨0, 0, 1, 1⟩, .timed, .auto, 3, 0⟩]

def signSetup : Setup := ⟨signGlobals, signBands, ⟨some signPanel, none, none, none⟩, signZones⟩

def cleanTile (zone : Option Nat) : Tile := ⟨.clean, 0, false, false, zone⟩

def restingZone (n : Nat) : Zone := ⟨n, 0, some 1, false, none, none, none, none, false⟩

/-- The sign in STOPPED, every tile CLEAN, its port OFF, its bank at 4,800 mV. -/
def signPart : Part :=
  { Part.reset with
    unit := { WindowUnit.reset with runState := .stopped }
    setup := some signSetup
    tiles := [cleanTile (some 0), cleanTile (some 1), cleanTile (some 2), cleanTile none]
    zones := [restingZone 0, restingZone 1, restingZone 2]
    selectors := ⟨some ⟨3, some 12, 0, 0, false, false⟩, none, none, none⟩
    ports := { Part.reset.ports with p0 := { Port.reset with state := .off } }
    energy := ⟨4800, 5000, true, 175500, false, 0, .normal⟩ }

def sign : State := { State.reset with path := { Path.reset with inReset := false }, part := signPart }

/-- The sign in a run state. -/
def signIn (r : RunState) : State :=
  { sign with part := { signPart with unit := { signPart.unit with runState := r } } }

/-- The sign with its panel's port changed. -/
def withPort (f : Port → Port) (s : State) : State := { s with part := s.part.setPort 0 (f (s.part.port 0)) }

/-- The sign with its rail changed. -/
def withRail (r : RailState) (s : State) : State :=
  { s with part := { s.part with rail := { s.part.rail with state := r } } }

/-- A host array write being forwarded, its next byte at `a`. -/
def writing (a : Nat) (s : State) : State :=
  { s with path := { s.path with host := some ⟨.arrayWrite, a, a, .forwarding, false, false⟩ } }

/-- Zone 0's job in a state: while it runs in a mode, at band 3 with a cost of 5 mJ. -/
def zoneJob (st : JobState) (mode : DriveMode) : Job where
  panel := 0
  scope := .zone 0
  rect := ⟨0, 0, 0, 0⟩
  cls := .urgent
  origin := .settle
  fullRequest := false
  sequence := 0
  enqueued := 0
  state := st
  running := if st = .queued then none else some ⟨mode, 3, 5, 1024, none, [0]⟩
  urgentCarried := false
  starvedReported := false

def signEngine : Engine where
  slot := 0
  context := [⟨7, false, false, false⟩]
  cursor := 1
  group := 0
  feed := none
  fill := none
  buffer := []
  feedStopped := false
  commit := none
  request := none
  inFlight := true
  discard := false

/-- The sign RUNNING with zone 0's job in slot 0. -/
def signRunning (st : JobState) (mode : DriveMode) (e : Engine) : State :=
  { signIn .running with
    part :=
      { (signIn .running).part with
        tiles := [{ cleanTile (some 0) with state := .active }, cleanTile (some 1), cleanTile (some 2), cleanTile none]
        pool := some (zoneJob st mode) :: List.replicate 31 none
        sequence := 1
        runningCount := 1
        committed := 5
        engines := ⟨some e, none, none, none⟩ } }

/-- A burst of the running job's. -/
def inBurst (kind : BurstKind) (row : Nat) (s : State) : State :=
  { s with path := { s.path with burst := some ⟨kind, 0, row, 0, 1, 0x60000 + 16 * row, List.replicate 8 0xE4⟩ } }

/-- A window over the running job's tile, with a frame in progress. -/
def signWindow (slots : Nat) : Window := ⟨0, 31, 0, 31, 14, 100, 20000, some 13, slots, false, false⟩

/-- The pool full of other jobs. -/
def fullPool (s : State) : State :=
  { s with part := { s.part with pool := List.replicate 32 (some { zoneJob .queued .part with scope := .zone 9 }) } }

/-- A state in HALTING. -/
def halting (s : State) : State :=
  { s with part := { s.part with unit := { s.part.unit with runState := .halting } } }

/-- The second event due. -/
def secondDue (s : State) : State :=
  { s with part := { s.part with clock := { s.part.clock with secondDue := true } } }

def answersNext (o : Host.Outcome State Fault Refusal) : Bool :=
  match o with
  | .next _ => true
  | .fault _ => false
  | .refused _ => false

/-! ### WellFormed: an ill-formed operand for each check -/

theorem test_wellFormed_landed : (Instr.hardwareReset 129).wellFormed = false := by decide
theorem test_wellFormed_start : (Instr.hostTransactionStart .arrayRead 0x1000000).wellFormed = false := by decide
theorem test_wellFormed_order : (Instr.second 0 0 [.polls, .walk, .polls]).wellFormed = false := by decide
theorem test_wellFormed_walks : (Instr.second 0 0 [.walk, .polls, .walk]).wellFormed = true := by decide
theorem test_wellFormed_code : (Instr.unknownOrder 9).wellFormed = false := by decide
theorem test_decode_none : decodeTableWord 8 0 = none := by decide

/-! ### Worked examples of the spec -/

/-- R5, Worked example: mapping writes to tiles. -/
def mappedPanel : PanelCfg :=
  { signPanel with width := 800, height := 480, stride := 200, shownBase := 0x60000, stageBase := 0x80000 }

def mappedSetup : Setup := { signSetup with panels := ⟨some mappedPanel, none, none, none⟩ }

theorem test_map_first : classify (some mappedSetup) 0xFF000 (0x40000 + 6590) = .pixel ⟨.target, 0, 32, 190, 23, 1⟩ := by
  decide
theorem test_map_last : classify (some mappedSetup) 0xFF000 (0x40000 + 6613) = .pixel ⟨.target, 0, 33, 13, 1, 1⟩ := by
  decide
theorem test_map_end : classify (some mappedSetup) 0xFF000 0x57700 = .untapped := by decide
theorem test_map_padding :
    planeByte? 0 { mappedPanel with stride := 208 } .target (0x40000 + 6860) = some .padding := by decide

/-- R90, Worked example: usable energy. -/
theorem test_usable : [4800, 3400, 3001, 3000].map (usableEnergy signGlobals) = [175500, 32000, 75, 0] := by decide

/-- R93, Worked example: a night and a morning. -/
theorem test_policy_table :
    [3420, 3399, 3430, 3450, 3099, 3140, 3460, 4600, 4560, 4549].foldl
        (fun (l : List PolicyLevel) vs => l ++ [selectLevel signGlobals (l.getLastD .normal) vs]) []
      = [.normal, .lean, .lean, .normal, .frozen, .frozen, .normal, .surplus, .surplus, .normal] := by decide

/-- R83, Worked example: hysteresis. -/
theorem test_bands :
    [((3 : Nat), (7 : Int)), (3, -11), (2, 11), (2, 12), (0, 25), (4, 19), (1, -13), (0, -11)].map
        (fun x => selectBand signSetup x.1 x.2) = [2, 1, 2, 3, 4, 4, 0, 0] := by decide

/-- R100, Worked example: estimate and actual, in mJ. -/
theorem test_cost_estimate : jobCost signGlobals signPanel 3072 14 false = 5 := by decide
theorem test_cost_actual : jobCost signGlobals signPanel 1870 14 false = 4 := by decide
theorem test_cost_boost : jobCost signGlobals signPanel 1870 14 true = 34 := by decide
theorem test_cost_full : jobCost signGlobals signPanel 3072 30 false = 9 := by decide

/-- R69, R70, Worked example: the codes of four pixels. The SHOWN levels are 0, 2, 1, 3 and the STAGE levels 3, 1, 1, 1. -/
def fourPixels (f : Nat) : RowPair := ⟨f, 0, [0x27], [0xD5]⟩

theorem test_codes_partial :
    [4, 5, 9, 10, 13].map (fun f => rowCodes .part 14 f (fourPixels f))
      = [[.blackward, .whiteward, .keep, .whiteward], [.blackward, .keep, .keep, .whiteward],
        [.blackward, .keep, .keep, .whiteward], [.blackward, .keep, .keep, .keep],
        [.blackward, .keep, .keep, .keep]] := by decide

theorem test_codes_full :
    [6, 7, 13, 14, 20, 23, 24, 29].map (fun f => (rowCodes .full 30 f (fourPixels f)).take 2)
      = [[.whiteward, .whiteward], [.blackward, .blackward], [.blackward, .blackward], [.whiteward, .whiteward],
        [.whiteward, .whiteward], [.blackward, .blackward], [.blackward, .keep], [.blackward, .keep]] := by decide

/-- R155, Worked example: epochs across midnight, E 700, offset 0, L 60. -/
theorem test_leads :
    [86040, 86100, 86340, 640].map signGlobals.leadOf? = [some 86100, none, some 0, some 700] := by decide
theorem test_boundaries : [0, 86100, 700, 86340].map signGlobals.boundary = [true, true, true, false] := by decide

/-- R151, Worked example: a fast crystal, c 21. -/
theorem test_last_tick : tickLengthOf 21 31 31 = 1045 ∧ tickLengthOf 21 31 30 = 1024 := by decide

/-- R156: quiet hours that wrap past midnight. -/
theorem test_quiet_wraps :
    [82799, 82800, 0, 21599, 21600].map ({ signGlobals with quietStart := 82800, quietEnd := 21600 }).quietAt
      = [false, true, true, true, false] := by decide

/-- R159: the four bases of the window. -/
theorem test_bases :
    [Config.windowBase false false, Config.windowBase false true, Config.windowBase true false,
      Config.windowBase true true] = [0x0FF000, 0x1FF000, 0x3FF000, 0x7FF000] := by decide

set_option maxRecDepth 4000 in
/-- R166: the posting is 128 bytes; in NO_SETUP every panel reads UNUSED with no reading and no job. -/
theorem test_status_length : Part.reset.statusBlock.length = 128 := by decide
theorem test_status_panel :
    (Part.reset.statusBlock.drop 0x40).take 9 = [0, 0, 0, 0x80, 0, 0xFF, 0xFF, 0, 0xFF] := by decide

set_option maxRecDepth 4000 in
/-- R149: at the end of a reset the posting begins at the base the straps give. -/
theorem test_reset_posts :
    (match exec (.resetEnd true false) State.reset with
      | .next t => t.path.burst.map fun b => (b.kind, b.addr, b.data.length)
      | _ => none) = some (.statusPost, 0x3FF000, 128) := by decide

/-! ### Witnesses: states and operands that meet the hypotheses of each statement, clause by clause -/

theorem ofSome {α : Type} {o : Option α} {a : α} {P : α → Prop} (h : o = some a) (hp : P a) (x : α) (hx : o = some x) :
    P x := by
  rw [h] at hx
  cases hx
  exact hp

theorem ofNone {α : Type} {o : Option α} {P : α → Prop} (h : o = none) (x : α) (hx : o = some x) : P x := by
  rw [h] at hx
  cases hx

theorem setting {P : Setup → Prop} (hp : P signSetup) (g : Setup) (h : some signSetup = some g) : P g := by
  cases h
  exact hp

/-- The next state has `f`. -/
def nextHas (o : Host.Outcome State Fault Refusal) (f : State → Bool) : Bool :=
  match o with
  | .next t => f t
  | .fault _ => false
  | .refused _ => false

theorem witness_StepRunsFrontCommand :
    ({ sign with pending := [.tick, .halt] } : State).pending = .tick :: [.halt] ∧ sign.pending = [] := by decide

theorem witness_ResetBracketsEverything :
    (∃ t, exec (.hardwareReset 128) sign = .next t) ∧ (∃ t, exec (.resetEnd false true) State.reset = .next t)
      ∧ (∃ t, exec .halt sign = .next t) ∧ State.reset.path.inReset = true ∧ ∃ t, exec .halt State.reset = .next t :=
  ⟨⟨_, rfl⟩, ⟨_, rfl⟩, ⟨_, rfl⟩, rfl, _, rfl⟩

theorem witness_MemoryChangesOnlyWhereWritten_byte :
    nextHas (exec (.targetTouch 0x403FF 7) (writing 0x403FF sign))
      (fun t => Memory.read t.memory 0x403FF != Memory.read (writing 0x403FF sign).memory 0x403FF) = true := by decide

theorem witness_MemoryChangesOnlyWhereWritten_burst :
    nextHas (exec .captureBurstEnd (inBurst .captureStage 31 (signRunning .capturing .part signEngine)))
      (fun t => Memory.read t.memory 0x601F7 != 0) = true := by decide

theorem witness_MonotonicSecondsOnlyCount :
    nextHas (exec (.second 4800 12000 []) (secondDue sign)) (fun t => t.part.clock.mono == 1) = true
      ∧ (∃ t, exec (.hardwareReset 0) (secondDue sign) = .next t) ∧ (∃ t, exec .tick sign = .next t)
      ∧ ∃ t, exec (.second 4800 12000 []) sign = .next t := by
  exact ⟨by decide, ⟨_, rfl⟩, ⟨_, rfl⟩, _, rfl⟩

/-- A sign with a byte stored, at the front of whose queue a command stands. -/
def stored (c : Instr) (s : State) : State := { s with pending := [c], memory := [(0x40000, 7)] }

theorem witness_MemoryStaysCanonical :
    (stored (.targetTouch 0x40000 0) (writing 0x40000 sign)).MemoryCanonical
      ∧ ∃ t, step (stored (.targetTouch 0x40000 0) (writing 0x40000 sign)) = .next t :=
  ⟨by unfold State.MemoryCanonical; decide, _, rfl⟩

theorem witness_MemoryPathStaysSound :
    (stored .captureBurstEnd (inBurst .captureTarget 0 (signRunning .capturing .part signEngine))).PathSound
      ∧ ∃ t, step (stored .captureBurstEnd (inBurst .captureTarget 0 (signRunning .capturing .part signEngine)))
          = .next t :=
  ⟨by unfold State.PathSound State.NeverInterleaves State.NeverIdles State.PostingAsked; decide, _, rfl⟩

theorem witness_CountsStayInRange :
    (stored (.second 6001 (-1) []) (secondDue sign)).part.clock.InRange
      ∧ (stored (.second 6001 (-1) []) (secondDue sign)).part.energy.InRange
      ∧ (stored (.second 6001 (-1) []) (secondDue sign)).part.Settled
      ∧ ∃ t, step (stored (.second 6001 (-1) []) (secondDue sign)) = .next t :=
  ⟨by unfold Clock.InRange; decide, by unfold Energy.InRange; decide, by unfold Part.Settled; decide, _, rfl⟩

theorem onlyJob (st : JobState) (mode : DriveMode) (e : Engine) (k : Nat) (q : Job)
    (h : (signRunning st mode e).part.job? k = some q) : k = 0 ∧ q = zoneJob st mode := by
  cases k with
  | zero => exact ⟨rfl, (Option.some.inj h).symm⟩
  | succ k =>
    simp only [Part.job?, signRunning, List.getElem?_cons_succ, List.getElem?_replicate] at h
    split at h <;> cases h

theorem witness_CommittedEnergyIsRunningCost :
    (stored .halt (signRunning .poised .part signEngine)).part.PoolSound
      ∧ ∃ t, step (stored .halt (signRunning .poised .part signEngine)) = .next t := by
  refine ⟨⟨?_, by decide, by decide⟩, _, rfl⟩
  intro j hj
  have h : j = zoneJob .poised .part := by
    simpa [stored, signRunning, List.mem_replicate] using hj
  subst h
  decide

theorem witness_TileRecordsStaySound :
    (stored .captureBurstEnd (inBurst .captureTarget 0 (signRunning .capturing .part signEngine))).part.TilesSound
      ∧ (stored .captureBurstEnd (inBurst .captureTarget 0 (signRunning .capturing .part signEngine))).part.ZonesInStep
      ∧ ∃ t, step (stored .captureBurstEnd (inBurst .captureTarget 0 (signRunning .capturing .part signEngine)))
          = .next t :=
  ⟨⟨rfl, by unfold Tile.Sound; decide⟩, by unfold Part.ZonesInStep; decide, _, rfl⟩

/-! #### The reset and the memory path -/

theorem witness_HardwareResetClears :
    ∃ b, (inBurst .captureStage 31 (signRunning .capturing .part signEngine)).path.burst = some b
      ∧ b.kind.writes = true ∧ b.data.length = 8 ∧ b.addr = 0x601F0 := by decide

theorem witness_HardwareResetClears_read :
    ∀ b, (inBurst .feedShown 31 (signRunning .driving .part signEngine)).path.burst = some b →
      ¬ b.kind.writes = true := by
  rintro b ⟨⟩
  decide

theorem witness_ResetEndSamplesStraps : State.reset.path.inReset = true ∧ sign.path.inReset = false := by decide

/-- A row of the feed asked for by the driving job. -/
def feeding : Engine :=
  { signEngine with inFlight := false, request := some ⟨.feedShown, 0, 31, 0, 1, 0x501F0, []⟩ }

theorem witness_HostTransactionStarts_busy :
    let s := inBurst .captureTarget 0 (signRunning .capturing .part signEngine)
    s.Ready ∧ s.path.host = none ∧ s.path.burst.isSome = true := by decide

theorem witness_HostTransactionStarts_free :
    sign.Ready ∧ sign.path.host = none ∧ sign.path.burst = none ∧ ∀ p, sign.part.requestLevel? p ≠ some 0 := by decide

theorem witness_HostTransactionStarts_stall :
    let s := signRunning .driving .part feeding
    s.Ready ∧ s.path.host = none ∧ s.path.burst = none ∧ s.part.setup = some signSetup
      ∧ signSetup.globals.feedStall = true ∧ s.nextPanel? 0 = some 0 := by decide

/-- A held host transaction. -/
def holding (inserted : Bool) (s : State) : State :=
  { s with path := { s.path with host := some ⟨.arrayRead, 0xFFFFFF, 0xFFFFFF, .held, inserted, false⟩ } }

def withoutStall (s : State) : State :=
  { s with part := { s.part with setup := some { signSetup with globals := { signGlobals with feedStall := false } } } }

theorem witness_HeldTransactionIsForwarded_inserted :
    [BurstKind.captureShown, .feedStage, .commitRead, .commitWrite, .setupRead, .statusPost].all (fun k =>
      let s := holding true (inBurst k 0 (signRunning .capturing .part signEngine))
      decide s.Ready && (s.path.host.map (·.phase) == some .held) && (s.path.host.map (·.inserted) == some true)
        && (s.path.burst.map (·.kind) == some k)) = true := by decide

theorem witness_HeldTransactionIsForwarded_stallOff :
    let s := withoutStall (holding false (inBurst .statusPost 0 (signIn .stopped)))
    s.Ready ∧ s.path.host.map (·.phase) = some .held ∧ s.path.burst.map (·.kind) = some .statusPost
      ∧ ∀ g, s.part.setup = some g → g.globals.feedStall = false :=
  ⟨by decide, by decide, by decide, ofSome rfl rfl⟩

/-- With feed stall on and no inserted burst yet, at the end of a posting: a level-1 request waits, or none. -/
theorem witness_HeldTransactionIsForwarded_stall :
    let s := holding false (inBurst .statusPost 0 (signRunning .driving .part feeding))
    let idle := holding false (inBurst .statusPost 0 sign)
    s.Ready ∧ s.path.host = some ⟨.arrayRead, 0xFFFFFF, 0xFFFFFF, .held, false, false⟩
      ∧ s.path.burst.map (·.kind) = some .statusPost ∧ s.part.setup = some signSetup ∧ signSetup.globals.feedStall = true
      ∧ s.part.requestLevel? 0 = some 0
      ∧ (∀ q, s.part.requestLevel? q = some 0 →
          (0 - s.path.lastServed.get 0 - 1).val ≤ (q - s.path.lastServed.get 0 - 1).val)
      ∧ idle.Ready ∧ idle.path.burst.map (·.kind) = some .statusPost ∧ ∀ q, idle.part.requestLevel? q ≠ some 0 := by decide

/-- R148: one urgent feed burst is inserted before a held transaction, and none where no level-1 request waits. -/
theorem test_stall_inserts :
    nextHas (exec .statusPostEnd (holding false (inBurst .statusPost 0 (signRunning .driving .part feeding))))
        (fun t => t.path.host.map (fun h => (h.phase, h.inserted)) == some (.held, true)
          && t.path.burst.map (fun b => (b.kind, b.row)) == some (.feedShown, 31)) = true
      ∧ nextHas (exec .statusPostEnd (holding false (inBurst .statusPost 0 sign)))
        (fun t => t.path.host.map (·.phase) == some .forwarding && t.path.burst.isNone) = true := by decide

/-- A forwarded host transaction. -/
def forwarded (command : HostCommand) (givesOrder : Bool) (s : State) : State :=
  { s with path := { s.path with host := some ⟨command, 0xFFFFFE, 0xFFFFFE, .forwarding, false, givesOrder⟩ } }

theorem witness_HostTransactionEnds :
    let read := forwarded .arrayRead false sign
    let write := forwarded .arrayWrite false sign
    let other := forwarded (.other 0x35) true sign
    read.Ready ∧ read.path.host = some ⟨.arrayRead, 0xFFFFFE, 0xFFFFFE, .forwarding, false, false⟩
      ∧ write.Ready ∧ write.path.host = some ⟨.arrayWrite, 0xFFFFFE, 0xFFFFFE, .forwarding, false, false⟩
      ∧ other.Ready ∧ other.path.host = some ⟨.other 0x35, 0xFFFFFE, 0xFFFFFE, .forwarding, false, true⟩ := by decide

theorem witness_TransactionEndGivesOrder :
    let s := forwarded .arrayWrite true sign
    s.Ready ∧ s.path.host = some ⟨.arrayWrite, 0xFFFFFE, 0xFFFFFE, .forwarding, false, true⟩ := by decide

theorem witness_RoundRobinWithinLevels :
    let s := signRunning .driving .part feeding
    s.path.burst = none ∧ s.path.host = none ∧ s.part.requestLevel? 0 = some 0
      ∧ (∀ l : PanelNo, l < 0 → ∀ q, s.part.requestLevel? q ≠ some l)
      ∧ ∀ q, s.part.requestLevel? q = some 0 →
          (0 - s.path.lastServed.get 0 - 1).val ≤ (q - s.path.lastServed.get 0 - 1).val := by decide

/-- An engine with an abandoned burst in progress and its next request held back (R108). -/
theorem witness_RoundRobinWithinLevels_held :
    let e := { feeding with inFlight := true, discard := true }
    let s := inBurst .feedShown 30 (signRunning .driving .part e)
    s.part.engine? 0 = some e ∧ e.request.isSome = true ∧ s.part.requestLevel? 0 = none := by decide

/-- The same for a request at level 4 (R146), which is the position of index 3. -/
theorem witness_RoundRobinWithinLevels_commit :
    let s := signRunning .committing .part { feeding with request := some ⟨.commitRead, 0, 31, 0, 1, 0x601F0, []⟩ }
    s.path.burst = none ∧ s.path.host = none ∧ s.part.requestLevel? 0 = some 3
      ∧ ∀ l : PanelNo, l < 3 → ∀ q, s.part.requestLevel? q ≠ some l := by decide

/-! #### The bytes of a host write -/

/-- The mapped panel with eight bytes of padding to a row. -/
def paddedPanel : PanelCfg := { mappedPanel with stride := 208 }

def padded : State :=
  { sign with part := { signPart with setup := some { signSetup with panels := ⟨some paddedPanel, none, none, none⟩ } } }

theorem witness_AddressMapsToTile :
    ∃ g, padded.part.setup = some g ∧ g.panels.get 0 = some paddedPanel
      ∧ (∀ column ∈ [0, 199, 200, 207], column < paddedPanel.stride
          ∧ paddedPanel.planeBase .target + 479 * paddedPanel.stride + column < padded.part.unit.base)
      ∧ ∀ q d plane', g.panels.get q = some d → (q, plane') ≠ (0, .target) →
          ∀ column < 208, paddedPanel.planeBase .target + 479 * paddedPanel.stride + column < d.planeBase plane'
            ∨ d.planeBase plane' + d.height * d.stride
              ≤ paddedPanel.planeBase .target + 479 * paddedPanel.stride + column := by
  refine ⟨_, rfl, rfl, by decide, ?_⟩
  intro q d plane' h ne column hc
  have hd : q = 0 ∧ d = paddedPanel := by
    match q, h with
    | 0, h => exact ⟨rfl, (Option.some.inj h).symm⟩
    | 1, h => cases h
    | 2, h => cases h
    | 3, h => cases h
  obtain ⟨rfl, rfl⟩ := hd
  have e : paddedPanel.planeBase .target + 479 * paddedPanel.stride = 0x40000 + 479 * 208 := rfl
  cases plane' with
  | target => exact absurd rfl ne
  | shown =>
    have f : paddedPanel.planeBase .shown = 0x60000 := rfl
    omega
  | stage =>
    have f : paddedPanel.planeBase .stage = 0x80000 := rfl
    omega

theorem witness_ForwardedByteReachesMemory :
    (∀ a ∈ [0x40000, 0x403FF], (writing a sign).Ready ∧ ((writing a sign).touch? .target a).isSome = true)
      ∧ (∀ a ∈ [0x50000, 0x503FF], ((writing a sign).touch? .shown a).isSome = true)
      ∧ (∀ a ∈ [0x60000, 0x603FF], ((writing a sign).touch? .stage a).isSome = true)
      ∧ (∀ a ∈ [0xFF100, 0xFF10F], ((writing a sign).orderOffset? a).isSome = true)
      ∧ (∀ a ∈ [0xFF200, 0xFFDFF], (writing a sign).editsSetup a = true)
      ∧ ∀ a ∈ [0, 0x3FFFF, 0x40400, 0xFF000, 0xFF110, 0xFFFFFF, 0x1000000], (writing a sign).passesBy a = true := by
  decide

/-- The sign with zone 0's job QUEUED. -/
def queuedSign : State :=
  { sign with
    part :=
      { signPart with
        pool := some (zoneJob .queued .part) :: List.replicate 31 none
        sequence := 1
        zones := [{ restingZone 0 with queuedJob := some 0 }, restingZone 1, restingZone 2] } }

/-- The sign with a PANEL job QUEUED. -/
def panelQueued : State :=
  { sign with
    part :=
      { signPart with
        pool := some { zoneJob .queued .part with scope := .panel 0 } :: List.replicate 31 none, sequence := 1 } }

/-- The sign with tile (0, 0) in a state. -/
def withTile (x : TileState) (s : State) : State :=
  { s with part := { s.part with tiles := { cleanTile (some 0) with state := x } :: s.part.tiles.drop 1 } }

theorem witness_TargetTouchOfCleanTile_queuedJob :
    let s := writing 0x40000 queuedSign
    s.Ready ∧ s.touch? .target 0x40000 = some ⟨.target, 0, 0, 0, 0, 0⟩ ∧ s.part.setup = some signSetup
      ∧ s.part.tileAt? signSetup 0 0 0 = some (cleanTile (some 0))
      ∧ s.part.zone? 0 = some { restingZone 0 with queuedJob := some 0 }
      ∧ s.part.job? 0 = some (zoneJob .queued .part) := by decide

theorem witness_TargetTouchOfCleanTile_panelJob :
    let s := writing 0x40000 panelQueued
    s.Ready ∧ s.touch? .target 0x40000 = some ⟨.target, 0, 0, 0, 0, 0⟩
      ∧ s.part.tileAt? signSetup 0 0 0 = some (cleanTile (some 0)) ∧ s.part.zone? 0 = some (restingZone 0)
      ∧ (s.part.queuedPanelJob? 0).isSome = true := by decide

theorem witness_TargetTouchOfCleanTile_loose :
    let s := writing 0x403FF sign
    s.Ready ∧ s.touch? .target 0x403FF = some ⟨.target, 0, 63, 15, 1, 1⟩
      ∧ s.part.tileAt? signSetup 0 1 1 = some (cleanTile none) ∧ s.part.queuedPanelJob? 0 = none
      ∧ s.part.unit.causes.length = 13 ∧ s.part.unit.detail? .looseWrite = none := by decide

theorem witness_TargetTouchOfWaitingTile :
    ∀ x ∈ [TileState.dirty, .queued],
      let s := writing 0x40000 (withTile x sign)
      s.Ready ∧ s.touch? .target 0x40000 = some ⟨.target, 0, 0, 0, 0, 0⟩ ∧ s.part.setup = some signSetup
        ∧ signSetup.panels.get 0 = some signPanel
        ∧ s.part.tileAt? signSetup 0 0 0 = some { cleanTile (some 0) with state := x } := by decide

/-- At the cursor (row 1), below it (row 0) and at the last row of the tile. -/
theorem witness_TargetTouchOfActiveTile :
    ∀ x ∈ [(0x40000, 0), (0x40010, 1), (0x401F0, 31)], ∀ st ∈ [JobState.capturing, .poised, .driving, .committing],
      let s := writing x.1 (signRunning st .part signEngine)
      s.Ready ∧ s.touch? .target x.1 = some ⟨.target, 0, x.2, 0, 0, 0⟩
        ∧ s.part.tileAt? signSetup 0 0 0 = some { cleanTile (some 0) with state := .active }
        ∧ s.part.running? 0 = some (0, zoneJob st .part, ⟨.part, 3, 5, 1024, none, [0]⟩)
        ∧ s.part.engine? 0 = some signEngine := by decide

theorem witness_TouchesRestartSettleTimers :
    let s := writing 0x40000 sign
    s.Ready ∧ s.part.setup = some signSetup ∧ signSetup.panels.get 0 = some signPanel
      ∧ s.part.tileAt? signSetup 0 0 0 = some (cleanTile (some 0))
      ∧ s.part.tileAt? signSetup 0 1 1 = some (cleanTile none) ∧ (signSetup.zone? 0).isSome = true
      ∧ s.touch? .target 0x40000 = some ⟨.target, 0, 0, 0, 0, 0⟩
      ∧ (writing 0x403FF sign).touch? .target 0x403FF = some ⟨.target, 0, 63, 15, 1, 1⟩
      ∧ (writing 0x50000 sign).touch? .shown 0x50000 = some ⟨.shown, 0, 0, 0, 0, 0⟩
      ∧ (writing 0x60000 sign).touch? .stage 0x60000 = some ⟨.stage, 0, 0, 0, 0, 0⟩ := by decide

/-- A commit at row 1 of the tile. -/
def committingAt (row : Nat) : Engine := { signEngine with inFlight := false, commit := some ⟨row, 0, 1, false⟩ }

theorem witness_ShownTouchSetsUnknown :
    (∀ x ∈ [(0x50000, 0), (0x50010, 1)],
      let s := writing x.1 (signRunning .committing .full (committingAt 1))
      s.Ready ∧ s.touch? .shown x.1 = some ⟨.shown, 0, x.2, 0, 0, 0⟩
        ∧ s.part.tileAt? signSetup 0 0 0 = some { cleanTile (some 0) with state := .active }
        ∧ s.part.running? 0 = some (0, zoneJob .committing .full, ⟨.full, 3, 5, 1024, none, [0]⟩)
        ∧ s.part.engine? 0 = some (committingAt 1) ∧ s.part.unit.causes.length = 13)
      ∧ (writing 0x503FF sign).touch? .shown 0x503FF = some ⟨.shown, 0, 63, 15, 1, 1⟩
      ∧ (writing 0x503FF sign).part.running? 0 = none := by decide

theorem witness_StageTouchTaints :
    ((writing 0x603FF sign).touch? .stage 0x603FF = some ⟨.stage, 0, 63, 15, 1, 1⟩ ∧ (writing 0x603FF sign).Ready
        ∧ (writing 0x603FF sign).part.tileAt? signSetup 0 1 1 = some (cleanTile none))
      ∧ ∀ x ∈ [(0x60000, 0), (0x60010, 1)], ∀ st ∈ [JobState.capturing, .poised, .driving],
        let s := writing x.1 (signRunning st .part signEngine)
        s.Ready ∧ s.touch? .stage x.1 = some ⟨.stage, 0, x.2, 0, 0, 0⟩
          ∧ s.part.tileAt? signSetup 0 0 0 = some { cleanTile (some 0) with state := .active }
          ∧ s.part.running? 0 = some (0, zoneJob st .part, ⟨.part, 3, 5, 1024, none, [0]⟩)
          ∧ s.part.engine? 0 = some signEngine ∧ signEngine.commit = none
          ∧ (zoneJob st .part).rect.contains 0 0 = true ∧ s.part.unit.causes.length = 13 := by decide

/-- A commit read that waits over both tiles of a row. -/
def commitWaiting : Engine :=
  { signEngine with
    inFlight := false
    context := [⟨7, false, false, false⟩, ⟨7, false, false, false⟩]
    commit := some ⟨1, 0, 2, false⟩
    request := some ⟨.commitRead, 0, 1, 0, 2, 0x60010, []⟩ }

/-- A COMMITTING job over both tiles of a row. -/
def wideCommitting (e : Engine) : State :=
  { signRunning .committing .full e with
    part := { (signRunning .committing .full e).part with
      tiles := [{ cleanTile (some 0) with state := .active }, { cleanTile (some 1) with state := .active },
        cleanTile (some 2), cleanTile none]
      pool := some { zoneJob .committing .full with rect := ⟨0, 1, 0, 0⟩ } :: List.replicate 31 none } }

/-- Above the commit's row its read has ended; at the row the waiting read is re-formed without the tile; below it a group
of another row waits; and a read in progress has no request. -/
theorem witness_StageTouchTaints_committing :
    (∀ x ∈ [(0x60000, 0), (0x60010, 1), (0x60020, 2)], ∀ e ∈ [commitWaiting, { commitWaiting with request := none }],
      let s := writing x.1 (wideCommitting e)
      s.Ready ∧ s.touch? .stage x.1 = some ⟨.stage, 0, x.2, 0, 0, 0⟩
        ∧ s.part.tileAt? signSetup 0 0 0 = some { cleanTile (some 0) with state := .active }
        ∧ s.part.running? 0
          = some (0, { zoneJob .committing .full with rect := ⟨0, 1, 0, 0⟩ }, ⟨.full, 3, 5, 1024, none, [0]⟩)
        ∧ s.part.engine? 0 = some e ∧ e.commit = some ⟨1, 0, 2, false⟩
        ∧ e.toCopy ⟨0, 1, 0, 0⟩ .full 0 0 = true ∧ e.context.length = Rect.cols ⟨0, 1, 0, 0⟩ * Rect.rows ⟨0, 1, 0, 0⟩)
      ∧ commitWaiting.toCopy ⟨0, 1, 0, 0⟩ .full 1 (1 / 32) = true := by decide

/-- The first and last offsets of the order block, of the setup areas and of what lies between them (R159). -/
theorem witness_WindowBytes_offsets :
    ∀ o ∈ [0, 0xFF, 0x100, 0x10F, 0x110, 0x1FF, 0x200, 0x37F, 0x380, 0x3FF, 0x400, 0x4FF, 0x500, 0x5FF, 0x600, 0xDFF,
        0xE00, 0xFFF],
      (writing (0xFF000 + o) sign).Ready ∧ (writing (0xFF000 + o) sign).forwards (0xFF000 + o) = true
        ∧ sign.part.unit.base = 0xFF000 := by decide

/-- Outside the window: below and above it, a pixel byte of each plane, a padding byte, and the addresses with no byte. -/
theorem witness_WindowBytes_outside :
    (∀ a ∈ [0, 0x40000, 0x403FF, 0x40400, 0x50000, 0x60000, 0xFEFFF, 0x100000, 0xFFFFFF, 0x1000000, 0xFFFFFFFF],
      (writing a sign).Ready ∧ (writing a sign).forwards a = true ∧ (a < 0xFF000 ∨ 0xFF000 + 0x1000 ≤ a))
      ∧ (writing 0x40000 sign).classAt 0x40000 = .pixel ⟨.target, 0, 0, 0, 0, 0⟩
      ∧ padded.classAt (0x40000 + 200) = .padding := by decide

/-- Addresses in no plane. -/
theorem witness_WindowBytes_noPlane (a : Nat) (ha : a ∈ [0, 0x3FFFF, 0x40400, 0xFEFFF, 0x100000, 0xFFFFFF]) (g : Setup)
    (p : PanelNo) (c : PanelCfg) (plane : Plane) (hg : sign.part.setup = some g) (hc : g.panels.get p = some c) :
    a < c.planeBase plane ∨ c.planeBase plane + c.height * c.stride ≤ a := by
  cases hg
  have hd : c = signPanel := by
    match p, hc with
    | 0, h => exact (Option.some.inj h).symm
    | 1, h => cases h
    | 2, h => cases h
    | 3, h => cases h
  subst hd
  revert a
  cases plane <;> decide

theorem witness_WindowBytes :
    (∀ x ∈ [(0xFF100, 0), (0xFF10F, 15)], (writing x.1 sign).Ready ∧ (writing x.1 sign).orderOffset? x.1 = some x.2
        ∧ (writing x.1 sign).path.host = some ⟨.arrayWrite, x.1, x.1, .forwarding, false, false⟩)
      ∧ (writing 0xFF200 (signIn .applying)).editsSetup 0xFF200 = true
      ∧ (writing 0xFF080 sign).passesBy 0xFF080 = true := by decide

/-! #### Orders -/

theorem witness_ApplyAndRunOrders :
    ∀ r ∈ [RunState.noSetup, .applying, .stopped, .running, .halting],
      (signIn r).Ready ∧ (signIn r).part.unit.runState = r := by decide

theorem witness_HaltOrder_returned :
    ∀ st ∈ [JobState.capturing, .poised],
      let s := signRunning st .part signEngine
      s.Ready ∧ s.part.setup = some signSetup ∧ s.part.unit.runState = .running
        ∧ signSetup.panels.get 0 = some signPanel
        ∧ s.part.running? 0 = some (0, zoneJob st .part, ⟨.part, 3, 5, 1024, none, [0]⟩)
        ∧ (∀ q : PanelNo, q ≠ 0 → s.part.running? q = none) ∧ s.part.runningCount = 1 := by decide

theorem witness_HaltOrder_noTwin (k : Nat) (q : Job)
    (h : (signRunning .poised .part signEngine).part.job? k = some q) :
    q.state = .queued → q.scope ≠ (zoneJob .poised .part).scope := by
  intro hq
  rw [(onlyJob _ _ _ _ _ h).2] at hq
  cases hq

/-- The sign with zone 0's job in a state and a QUEUED job of the same scope, each of a class. -/
def haltTwins (st : JobState) (running queued : RefreshClass) : State :=
  let s := signRunning st .part signEngine
  { s with
    part := { s.part with
      sequence := 2
      pool := some { zoneJob st .part with cls := running }
        :: some { zoneJob .queued .part with
          cls := queued, rect := ⟨0, 1, 0, 0⟩, fullRequest := true, urgentCarried := true, sequence := 1 }
        :: List.replicate 30 none
      zones := [{ restingZone 0 with queuedJob := some 1, runningJob := some 0 }, restingZone 1, restingZone 2] } }

/-- The merge (R58), where the QUEUED job's class raises the returned one's and where it does not. -/
theorem witness_HaltOrder_merge :
    ∀ x ∈ [(JobState.capturing, RefreshClass.routine, RefreshClass.urgent, true),
        (.poised, .urgent, .urgent, false), (.poised, .urgent, .routine, false)],
      let s := haltTwins x.1 x.2.1 x.2.2.1
      s.Ready ∧ s.part.setup = some signSetup ∧ s.part.unit.runState = .running
        ∧ signSetup.panels.get 0 = some signPanel
        ∧ s.part.running? 0
          = some (0, { zoneJob x.1 .part with cls := x.2.1 }, ⟨.part, 3, 5, 1024, none, [0]⟩)
        ∧ (∀ q : PanelNo, q ≠ 0 → s.part.running? q = none) ∧ s.part.runningCount = 1
        ∧ (s.part.job? 1).map (fun q => (q.state, q.scope)) = some (.queued, .zone 0)
        ∧ x.2.2.2 = decide (x.2.2.1.rank < x.2.1.rank) := by decide

theorem witness_HaltOrder_merge_only (st : JobState) (hst : st ≠ .queued) (running queued : RefreshClass) (i : Nat)
    (y : Job) (h : (haltTwins st running queued).part.job? i = some y) (hy : y.state = .queued) : i = 1 := by
  match i, h with
  | 0, h =>
    cases Option.some.inj h
    exact absurd hy hst
  | 1, _ => rfl
  | i + 2, h =>
    simp only [Part.job?, haltTwins, List.getElem?_cons_succ, List.getElem?_replicate] at h
    split at h <;> cases h

/-- R58: the returned job takes the QUEUED one's rectangle, class and flags with a new sequence number, and its slot is freed;
R57: the zone's queued job is its slot. -/
theorem test_halt_merges :
    nextHas (exec .halt (haltTwins .poised .routine .urgent))
      (fun t => (t.part.job? 0).map (fun j => (j.state, j.rect, j.cls, j.sequence, j.fullRequest, j.urgentCarried))
          == some (.queued, ⟨0, 1, 0, 0⟩, .urgent, 2, true, true)
        && (t.part.job? 1).isNone && t.part.sequence == 3
        && (t.part.zone? 0).map (fun z => (z.queuedJob, z.runningJob)) == some (some 0, none)) = true := by decide

theorem witness_HaltOrder_halting :
    ∀ st ∈ [JobState.driving, .committing],
      let s := signRunning st .part signEngine
      s.Ready ∧ s.part.unit.runState = .running ∧ s.part.runningCount ≠ 0
        ∧ (s.part.running? 0).map (fun x => x.2.1.state) = some st
        ∧ ∀ p : PanelNo, p ≠ 0 → s.part.running? p = none := by decide

theorem witness_HaltOrder_elsewhere :
    ∀ r ∈ [RunState.noSetup, .applying, .stopped, .halting],
      (signIn r).Ready ∧ (signIn r).part.setup = some signSetup ∧ (signIn r).part.unit.runState ≠ .running := by decide

/-- The sign with slots 0 to n - 1 taken by other jobs. -/
def withTaken (n : Nat) (s : State) : State :=
  { s with
    part := { s.part with
      pool := List.replicate n (some { zoneJob .queued .part with scope := .zone 9 }) ++ List.replicate (32 - n) none } }

theorem witness_RefreshZonePlaces :
    (∀ r ∈ [RunState.stopped, .running], (signIn r).Ready ∧ (signIn r).part.unit.runState = r)
      ∧ (∀ x ∈ [((0 : Byte), 0), (2, 2)], ∃ z, signSetup.zone? x.1.toNat = some z ∧ z.index = x.2
          ∧ ∀ y, sign.part.zone? z.index = some y → y.queuedJob = none)
      ∧ ∀ n ∈ [0, 31], (withTaken n sign).part.job? n = none ∧ n < (withTaken n sign).part.pool.length
          ∧ ∀ i, i < n → ((withTaken n sign).part.job? i).isSome = true := by
  refine ⟨by decide, ?_, by decide⟩
  intro x hx
  simp only [List.mem_cons, List.not_mem_nil, or_false] at hx
  obtain rfl | rfl := hx
  · exact ⟨_, rfl, rfl, ofSome (a := restingZone 0) (by decide) rfl⟩
  · exact ⟨_, rfl, rfl, ofSome (a := restingZone 2) (by decide) rfl⟩

theorem witness_RefreshZoneMerges :
    queuedSign.Ready ∧ queuedSign.part.unit.runState = .stopped ∧ queuedSign.part.setup = some signSetup
      ∧ (signSetup.zone? (0 : Byte).toNat).map (·.index) = some 0
      ∧ queuedSign.part.zone? 0 = some { restingZone 0 with queuedJob := some 0 }
      ∧ queuedSign.part.job? 0 = some (zoneJob .queued .part) := by decide

theorem witness_PanelRequestPlaces :
    sign.Ready ∧ sign.part.setup = some signSetup ∧ sign.part.unit.runState = .stopped
      ∧ signSetup.panels.get 0 = some signPanel ∧ sign.part.queuedPanelJob? 0 = none ∧ sign.part.job? 0 = none
      ∧ 0 < sign.part.pool.length ∧ (0 : Byte).toNat = (0 : PanelNo).val ∧ (1 : Byte).toNat = 2 ^ (0 : PanelNo).val := by
  decide

theorem witness_FullPoolRefusesOrders :
    (fullPool sign).Ready ∧ (fullPool sign).part.setup = some signSetup
      ∧ (fullPool sign).part.unit.runState = .stopped
      ∧ (∀ x ∈ (fullPool sign).part.pool, x.isSome = true) ∧ (fullPool sign).part.unit.causes.length = 13
      ∧ (signSetup.zone? (0 : Byte).toNat).map (·.index) = some 0
      ∧ (∀ x, (fullPool sign).part.zone? 0 = some x → x.queuedJob = none)
      ∧ (signSetup.panels.get 0).isSome = true ∧ (fullPool sign).part.queuedPanelJob? 0 = none :=
  ⟨by decide, by decide, by decide, by decide, by decide, by decide,
    ofSome (a := restingZone 0) (by decide) rfl, by decide, by decide⟩

theorem witness_OrdersRefusedInTurn :
    (∀ r ∈ [RunState.noSetup, .applying, .halting], (signIn r).Ready ∧ (signIn r).part.unit.runState ≠ .stopped
        ∧ (signIn r).part.unit.runState ≠ .running)
      ∧ sign.part.setup = some signSetup ∧ sign.part.unit.runState = .stopped
      ∧ signSetup.zone? (3 : Byte).toNat = none
      ∧ (∀ p : PanelNo, p.val = (1 : Byte).toNat → signSetup.panels.get p = none)
      ∧ (∀ p : PanelNo, p.val = (4 : Byte).toNat → signSetup.panels.get p = none)
      ∧ (16 : Byte).toNat % 16 = 0
      ∧ (∃ p : PanelNo, (3 : Byte).toNat.testBit p.val = true ∧ signSetup.panels.get p = none)
      ∧ (signSetup.zone? (0 : Byte).toNat).isSome = true
      ∧ ∃ p : PanelNo, p.val = (0 : Byte).toNat ∧ (signSetup.panels.get p).isSome = true := by decide

theorem witness_SetClockOrder :
    sign.Ready ∧ (86399 : BitVec 32).toNat ≤ 86399 ∧ (65535 : BitVec 32).toNat ≤ 65535
      ∧ 86399 < (86400 : BitVec 32).toNat ∧ 65535 < (65536 : BitVec 32).toNat := by decide

theorem witness_ClearAttnAndUnknownOrders :
    sign.Ready ∧ (0 : Byte).toNat = 0 ∧ 9 < (10 : Byte).toNat ∧ 9 < (255 : Byte).toNat := by decide

/-- ATTN at a latched cause with its mask bit set (R167). -/
theorem witness_ClearAttnAndUnknownOrders_attn :
    let u := { signPart.unit with causes := some 1 :: List.replicate 12 none }
    (u.detail? .setupResult).isSome = true ∧ u.mask.getLsbD Cause.setupResult.bit = true ∧ u.attn = true := by decide

/-- A port in FAULT, held. -/
def faultPort : Port := { Port.reset with state := .fault, cause := .noReply, held := true, attempts := 3 }

/-- A port in FAULT inside a frame of a still open window. -/
def owingPort : Port :=
  { Port.reset with state := .fault, cause := .noReply, window := some { signWindow 5 with ending := true } }

theorem witness_RestorePortOrder :
    (∀ x ∈ [signPart.port 0, faultPort], (withPort (fun _ => x) sign).Ready
        ∧ (withPort (fun _ => x) sign).part.setup = some signSetup
        ∧ (withPort (fun _ => x) sign).part.unit.runState = .stopped)
      ∧ (0 : Byte).toNat = (0 : PanelNo).val ∧ signSetup.panels.get 0 = some signPanel
      ∧ ((withPort (fun _ => signPart.port 0) sign).part.port 0).state ≠ .fault
      ∧ ((withPort (fun _ => faultPort) sign).part.port 0).state = .fault
      ∧ ((withPort (fun _ => faultPort) sign).part.port 0).owesRows = false
      ∧ ((withPort (fun _ => owingPort) (signIn .running)).part.port 0).state = .fault
      ∧ ((withPort (fun _ => owingPort) (signIn .running)).part.port 0).owesRows = true := by decide

/-! #### The bursts of the part's own -/

/-- A burst of the running job's, its data wanted. -/
theorem serves (kind : BurstKind) (row : Nat) (st : JobState) (mode : DriveMode) (e : Engine)
    (h : e.inFlight = true ∧ e.discard = false) (hst : st ≠ .queued) :
    (inBurst kind row (signRunning st mode e)).Serves
      ⟨kind, 0, row, 0, 1, 0x60000 + 16 * row, List.replicate 8 0xE4⟩ signSetup signPanel 0 (zoneJob st mode)
      ⟨mode, 3, 5, 1024, none, [0]⟩ e := by
  refine ⟨⟨rfl, rfl⟩, rfl, rfl, rfl, ?_, rfl, h⟩
  cases st
  · exact absurd rfl hst
  all_goals rfl

theorem witness_CaptureBurstsFollow :
    (∀ kind mode, (inBurst kind 31 (signRunning .capturing mode signEngine)).Serves
        ⟨kind, 0, 31, 0, 1, 0x601F0, List.replicate 8 0xE4⟩ signSetup signPanel 0 (zoneJob .capturing mode)
        ⟨mode, 3, 5, 1024, none, [0]⟩ signEngine)
      ∧ (zoneJob .capturing .part).rect.tx0 ≤ 0 ∧ 0 + 1 ≤ (zoneJob .capturing .part).rect.tx1 + 1
      ∧ 31 / 32 ≤ (zoneJob .capturing .part).rect.ty1
      ∧ signEngine.context.length
          = (zoneJob .capturing .part).rect.cols * (zoneJob .capturing .part).rect.rows :=
  ⟨fun kind mode => serves kind 31 .capturing mode signEngine ⟨rfl, rfl⟩ (by decide), by decide, by decide, by decide, rfl⟩

/-- The next group of a capture begins the next row. -/
theorem witness_CaptureBurstsFollow_row :
    (inBurst .captureStage 30 (signRunning .capturing .part signEngine)).Serves
        ⟨.captureStage, 0, 30, 0, 1, 0x601E0, List.replicate 8 0xE4⟩ signSetup signPanel 0 (zoneJob .capturing .part)
        ⟨.part, 3, 5, 1024, none, [0]⟩ signEngine
      ∧ 30 < 32 * (zoneJob .capturing .part).rect.ty1 + 31 :=
  ⟨serves .captureStage 30 .capturing .part signEngine ⟨rfl, rfl⟩ (by decide), by decide⟩

/-- Settle timers running and nothing held. -/
def quietZones (s : State) : State :=
  { s with part := { s.part with zones := s.part.zones.map fun z => { z with timer := some 3 } } }

theorem witness_CaptureEnds_poised :
    let s := withRail .rising (inBurst .captureStage 31 (signRunning .capturing .part signEngine))
    s.Ready ∧ s.path.burst = some ⟨.captureStage, 0, 31, 0, 1, 0x601F0, List.replicate 8 0xE4⟩
      ∧ s.part.setup = some signSetup ∧ signSetup.panels.get 0 = some signPanel
      ∧ s.part.running? 0 = some (0, zoneJob .capturing .part, ⟨.part, 3, 5, 1024, none, [0]⟩)
      ∧ s.part.engine? 0 = some signEngine ∧ signEngine.inFlight = true
      ∧ (zoneJob .capturing .part).rect.tx1 < 0 + 1 ∧ 32 * (zoneJob .capturing .part).rect.ty1 + 31 ≤ 31
      ∧ s.part.rail.state = .rising ∧ (s.part.port 0).state ≠ .fault ∧ 0 < signEngine.changedTotal
      ∧ signEngine.fill = none ∧ signEngine.buffer = [] ∧ signEngine.feedStopped = false := by decide

/-- The capture end of a job that is not null, on every state of the rail and at ports that start the drive, wait or are in
FAULT. -/
def captured (r : RailState) (x : PortState) : State :=
  withRail r (withPort (fun y => { y with state := x }) (inBurst .captureStage 31 (signRunning .capturing .part signEngine)))

theorem witness_CaptureEnds_rails :
    ∀ r ∈ [RailState.off, .rising, .up, .linger, .falling, .fault], ∀ x ∈ [PortState.off, .ready, .fault],
      (captured r x).Ready
        ∧ (captured r x).path.burst = some ⟨.captureStage, 0, 31, 0, 1, 0x601F0, List.replicate 8 0xE4⟩
        ∧ (captured r x).part.setup = some signSetup
        ∧ (captured r x).part.running? 0 = some (0, zoneJob .capturing .part, ⟨.part, 3, 5, 1024, none, [0]⟩)
        ∧ (captured r x).part.engine? 0 = some signEngine
        ∧ ((captured r x).part.rail.state, ((captured r x).part.port 0).state) = (r, x) := by decide

/-- R50, R130, R140, R141: the demand of a captured job raises an OFF rail and takes LINGER to UP; at a READY port on a rail
that is UP its drive starts at once; at a port in FAULT it is aborted. -/
theorem test_capture_demands :
    ([(RailState.off, PortState.off), (.linger, .off), (.up, .ready), (.off, .fault)].map fun x =>
        match exec .captureBurstEnd (captured x.1 x.2) with
        | .next t => (t.part.rail.state, (t.part.job? 0).map (·.state), (t.part.tiles[0]?).map (·.untrusted))
        | _ => (.fault, none, none))
      = [(.rising, some .poised, some false), (.up, some .poised, some false), (.up, some .driving, some false),
        (.off, none, some true)] := by decide

/-- An engine that has counted no change. -/
def unchanged : Engine := { signEngine with context := [⟨0, true, false, false⟩] }

theorem witness_CaptureEnds_null :
    let s := quietZones (inBurst .captureStage 31 (signRunning .capturing .part unchanged))
    s.Ready ∧ s.path.burst = some ⟨.captureStage, 0, 31, 0, 1, 0x601F0, List.replicate 8 0xE4⟩
      ∧ s.part.setup = some signSetup
      ∧ s.part.running? 0 = some (0, zoneJob .capturing .part, ⟨.part, 3, 5, 1024, none, [0]⟩)
      ∧ s.part.engine? 0 = some unchanged ∧ unchanged.inFlight = true ∧ unchanged.changedTotal = 0
      ∧ (zoneJob .capturing .part).panel = 0 ∧ s.part.unit.runState = .running
      ∧ ∀ z ∈ s.part.zones, z.held = none ∧ z.timer.isSome = true := by decide

/-- A zone that is HELD beside one whose timer is stopped: a slot that frees places the first (R32), and the retirement of
zone 0's job acts as its settle expiry (R33). -/
def waitingZones (s : State) : State :=
  { s with
    part := { s.part with
      tiles := [{ cleanTile (some 0) with state := .active, redirty := true },
        { cleanTile (some 1) with state := .dirty }, cleanTile (some 2), cleanTile none]
      zones := [{ restingZone 0 with timer := none, runningJob := some 0 },
        { restingZone 1 with dirtyCount := 1, dirtySince := some 0, held := some .hold }, restingZone 2]
      clock := { Clock.reset with secondOfDay := 7000 } } }

/-- The premises of the null job, with a HELD zone and a stopped timer. -/
theorem witness_CaptureEnds_waiting :
    let s := waitingZones (inBurst .captureStage 31 (signRunning .capturing .part unchanged))
    s.Ready ∧ s.path.burst = some ⟨.captureStage, 0, 31, 0, 1, 0x601F0, List.replicate 8 0xE4⟩
      ∧ s.part.setup = some signSetup
      ∧ s.part.running? 0 = some (0, zoneJob .capturing .part, ⟨.part, 3, 5, 1024, none, [0]⟩)
      ∧ s.part.engine? 0 = some unchanged ∧ s.part.unit.runState = .running := by decide

/-- R32, R33: the null job's slot places the HELD zone with its held origin, and then the retire trigger places zone 0, whose
REDIRTY tile is DIRTY again, with origin RETIRE. -/
theorem test_retirement_places :
    nextHas (exec .captureBurstEnd (waitingZones (inBurst .captureStage 31 (signRunning .capturing .part unchanged))))
      (fun t => (t.part.job? 0).map (fun j => (j.scope, j.origin)) == some (.zone 1, .hold)
        && (t.part.job? 1).map (fun j => (j.scope, j.origin)) == some (.zone 0, .retire)) = true := by decide

/-- The engine of a driving job with a row in fill and rows waiting. -/
def filling (held : Nat) (more : Bool) : Engine :=
  { signEngine with
    feed := if more then some (0, 31) else none
    fill := some ⟨0, 30, [], []⟩
    buffer := List.replicate held ⟨0, 29, List.replicate 8 0x1B, List.replicate 8 0xE4⟩ }

theorem witness_FeedBurstsFollow :
    (∀ kind held more, (inBurst kind 30 (signRunning .driving .part (filling held more))).Serves
        ⟨kind, 0, 30, 0, 1, 0x601E0, List.replicate 8 0xE4⟩ signSetup signPanel 0 (zoneJob .driving .part)
        ⟨.part, 3, 5, 1024, none, [0]⟩ (filling held more)
      ∧ (filling held more).fill = some ⟨0, 30, [], []⟩ ∧ (filling held more).feedStopped = false)
      ∧ (zoneJob .driving .part).rect.tx1 < 0 + 1 ∧ 3 ≤ (filling 3 true).buffer.length
      ∧ (filling 2 false).feed = none ∧ (filling 2 true).buffer.length < 3 ∧ (filling 2 true).feed = some (0, 31) :=
  ⟨fun kind held more =>
    ⟨serves kind 30 .driving .part (filling held more) ⟨rfl, rfl⟩ (by decide), rfl, rfl⟩,
    by decide, by decide, by decide, by decide, by decide⟩

/-- A job two tiles wide: its feed burst of one tile is not the last of its row. -/
def wideJob : Job := { zoneJob .driving .part with rect := ⟨0, 1, 0, 0⟩ }

def wide (s : State) : State :=
  { s with part := { s.part with pool := some wideJob :: List.replicate 31 none } }

theorem witness_FeedBurstsFollow_group :
    let s := wide (inBurst .feedStage 30 (signRunning .driving .part (filling 2 true)))
    s.Ready ∧ s.path.burst = some ⟨.feedStage, 0, 30, 0, 1, 0x601E0, List.replicate 8 0xE4⟩
      ∧ s.part.running? 0 = some (0, wideJob, ⟨.part, 3, 5, 1024, none, [0]⟩)
      ∧ s.part.engine? 0 = some (filling 2 true) ∧ (filling 2 true).inFlight = true ∧ 0 + 1 ≤ wideJob.rect.tx1 := by decide

theorem witness_FeedBurstsFollow_abandoned :
    let s := inBurst .feedShown 30 (signRunning .driving .part { signEngine with inFlight := false })
    s.Ready ∧ s.path.burst = some ⟨.feedShown, 0, 30, 0, 1, 0x601E0, List.replicate 8 0xE4⟩
      ∧ s.part.engine? 0 = some { signEngine with inFlight := false } := by decide

/-- R116: an abandoned burst in progress. -/
theorem witness_FeedBurstsFollow_discarded :
    let s := inBurst .feedShown 30 (signRunning .driving .part { feeding with inFlight := true, discard := true })
    s.Ready ∧ s.path.burst.map (·.kind) = some .feedShown
      ∧ s.part.engine? 0 = some { feeding with inFlight := true, discard := true } := by decide

theorem witness_CommitBurstsFollow :
    (∀ kind, (inBurst kind 30 (signRunning .committing .full signEngine)).Serves
        ⟨kind, 0, 30, 0, 1, 0x601E0, List.replicate 8 0xE4⟩ signSetup signPanel 0 (zoneJob .committing .full)
        ⟨.full, 3, 5, 1024, none, [0]⟩ signEngine)
      ∧ ∃ y x, (zoneJob .committing .full).rect.tx0 ≤ x ∧ x ≤ (zoneJob .committing .full).rect.tx1
          ∧ y ≤ 32 * (zoneJob .committing .full).rect.ty1 + 31
          ∧ signEngine.toCopy (zoneJob .committing .full).rect .full x (y / 32) = true
          ∧ (30 < y ∨ (y = 30 ∧ 0 + 1 ≤ x)) :=
  ⟨fun kind => serves kind 30 .committing .full signEngine ⟨rfl, rfl⟩ (by decide), 31, 0, by decide⟩

theorem witness_CommitEndRetires :
    let s := quietZones (inBurst .commitWrite 31 (signRunning .committing .full signEngine))
    (s.Ready ∧ s.path.burst = some ⟨.commitWrite, 0, 31, 0, 1, 0x601F0, List.replicate 8 0xE4⟩
        ∧ s.part.setup = some signSetup
        ∧ s.part.running? 0 = some (0, zoneJob .committing .full, ⟨.full, 3, 5, 1024, none, [0]⟩)
        ∧ s.part.engine? 0 = some signEngine ∧ signEngine.inFlight = true
        ∧ (zoneJob .committing .full).panel = 0 ∧ s.part.unit.runState = .running ∧ s.part.unit.causes.length = 13
        ∧ ∀ z ∈ s.part.zones, z.held = none ∧ z.timer.isSome = true)
      ∧ ∀ y x, (zoneJob .committing .full).rect.tx0 ≤ x → x ≤ (zoneJob .committing .full).rect.tx1 →
          y ≤ 32 * (zoneJob .committing .full).rect.ty1 + 31 → (31 < y ∨ (y = 31 ∧ 0 + 1 ≤ x)) →
          signEngine.toCopy (zoneJob .committing .full).rect .full x (y / 32) = false := by
  refine ⟨by decide, ?_⟩
  intro y x _ hx hy h
  have hx : x ≤ 0 := hx
  have hy : y ≤ 31 := hy
  omega

/-- The clauses on what was copied, at the contexts of a copied and of a tainted tile and at a PANEL job. -/
theorem witness_CommitEndRetires_outcomes :
    (∃ x ∈ signEngine.context, x.outcome .full = .copied)
      ∧ (∀ x ∈ [(⟨7, true, false, false⟩ : TileContext)], x.outcome .full ≠ .copied)
      ∧ (zoneJob .committing .full).cls = .urgent
      ∧ ({ zoneJob .committing .full with scope := .panel 0 } : Job).scope = .panel 0 := by decide

/-- A setup read in progress. -/
def reading (i : Nat) (base : Nat) (mark : Bool) : State :=
  let s := signIn .applying
  { s with
    path := { s.path with burst := some ⟨.setupRead, 0, i, 0, 0, base, []⟩ }
    part := { s.part with
      setup := none
      energy := Energy.reset
      unit := { s.part.unit with editMark := mark, leftState := .noSetup } } }

theorem witness_SetupReadsAndPostings :
    (∀ i ∈ [0, 2, 3, 4, 5, 19], (reading i 0 false).Ready
        ∧ (reading i 0 false).path.burst = some ⟨.setupRead, 0, i, 0, 0, 0, []⟩
        ∧ (reading i 0 false).part.unit.runState = .applying ∧ i < 20)
      ∧ (inBurst .statusPost 0 sign).Ready
      ∧ ((inBurst .statusPost 0 sign).path.burst.map (·.kind)) = some .statusPost := by decide

/-- A setup read and a posting that wait with the memory port free. -/
theorem witness_SetupReadsAndPostings_waiting :
    let s := fun (r : Option Nat) =>
      { sign with part := { signPart with unit := { signPart.unit with setupRequest := r, postWaiting := true } } }
    (∀ r ∈ [none, some 0, some 3, some 20], (s r).path.burst = none ∧ (s r).path.host = none
        ∧ (s r).part.unit.setupRequest = r ∧ (s r).part.unit.postWaiting = true)
      ∧ ∀ p, (s none).part.requestLevel? p = none := by decide

theorem witness_ApplyDecided_marked :
    (reading 20 0x10000 true).Ready ∧ (reading 20 0x10000 true).part.unit.editMark = true
      ∧ (reading 20 0x10000 true).part.unit.runState = .applying
      ∧ (reading 20 0x10000 true).part.unit.causes.length = 13 := by decide

/-- R80, R163: setup areas of zeros break the band order at band 0. -/
theorem witness_ApplyDecided_failed :
    let s := reading 20 0x10000 false
    s.part.unit.editMark = false ∧ s.part.unit.base = 0xFF000
      ∧ ∃ (x : ReadSetup) (failure : Option (SetupCause × Nat)), x.ReadAs (s.part.unit.setupData ++ s.memory.window 0x10000 128 0xD80)
        ∧ FirstFails (x.checks s.part.unit.base) failure ∧ failure = some (.bandOrder, 0) :=
  ⟨by decide, by decide, _, _, readSetup_readAs _, ReadSetup.firstFails _ _, by decide⟩

/-- Setup areas with one panel of two by two tiles, one band, and voltages in order (R89). -/
def goodSetup : Memory :=
  [(0x20E, 0xDD), (0x20F, 5), (0x210, 0xDE), (0x211, 5), (0x300, 0xD8), (0x400, 1), (0x402, 64), (0x404, 64), (0x406, 16),
    (0x40A, 4), (0x40E, 5), (0x412, 6)]

def readingGood : State :=
  { reading 20 0x10000 false with
    part := { (reading 20 0x10000 false).part with
      unit := { (reading 20 0x10000 false).part.unit with setupData := goodSetup } } }

theorem witness_ApplyDecided_accepted :
    readingGood.Ready ∧ readingGood.part.unit.editMark = false ∧ readingGood.part.setup = none
      ∧ readingGood.part.energy.sampled = false ∧ readingGood.part.unit.causes.length = 13
      ∧ ∃ (x : ReadSetup) (failure : Option (SetupCause × Nat)), x.ReadAs (readingGood.part.unit.setupData ++ readingGood.memory.window 0x10000 128 0xD80)
        ∧ FirstFails (x.checks readingGood.part.unit.base) failure ∧ failure = none :=
  ⟨by decide, by decide, by decide, by decide, by decide, _, _, readSetup_readAs _, ReadSetup.firstFails _ _, by decide⟩

/-- R163, R165: the good setup leaves 22 scalars at 0 below their ranges, counted by hand: ten global settings, n, the four of the
band and seven of the panel, whose D_hard is clamped above its D_soft. -/
theorem test_apply_clamps :
    nextHas (exec .setupReadEnd readingGood)
      (fun t => t.part.unit.fieldsClamped == 22
        && t.part.setup.map (fun g => (g.globals.vFloor, g.globals.epochPeriod, g.bands.map (·.fullFrames)))
          == some (1500, 10, [4])
        && (t.part.setup.bind fun g => g.panels.get 0).map (fun c => (c.debtSoft, c.debtHard, c.stride)) == some (1, 2, 16)) = true := by
  decide

/-- The good setup with bytes changed. -/
def readingWith (cells : Memory) : State :=
  { readingGood with
    part := { readingGood.part with unit := { readingGood.part.unit with setupData := cells ++ goodSetup } } }

/-- The descriptor of a panel of the greatest size. -/
def greatPanel (at' : Nat) : Memory :=
  [(at', 1), (at' + 2, 0), (at' + 3, 5), (at' + 4, 0xC0), (at' + 5, 3), (at' + 6, 0x40), (at' + 7, 1)]

/-- R163: each structural check, with its cause and index: a width of 65; four panels of 1,200 tiles; SHOWN at TARGET's base; a plane
at the end of memory; a second band not above the first; a zone of a disabled panel; two zones on one tile; Vlean at Vfrz; dark
above light. -/
theorem test_apply_checks :
    ([[(0x402, 65)], greatPanel 0x400 ++ greatPanel 0x440 ++ greatPanel 0x480 ++ greatPanel 0x4C0, [(0x40E, 4)],
        [(0x413, 1)], [(0x203, 2), (0x310, 0xD8)], [(0x600, 1), (0x601, 1)], [(0x620, 1), (0x6A0, 1)], [(0x20E, 0xDC)],
        [(0x212, 1)]].map fun cells =>
        match exec .setupReadEnd (readingWith cells) with
        | .next t => (t.part.unit.setupCause, t.part.unit.setupIndex, t.part.unit.runState)
        | _ => (.none, 0, .stopped))
      = [(.badGeometry, 0, .noSetup), (.tileCapacity, 3, .noSetup), (.planeOverlap, 0, .noSetup),
        (.planeOverlap, 0, .noSetup), (.bandOrder, 1, .noSetup), (.zoneOutside, 0, .noSetup), (.zoneOverlap, 5, .noSetup),
        (.energyOrder, 1, .noSetup), (.energyOrder, 3, .noSetup)] := by decide

/-- The tile table of the accepted clause: empty in NO_SETUP, and one record for each tile of a setup installed. -/
theorem witness_ApplyDecided_tiles :
    ({ readingGood with part := { readingGood.part with tiles := [] } } : State).part.TilesSound
      ∧ signPart.TilesSound :=
  ⟨⟨rfl, by unfold Tile.Sound; decide⟩, ⟨rfl, by unfold Tile.Sound; decide⟩⟩

/-- The sign in APPLYING with its setup installed, a sample taken at 4,800 mV and its port in a state, at the last setup
read of the good setup, whose panel is the sign's. -/
def reapplying (x : PortState) : State :=
  { withPort (fun p => { p with state := x }) (signIn .applying) with
    path := { sign.path with burst := some ⟨.setupRead, 0, 20, 0, 0, 0x10000, []⟩ }
    part := { (withPort (fun p => { p with state := x }) (signIn .applying)).part with
      unit := { (signIn .applying).part.unit with setupData := goodSetup } } }

/-- R14, R74: an APPLY keeps the last sweep second of a preserved panel, and makes it none for another. -/
theorem test_apply_sweeps :
    [(goodSetup, some (some 7)), ((0x402, 96) :: (0x406, 24) :: goodSetup, some none)].all (fun x =>
      nextHas (exec .setupReadEnd
          { reapplying .off with
            part := { (reapplying .off).part with
              lastSweep := ⟨some 7, none, none, none⟩
              unit := { (reapplying .off).part.unit with setupData := x.1 } } })
        (fun t => t.part.unit.setupResult == .accepted && some (t.part.lastSweep.get 0) == x.2)) = true := by decide

/-- With the bank at 4,800 mV the level is reselected, and panel 0 is preserved (R14, R95, R138). -/
theorem witness_ApplyDecided_sampled :
    (∀ x ∈ [PortState.off, .unused, .waking, .ready, .closing, .fault],
      (reapplying x).Ready ∧ (reapplying x).part.unit.runState = .applying ∧ (reapplying x).part.energy.sampled = true
        ∧ (reapplying x).part.unit.editMark = false ∧ ((reapplying x).part.port 0).state = x
        ∧ (reapplying x).part.setup = some signSetup
        ∧ (reapplying x).part.tileAt? signSetup 0 1 1 = some (cleanTile none))
      ∧ (readSetup goodSetup).failure (reapplying .off).part.unit.base = none
      ∧ (((readSetup goodSetup).panels.get 0).map fun c => c.preserves signPanel) = some true
      ∧ selectLevel (readSetup goodSetup).globals .normal 4800 = .surplus
      ∧ PolicyLevel.surplus ≠ .normal := by decide

/-! #### Time and admission -/

theorem witness_TickAdvances :
    ∀ tick ∈ [0, 30, 31],
      let s : State := { sign with part := { signPart with clock := { Clock.reset with tick := tick, windowSecond := 31 } } }
      s.Ready ∧ s.part.clock.secondDue = false ∧ s.part.clock.tick = tick
        ∧ ∀ z ∈ s.part.zones, z.expired = false := by decide

/-- The sign with a zone whose timer the last tick brought to 0. -/
def expiring (n dirty : Nat) (wait : Bool) (s : State) : State :=
  { s with
    part := { s.part with
      zones := s.part.zones.map fun z =>
        if z.index = n then { z with timer := none, expired := true, dirtyCount := dirty, epochWait := wait } else z } }

theorem witness_SettleExpiryByClass_none :
    (∀ x ∈ [(0, false), (1, false), (2, false)],
      let s := expiring x.1 (if x.1 = 2 then 1 else 0) x.2 sign
      s.Ready ∧ s.part.setup = some signSetup ∧ (signSetup.zone? x.1).isSome = true
        ∧ (s.part.zones.find? fun y => y.expired) = s.part.zone? x.1 ∧ (s.part.zone? x.1).isSome = true
        ∧ s.part.unit.causes.length = 13)
      ∧ signPart.quiet signSetup = true ∧ (signSetup.zone? 1).map (·.cls) = some .routine := by decide

theorem witness_SettleExpiryByClass_places :
    ∀ s ∈ [expiring 0 1 false (withTile .dirty sign), expiring 0 1 false (withTile .dirty (fullPool sign))],
      s.Ready ∧ (s.part.zones.find? fun y => y.expired)
          = some { restingZone 0 with timer := none, expired := true, dirtyCount := 1 }
        ∧ (signSetup.zone? 0).map (·.cls) = some .urgent
        ∧ (s.part.job? 0 = none ∧ 0 < s.part.pool.length ∨ ∀ y ∈ s.part.pool, y.isSome = true) := by decide

/-- The premise on quiet hours, from 0 to 3,600 s, within them and at the tick that ends their last second (log 28). -/
theorem witness_SettleExpiryByClass_quiet :
    let last := { signPart with clock := { Clock.reset with secondOfDay := 3599, secondDue := true } }
    signGlobals.quietStart < signGlobals.quietEnd ∧ signPart.quiet signSetup = true
      ∧ signGlobals.quietAt last.clock.secondOfDay = true ∧ last.quiet signSetup = false
      ∧ ({ last with clock := { last.clock with secondDue := false } } : Part).quiet signSetup = true := by decide

theorem witness_SecondCountsAndSamples : (secondDue sign).Ready ∧ (secondDue sign).part.clock.secondDue = true := by decide

/-- A second with no setup installed. -/
theorem witness_SecondCountsAndSamples_noSetup :
    (secondDue sign).part.setup = some signSetup
      ∧ (secondDue { sign with part := { Part.reset with unit := signPart.unit } }).part.setup = none := by decide

/-- The order of a second in which each test stands once, none being left to be added. -/
theorem witness_SecondCountsAndSamples_order :
    ([SecondTask.polls, .walk, .sample, .walk].filter fun k => k != .walk).Nodup
      ∧ (secondTasks [.polls, .walk, .sample, .walk]).count .maximumHold = 1 := by decide

/-- The sign at a second of day, with a dirty zone 2 (TIMED, a hold of `hold` seconds) whose timer stands at `timer`. -/
def atSecond (i : Nat) (hold : Nat) (timer : Option Nat) : State :=
  let s := secondDue sign
  { s with
    part := { s.part with
      setup := some { signSetup with
        zones := [⟨0, 0, ⟨0, 0, 0, 0⟩, .urgent, .auto, 3, 0⟩, ⟨1, 0, ⟨1, 1, 0, 0⟩, .routine, .auto, 3, 0⟩,
          ⟨2, 0, ⟨0, 0, 1, 1⟩, .timed, .auto, 3, hold⟩] }
      tiles := [cleanTile (some 0), cleanTile (some 1), { cleanTile (some 2) with state := .dirty }, cleanTile none]
      zones := [restingZone 0, restingZone 1, { restingZone 2 with dirtyCount := 1, dirtySince := some 0, timer := timer }]
      clock := { s.part.clock with secondOfDay := i, mono := 60 } } }

/-- The clause on a second with no test due: second 1 of the day is no boundary (R154), no quiet end and no sweep time, the
hold of 61 s has not passed at its end and the sample stays below 4,600 mV. -/
theorem witness_SecondCountsAndSamples_frame :
    let s := atSecond 0 61 none
    s.Ready ∧ s.part.clock.secondDue = true ∧ ((1 : Int) - 0) % 700 ≠ 0 ∧ (1 : Nat) ≠ signGlobals.quietEnd
      ∧ signGlobals.sweepTime ≠ some 1 ∧ s.part.energy.level = .normal ∧ 4599 < risingVoltage signGlobals .surplus
      ∧ s.part.zone? 2 = some { restingZone 2 with dirtyCount := 1, dirtySince := some 0, timer := none }
      ∧ (∀ z ∈ s.part.zones, z.index ≠ 2 → z.dirtySince = none) ∧ (s.part.clock.mono + 1 - 0).toNat ≤ 61 := by decide

/-- R28: at the boundary 700 the dirty TIMED zone is placed with origin EPOCH where its timer is stopped and waits where it
runs. -/
theorem test_epoch_places :
    nextHas (exec (.second 4500 0 []) (atSecond 699 0 none))
        (fun t => (t.part.job? 0).map (fun j => (j.scope, j.origin)) == some (.zone 2, .epoch)) = true
      ∧ nextHas (exec (.second 4500 0 []) (atSecond 699 0 (some 1)))
        (fun t => (t.part.job? 0).isNone && (t.part.zone? 2).map (·.epochWait) == some true) = true := by decide

/-- R30: a hold of 60 s has passed in the 61st second, and one of 61 s has not. -/
theorem test_hold_places :
    nextHas (exec (.second 4500 0 []) (atSecond 0 60 none))
        (fun t => (t.part.job? 0).map (fun j => (j.scope, j.origin)) == some (.zone 2, .hold)) = true
      ∧ nextHas (exec (.second 4500 0 []) (atSecond 0 61 none)) (fun t => (t.part.job? 0).isNone) = true := by decide

/-- The clauses on the level: at 4,600 mV the next level is SURPLUS, at 3,399 mV it is LEAN, and at 3,400 mV a NORMAL
level stays. -/
theorem witness_SecondCountsAndSamples_levels :
    (PolicyLevel.normal.rank < PolicyLevel.surplus.rank ∧ risingVoltage signGlobals .surplus ≤ 4600
        ∧ ∀ m : PolicyLevel, PolicyLevel.surplus.rank < m.rank → 4600 < risingVoltage signGlobals m)
      ∧ (∀ l : PolicyLevel, PolicyLevel.normal.rank < l.rank → 3400 < risingVoltage signGlobals l)
      ∧ fallingVoltage signGlobals .normal ≤ 3400 ∧ 3399 < fallingVoltage signGlobals .normal
      ∧ fallingVoltage signGlobals .lean ≤ 3399 ∧ PolicyLevel.lean.rank < PolicyLevel.normal.rank
      ∧ ∀ m : PolicyLevel, PolicyLevel.lean.rank < m.rank → m.rank < PolicyLevel.normal.rank →
          3399 < fallingVoltage signGlobals m := by
  refine ⟨⟨by decide, by decide, fun m => ?_⟩, fun l => ?_, by decide, by decide, by decide, by decide, fun m => ?_⟩
  · cases m <;> decide
  · cases l <;> decide
  · cases m <;> decide

/-- One second before a lead second, and before midnight. -/
theorem witness_EpochLeadLatches :
    ∀ x ∈ [(639, 640, 700), (86399, 0, 60)],
      let s : State :=
        secondDue { sign with part := { signPart with clock := { Clock.reset with secondOfDay := x.1 } } }
      s.Ready ∧ s.part.clock.secondDue = true ∧ s.part.setup = some signSetup ∧ s.part.unit.causes.length = 13
        ∧ x.2.1 = (if s.part.clock.secondOfDay = 86399 then 0 else s.part.clock.secondOfDay + 1)
        ∧ x.2.2 = (x.2.1 + signSetup.globals.epochLead) % 86400 := by decide

/-- The moment at which a poll falls due (60 s) and at which a staleness step is taken (181 s). -/
theorem witness_PollsAndStaleness :
    ∀ x ∈ [((59 : Count32), 60), (180, 181)],
      let s : State := secondDue { sign with part := { signPart with clock := { Clock.reset with mono := x.1 } } }
      s.Ready ∧ s.part.clock.secondDue = true ∧ s.part.setup = some signSetup
        ∧ signSetup.panels.get 0 = some signPanel
        ∧ s.part.selector? 0 = some ⟨3, some 12, 0, 0, false, false⟩ ∧ (s.part.port 0).state = .off
        ∧ x.2 = (s.part.clock.mono + 1 - 0).toNat := by decide

theorem witness_PollsAndStaleness_periods :
    signPanel.pollPeriod ≤ 60 ∧ 60 ≤ 3 * (0 + 1) * signPanel.pollPeriod ∧ 3 * (0 + 1) * signPanel.pollPeriod < 181 := by
  refine ⟨?_, ?_, ?_⟩ <;> simp [signPanel]

/-- Zone 0's job QUEUED over its DIRTY tile: PARTIAL at NORMAL, 1,024 pixels, 14 frames, with the boost of an OFF rail
30,000 µJ: ceil((545 + 2,520 + 30,000) / 1,000) = 34 mJ. -/
def admissible : State := withTile .dirty queuedSign

theorem witness_WalkAdmitsWhatFits :
    (admissible.Ready ∧ admissible.part.unit.runState = .stopped ∧ admissible.part.setup = some signSetup
      ∧ signSetup.panels.get 0 = some signPanel
      ∧ admissible.part.selector? 0 = some ⟨3, some 12, 0, 0, false, false⟩
      ∧ admissible.part.job? 0 = some (zoneJob .queued .part) ∧ (signSetup.zone? 0).map (·.policy) = some .auto
      ∧ admissible.part.runningCount < signSetup.globals.runningLimit ∧ (admissible.part.port 0).state ≠ .fault
      ∧ (signSetup.band 3).partialFrames = 14
      ∧ (admissible.part.tilesIn signSetup 0 (zoneJob .queued .part).rect).countP
          (fun x => x.2.state == .dirty || x.2.state == .queued) = 1
      ∧ admissible.part.energy.level.admits .urgent = true
      ∧ ceilDiv (ceilDiv (1024 * 14 * signPanel.pixelCost) 1000 + 14 * signPanel.frameCost + signGlobals.boost) 1000 = 34
      ∧ 34 ≤ admissible.part.energy.usable - signGlobals.holdbackDay - admissible.part.committed)
      ∧ ∀ k, k ≠ 0 → admissible.part.job? k = none := by
  refine ⟨by decide, ?_⟩
  intro k hk
  cases k with
  | zero => exact absurd rfl hk
  | succ k =>
    simp only [Part.job?, admissible, withTile, queuedSign, List.getElem?_cons_succ, List.getElem?_replicate]
    split <;> rfl

/-- The mode premise at the witness: no tile forces FULL and no debt is soft. -/
theorem witness_WalkAdmitsWhatFits_mode (tx ty : Nat) (x : Tile) (h : (zoneJob .queued .part).rect.contains tx ty = true)
    (hx : admissible.part.tileAt? signSetup 0 tx ty = some x) :
    x.untrusted = false ∧ x.debt < signPanel.debtSoft ∧ x.debt < signPanel.debtHard := by
  have e : tx = 0 ∧ ty = 0 := by
    simp only [Rect.contains, zoneJob, Bool.and_eq_true, decide_eq_true_eq] at h
    omega
  obtain ⟨rfl, rfl⟩ := e
  have f : admissible.part.tileAt? signSetup 0 0 0 = some { cleanTile (some 0) with state := .dirty } := by decide
  rw [f] at hx
  cases hx
  decide

/-- With no usable energy nothing fits, and FROZEN admits no ROUTINE job. -/
theorem witness_WalkAdmitsWhatFits_held :
    let s : State :=
      { admissible with part := { admissible.part with energy := { admissible.part.energy with usable := 0 } } }
    s.Ready ∧ s.part.job? 0 = some (zoneJob .queued .part) ∧ s.part.unit.runState = .stopped
      ∧ s.part.energy.usable - signGlobals.holdbackDay - s.part.committed < 34
      ∧ PolicyLevel.frozen.admits .routine = false := by decide

/-- A PANEL job QUEUED before the urgent job of zone 0, which it withdraws. -/
def panelBefore : State :=
  { admissible with
    part := { admissible.part with
      sequence := 2
      pool := some { zoneJob .queued .part with sequence := 1 }
        :: some { zoneJob .queued .part with scope := .panel 0, rect := ⟨0, 1, 0, 1⟩ } :: List.replicate 30 none } }

theorem witness_WalkAdmitsWhatFits_panel :
    panelBefore.Ready ∧ panelBefore.part.unit.runState = .stopped ∧ panelBefore.part.setup = some signSetup
      ∧ panelBefore.part.job? 1 = some { zoneJob .queued .part with scope := .panel 0, rect := ⟨0, 1, 0, 1⟩ }
      ∧ panelBefore.part.job? 0 = some { zoneJob .queued .part with sequence := 1 }
      ∧ (⟨0, 1, 0, 1⟩ : Rect) = ⟨0, signPanel.width / 32 - 1, 0, signPanel.height / 32 - 1⟩
      ∧ panelBefore.part.queuedBefore { zoneJob .queued .part with scope := .panel 0, rect := ⟨0, 1, 0, 1⟩ }
          { zoneJob .queued .part with sequence := 1 } = true
      ∧ (∀ z ∈ panelBefore.part.zones, z.held = none) ∧ panelBefore.part.runningCount < signGlobals.runningLimit
      ∧ (panelBefore.part.tilesIn signSetup 0 ⟨0, 1, 0, 1⟩).countP
          (fun x => x.2.state == .dirty || x.2.state == .queued) = 1
      ∧ (∀ x ∈ panelBefore.part.tilesIn signSetup 0 ⟨0, 1, 0, 1⟩,
          x.2.untrusted = false ∧ x.2.debt < signPanel.debtSoft ∧ x.2.debt < signPanel.debtHard)
      ∧ 34 ≤ panelBefore.part.energy.usable - signGlobals.holdbackDay - panelBefore.part.committed := by decide

theorem witness_WalkAdmitsWhatFits_withdrawn (k : Nat) (q : Job) (hk : k ≠ 1) (h : panelBefore.part.job? k = some q) :
    k = 0 ∧ q = { zoneJob .queued .part with sequence := 1 } := by
  match k, hk with
  | 0, _ => exact ⟨rfl, (Option.some.inj h).symm⟩
  | k + 2, _ =>
    simp only [Part.job?, panelBefore, List.getElem?_cons_succ, List.getElem?_replicate] at h
    split at h <;> cases h

/-- Two panels with an urgent job each, and a ROUTINE job of panel 0 behind them; zone 0's job of slot 1 is the oldest. -/
def twoPanels (limit usable : Nat) (x : PortState) : State :=
  let job : Job := { zoneJob .queued .part with sequence := 1 }
  { sign with
    part := { signPart with
      unit := { signPart.unit with runState := .stopped }
      setup := some
        { signSetup with
          globals := { signGlobals with runningLimit := limit }
          panels := ⟨some signPanel,
            some { signPanel with targetBase := 0x70000, shownBase := 0x80000, stageBase := 0x90000 }, none, none⟩
          zones := signZones ++ [⟨3, 1, ⟨0, 0, 0, 0⟩, .urgent, .auto, 3, 0⟩] }
      tiles := [{ cleanTile (some 0) with state := .queued }, { cleanTile (some 1) with state := .queued }, cleanTile (some 2),
        cleanTile none, { cleanTile (some 3) with state := .queued }, cleanTile none, cleanTile none, cleanTile none]
      zones := [restingZone 0, restingZone 1, restingZone 2, restingZone 3]
      selectors := ⟨some ⟨3, some 12, 0, 0, false, false⟩, some ⟨3, some 12, 0, 0, false, false⟩, none, none⟩
      ports := { Part.reset.ports with
        p0 := { Port.reset with state := x }, p1 := { Port.reset with state := .off } }
      energy := { signPart.energy with usable := usable }
      sequence := 3
      pool := [some { job with panel := 1, scope := .zone 3 }, some { job with sequence := 0 },
        some { job with scope := .zone 1, rect := ⟨1, 1, 0, 0⟩, cls := .routine, sequence := 2 }] } }

/-- The walk that RUN causes, over a queue of three. -/
theorem witness_WalkAdmitsWhatFits_walks :
    ∃ u, CompletesWith .run (twoPanels 2 175500 .off) u ∧ u.part.walkOwed = true ∧ u.part.unit.runState = .running
      ∧ (u.part.queue.map (·.1)) = [1, 0, 2] :=
  ⟨_, CompletesWith.of_partEvent (en := true) (f := fun x => x.orderRun.note 2) rfl rfl rfl rfl, by decide, by decide, by decide⟩

/-- The states of the three jobs, the running count, K and the stop mark. -/
def walked (s : State) (jobs : List JobState) (count cost : Nat) (mark : Option Nat) : Bool :=
  nextHas (exec .run s) fun t =>
    t.part.pool.map (fun j => j.map (·.state)) == jobs.map some && t.part.runningCount == count && t.part.committed == cost
      && t.part.stopMark == mark

/-- R38, R47: at a limit of 2 the walk goes on after its first admission, and both urgent jobs run, with 34 mJ each in K. -/
theorem test_walk_goes_on :
    walked (twoPanels 2 175500 .off) [.capturing, .capturing, .queued] 2 68 none = true := by decide

/-- R47: at a limit of 1 the second job is skipped. -/
theorem test_walk_limit : walked (twoPanels 1 175500 .off) [.queued, .capturing, .queued] 1 34 none = true := by decide

/-- R47: with 34 mJ above the holdback the second job stops the walk. -/
theorem test_walk_stops : walked (twoPanels 2 134 .off) [.queued, .capturing, .queued] 1 34 (some 0) = true := by decide

/-- R47: at a port in FAULT the first job is skipped, and the second runs. -/
theorem test_walk_port_fault : walked (twoPanels 2 175500 .fault) [.capturing, .queued, .queued] 1 34 none = true := by decide

/-! #### The drive -/

theorem witness_WaveformsOfBothModes :
    (runLevels (fourPixels 0).shown)[3]? = some 3 ∧ (runLevels (fourPixels 0).stage)[3]? = some 1
      ∧ (30 : Nat) / 4 = 7 ∧ 30 - 3 * 7 = 9 ∧ ([0x27] : List Byte)[3 / 4]? = some 0x27 := by decide

def readyPort : Port := { Port.reset with state := .ready }

theorem witness_DriveAndFramesStart_drive :
    let s := withRail .up (withPort (fun _ => readyPort) (signRunning .poised .part signEngine))
    s.Ready ∧ s.part.setup = some signSetup ∧ signSetup.panels.get 0 = some signPanel
      ∧ s.part.running? 0 = some (0, zoneJob .poised .part, ⟨.part, 3, 5, 1024, none, [0]⟩)
      ∧ s.part.rail.state = .up ∧ (s.part.port 0).state = .ready ∧ (s.part.port 0).queryDue = false := by decide

/-- A port DRIVING a window. -/
def drivingPort (w : Window) : Port := { Port.reset with state := .driving, window := some w }

/-- Before the first frame, and after frame 12 of 14. -/
theorem witness_DriveAndFramesStart_frame :
    ∀ x ∈ [({ signWindow 0 with frame := none, settled := true }, 0), ({ signWindow 32 with frame := some 12, settled := true }, 13)],
      let s := withPort (fun _ => drivingPort x.1) (signRunning .driving .part signEngine)
      s.Ready ∧ s.part.running? 0 = some (0, zoneJob .driving .part, ⟨.part, 3, 5, 1024, none, [0]⟩)
        ∧ (s.part.port 0).state = .driving ∧ (s.part.port 0).window = some x.1 ∧ x.1.settled = true
        ∧ x.1.ending = false ∧ x.2 < x.1.frames
        ∧ ((x.1.frame = none ∧ x.2 = 0) ∨ (x.1.frame = some 12 ∧ x.2 = 12 + 1 ∧ x.1.y1 + 1 - x.1.y0 ≤ x.1.slots)) := by
  decide

/-- The head of the row buffer, or nothing held. -/
def holdingRows (held : Nat) : Engine := { filling held false with fill := none, inFlight := false }

theorem witness_LineSlotSendsRow :
    ∀ x ∈ [(true, 1), (false, 1), (false, 0)], ∀ slots ∈ [0, 30],
      let w := { signWindow slots with ending := x.1 }
      let s := withRail .up (withPort (fun _ => drivingPort w) (signRunning .driving .part (holdingRows x.2)))
      s.Ready ∧ s.part.setup = some signSetup ∧ signSetup.panels.get 0 = some signPanel
        ∧ s.part.running? 0 = some (0, zoneJob .driving .part, ⟨.part, 3, 5, 1024, none, [0]⟩)
        ∧ s.part.engine? 0 = some (holdingRows x.2) ∧ (s.part.port 0).window = some w ∧ w.frame = some 13
        ∧ w.slots + 1 < w.y1 + 1 - w.y0 ∧ s.part.rail.state = .up ∧ s.part.unit.causes.length = 13
        ∧ (holdingRows x.2).context.length
            = (zoneJob .driving .part).rect.cols * (zoneJob .driving .part).rect.rows
        ∧ (w.y0 + w.slots) / 32 ≤ (zoneJob .driving .part).rect.ty1 := by decide

/-- The engines that a LINE_SLOT with rows can meet: a head with a place free and the fill stopped, and, with no head, a row
in fill, in flight or not, or none in fill with or without a row to come. -/
theorem witness_LineSlotSendsRow_fills :
    (∃ pair rest, { holdingRows 2 with feed := some (0, 30) }.buffer = pair :: rest ∧ rest.length < 4
        ∧ ({ holdingRows 2 with feed := some (0, 30) } : Engine).fill = none
        ∧ ({ holdingRows 2 with feed := some (0, 30) } : Engine).feedStopped = false)
      ∧ (∀ flight ∈ [false, true], ({ filling 0 true with inFlight := flight } : Engine).buffer = []
          ∧ ({ filling 0 true with inFlight := flight } : Engine).fill.isSome = true
          ∧ (filling 0 true).feed = some (0, 31) ∧ (filling 0 false).feed = none)
      ∧ (∀ feed ∈ [none, some (0, 30), some (29, 31)],
          ({ holdingRows 0 with feed := feed } : Engine).buffer = []
            ∧ ({ holdingRows 0 with feed := feed } : Engine).fill = none) :=
  ⟨⟨_, _, rfl, by decide⟩, by decide, by decide⟩

/-- R116: at an underrun with row 30 in fill and its burst in flight, the place is freed, the burst's data will be discarded and
row 31 is asked for. -/
theorem test_underrun_goes_on :
    nextHas (exec (.lineSlot 0 false)
        (withRail .up (withPort (fun _ => drivingPort (signWindow 30)) (signRunning .driving .part (filling 0 true)))))
      (fun t => (t.part.engine? 0).map (fun e => (e.discard, e.fill.map (·.row), e.request.map (·.row)))
        == some (true, some 31, some 31)) = true := by decide

theorem witness_LineSlotEndsFrame :
    ∀ x ∈ [(false, 12), (false, 13), (true, 13)],
      let w := { signWindow 31 with ending := x.1, frame := some x.2 }
      let s := quietZones (withRail .up (withPort (fun _ => drivingPort w) (signRunning .driving .part (holdingRows 1))))
      s.Ready ∧ s.part.running? 0 = some (0, zoneJob .driving .part, ⟨.part, 3, 5, 1024, none, [0]⟩)
        ∧ s.part.engine? 0 = some (holdingRows 1)
        ∧ (holdingRows 1).buffer = [⟨0, 29, List.replicate 8 0x1B, List.replicate 8 0xE4⟩]
        ∧ (s.part.port 0).window = some w ∧ w.frame = some x.2 ∧ w.slots + 1 = w.y1 + 1 - w.y0
        ∧ (if x.2 = 12 then x.2 + 1 < w.frames else w.frames ≤ x.2 + 1)
        ∧ (holdingRows 1).toCopy (zoneJob .driving .part).rect .part 0 0 = true
        ∧ (s.part.port 0).restoreWaits = false ∧ (s.part.port 0).state ≠ .ready ∧ s.part.unit.runState = .running
        ∧ ∀ z ∈ s.part.zones, z.held = none ∧ z.timer.isSome = true := by decide

/-- R32, R34, R54: the abort's slot places the HELD zone with its held origin, and the settle timer of the aborted job's zone
restarts with its 3 ticks over a tile that is DIRTY with UNKNOWN set. -/
theorem test_abort_places :
    nextHas (exec (.lineSlot 0 false)
        (waitingZones (withRail .up (withPort (fun _ => drivingPort { signWindow 31 with ending := true })
          (signRunning .driving .part (holdingRows 1))))))
      (fun t => (t.part.job? 0).map (fun j => (j.scope, j.origin)) == some (.zone 1, .hold)
        && (t.part.zone? 0).map (fun z => (z.timer, z.dirtyCount, z.runningJob)) == some (some 3, 1, none)
        && (t.part.tiles[0]?).map (fun x => (x.state, x.untrusted)) == some (.dirty, true)) = true := by decide

/-- The clauses on the rail: the driving job is the only one. -/
theorem witness_LineSlotEndsFrame_rail (k : Nat) (q : Job) (hk : k ≠ 0)
    (h : (signRunning .driving .part (holdingRows 1)).part.job? k = some q) : q.state ≠ .poised ∧ q.state ≠ .driving :=
  absurd (onlyJob _ _ _ _ _ h).1 hk

/-- The last slot with no row held, on a rail that is not UP, with nothing to copy, and with a RESTORE_PORT that waits. -/
theorem witness_LineSlotEndsFrame_others :
    ∀ x ∈ [(RailState.up, false, 0, false), (.fault, true, 1, false), (.up, true, 1, true)],
      let w := { signWindow 31 with ending := x.2.1 }
      let e := { holdingRows x.2.2.1 with context := [⟨7, true, false, false⟩] }
      let s := withRail x.1 (withPort (fun _ => { drivingPort w with restoreWaits := x.2.2.2 }) (signRunning .driving .part e))
      s.Ready ∧ s.part.setup = some signSetup ∧ s.part.engine? 0 = some e ∧ (s.part.port 0).window = some w
        ∧ w.frame = some 13 ∧ w.slots + 1 = w.y1 + 1 - w.y0 ∧ s.part.rail.state = x.1 ∧ (s.part.port 0).restoreWaits = x.2.2.2
        ∧ s.part.running? 0 = some (0, zoneJob .driving .part, ⟨.part, 3, 5, 1024, none, [0]⟩)
        ∧ e.toCopy (zoneJob .driving .part).rect .part 0 0 = false := by decide

/-- R116, R118: an underrun at the last slot of the last frame leaves its tile uncommitted, so that the job retires with nothing
copied. -/
theorem test_last_underrun :
    nextHas (exec (.lineSlot 0 false)
        (withRail .up (withPort (fun _ => drivingPort (signWindow 31)) (signRunning .driving .part (holdingRows 0)))))
      (fun t => (t.part.job? 0).isNone && (t.part.tiles[0]?).map (fun x => (x.state, x.untrusted)) == some (.dirty, true)
        && t.part.unit.detail? .underrun == some 0) = true := by decide

/-- A second panel's job that still demands the rail. -/
theorem witness_LineSlotEndsFrame_demand :
    let s : State :=
      { sign with
        part := { signPart with
          pool := [some (zoneJob .driving .part), some { zoneJob .poised .part with panel := 1 }] } }
    ∃ q, s.part.job? 1 = some q ∧ (q.state = .poised ∨ q.state = .driving) := ⟨_, rfl, .inl rfl⟩

/-! #### The ends of a job in HALTING, and over LOOSE tiles -/

/-- One ending of the only running job for each way a job can end, in HALTING. -/
def lastEndings : List (Instr × State) :=
  [(.captureBurstEnd, halting (inBurst .captureStage 31 (signRunning .capturing .part unchanged))),
    (.captureBurstEnd, halting (captured .up .fault)),
    (.commitWriteEnd, halting (inBurst .commitWrite 31 (signRunning .committing .full signEngine))),
    (.lineSlot 0 false,
      halting (withRail .up (withPort (fun _ => drivingPort { signWindow 31 with ending := true })
        (signRunning .driving .part (holdingRows 1))))),
    (.lineSlot 0 false,
      halting (withRail .fault (withPort (fun _ => drivingPort { signWindow 31 with ending := true })
        (signRunning .driving .part (holdingRows 1))))),
    (.lineSlot 0 false,
      halting (withRail .up (withPort (fun _ => drivingPort (signWindow 31))
        (signRunning .driving .part { holdingRows 1 with context := [⟨7, true, false, false⟩] })))),
    (.frameBusyLimit 0,
      halting (withPort (fun _ => { drivingPort (signWindow 32) with limit := some ⟨.frameBusy, 30000⟩ })
        (signRunning .driving .part signEngine))),
    (.railGoodNegated,
      halting (withRail .up (withPort (fun _ => drivingPort (signWindow 32)) (signRunning .driving .part signEngine))))]

/-- The premises on the run state and the count, at every ending: HALTING, and this job the last. -/
theorem witness_endings_halting :
    ∀ x ∈ lastEndings, x.2.Ready ∧ x.2.part.unit.runState = .halting ∧ x.2.part.runningCount - 1 = 0
      ∧ x.2.part.unit.causes.length = 13 ∧ (x.2.part.running? 0).map (·.1) = some 0 := by decide

set_option maxRecDepth 4000 in
/-- R59: the end of the last running job in HALTING makes the run state STOPPED and latches HALTED; the sixth is a commit with
nothing to copy (R120), the fifth an early end after a loss of rail-good (R142). -/
theorem test_last_ending_halts :
    lastEndings.all (fun x => nextHas (exec x.1 x.2)
      (fun t => t.part.unit.runState == .stopped && t.part.unit.detail? .halted == some 0 && (t.part.job? 0).isNone)) = true := by
  decide

/-- A PANEL job over the whole panel, whose LOOSE tile was touched while it ran. -/
def panelRunning (st : JobState) (mode : DriveMode) : State :=
  let s := signRunning st mode { signEngine with context := List.replicate 4 ⟨7, false, false, false⟩ }
  { s with
    part := { s.part with
      tiles := [0, 1, 2].map (fun n => { cleanTile (some n) with state := .active })
        ++ [{ cleanTile none with state := .active, redirty := true }]
      pool := some { zoneJob st mode with scope := .panel 0, rect := ⟨0, 1, 0, 1⟩ } :: List.replicate 31 none } }

/-- R23: a LOOSE tile left DIRTY by a retirement, or by an abort, latches LOOSE_WRITE with the panel, and no other cause but
PORT_FAULT and URGENT_SHOWN changes. -/
theorem test_endings_loose :
    nextHas (exec .commitWriteEnd
        { panelRunning .committing .full with
          path := { sign.path with burst := some ⟨.commitWrite, 0, 63, 0, 2, 0x503F0, List.replicate 16 0⟩ } })
        (fun t => t.part.unit.detail? .looseWrite == some 0 && t.part.tiles.map (·.state) == [.clean, .clean, .clean, .dirty])
        = true
      ∧ nextHas (exec (.tempReplyTimeout 0)
          (withPort (fun _ => { readyPort with tempOutstanding := true }) (panelRunning .poised .part)))
        (fun t => t.part.unit.detail? .looseWrite == some 0 && t.part.unit.detail? .portFault == some 0
          && (t.part.tiles.map (·.state)) == List.replicate 4 .dirty) = true := by decide

/-! #### The ports -/

theorem witness_PortsCloseAndRest_close :
    ∀ x ∈ [PortState.driving, .fault],
      let w := { signWindow 32 with settled := true }
      let s := withPort (fun _ => { drivingPort w with state := x }) (signIn .running)
      s.Ready ∧ s.part.setup = some signSetup ∧ signSetup.panels.get 0 = some signPanel
        ∧ (s.part.port 0).window = some w ∧ (w.frame = none ∨ w.y1 + 1 - w.y0 ≤ w.slots) ∧ w.settled = true
        ∧ s.part.running? 0 = none ∧ (s.part.port 0).state = x := by decide

/-- A port with a limit running, BUSY asserted. -/
def limitedPort (k : LimitKind) (carried : Bool) : Port :=
  { drivingPort (signWindow 32) with busy := true, limit := some ⟨k, 1⟩, closingOver := carried }

theorem witness_PortsCloseAndRest_busy :
    (∀ k ∈ [LimitKind.wakeBusy, .identReply, .frameBusy, .closeBusy], ∀ carried ∈ [false, true],
      let s := withPort (fun _ => limitedPort k carried) sign
      s.Ready ∧ (s.part.port 0).limit = some ⟨k, 1⟩ ∧ (s.part.port 0).closingOver = carried
        ∧ (s.part.port 0).window = some (signWindow 32)
        ∧ (signWindow 32).y1 + 1 - (signWindow 32).y0 ≤ (signWindow 32).slots)
      ∧ (sign.part.port 0).limit = none
      ∧ (signWindow 31).frame = some 13 ∧ (signWindow 31).slots < (signWindow 31).y1 + 1 - (signWindow 31).y0 := by decide

theorem witness_PortsCloseAndRest_rest :
    let s := withPort (fun _ => readyPort) sign
    s.Ready ∧ s.part.setup = some signSetup ∧ signSetup.panels.get 0 = some signPanel ∧ (s.part.port 0).state = .ready
      ∧ s.part.running? 0 = none ∧ (s.part.port 0).queryDue = false ∧ (s.part.port 0).tempOutstanding = false := by decide

/-- The clauses on a rest delay of 0 (R129), at the moment at which a close, a TEMP or a job's end makes the port idle. -/
theorem witness_PortsCloseAndRest_atOnce :
    let c := { signPanel with restDelay := 0 }
    (readyPort.restsAtOnce c ⟨1, 2⟩).state = .off ∧ (readyPort.restsAtOnce c ⟨1, 2⟩).lastRest = some ⟨1, 2⟩
      ∧ (readyPort.restsAtOnce signPanel ⟨1, 2⟩) = readyPort
      ∧ ({ readyPort with queryDue := true } : Port).restsAtOnce c ⟨1, 2⟩ = { readyPort with queryDue := true } := by decide

/-- The rest hold has passed where there was no REST; after one, a hold of 100 ms may not have (R127, R136). -/
theorem witness_PortsWake_hold :
    faultPort.lastRest = none ∧ signPanel.restHold ≠ 0
      ∧ ({ faultPort with lastRest := some ⟨0, 0⟩ } : Port).lastRest.isSome = true := by decide

theorem witness_PortsWake :
    ∀ x ∈ [{ Port.reset with state := .off, wakePending := true }, { faultPort with held := false, retryWake := true },
        { faultPort with held := false, retry := some 30 }, { Port.reset with state := .waking },
        { readyPort with queryDue := true }],
      let s := withPort (fun _ => x) sign
      s.Ready ∧ s.part.setup = some signSetup ∧ signSetup.panels.get 0 = some signPanel ∧ s.part.port 0 = x
        ∧ ((x.state = .off ∧ x.wakePending = true) ∨ (x.state = .fault ∧ x.retryWake = true)
          ∨ (x.state = .fault ∧ x.retry.isSome = true) ∨ x.state = .waking
          ∨ (x.state = .ready ∧ x.queryDue = true)) := by decide

theorem witness_TempTakesReading :
    ∀ degrees ∈ [(-60 : Int), 7, 22, 100],
      let s := withPort (fun _ => { readyPort with tempOutstanding := true }) sign
      s.Ready ∧ s.part.setup = some signSetup ∧ signSetup.panels.get 0 = some signPanel
        ∧ s.part.selector? 0 = some ⟨3, some 12, 0, 0, false, false⟩ ∧ (s.part.port 0).tempOutstanding = true
        ∧ signSetup.bands[3]? = some ⟨10, 14, 30, 20, 3⟩
        ∧ max (-40) (min 85 degrees) ∈ [(-40 : Int), 7, 22, 85] := by decide

/-- At 22 °C the band rises to that of lower bound 20, and at 7 °C it falls to that of lower bound 0 (H is 2). -/
theorem witness_TempTakesReading_bands :
    signSetup.bands[4]? = some ⟨20, 14, 30, 20, 3⟩ ∧ (20 : Int) + 2 ≤ 22
      ∧ signSetup.bands[2]? = some ⟨0, 14, 30, 20, 3⟩ ∧ (7 : Int) < 10 - 2 ∧ (0 : Int) - 2 ≤ 7
      ∧ (7 : Int) < 20 + 2 := by decide

/-- What faults the port, with no running job: each limit, an awaited TEMP and a wrong IDENT, with no window open or between
frames. -/
theorem witness_PortLimitsFault :
    (∀ x ∈ [{ Port.reset with state := .waking, limit := some ⟨.wakeBusy, 500000⟩, attempts := 2 },
          { Port.reset with state := .waking, limit := some ⟨.identReply, 20000⟩, attempts := 3 },
          { readyPort with tempOutstanding := true },
          { Port.reset with state := .closing, limit := some ⟨.closeBusy, 100000⟩ },
          { drivingPort (signWindow 32) with limit := some ⟨.frameBusy, 30000⟩ },
          { drivingPort (signWindow 32) with limit := some ⟨.frameBusy, 30000⟩, tempOutstanding := true }],
      let s := withPort (fun _ => x) sign
      s.Ready ∧ s.part.setup = some signSetup ∧ s.part.port 0 = x ∧ s.part.running? 0 = none
        ∧ s.part.unit.causes.length = 13 ∧ signSetup.panels.get 0 = some signPanel
        ∧ (x.limit.isSome = true ∨ x.tempOutstanding = true)
        ∧ (x.window = none ∨ (x.state ≠ .fault ∧ x.window = some (signWindow 32)
            ∧ (signWindow 32).y1 + 1 - (signWindow 32).y0 ≤ (signWindow 32).slots)))
      ∧ signSetup.panels.get 1 = none := by decide

/-- The premise `FaultedBy`, at a limit, at an awaited TEMP and at an IDENT of another size. -/
theorem witness_PortLimitsFault_faultedBy :
    ({ Port.reset with limit := some ⟨.wakeBusy, 500000⟩ } : Port).FaultedBy 0 signPanel (.wakeBusyLimit 0) .busyStuck
      ∧ ({ readyPort with tempOutstanding := true } : Port).FaultedBy 0 signPanel (.tempReplyTimeout 0) .noReply
      ∧ ({ Port.reset with state := .waking } : Port).FaultedBy 0 signPanel (.ident 0 64 65) .geometry
      ∧ readyPort.betweenFrames :=
  ⟨.inl ⟨rfl, rfl, _, rfl, rfl⟩, .inr (.inr (.inl ⟨rfl, rfl, rfl⟩)),
    .inr (.inr (.inr (.inr (.inr ⟨64, 65, rfl, rfl, rfl, .inr (by decide)⟩)))), ofNone rfl⟩

/-- A POISED job at a READY port, a job DRIVING between frames and one inside a frame (R135). -/
theorem witness_PortLimitsFault_jobs :
    ∀ x ∈ [(JobState.poised, { readyPort with tempOutstanding := true }),
        (.driving, { drivingPort (signWindow 32) with tempOutstanding := true }),
        (.driving, { drivingPort (signWindow 31) with tempOutstanding := true }),
        (.capturing, { Port.reset with state := .waking, limit := some ⟨.wakeBusy, 500000⟩ })],
      let s := withPort (fun _ => x.2) (signRunning x.1 .part signEngine)
      s.Ready ∧ s.part.setup = some signSetup ∧ s.part.port 0 = x.2 ∧ s.part.unit.causes.length = 13
        ∧ s.part.running? 0 = some (0, zoneJob x.1 .part, ⟨.part, 3, 5, 1024, none, [0]⟩)
        ∧ (zoneJob x.1 .part).panel = 0 ∧ s.part.engine? 0 = some signEngine ∧ s.part.unit.runState = .running
        ∧ ∀ z ∈ s.part.zones, z.held = none := by decide

/-- A port in FAULT that waits for the settle before its CLOSE. -/
theorem witness_PortLimitsFault_owed :
    let x : Port := { drivingPort (signWindow 32) with state := .fault, limit := some ⟨.frameBusy, 30000⟩ }
    (withPort (fun _ => x) sign).part.port 0 = x ∧ (withPort (fun _ => x) sign).Ready
      ∧ x.limit = some ⟨.frameBusy, 30000⟩ := by decide

/-- The close BUSY limit of a disabled panel. -/
theorem witness_PortLimitsFault_disabled :
    let s : State :=
      { sign with
        part := signPart.setPort 1
          { Port.reset with state := .closing, limit := some ⟨.closeBusy, 100000⟩, closingOver := true } }
    s.Ready ∧ s.part.setup = some signSetup ∧ signSetup.panels.get 1 = none ∧ s.part.running? 1 = none
      ∧ (s.part.port 1).limit = some ⟨.closeBusy, 100000⟩ := by decide

/-! #### The rail -/

theorem witness_RailRises_demand :
    ∃ j, some j ∈ (signRunning .poised .part signEngine).part.pool ∧ (j.state = .poised ∨ j.state = .driving) :=
  ⟨zoneJob .poised .part, List.mem_cons_self, .inl rfl⟩

theorem witness_RailRises_none : ¬ ∃ j, some j ∈ signPart.pool ∧ (j.state = .poised ∨ j.state = .driving) := by
  rintro ⟨j, hj, _⟩
  simp only [signPart, Part.reset, List.mem_replicate] at hj
  exact absurd hj.2 (by simp)

theorem witness_RailRises :
    ∀ r ∈ [RailState.off, .rising, .falling, .fault],
      let s := withRail r (withPort (fun _ => readyPort) (signRunning .poised .part signEngine))
      s.Ready ∧ s.part.setup = some signSetup ∧ s.part.rail.state = r ∧ s.part.rail.minimumOff ≤ 50
        ∧ s.part.rail.minimumOff ≤ s.part.rail.timer.getD 0
        ∧ s.part.running? 0 = some (0, zoneJob .poised .part, ⟨.part, 3, 5, 1024, none, [0]⟩)
        ∧ (s.part.port 0).state = .ready ∧ (s.part.port 0).queryDue = false ∧ (s.part.port 1).state ≠ .ready := by decide

/-- The POISED job at the READY port starts, and the other panels' ports have no running job. -/
theorem witness_RailRises_starts :
    let s := withRail .rising (withPort (fun _ => readyPort) (signRunning .poised .part signEngine))
    (zoneJob .poised .part).state = .poised ∧ signSetup.panels.get 0 = some signPanel
      ∧ (s.part.port 0).state = .ready ∧ (s.part.port 0).queryDue = false
      ∧ ∀ p : PanelNo, p ≠ 0 → s.part.running? p = none := by decide

theorem witness_RailFalls :
    (∀ r ∈ [RailState.linger, .rising, .up],
      (withRail r sign).Ready ∧ (withRail r sign).part.setup = some signSetup ∧ (withRail r sign).part.rail.state = r
        ∧ (withRail r sign).part.unit.causes.length = 13 ∧ ∀ p, ((withRail r sign).part.port p).state ≠ .driving)
      ∧ let s := withRail .up (withPort (fun _ => drivingPort (signWindow 31)) (signRunning .driving .part signEngine))
        (∀ q : PanelNo, q ≠ 0 → (s.part.port q).state ≠ .driving) ∧ (s.part.port 0).state = .driving
          ∧ s.part.running? 0 = some (0, zoneJob .driving .part, ⟨.part, 3, 5, 1024, none, [0]⟩)
          ∧ (s.part.port 0).window = some (signWindow 31) ∧ (signWindow 31).frame = some 13
          ∧ (signWindow 31).slots < (signWindow 31).y1 + 1 - (signWindow 31).y0
          ∧ s.part.engine? 0 = some signEngine := by decide

/-- A job DRIVING between frames when rail-good is lost (R142). -/
theorem witness_RailFalls_betweenFrames :
    let s := withRail .up (withPort (fun _ => drivingPort (signWindow 32)) (signRunning .driving .part signEngine))
    s.Ready ∧ (∀ q : PanelNo, q ≠ 0 → (s.part.port q).state ≠ .driving) ∧ (s.part.port 0).state = .driving
      ∧ s.part.running? 0 = some (0, zoneJob .driving .part, ⟨.part, 3, 5, 1024, none, [0]⟩)
      ∧ (zoneJob .driving .part).panel = 0 ∧ (s.part.port 0).window = some (signWindow 32)
      ∧ (signWindow 32).y1 + 1 - (signWindow 32).y0 ≤ (signWindow 32).slots ∧ s.part.unit.runState = .running
      ∧ ∀ z ∈ s.part.zones, z.held = none := by decide

/-! ### Points of the rules, in one step -/

/-- The sign with a rest delay of 0. -/
def restless (s : State) : State :=
  { s with
    part := { s.part with
      setup := some { signSetup with panels := ⟨some { signPanel with restDelay := 0 }, none, none, none⟩ } } }

/-- R129: under a rest delay of 0 the awaited TEMP of a READY port sends REST in its own event. -/
theorem test_temp_rests :
    nextHas (exec (.temp 0 20) (restless (withPort (fun _ => { readyPort with tempOutstanding := true }) sign)))
      (fun t => (t.part.port 0).state == .off && (t.part.port 0).sent == some .rest) = true := by decide

/-- R129: with a rest delay of 5 s the port stays READY. -/
theorem test_temp_stays :
    nextHas (exec (.temp 0 20) (withPort (fun _ => { readyPort with tempOutstanding := true }) sign))
      (fun t => (t.part.port 0).state == .ready) = true := by decide

/-- R127, R136: with no REST since the reset the rest hold has passed, so the retry wakes the port. -/
theorem test_retry_wakes :
    nextHas (exec (.retryWake 0 false true) (withPort (fun _ => { faultPort with attempts := 1, retry := some 30 }) sign))
      (fun t => (t.part.port 0).state == .waking) = true := by decide

/-- R29: at the tick that ends quiet hours (0 to 3,600 s) the expiry of a dirty ROUTINE zone comes before the second event and
enqueues it. -/
theorem test_expiry_ends_quiet :
    nextHas (exec (.settleExpiry 1)
        { expiring 1 1 false sign with
          part := { (expiring 1 1 false sign).part with
            tiles := [cleanTile (some 0), { cleanTile (some 1) with state := .dirty }, cleanTile (some 2), cleanTile none]
            clock := { Clock.reset with secondOfDay := 3599, secondDue := true } } })
      (fun t => (t.part.job? 0).map (·.scope) == some (.zone 1)) = true := by decide

/-- R108, R146: the next request of a job waits for the end of its abandoned burst. -/
theorem test_abandoned_burst_blocks :
    let s := signRunning .driving .part { feeding with inFlight := true, discard := true }
    s.part.requestLevel? 0 = none ∧ (s.part.discardEnded 0).requestLevel? 0 = some 0 := by decide

/-- R117: the early end of the frame drops the request held back behind an abandoned burst, so that nothing is asked for when the
burst ends; a request that waits with the arbiter stays (log 24). -/
theorem test_early_end_asks_nothing :
    ∀ x ∈ [(true, none), (false, some 31)],
      nextHas (exec .railGoodNegated
          (inBurst .statusPost 0
            (withRail .up (withPort (fun _ => drivingPort (signWindow 31))
              (signRunning .driving .part { feeding with inFlight := x.1, discard := x.1 })))))
        (fun t => (t.part.engine? 0).map (fun e => (e.feedStopped, e.request.map (·.row))) == some (true, x.2)) = true := by
  decide

/-- R143: a transaction with another command goes out with its write bytes and returns what the memory supplied. -/
theorem test_other_command :
    nextHas (exec (.hostTransactionEnd ⟨0, [1, 2], [3]⟩ false)
        { sign with path := { sign.path with host := some ⟨.other 0x9F, 16, 16, .forwarding, false, false⟩ } })
      (fun t => t.path.hostRead == [3] && t.path.forwarded == some ⟨0x9F, 16, [1, 2]⟩) = true := by decide

end Sys2Proof.Tests
end

section
/-! PROOFS of the statements about TARGET touches and the settle timers (R20, R22). -/

namespace Sys2Proof.Machine

/-! ### Fields that updates leave alone -/

@[simp] theorem Part.latch_zones (part : Part) (c : Cause) (d : Nat) : (part.latch c d).zones = part.zones := by
  rw [Part.latch_eq]

@[simp] theorem Part.mapTiles_zones (part : Part) (g : Setup) (p : PanelNo) (r : Rect) (f : Nat → Nat → Tile → Tile) :
    (part.mapTiles g p r f).zones = part.zones := by
  rw [Part.mapTiles_eq]

@[simp] theorem Part.setTile_zones (part : Part) (g : Setup) (p : PanelNo) (tx ty : Nat) (f : Tile → Tile) :
    (part.setTile g p tx ty f).zones = part.zones := Part.mapTiles_zones ..

@[simp] theorem Part.mergeRequest_zones (part : Part) (slot : Nat) (j : Job) (rect : Rect) (cls : RefreshClass)
    (full : Bool) : (part.mergeRequest slot j rect cls full).zones = part.zones := by
  unfold Part.mergeRequest
  dsimp only
  split <;> rfl

@[simp] theorem Part.latchLoose_zones (part : Part) (g : Setup) (j : Job) : (part.latchLoose g j).zones = part.zones := by
  rw [(Part.latchLoose_frame part g j).1]

@[simp] theorem Part.noteSweep_zones (part : Part) (j : Job) (r : RunFields) (n : Nat) :
    (part.noteSweep j r n).zones = part.zones := by
  rw [Part.noteSweep_frame]

@[simp] theorem Part.noteUrgent_zones (part : Part) (j : Job) (n : Nat) : (part.noteUrgent j n).zones = part.zones := by
  unfold Part.noteUrgent
  split
  · exact Part.latch_zones ..
  · rfl

@[simp] theorem Part.checkHalted_zones (part : Part) : part.checkHalted.zones = part.zones := by
  unfold Part.checkHalted
  split
  · rw [Part.oweWalk_zones, Part.latch_zones]
  · rfl

@[simp] theorem Part.growJob_zones (part : Part) (slot tx ty : Nat) : (part.growJob slot tx ty).zones = part.zones := by
  unfold Part.growJob
  split <;> rfl

@[simp] theorem Part.lateTouch_zones (part : Part) (t : Touch) : (part.lateTouch t).zones = part.zones := by
  unfold Part.lateTouch
  split
  · split
    · split <;> rfl
    · rfl
  · rfl

theorem Part.starvedAt_zones (g : Setup) (part : Part) (x : Nat × Job) : (Part.starvedAt g part x).zones = part.zones := by
  unfold Part.starvedAt
  split
  · rfl
  · split
    · rw [Part.latch_zones, Part.setJob_zones]
    · rfl

/-! ### The settle timers (R26)

Only a restart and a tick change a settle timer. The timers of the zones are therefore followed as one list, which every
other operation on zones keeps. -/

/-- The zones' indices with their settle timers. -/
def Part.timers (part : Part) : List (Nat × Option Nat) := part.zones.map fun z => (z.index, z.timer)

theorem Part.timers_congr {a b : Part} (h : a.zones = b.zones) : a.timers = b.timers := by
  unfold Part.timers
  rw [h]

/-- A change of zone `n` that touches neither index nor timer. -/
theorem Part.timers_updateZone (part : Part) (n : Nat) {f : Zone → Zone} (hi : ∀ z, (f z).index = z.index)
    (ht : ∀ z, (f z).timer = z.timer) : (part.updateZone n f).timers = part.timers := by
  unfold Part.timers Part.updateZone
  rw [List.map_map]
  refine List.map_congr_left fun z _ => ?_
  simp only [Function.comp_apply]
  split
  · rw [hi, ht]
  · rfl

@[simp] theorem Part.timers_followTiles (part : Part) : part.followTiles.timers = part.timers := by
  unfold Part.timers Part.followTiles
  rw [List.map_map]
  rfl

/-- A restart sets the timer of the zone's records to the full settle time, and no other (R22). -/
theorem Part.timers_restartTimer (part : Part) (y : ZoneCfg) :
    (part.restartTimer y).timers
      = part.zones.map fun z => (z.index, if z.index = y.index then some y.settle else z.timer) := by
  unfold Part.timers Part.restartTimer Part.updateZone
  rw [List.map_map]
  refine List.map_congr_left fun z _ => ?_
  simp only [Function.comp_apply]
  split <;> rfl

/-- A fold whose step keeps the timers keeps them. -/
theorem Part.timers_foldl {α : Type} {f : Part → α → Part} (hf : ∀ part x, (f part x).timers = part.timers) (xs : List α)
    (part : Part) : (xs.foldl f part).timers = part.timers := by
  induction xs generalizing part with
  | nil => rfl
  | cons x xs ih => rw [List.foldl_cons, ih, hf]

/-! ### Requests and the HELD retry keep the timers (R31, R32) -/

theorem Part.timers_requestZone {part placed : Part} {z : ZoneCfg} {rect : Rect} {cls : RefreshClass} {o : Origin}
    {full : Bool} (h : part.requestZone z rect cls o full = some placed) : placed.timers = part.timers := by
  unfold Part.requestZone at h
  split at h
  · split at h
    · cases h; exact Part.timers_congr (Part.mergeRequest_zones ..)
    · cases h
  · split at h
    · cases h
      rw [Part.timers_updateZone]
      · exact Part.timers_congr (Part.placeJob_zones ..)
      all_goals exact fun _ => rfl
    · cases h

theorem Part.timers_takeUpZone (part : Part) (g : Setup) (z : ZoneCfg) : (part.takeUpZone g z).timers = part.timers := by
  rw [Part.takeUpZone, Part.timers_followTiles, Part.timers_congr (Part.mapTiles_zones ..)]

theorem Part.timers_waited (part : Part) (n : Nat) :
    (part.updateZone n fun x => { x with epochWait := false }).timers = part.timers :=
  Part.timers_updateZone _ _ (fun _ => rfl) fun _ => rfl

theorem Part.timers_hold (part : Part) (n : Nat) (o : Option Origin) :
    (part.updateZone n fun x => { x with held := o }).timers = part.timers :=
  Part.timers_updateZone _ _ (fun _ => rfl) fun _ => rfl

theorem Part.timers_enqueue (part : Part) (g : Setup) (z : ZoneCfg) (o : Origin) :
    (part.enqueue g z o).timers = part.timers := by
  unfold Part.enqueue
  split
  · dsimp only
    split
    · next h => rw [Part.timers_hold, Part.timers_takeUpZone, Part.timers_requestZone h, Part.timers_waited]
    · rw [Part.timers_congr (Part.latch_zones ..), Part.timers_hold, Part.timers_waited]
  · rfl

theorem Part.timers_retryHeld (g : Setup) (zs : List ZoneCfg) (part : Part) :
    (part.retryHeld g zs).timers = part.timers := by
  induction zs generalizing part with
  | nil => rfl
  | cons z zs ih =>
    unfold Part.retryHeld
    split
    · exact ih part
    · split
      · exact ih part
      · dsimp only
        split
        · exact Part.timers_enqueue ..
        · rw [ih, Part.timers_enqueue]

theorem Part.timers_slotsFreed (part : Part) (g : Setup) : (part.slotsFreed g).timers = part.timers :=
  Part.timers_retryHeld ..

/-! ### A retirement keeps the timers (R33, R52) -/

theorem Part.timers_expire (part : Part) (g : Setup) (z : ZoneCfg) (o e : Origin) :
    (part.expire g z o e).timers = part.timers := by
  unfold Part.expire
  split
  · exact Part.timers_enqueue ..
  · exact Part.timers_enqueue ..
  · split
    · rfl
    · exact Part.timers_enqueue ..
  · split
    · split
      · rw [Part.timers_enqueue, Part.timers_waited]
      · rfl
    · rfl

theorem Part.timers_retireTriggerAt (g : Setup) (part : Part) (z : ZoneCfg) :
    (Part.retireTriggerAt g part z).timers = part.timers := by
  unfold Part.retireTriggerAt
  split
  · exact Part.timers_expire ..
  · rfl

theorem Part.timers_clearRunning (part : Part) (j : Job) : (part.clearRunning j).timers = part.timers := by
  unfold Part.clearRunning
  split
  · exact Part.timers_updateZone _ _ (fun _ => rfl) fun _ => rfl
  · rfl

theorem Part.timers_retireZones (part : Part) (g : Setup) (j : Job) : (part.retireZones g j).timers = part.timers := by
  rw [Part.retireZones, Part.timers_foldl (Part.timers_retireTriggerAt g), Part.timers_clearRunning]

theorem Part.timers_settled (part : Part) (g : Setup) (j : Job) (f : Nat → Nat → Tile → Tile) :
    (part.settled g j f).timers = part.timers := by
  rw [Part.settled, Part.timers_congr (Part.latchLoose_zones ..), Part.timers_followTiles,
    Part.timers_congr (Part.mapTiles_zones ..)]

theorem Part.timers_retireJob (part : Part) (g : Setup) (slot : Nat) (j : Job) (r : RunFields) (e : Engine) :
    (part.retireJob g slot j r e).timers = part.timers := by
  unfold Part.retireJob
  extract_lets settled copied ended
  have hended : ended.zones = settled.zones := by simp [ended]
  calc _ = ((ended.slotsFreed g).retireZones g j).timers := Part.timers_congr (by simp)
    _ = ended.timers := by rw [Part.timers_retireZones, Part.timers_slotsFreed]
    _ = settled.timers := Part.timers_congr hended
    _ = part.timers := Part.timers_settled part g j _

/-! ### A walk keeps the timers (R46) -/

theorem Part.timers_withdraw (part : Part) (x : Nat × Job) : (part.withdraw x).timers = part.timers := by
  unfold Part.withdraw
  split
  · rw [Part.timers_updateZone]
    · exact Part.timers_congr (Part.freeSlot_zones ..)
    all_goals exact fun _ => rfl
  · rfl

theorem Part.timers_runZone (part : Part) (slot : Nat) (j : Job) : (part.runZone slot j).timers = part.timers := by
  unfold Part.runZone
  split
  · exact Part.timers_updateZone _ _ (fun _ => rfl) fun _ => rfl
  · rfl

theorem Part.timers_admitJob (part : Part) (g : Setup) (c : PanelCfg) (slot : Nat) (j : Job) (mode : DriveMode)
    (band cost : Nat) : (part.admitJob g c slot j mode band cost).timers = part.timers := by
  unfold Part.admitJob
  extract_lets taken carried running placed admitted active started
  have hadmitted : admitted.timers = part.timers := Part.timers_foldl Part.timers_withdraw taken part
  have hactive : active.timers = admitted.timers := by
    rw [Part.timers_followTiles, Part.timers_congr (Part.mapTiles_zones ..)]
  have hstarted : started.timers = active.timers := Part.timers_runZone active slot j
  split
  · rw [hstarted, hactive, hadmitted]
  · rw [Part.timers_congr (Part.oweWalk_zones _), hstarted, hactive, hadmitted]

theorem Part.timers_walkFrom (g : Setup) (queue : List (Nat × Job)) (part : Part) :
    (part.walkFrom g queue).timers = part.timers := by
  induction queue generalizing part with
  | nil => rfl
  | cons x rest ih =>
    obtain ⟨slot, q⟩ := x
    unfold Part.walkFrom
    split
    · exact ih part
    · split
      · split
        · exact ih part
        · dsimp only
          split
          · rw [ih, Part.timers_admitJob]
          · rfl
      · exact ih part

theorem Part.timers_admitAll (part : Part) (g : Setup) (queue : List (Nat × Job)) :
    (part.admitAll g queue).timers = part.timers := by
  unfold Part.admitAll
  dsimp only
  split
  · rw [Part.timers_slotsFreed, Part.timers_walkFrom]
  · exact Part.timers_walkFrom ..

theorem Part.timers_starvedTest (part : Part) (g : Setup) : (part.starvedTest g).timers = part.timers :=
  Part.timers_foldl (fun part x => Part.timers_congr (Part.starvedAt_zones g part x)) _ _

theorem Part.timers_walk (part : Part) : part.walk.timers = part.timers := by
  unfold Part.walk
  split
  · rfl
  · dsimp only
    rw [Part.timers_starvedTest]
    split
    · exact Part.timers_admitAll ..
    · rfl

theorem Part.timers_takeWalks (n : Nat) (part : Part) : (part.takeWalks n).timers = part.timers := by
  induction n generalizing part with
  | zero => rfl
  | succ n ih =>
    unfold Part.takeWalks
    split
    · rw [ih, Part.timers_walk]
    · rfl

/-- What every step ends with keeps the timers. -/
theorem State.timers_finish (before effect : State) : (State.finish before effect).part.timers = effect.part.timers := by
  rw [Part.timers_congr (State.finish_agreesOutsidePath_walks before effect).zones, Part.timers_takeWalks]

/-! ### TARGET touches (R19 to R22) -/

theorem Part.timers_touchClean (part : Part) (g : Setup) (t : Touch) (x : Tile) :
    (part.touchClean g t x).timers = part.timers := by
  unfold Part.touchClean
  split
  · exact Part.timers_congr (by simp)
  · split
    · exact Part.timers_congr (by simp)
    · extract_lets dirtied
      have hdirtied : dirtied.timers = part.timers := by
        rw [Part.timers_followTiles, Part.timers_congr (Part.setTile_zones ..)]
      split
      · exact hdirtied
      · rw [Part.timers_congr (Part.latch_zones ..), hdirtied]

theorem Part.touchActive_zones (part : Part) (g : Setup) (c : PanelCfg) (t : Touch) :
    (part.touchActive g c t).zones = part.zones := by
  unfold Part.touchActive
  split
  · split
    · dsimp only
      split <;> rfl
    · exact Part.setTile_zones ..
  · rfl

/-- The restart of a touched tile's zone, zone by zone. -/
theorem Part.restartZoned_eq (part : Part) (g : Setup) (x : Tile) :
    part.restartZoned g x
      = { part with
          zones := part.zones.map fun z =>
            match x.zone.bind g.zone? with
            | some y => if z.index = y.index then { z with timer := some y.settle, expired := false } else z
            | none => z } := by
  unfold Part.restartZoned
  cases x.zone.bind g.zone? with
  | some y => rfl
  | none => simp

section
variable {part : Part} {t : Touch} {g : Setup} {c : PanelCfg} {x : Tile} (hg : part.setup = some g)
  (hc : g.panels.get t.panel = some c) (hx : part.tileAt? g t.panel t.tx t.ty = some x)
include hg hc hx

/-- A touch of a waiting tile does nothing but restart (R20). -/
theorem Part.targetTouch_waiting (hw : x.state = .dirty ∨ x.state = .queued) :
    part.targetTouch t = part.restartZoned g x := by
  unfold Part.targetTouch
  rcases hw with h | h <;> simp only [hg, hc, hx, h]

/-- In every tile state a touch ends with the restart, and what comes before it keeps the timers (R22). -/
theorem Part.targetTouch_restarts :
    ∃ touched : Part, touched.timers = part.timers ∧ part.targetTouch t = touched.restartZoned g x := by
  cases h : x.state with
  | clean =>
    refine ⟨_, Part.timers_touchClean part g t x, ?_⟩
    simp only [Part.targetTouch, hg, hc, hx, h]
  | dirty => exact ⟨part, rfl, Part.targetTouch_waiting hg hc hx (.inl h)⟩
  | queued => exact ⟨part, rfl, Part.targetTouch_waiting hg hc hx (.inr h)⟩
  | active =>
    refine ⟨_, Part.timers_congr (Part.touchActive_zones part g c t), ?_⟩
    simp only [Part.targetTouch, hg, hc, hx, h]

theorem Part.timers_targetTouch_zoned {n : Nat} {y : ZoneCfg} (hn : x.zone = some n) (hy : g.zone? n = some y) :
    (part.targetTouch t).timers
      = part.zones.map fun z => (z.index, if z.index = n then some y.settle else z.timer) := by
  obtain ⟨touched, hkeeps, hr⟩ := Part.targetTouch_restarts hg hc hx
  have hrestart : touched.restartZoned g x = touched.restartTimer y := by simp [Part.restartZoned, hn, hy]
  -- Both sides read a zone's index and timer alone.
  have hread := congrArg (List.map fun k : Nat × Option Nat => (k.1, if k.1 = n then some y.settle else k.2)) hkeeps
  rw [hr, hrestart, Part.timers_restartTimer, Setup.zone?_index hy]
  simpa only [Part.timers, List.map_map, Function.comp_def] using hread

theorem Part.timers_targetTouch_loose (hl : x.zone = none) : (part.targetTouch t).timers = part.timers := by
  obtain ⟨touched, hkeeps, hr⟩ := Part.targetTouch_restarts hg hc hx
  have hrestart : touched.restartZoned g x = touched := by simp [Part.restartZoned, hl]
  rw [hr, hrestart, hkeeps]

end

/-! ### SHOWN and STAGE touches restart no timer (R24, R25) -/

theorem Part.shownTouch_zones (part : Part) (t : Touch) : (part.shownTouch t).zones = part.zones := by
  unfold Part.shownTouch
  split
  · rfl
  · simp

theorem Part.timers_continueCommit (part : Part) (g : Setup) (c : PanelCfg) (p : PanelNo) (slot : Nat) (j : Job)
    (r : RunFields) (e : Engine) (row tx : Nat) : (part.continueCommit g c p slot j r e row tx).timers = part.timers := by
  unfold Part.continueCommit
  split
  · rfl
  · exact Part.timers_retireJob ..

theorem Part.timers_reformCommit (part : Part) (g : Setup) (c : PanelCfg) (t : Touch) (slot : Nat) (j : Job)
    (r : RunFields) (e : Engine) : (part.reformCommit g c t slot j r e).timers = part.timers := by
  unfold Part.reformCommit
  split
  · split
    · exact Part.timers_continueCommit ..
    · rfl
  · rfl

theorem Part.timers_taint (part : Part) (g : Setup) (c : PanelCfg) (t : Touch) :
    (part.taint g c t).timers = part.timers := by
  unfold Part.taint
  split
  · split
    · exact Part.timers_reformCommit ..
    · rfl
  · rfl

/-- A STAGE touch keeps the timers, also where it ends the commit copy and the job retires in it (log 13). -/
theorem Part.timers_stageTouch (part : Part) (t : Touch) : (part.stageTouch t).timers = part.timers := by
  unfold Part.stageTouch
  split
  · rfl
  · extract_lets noted
    have hnoted : noted.timers = part.timers := Part.timers_congr (Part.latch_zones ..)
    split
    · split
      · rw [Part.timers_taint, hnoted]
      · exact hnoted
    · exact hnoted

/-! ### The commands -/

section
variable {s : State} {a : Nat} {t : Touch} (hs : s.Ready)
include hs

theorem exec_targetTouch (d : Byte) (ht : s.touch? .target a = some t) :
    exec (.targetTouch a d) s
      = .next (State.finish s { s.forwardByte a d with part := s.part.targetTouch t }) := by
  show execTargetTouch a d s = _
  rw [execTargetTouch, ht]
  exact State.event_enabled hs.1 rfl _

theorem exec_shownTouch (d : Byte) (ht : s.touch? .shown a = some t) :
    exec (.shownTouch a d) s = .next (State.finish s { s.forwardByte a d with part := s.part.shownTouch t }) := by
  show execShownTouch a d s = _
  rw [execShownTouch, ht]
  exact State.event_enabled hs.1 rfl _

theorem exec_stageTouch (d : Byte) (ht : s.touch? .stage a = some t) :
    exec (.stageTouch a d) s = .next (State.finish s { s.forwardByte a d with part := s.part.stageTouch t }) := by
  show execStageTouch a d s = _
  rw [execStageTouch, ht]
  exact State.event_enabled hs.1 rfl _

end

/-- Settles O22: a touch of a waiting tile is the restart alone, which owes no walk. -/
theorem targetTouchOfWaitingTile : Obligations.TargetTouchOfWaitingTile := by
  intro s a d t g c x hs ht hg hc hx hw
  have heffect := (Part.targetTouch_waiting hg hc hx hw).trans (Part.restartZoned_eq s.part g x)
  refine ⟨_, exec_targetTouch hs d ht, ?_⟩
  rw [heffect]
  exact State.finish_agreesOutsidePath s hs.2

/-- Settles O24: the timers of the next state are those that the touch leaves, as a step's end keeps them. -/
theorem touchesRestartSettleTimers : Obligations.TouchesRestartSettleTimers := by
  intro s a d t g c x hs hg hc hx
  refine ⟨fun ht => ⟨_, exec_targetTouch hs d ht, fun n y hn hy => ?_, fun hl => ?_⟩,
    fun ht => ⟨_, exec_shownTouch hs d ht, ?_⟩, fun ht => ⟨_, exec_stageTouch hs d ht, ?_⟩⟩
  · exact (State.timers_finish ..).trans (Part.timers_targetTouch_zoned hg hc hx hn hy)
  · exact (State.timers_finish ..).trans (Part.timers_targetTouch_loose hg hc hx hl)
  · exact (State.timers_finish ..).trans (Part.timers_congr (Part.shownTouch_zones s.part t))
  · exact (State.timers_finish ..).trans (Part.timers_stageTouch s.part t)

end Sys2Proof.Machine
end

section
/-! PROOFS of the statement about the drive codes of a row (R68 to R70). -/

namespace Sys2Proof.Machine

/-! ### The codes of one pixel -/

theorem ceilDiv_three (n : Nat) : ceilDiv n 3 = (n + 2) / 3 := rfl

/-- R69 for a pixel that moves to a higher level. -/
theorem partialCode_of_lt {old new : Nat} (frames f : Nat) (h : old < new) :
    partialCode frames f old new = if f < ((new - old) * frames + 2) / 3 then .blackward else .keep := by
  have hd : (old - new) + (new - old) = new - old := by omega
  simp only [partialCode, hd, ceilDiv_three, if_pos h]

/-- R69 for a pixel that moves to a lower level. -/
theorem partialCode_of_gt {old new : Nat} (frames f : Nat) (h : new < old) :
    partialCode frames f old new = if f < ((old - new) * frames + 2) / 3 then .whiteward else .keep := by
  have hd : (old - new) + (new - old) = old - new := by omega
  simp only [partialCode, hd, ceilDiv_three, if_neg (Nat.lt_asymm h)]

/-- R69 for a pixel that does not move: it is driven in no frame. -/
@[simp] theorem partialCode_self (frames f level : Nat) : partialCode frames f level level = .keep := by
  have hd : ((level - level) + (level - level)) * frames = 0 := by rw [Nat.sub_self, Nat.zero_mul]
  rw [partialCode, hd]
  exact if_neg (Nat.not_lt_zero f)

/-- R69 as one rule over the three cases of a pixel's change. -/
theorem partialCode_eq (frames f old new : Nat) :
    partialCode frames f old new
      = if old < new ∧ f < ((new - old) * frames + 2) / 3 then .blackward
        else if new < old ∧ f < ((old - new) * frames + 2) / 3 then .whiteward else .keep := by
  rcases Nat.lt_trichotomy old new with h | rfl | h
  · simp only [partialCode_of_lt frames f h, h, Nat.lt_asymm h, true_and, false_and, if_false]
  · simp only [partialCode_self, Nat.lt_irrefl, false_and, if_false]
  · simp only [partialCode_of_gt frames f h, h, Nat.lt_asymm h, true_and, false_and, if_false]

/-! ### The levels of a run of bytes -/

@[simp] theorem length_byteLevels (b : Byte) : (byteLevels b).length = 4 := rfl

theorem runLevels_cons (b : Byte) (bs : List Byte) : runLevels (b :: bs) = byteLevels b ++ runLevels bs :=
  List.flatMap_cons

/-- R1: pixel `k` of a byte is its bit pair `k`, the highest first. -/
theorem getElem?_byteLevels (b : Byte) {k : Nat} (hk : k < 4) :
    (byteLevels b)[k]? = some (b.toNat / 4 ^ (3 - k) % 4) := by
  match k, hk with
  | 0, _ => rfl
  | 1, _ => rfl
  | 2, _ => rfl
  | 3, _ => exact congrArg (fun n => some (n % 4)) (Nat.div_one b.toNat).symm

/-- Pixel `i` of a run is pixel `i % 4` of byte `i / 4`: past the first byte, the pixel four places on in the rest. -/
theorem getElem?_runLevels (bs : List Byte) (i : Nat) :
    (runLevels bs)[i]? = bs[i / 4]?.map fun b => b.toNat / 4 ^ (3 - i % 4) % 4 := by
  induction bs generalizing i with
  | nil => rfl
  | cons b bs ih =>
    rw [runLevels_cons]
    rcases Nat.lt_or_ge i 4 with hi | hi
    · rw [List.getElem?_append_left hi, getElem?_byteLevels b hi, Nat.div_eq_of_lt hi,
        Nat.mod_eq_of_lt hi]
      rfl
    · obtain ⟨n, rfl⟩ := Nat.exists_eq_add_of_le' hi
      rw [List.getElem?_append_right hi, length_byteLevels, Nat.add_sub_cancel, ih,
        Nat.add_div_right n (by decide), Nat.add_mod_right, List.getElem?_cons_succ]

/-! ### The codes of a row -/

theorem getElem?_rowCodes_part {pair : RowPair} {i old new : Nat} (frames f : Nat)
    (hold : (runLevels pair.shown)[i]? = some old) (hnew : (runLevels pair.stage)[i]? = some new) :
    (rowCodes .part frames f pair)[i]? = some (partialCode frames f old new) := by
  rw [rowCodes, List.getElem?_zipWith, hold, hnew]

theorem getElem?_rowCodes_full {pair : RowPair} {i new : Nat} (frames f : Nat)
    (hnew : (runLevels pair.stage)[i]? = some new) :
    (rowCodes .full frames f pair)[i]? = some (fullCode frames f new) := by
  rw [rowCodes, List.getElem?_map, hnew, Option.map_some]

/-- Settles O51: a row's code is its pixel's code, and a pixel is a bit pair of the run's byte. -/
theorem waveformsOfBothModes : Obligations.WaveformsOfBothModes := by
  refine ⟨fun frames f pair i old new hold hnew => ?_, fun frames f a r pair i new hnew ha hr => ?_,
    fun bs i b hb => ?_⟩
  · rw [getElem?_rowCodes_part frames f hold hnew, partialCode_eq]
  · subst hr ha
    rw [getElem?_rowCodes_full frames f hnew, fullCode, ceilDiv_three]
  · rw [getElem?_runLevels, hb, Option.map_some]

end Sys2Proof.Machine
end

section
/-! PROOFS of the statement about EPOCH_LEAD at a second event (R155). -/

namespace Sys2Proof.Machine

/-! ### What the lead test reads and writes

Beside the installed setup the lead test reads the clock, the length of the causes and the detail that EPOCH_LEAD has.
These are followed as one value, which every other test of a second and every walk keeps: none of them moves the clock,
and each of their latches is another cause's. -/

/-- The clock, the number of the causes, and EPOCH_LEAD's detail. -/
def Part.leadView (part : Part) : Clock × Nat × Option Nat :=
  (part.clock, part.unit.causes.length, part.unit.detail? .epochLead)

theorem Part.leadView_eq_iff (part : Part) (k : Clock) (n : Nat) (d : Option Nat) :
    part.leadView = (k, n, d)
      ↔ part.clock = k ∧ part.unit.causes.length = n ∧ part.unit.detail? .epochLead = d := by
  simp only [Part.leadView, Prod.mk.injEq]

theorem Part.leadView_congr {a b : Part} (hclock : a.clock = b.clock) (hcauses : a.unit.causes = b.unit.causes) :
    a.leadView = b.leadView := by
  rw [Part.leadView_eq_iff, hclock, hcauses, WindowUnit.detail?_congr hcauses]
  exact ⟨rfl, rfl, rfl⟩

@[simp] theorem Part.latch_clock (part : Part) (c : Cause) (d : Nat) : (part.latch c d).clock = part.clock := by
  rw [Part.latch_eq]

/-- A latch of another cause (R167). -/
theorem Part.leadView_latch (part : Part) {c : Cause} (hc : c ≠ .epochLead) (d : Nat) :
    (part.latch c d).leadView = part.leadView := by
  rw [Part.leadView_eq_iff, Part.latch_clock, Part.latch_causes_length, Part.detail_latch_ne part d hc.symm]
  exact ⟨rfl, rfl, rfl⟩

theorem Part.leadView_foldl {α : Type} {f : Part → α → Part} (hf : ∀ part x, (f part x).leadView = part.leadView)
    (xs : List α) (part : Part) : (xs.foldl f part).leadView = part.leadView := by
  induction xs generalizing part with
  | nil => rfl
  | cons x xs ih => rw [List.foldl_cons, ih, hf]

theorem Part.leadView_mapTiles (part : Part) (g : Setup) (p : PanelNo) (r : Rect) (f : Nat → Nat → Tile → Tile) :
    (part.mapTiles g p r f).leadView = part.leadView := by
  rw [Part.mapTiles_eq]
  rfl

theorem Part.leadView_followTiles (part : Part) : part.followTiles.leadView = part.leadView := rfl

theorem Part.leadView_updateZone (part : Part) (n : Nat) (f : Zone → Zone) :
    (part.updateZone n f).leadView = part.leadView := rfl

/-! ### Requests, enqueues and the HELD retry (R31, R32, R39 to R45) -/

theorem Part.leadView_mergeRequest (part : Part) (slot : Nat) (j : Job) (rect : Rect) (cls : RefreshClass)
    (full : Bool) : (part.mergeRequest slot j rect cls full).leadView = part.leadView := by
  unfold Part.mergeRequest
  dsimp only
  split <;> rfl

theorem Part.leadView_requestZone {part placed : Part} {z : ZoneCfg} {rect : Rect} {cls : RefreshClass} {o : Origin}
    {full : Bool} (h : part.requestZone z rect cls o full = some placed) : placed.leadView = part.leadView := by
  unfold Part.requestZone at h
  split at h
  · split at h
    · cases h; exact Part.leadView_mergeRequest ..
    · cases h
  · split at h
    · cases h; rfl
    · cases h

theorem Part.leadView_requestPanel {part placed : Part} {g : Setup} {p : PanelNo} {c : PanelCfg} {cls : RefreshClass}
    {o : Origin} {full : Bool} (h : part.requestPanel g p c cls o full = some placed) :
    placed.leadView = part.leadView := by
  unfold Part.requestPanel at h
  split at h
  · cases h
    rw [Part.leadView_followTiles, Part.leadView_mapTiles, Part.leadView_mergeRequest]
  · split at h
    · cases h
      rw [Part.leadView_followTiles, Part.leadView_mapTiles]
      rfl
    · cases h

theorem Part.leadView_enqueue (part : Part) (g : Setup) (z : ZoneCfg) (o : Origin) :
    (part.enqueue g z o).leadView = part.leadView := by
  unfold Part.enqueue
  split
  · dsimp only
    split
    · next h =>
      rw [Part.leadView_updateZone, Part.takeUpZone, Part.leadView_followTiles, Part.leadView_mapTiles,
        Part.leadView_requestZone h, Part.leadView_updateZone]
    · rw [Part.leadView_latch _ (by decide), Part.leadView_updateZone, Part.leadView_updateZone]
  · rfl

theorem Part.leadView_retryHeld (g : Setup) (zs : List ZoneCfg) (part : Part) :
    (part.retryHeld g zs).leadView = part.leadView := by
  induction zs generalizing part with
  | nil => rfl
  | cons z zs ih =>
    unfold Part.retryHeld
    split
    · exact ih part
    · split
      · exact ih part
      · dsimp only
        split
        · exact Part.leadView_enqueue ..
        · rw [ih, Part.leadView_enqueue]

/-! ### Walks (R46 to R49, R103) -/

theorem Part.leadView_withdraw (part : Part) (x : Nat × Job) : (part.withdraw x).leadView = part.leadView := by
  unfold Part.withdraw
  split <;> rfl

theorem Part.leadView_runZone (part : Part) (slot : Nat) (j : Job) : (part.runZone slot j).leadView = part.leadView := by
  unfold Part.runZone
  split <;> rfl

theorem Part.leadView_admitJob (part : Part) (g : Setup) (c : PanelCfg) (slot : Nat) (j : Job) (mode : DriveMode)
    (band cost : Nat) : (part.admitJob g c slot j mode band cost).leadView = part.leadView := by
  unfold Part.admitJob
  extract_lets taken carried running placed admitted active started
  have hadmitted : admitted.leadView = part.leadView := Part.leadView_foldl Part.leadView_withdraw taken part
  have hactive : active.leadView = admitted.leadView := by
    rw [Part.leadView_followTiles, Part.leadView_mapTiles]
  have hstarted : started.leadView = active.leadView := Part.leadView_runZone active slot j
  split
  · rw [hstarted, hactive, hadmitted]
  · exact hstarted.trans (hactive.trans hadmitted)

theorem Part.leadView_walkFrom (g : Setup) (queue : List (Nat × Job)) (part : Part) :
    (part.walkFrom g queue).leadView = part.leadView := by
  induction queue generalizing part with
  | nil => rfl
  | cons x rest ih =>
    obtain ⟨slot, q⟩ := x
    unfold Part.walkFrom
    split
    · exact ih part
    · split
      · split
        · exact ih part
        · dsimp only
          split
          · rw [ih, Part.leadView_admitJob]
          · rfl
      · exact ih part

theorem Part.leadView_admitAll (part : Part) (g : Setup) (queue : List (Nat × Job)) :
    (part.admitAll g queue).leadView = part.leadView := by
  unfold Part.admitAll
  dsimp only
  split
  · rw [Part.slotsFreed, Part.leadView_retryHeld, Part.leadView_walkFrom]
  · exact Part.leadView_walkFrom ..

theorem Part.leadView_starvedAt (g : Setup) (part : Part) (x : Nat × Job) :
    (Part.starvedAt g part x).leadView = part.leadView := by
  unfold Part.starvedAt
  split
  · rfl
  · split
    · exact Part.leadView_latch _ (by decide) _
    · rfl

theorem Part.leadView_starvedTest (part : Part) (g : Setup) : (part.starvedTest g).leadView = part.leadView :=
  Part.leadView_foldl (Part.leadView_starvedAt g) _ _

theorem Part.leadView_walk (part : Part) : part.walk.leadView = part.leadView := by
  unfold Part.walk
  split
  · rfl
  · dsimp only
    rw [Part.leadView_starvedTest]
    split
    · exact Part.leadView_admitAll ..
    · rfl

theorem Part.leadView_takeWalks (n : Nat) (part : Part) : (part.takeWalks n).leadView = part.leadView := by
  induction n generalizing part with
  | zero => rfl
  | succ n ih =>
    unfold Part.takeWalks
    split
    · rw [ih, Part.leadView_walk]
    · rfl

/-- What every step ends with keeps the clock and EPOCH_LEAD. -/
theorem State.leadView_finish (before effect : State) :
    (State.finish before effect).part.leadView = effect.part.leadView := by
  have hwalks := Part.leadView_takeWalks 8 effect.part
  rw [← hwalks]
  exact Part.leadView_congr
    ((State.finish_agreesOutsideWalk before effect).clock.trans (congrArg Prod.fst hwalks).symm)
    (State.finish_agreesOutsidePath_walks before effect).causes

/-! ### The other tests of a second -/

theorem Part.leadView_epochAt (g : Setup) (part : Part) (z : ZoneCfg) : (part.epochAt g z).leadView = part.leadView := by
  unfold Part.epochAt
  split
  · split
    · exact Part.leadView_enqueue ..
    · rfl
  · rfl

theorem Part.leadView_quietEndAt (g : Setup) (part : Part) (z : ZoneCfg) :
    (part.quietEndAt g z).leadView = part.leadView := by
  unfold Part.quietEndAt
  split
  · exact Part.leadView_enqueue ..
  · rfl

theorem Part.leadView_holdAt (g : Setup) (part : Part) (z : ZoneCfg) : (part.holdAt g z).leadView = part.leadView := by
  unfold Part.holdAt
  split
  · split
    · exact Part.leadView_enqueue ..
    · rfl
  · rfl

theorem Part.leadView_requestSweep (part : Part) (g : Setup) (p : PanelNo) (c : PanelCfg) (o : Origin) :
    (part.requestSweep g p c o).leadView = part.leadView := by
  unfold Part.requestSweep
  split
  · next h => exact Part.leadView_requestPanel h
  · exact Part.leadView_latch _ (by decide) _

theorem Part.leadView_sweepTimeAt (g : Setup) (part : Part) (p : PanelNo) :
    (part.sweepTimeAt g p).leadView = part.leadView := by
  unfold Part.sweepTimeAt
  split
  · rfl
  · split
    · exact Part.leadView_requestSweep ..
    · rfl

theorem Part.leadView_surplusAt (g : Setup) (part : Part) (p : PanelNo) :
    (part.surplusAt g p).leadView = part.leadView := by
  unfold Part.surplusAt
  split
  · rfl
  · split
    · exact Part.leadView_requestSweep ..
    · rfl

theorem Part.leadView_surplusTest (part : Part) (g : Setup) : (part.surplusTest g).leadView = part.leadView :=
  Part.leadView_foldl (Part.leadView_surplusAt g) _ _

theorem Part.leadView_pollAt (g : Setup) (part : Part) (p : PanelNo) : (part.pollAt g p).leadView = part.leadView := by
  obtain ⟨_, _, h⟩ := Part.pollAt_frame g part p
  rw [h]
  rfl

theorem Part.leadView_staleAt (g : Setup) (part : Part) (p : PanelNo) : (part.staleAt g p).leadView = part.leadView := by
  unfold Part.staleAt
  split
  · split
    · exact Part.leadView_latch _ (by decide) _
    · rfl
  · rfl

theorem Part.leadView_levelChanged (part : Part) (g : Setup) (before : PolicyLevel) :
    (part.levelChanged g before).leadView = part.leadView := by
  unfold Part.levelChanged
  split
  · rfl
  · extract_lets noted
    have hnoted : noted.leadView = part.leadView := Part.leadView_latch part (by decide) _
    split
    · rw [Part.leadView_surplusTest, hnoted]
    · exact hnoted

theorem Part.leadView_takeSample (part : Part) (storage solar : Int) :
    (part.takeSample storage solar).leadView = part.leadView := by
  unfold Part.takeSample
  dsimp only
  split
  · rfl
  · exact Part.leadView_levelChanged ..

/-- Of the tests of a second the lead test alone touches EPOCH_LEAD. -/
theorem Part.leadView_secondTaskWith (g : Setup) (storage solar : Int) (part : Part) {t : SecondTask}
    (ht : t ≠ .epochLead) : (Part.secondTaskWith g storage solar part t).leadView = part.leadView := by
  cases t with
  | epochLead => exact absurd rfl ht
  | epochZones =>
    simp only [Part.secondTaskWith, Part.epochZones]
    split
    · exact Part.leadView_foldl (Part.leadView_epochAt g) _ _
    · rfl
  | epochSweeps =>
    simp only [Part.secondTaskWith, Part.epochSweeps]
    split
    · exact Part.leadView_surplusTest ..
    · rfl
  | quietEnd =>
    simp only [Part.secondTaskWith, Part.quietEndTest]
    split
    · exact Part.leadView_foldl (Part.leadView_quietEndAt g) _ _
    · rfl
  | sweepTime =>
    simp only [Part.secondTaskWith, Part.sweepTimeTest]
    split
    · exact Part.leadView_foldl (Part.leadView_sweepTimeAt g) _ _
    · rfl
  | maximumHold => exact Part.leadView_foldl (Part.leadView_holdAt g) _ _
  | polls => exact Part.leadView_foldl (Part.leadView_pollAt g) _ _
  | staleness => exact Part.leadView_foldl (Part.leadView_staleAt g) _ _
  | sample => exact Part.leadView_takeSample ..
  | starved => exact Part.leadView_starvedTest ..
  | walk =>
    simp only [Part.secondTaskWith, Part.walkIfOwed]
    split
    · exact Part.leadView_walk part
    · rfl

/-! ### The lead test (R155) -/

/-- The boundary that second of day `i` announces, with R155's arithmetic written out. -/
theorem GlobalSettings.leadOf?_eq (g : GlobalSettings) (i : Nat) :
    g.leadOf? i
      = if 0 < g.epochLead
            ∧ (((i + g.epochLead) % 86400 : Nat) - (g.epochOffset : Int)) % (g.epochPeriod : Int) = 0
          then some ((i + g.epochLead) % 86400) else none := by
  simp only [GlobalSettings.leadOf?, GlobalSettings.boundary, Config.daySeconds, beq_iff_eq]

/-- The lead test latches the boundary that the second announces, if it announces one, and a detail that EPOCH_LEAD has
stays. -/
theorem Part.leadView_epochLeadTest {part : Part} (g : Setup) {k : Clock} {d : Option Nat}
    (h : part.leadView = (k, 13, d)) :
    (part.epochLeadTest g).leadView = (k, 13, d.or (g.globals.leadOf? k.secondOfDay)) := by
  obtain ⟨rfl, hlength, rfl⟩ := (Part.leadView_eq_iff ..).1 h
  unfold Part.epochLeadTest
  cases g.globals.leadOf? part.clock.secondOfDay with
  | none => rw [Option.or_none]; exact h
  | some boundary =>
    rw [Part.leadView_eq_iff, Option.or_some]
    exact ⟨Part.latch_clock .., (Part.latch_causes_length ..).trans hlength, Part.detail_latch _ _ _ hlength⟩

/-! ### The tests of a second in their order (R152) -/

/-- A sequence of tests leaves of EPOCH_LEAD what the lead test leaves, wherever and however often it stands in it. -/
theorem Part.leadView_secondTasks {g : Setup} (storage solar : Int) (ts : List SecondTask) {part : Part} {k : Clock}
    {d : Option Nat} (hg : part.setup = some g) (h : part.leadView = (k, 13, d)) :
    (ts.foldl (Part.secondTask storage solar) part).leadView
      = (k, 13, if .epochLead ∈ ts then d.or (g.globals.leadOf? k.secondOfDay) else d) := by
  induction ts generalizing part d with
  | nil => exact h
  | cons t ts ih =>
    have htask : Part.secondTask storage solar part t = Part.secondTaskWith g storage solar part t := by
      unfold Part.secondTask
      rw [hg]
    have hsetup := (Part.secondTaskWith_setup g storage solar part t).trans hg
    rw [List.foldl_cons, htask]
    by_cases ht : t = .epochLead
    · subst ht
      rw [ih hsetup (Part.leadView_epochLeadTest g h), Option.or_assoc, Option.or_self, ite_self,
        if_pos List.mem_cons_self]
    · rw [ih hsetup ((Part.leadView_secondTaskWith g storage solar part ht).trans h)]
      simp only [List.mem_cons, Ne.symm ht, false_or]

theorem mem_dedupTasks {t : SecondTask} {seen order : List SecondTask} (hseen : t ∉ seen) (h : t ∈ order) :
    t ∈ dedupTasks seen order := by
  induction order generalizing seen with
  | nil => cases h
  | cons x xs ih =>
    unfold dedupTasks
    by_cases hx : t = x
    · subst hx
      split
      · exact List.mem_cons_self
      · rw [if_neg (by rwa [List.contains_iff_mem])]
        exact List.mem_cons_self
    · have hxs := List.mem_of_ne_of_mem hx h
      split
      · exact List.mem_cons_of_mem _ (ih hseen hxs)
      · split
        · exact ih hseen hxs
        · exact List.mem_cons_of_mem _ (ih (List.not_mem_cons_of_ne_of_not_mem hx hseen) hxs)

/-- Every test is made at a second, whether the sender's order names it or not. -/
theorem mem_secondTasks {t : SecondTask} (ht : t ∈ allSecondTasks) (order : List SecondTask) :
    t ∈ secondTasks order := by
  rw [secondTasks, List.mem_append, List.mem_filter]
  by_cases h : t ∈ order
  · exact .inl (mem_dedupTasks List.not_mem_nil h)
  · exact .inr ⟨ht, by simpa using h⟩

/-- The second event (R151, R152, R155). -/
theorem Part.leadView_secondEvent {part : Part} {g : Setup} (storage solar : Int) (order : List SecondTask)
    (hg : part.setup = some g) (hlength : part.unit.causes.length = 13) :
    (part.secondEvent storage solar order).leadView
      = (part.clock.secondEnd, 13, (part.unit.detail? .epochLead).or (g.globals.leadOf? part.clock.nextSecond)) := by
  have hcounted : ({ part with clock := part.clock.secondEnd } : Part).leadView
      = (part.clock.secondEnd, 13, part.unit.detail? .epochLead) :=
    (Part.leadView_eq_iff ..).2 ⟨rfl, hlength, rfl⟩
  have htests := Part.leadView_secondTasks storage solar (secondTasks order)
    (part := { part with clock := part.clock.secondEnd }) hg hcounted
  rwa [if_pos (mem_secondTasks (by decide) order)] at htests

theorem Clock.nextSecond_eq (k : Clock) :
    k.nextSecond = if k.secondOfDay = 86399 then 0 else k.secondOfDay + 1 := by
  simp only [Clock.nextSecond, Config.daySeconds, Nat.reduceEqDiff]

theorem exec_second {s : State} (hs : s.Ready) (hdue : s.part.clock.secondDue = true) (storage solar : Int)
    (order : List SecondTask) :
    exec (.second storage solar order) s
      = .next (State.finish s { s with part := s.part.secondEvent storage solar order }) :=
  State.partEvent_enabled hs.1 hdue fun x => x.secondEvent storage solar order

/-- Settles O48: of a second's tests and walks the lead test alone latches EPOCH_LEAD, and every second makes it. -/
theorem epochLeadLatches : Obligations.EpochLeadLatches := by
  intro s g storage solar order reached boundary hs hdue hg hlength hreached hboundary
  rw [← Clock.nextSecond_eq] at hreached
  have hview := (State.leadView_finish s { s with part := s.part.secondEvent storage solar order }).trans
    (Part.leadView_secondEvent storage solar order hg hlength)
  obtain ⟨hclock, -, hdetail⟩ := (Part.leadView_eq_iff ..).1 hview
  refine ⟨_, exec_second hs hdue storage solar order, ?_, ?_⟩
  · rw [hclock, hreached]
    rfl
  · rw [hdetail, GlobalSettings.leadOf?_eq, ← hreached, ← hboundary]
    split
    · exact Option.or_some ..
    · exact Option.or_none ..

end Sys2Proof.Machine
end

section
/-! PROOFS. What a command may do to the records of which the invariants speak, said once: every command is made of the
updates of `Part.Update`, and each invariant of the part is kept by every one of them. -/

namespace Sys2Proof.Machine

/-! ### The updates -/

/-- The records of the part of which the invariants speak. -/
def Part.ledger (a : Part) :
    Option Setup × List Tile × List Zone × List (Option Job) × Nat × Nat × Clock × Energy × Nat × BitVec 16 :=
  (a.setup, a.tiles, a.zones, a.pool, a.runningCount, a.committed, a.clock, a.energy, a.unit.causes.length,
    a.unit.ordersTaken)

theorem Part.ledger_eq_iff (a b : Part) :
    a.ledger = b.ledger ↔ a.setup = b.setup ∧ a.tiles = b.tiles ∧ a.zones = b.zones ∧ a.pool = b.pool
      ∧ a.runningCount = b.runningCount ∧ a.committed = b.committed ∧ a.clock = b.clock ∧ a.energy = b.energy
      ∧ a.unit.causes.length = b.unit.causes.length ∧ a.unit.ordersTaken = b.unit.ordersTaken := by
  simp only [Part.ledger, Prod.mk.injEq]

/-- A zone's record `y` keeps the figures of `z`: its index, DIRTY count and dirty-since, and HELD is as it was, clear, or set
while the zone is dirty. -/
def Zone.Keeps (y z : Zone) : Prop :=
  y.index = z.index ∧ y.dirtyCount = z.dirtyCount ∧ y.dirtySince = z.dirtySince
    ∧ (y.held = z.held ∨ y.held = none ∨ 0 < z.dirtyCount)

/-- One update of the part: the parts that a command's effect is made of. -/
inductive Part.Update (a : Part) : Part → Prop
  /-- nothing of the ledger changes -/
  | inert {b : Part} (h : b.ledger = a.ledger) : Part.Update a b
  /-- the zone records change apart from the figures that follow the tiles -/
  | zoned (f : Zone → Zone) (h : a.ZonesInStep → ∀ z ∈ a.zones, (f z).Keeps z) :
      Part.Update a { a with zones := a.zones.map f }
  /-- the tiles of a rectangle change, and every zone's DIRTY count follows -/
  | tiled (g : Setup) (p : PanelNo) (r : Rect) (f : Nat → Nat → Tile → Tile)
      (h : ∀ tx ty t, a.tileAt? g p tx ty = some t → r.contains tx ty = true → t.Sound → (f tx ty t).Sound) :
      Part.Update a (a.mapTiles g p r f).followTiles
  /-- a tile changes that is no DIRTY one before or after, or stays DIRTY -/
  | retiled (g : Setup) (p : PanelNo) (tx ty : Nat) (f : Tile → Tile)
      (h : ∀ t, a.tileAt? g p tx ty = some t → t.Sound →
        (f t).Sound ∧ (f t).zone = t.zone ∧ ((f t).state = .dirty ↔ t.state = .dirty)) :
      Part.Update a (a.setTile g p tx ty f)
  /-- a QUEUED job takes a free slot -/
  | placed (slot : Nat) (p : PanelNo) (scope : JobScope) (rect : Rect) (cls : RefreshClass) (o : Origin) (full : Bool)
      (h : a.job? slot = none) : Part.Update a (a.placeJob slot p scope rect cls o full)
  /-- a job changes but for being QUEUED or not and its cost -/
  | rewritten (slot : Nat) (j k : Job) (h : a.job? slot = some j) (hs : k.state = .queued ↔ j.state = .queued)
      (hr : k.running.map RunFields.cost = j.running.map RunFields.cost) : Part.Update a (a.setJob slot k)
  /-- a QUEUED job leaves its slot -/
  | withdrawn (slot : Nat) (j : Job) (h : a.job? slot = some j) (hq : j.state = .queued) :
      Part.Update a (a.freeSlot slot)
  /-- a QUEUED job becomes a running one -/
  | admitted (slot : Nat) (j k : Job) (r : RunFields) (h : a.job? slot = some j) (hq : j.state = .queued)
      (hs : k.state ≠ .queued) (hr : k.running = some r) :
      Part.Update a { a.setJob slot k with committed := a.committed + r.cost, runningCount := a.runningCount + 1 }
  /-- a running job's cost changes -/
  | charged (slot : Nat) (j k : Job) (r r' : RunFields) (h : a.job? slot = some j) (hr : j.running = some r)
      (hs : k.state ≠ .queued) (hr' : k.running = some r') :
      Part.Update a { a.setJob slot k with committed := a.committed - r.cost + r'.cost }
  /-- a running job goes back to QUEUED -/
  | returned (slot : Nat) (j k : Job) (r : RunFields) (h : a.job? slot = some j) (hr : j.running = some r)
      (hs : k.state = .queued) (hn : k.running = none) :
      Part.Update a { a.setJob slot k with committed := a.committed - r.cost, runningCount := a.runningCount - 1 }
  /-- a running job ends -/
  | ended (slot : Nat) (j : Job) (r : RunFields) (h : a.job? slot = some j) (hr : j.running = some r) :
      Part.Update a (a.endJob slot j r)
  /-- the clock changes apart from monotonic seconds -/
  | clocked (k : Clock) (hm : k.mono = a.clock.mono) (h : a.clock.InRange → k.InRange) :
      Part.Update a { a with clock := k }
  /-- the Energy Monitor's figures change -/
  | sampled (e : Energy) (h : a.energy.InRange → e.InRange) : Part.Update a { a with energy := e }

/-- A part is reached from another by updates. -/
inductive Part.Updates (a : Part) : Part → Prop
  | refl : Part.Updates a a
  | tail {b c : Part} (h : Part.Updates a b) (u : Part.Update b c) : Part.Updates a c

/-- A setup is installed: the queue is emptied and the records are built anew (R14, R60). -/
structure Part.Installed (a b : Part) : Prop where
  clock : b.clock = a.clock
  causes : b.unit.causes.length = a.unit.causes.length
  energy : a.energy.InRange → b.energy.InRange
  pool : b.PoolSound
  tiles : a.TilesSound → b.TilesSound
  zones : b.ZonesInStep

/-- What a command does to the part: updates, before which an APPLY may install a setup, or after which an order is noted. -/
inductive Part.Course (a : Part) : Part → Prop
  | updates {b : Part} (h : Part.Updates a b) : Part.Course a b
  | installed {m b : Part} (hi : Part.Installed a m) (h : Part.Updates m b) : Part.Course a b
  | noted {m b : Part} (code : Byte) (r : OrderResult) (h : Part.Updates a m)
      (h' : Part.Updates (m.noteOrder code r) b) : Part.Course a b

/-! ### The pool -/

theorem Part.job?_eq_getElem? {a : Part} {slot : Nat} {j : Job} (h : a.job? slot = some j) :
    ∃ hl : slot < a.pool.length, a.pool[slot] = some j := by
  have h' := Part.job?_eq_some.1 h
  exact List.getElem?_eq_some_iff.1 h'

/-- A slot counts as running where its job has admitted fields. -/
def slotRuns (x : Option Job) : Bool := (x.bind (·.running)).isSome

@[simp] theorem slotCost_none : slotCost none = 0 := rfl

theorem slotCost_some (j : Job) : slotCost (some j) = (j.running.map RunFields.cost).getD 0 := by
  cases h : j.running <;> simp [slotCost, h]

@[simp] theorem slotRuns_none : slotRuns none = false := rfl

@[simp] theorem slotRuns_some (j : Job) : slotRuns (some j) = j.running.isSome := rfl

theorem sum_map_set {α : Type} (f : α → Nat) (l : List α) (i : Nat) (hi : i < l.length) (x : α) :
    ((l.set i x).map f).sum + f l[i] = (l.map f).sum + f x := by
  induction l generalizing i with
  | nil => exact absurd hi (Nat.not_lt_zero _)
  | cons y ys ih =>
    cases i with
    | zero => simp only [List.set_cons_zero, List.map_cons, List.sum_cons, List.getElem_cons_zero]; omega
    | succ i =>
      have := ih i (Nat.lt_of_succ_lt_succ hi)
      simp only [List.set_cons_succ, List.map_cons, List.sum_cons, List.getElem_cons_succ]
      omega

theorem countP_set_add {α : Type} (f : α → Bool) (l : List α) (i : Nat) (hi : i < l.length) (x : α) :
    (l.set i x).countP f + (if f l[i] then 1 else 0) = l.countP f + if f x then 1 else 0 := by
  induction l generalizing i with
  | nil => exact absurd hi (Nat.not_lt_zero _)
  | cons y ys ih =>
    cases i with
    | zero => simp only [List.set_cons_zero, List.countP_cons, List.getElem_cons_zero]; omega
    | succ i =>
      have := ih i (Nat.lt_of_succ_lt_succ hi)
      simp only [List.set_cons_succ, List.countP_cons, List.getElem_cons_succ]
      omega

/-- What replacing a slot's content does to the pool's two sums. -/
theorem pool_set_sums {pool : List (Option Job)} {slot : Nat} (hl : slot < pool.length) (x : Option Job) :
    ((pool.set slot x).map slotCost).sum + slotCost pool[slot] = (pool.map slotCost).sum + slotCost x
      ∧ (pool.set slot x).countP slotRuns + (if slotRuns pool[slot] then 1 else 0)
        = pool.countP slotRuns + if slotRuns x then 1 else 0 :=
  ⟨sum_map_set slotCost pool slot hl x, countP_set_add slotRuns pool slot hl x⟩

theorem Part.poolSound_iff (a : Part) :
    a.PoolSound ↔ (∀ j, some j ∈ a.pool → (j.state = .queued ↔ j.running = none))
      ∧ a.committed = (a.pool.map slotCost).sum ∧ a.runningCount = a.pool.countP slotRuns := Iff.rfl

theorem Part.PoolSound.congr {a b : Part} (h : a.PoolSound) (hp : b.pool = a.pool) (hc : b.committed = a.committed)
    (hn : b.runningCount = a.runningCount) : b.PoolSound := by
  rw [Part.poolSound_iff] at h ⊢
  rwa [hp, hc, hn]

theorem mem_pool_set {pool : List (Option Job)} {slot : Nat} {x : Option Job} {j : Job}
    (h : some j ∈ pool.set slot x) : some j ∈ pool ∨ x = some j :=
  (List.mem_or_eq_of_mem_set h).imp_right Eq.symm

/-- A slot's content replaced, with K and the running count moved as its cost and its running do. -/
theorem Part.PoolSound.replace {a b : Part} (h : a.PoolSound) {slot : Nat} {x : Option Job}
    (hp : b.pool = a.pool.set slot x) (hx : ∀ j, x = some j → (j.state = .queued ↔ j.running = none))
    (hin : ∀ hl : slot < a.pool.length,
      b.committed + slotCost a.pool[slot] = a.committed + slotCost x
        ∧ b.runningCount + (if slotRuns a.pool[slot] then 1 else 0) = a.runningCount + if slotRuns x then 1 else 0)
    (hout : a.pool.length ≤ slot → b.committed = a.committed ∧ b.runningCount = a.runningCount) : b.PoolSound := by
  rw [Part.poolSound_iff] at h ⊢
  obtain ⟨hq, hk, hn⟩ := h
  refine ⟨fun j hj => ?_, ?_⟩
  · rw [hp] at hj
    exact (mem_pool_set hj).elim (hq j) (hx j)
  · rcases Nat.lt_or_ge slot a.pool.length with hl | hl
    · obtain ⟨hck, hrn⟩ := hin hl
      obtain ⟨hs, hc⟩ := pool_set_sums hl x
      rw [hp]
      omega
    · rw [hp, List.set_eq_of_length_le hl]
      exact ⟨(hout hl).1.trans hk, (hout hl).2.trans hn⟩

/-- The pool's invariant of one job, by its slot. -/
theorem Part.PoolSound.job {a : Part} (h : a.PoolSound) {slot : Nat} {j : Job} (hj : a.job? slot = some j) :
    j.state = .queued ↔ j.running = none :=
  h.1 j (Part.mem_of_job? hj)

/-- A running job's cost lies within K, and the running count is above 0. -/
theorem Part.PoolSound.cost_le {a : Part} (h : a.PoolSound) {slot : Nat} {j : Job} {r : RunFields}
    (hj : a.job? slot = some j) (hr : j.running = some r) : r.cost ≤ a.committed ∧ 0 < a.runningCount := by
  obtain ⟨-, hk, hn⟩ := (Part.poolSound_iff a).1 h
  obtain ⟨hlt, hx⟩ := Part.job?_eq_getElem? hj
  obtain ⟨hsum, hcount⟩ := pool_set_sums hlt none
  simp only [hx, slotCost_some, slotRuns_some, hr, Option.map_some, Option.getD_some, Option.isSome_some, if_true,
    slotCost_none, slotRuns_none, Bool.false_eq_true, if_false] at hsum hcount
  omega

theorem Part.Update.poolSound {a b : Part} (u : Part.Update a b) (h : a.PoolSound) : b.PoolSound := by
  cases u with
  | inert hl =>
    obtain ⟨-, -, -, hp, hn, hc, -⟩ := (Part.ledger_eq_iff _ _).1 hl
    exact h.congr hp hc hn
  | zoned | clocked | sampled => exact h
  | tiled g p r f => rw [Part.mapTiles_eq]; exact h
  | retiled g p tx ty f => rw [Part.setTile, Part.mapTiles_eq]; exact h
  | placed slot p scope rect cls o full hfree =>
    refine h.replace rfl (fun j hj => ?_) (fun hl => ?_) fun _ => ⟨rfl, rfl⟩
    · cases hj; simp
    · have hnone : a.pool[slot] = none := by
        cases hx : a.pool[slot] with
        | none => rfl
        | some j => rw [Part.job?_eq_some.2 (List.getElem?_eq_some_iff.2 ⟨hl, hx⟩)] at hfree; cases hfree
      rw [hnone]
      exact ⟨rfl, rfl⟩
  | rewritten slot j k hj hs hr =>
    obtain ⟨_, hx⟩ := Part.job?_eq_getElem? hj
    have hnone : k.running = none ↔ j.running = none := by
      rw [← Option.map_eq_none_iff (f := RunFields.cost), hr, Option.map_eq_none_iff]
    have hsome : k.running.isSome = j.running.isSome := by
      rw [← Option.isSome_map (f := RunFields.cost), hr, Option.isSome_map]
    refine h.replace rfl (fun q hq => ?_) (fun hl => ?_) fun _ => ⟨rfl, rfl⟩
    · cases hq
      rw [hs, h.job hj, hnone]
    · simp [hx, slotCost_some, hr, hsome]
  | withdrawn slot j hj hq =>
    obtain ⟨_, hx⟩ := Part.job?_eq_getElem? hj
    have hn := (h.job hj).1 hq
    refine h.replace rfl (fun q hq => by cases hq) (fun hl => ?_) fun _ => ⟨rfl, rfl⟩
    simp [hx, slotCost_some, hn]
  | admitted slot j k r hj hq hs hr =>
    obtain ⟨hlt, hx⟩ := Part.job?_eq_getElem? hj
    have hn := (h.job hj).1 hq
    refine h.replace rfl (fun q hq' => by cases hq'; simp [hs, hr]) (fun hl => ?_) fun hl => absurd hlt (Nat.not_lt.2 hl)
    simp [hx, slotCost_some, hn, hr]
  | charged slot j k r r' hj hr hs hr' =>
    obtain ⟨hlt, hx⟩ := Part.job?_eq_getElem? hj
    have hle := (h.cost_le hj hr).1
    refine h.replace rfl (fun q hq' => by cases hq'; simp [hs, hr']) (fun hl => ?_) fun hl => absurd hlt (Nat.not_lt.2 hl)
    simp only [hx, slotCost_some, slotRuns_some, hr, hr', Option.map_some, Option.getD_some, Option.isSome_some, if_true]
    exact ⟨by omega, rfl⟩
  | returned slot j k r hj hr hs hn =>
    obtain ⟨hlt, hx⟩ := Part.job?_eq_getElem? hj
    obtain ⟨hle, hpos⟩ := h.cost_le hj hr
    refine h.replace rfl (fun q hq' => by cases hq'; simp [hs, hn]) (fun hl => ?_) fun hl => absurd hlt (Nat.not_lt.2 hl)
    simp only [hx, slotCost_some, slotRuns_some, hr, hn, Option.map_some, Option.map_none, Option.getD_some,
      Option.getD_none, Option.isSome_some, Option.isSome_none, if_true, Bool.false_eq_true, if_false]
    exact ⟨by omega, by omega⟩
  | ended slot j r hj hr =>
    obtain ⟨hlt, hx⟩ := Part.job?_eq_getElem? hj
    obtain ⟨hle, hpos⟩ := h.cost_le hj hr
    refine h.replace rfl (fun q hq' => by cases hq') (fun hl => ?_) fun hl => absurd hlt (Nat.not_lt.2 hl)
    show a.committed - r.cost + _ = _ ∧ a.runningCount - 1 + _ = _
    simp only [hx, slotCost_some, slotRuns_some, hr, Option.map_some, Option.getD_some, Option.isSome_some, if_true,
      slotCost_none, slotRuns_none, Bool.false_eq_true, if_false]
    exact ⟨by omega, by omega⟩

/-! ### The tiles and the zones -/

/-- Coordinates within a panel's tiles from a record's place (R7). -/
theorem coords_of_index {cols rows k : Nat} (h : k < cols * rows) :
    k % cols < cols ∧ k / cols < rows ∧ k / cols * cols + k % cols = k := by
  have hc : 0 < cols := Nat.pos_of_ne_zero fun h0 => by simp [h0] at h
  exact ⟨Nat.mod_lt _ hc, Nat.div_lt_of_lt_mul h, Nat.div_add_mod' k cols⟩

/-- A record that `mapTiles` changes is the one of a tile of the rectangle. -/
theorem Part.tileAt?_of_place {a : Part} {g : Setup} {p : PanelNo} {c : PanelCfg} (hc : g.panels.get p = some c)
    {k : Nat} {t : Tile} (ht : a.tiles[k]? = some t) (h1 : g.firstTile p ≤ k) (h2 : k < g.firstTile p + c.tileCount) :
    a.tileAt? g p ((k - g.firstTile p) % c.cols) ((k - g.firstTile p) / c.cols) = some t := by
  obtain ⟨hx, hy, hk⟩ := coords_of_index (cols := c.cols) (rows := c.rows) (k := k - g.firstTile p)
    (by unfold PanelCfg.tileCount at h2; omega)
  have hi : g.firstTile p + (k - g.firstTile p) / c.cols * c.cols + (k - g.firstTile p) % c.cols = k := by omega
  simp only [Part.tileAt?, hc, hx, hy, and_self, if_true, Setup.tileIndex, hi, ht]

theorem Part.mem_mapTiles {a : Part} {g : Setup} {p : PanelNo} {r : Rect} {f : Nat → Nat → Tile → Tile} {t' : Tile}
    (h : t' ∈ (a.mapTiles g p r f).tiles) :
    t' ∈ a.tiles ∨ ∃ tx ty t, t ∈ a.tiles ∧ a.tileAt? g p tx ty = some t ∧ r.contains tx ty = true ∧ t' = f tx ty t := by
  unfold Part.mapTiles at h
  split at h
  · next c hc =>
    obtain ⟨k, hk⟩ := List.mem_iff_getElem?.1 h
    rw [mapTilesFrom_getElem?, Nat.zero_add] at hk
    obtain ⟨t, ht, hft⟩ := Option.map_eq_some_iff.1 hk
    have hmem := List.mem_of_getElem? ht
    split at hft
    · next hin => exact .inr ⟨_, _, t, hmem, Part.tileAt?_of_place hc ht hin.1 hin.2.1, hin.2.2, hft.symm⟩
    · exact .inl (hft ▸ hmem)
  · exact .inl h

theorem Part.mapTiles_length (a : Part) (g : Setup) (p : PanelNo) (r : Rect) (f : Nat → Nat → Tile → Tile) :
    (a.mapTiles g p r f).tiles.length = a.tiles.length := by
  unfold Part.mapTiles
  split
  · exact mapTilesFrom_length ..
  · rfl

theorem mapTilesFrom_countP (q : Tile → Bool) (first cols count : Nat) (r : Rect) (f : Nat → Nat → Tile → Tile)
    (ts : List Tile) (i : Nat)
    (h : ∀ k t, ts[k]? = some t → first ≤ i + k → i + k < first + count →
      r.contains ((i + k - first) % cols) ((i + k - first) / cols) = true →
      q (f ((i + k - first) % cols) ((i + k - first) / cols) t) = q t) :
    (mapTilesFrom first cols count r f i ts).countP q = ts.countP q := by
  induction ts generalizing i with
  | nil => rfl
  | cons t ts ih =>
    have hrest := ih (i + 1) fun k x hx h1 h2 hr => by
      have e : i + 1 + k = i + (k + 1) := by omega
      rw [e] at h1 h2 hr ⊢
      exact h (k + 1) x hx h1 h2 hr
    rw [mapTilesFrom, List.countP_cons, List.countP_cons, hrest]
    split
    · next hin =>
      have := h 0 t rfl hin.1 hin.2.1 hin.2.2
      rw [Nat.add_zero] at this
      rw [this]
    · rfl

/-- A change of tiles that keeps what is DIRTY keeps every zone's number of DIRTY tiles. -/
theorem Part.dirtyTiles_mapTiles (a : Part) (g : Setup) (p : PanelNo) (r : Rect) (f : Nat → Nat → Tile → Tile) (n : Nat)
    (h : ∀ tx ty t, t ∈ a.tiles → a.tileAt? g p tx ty = some t → r.contains tx ty = true →
      (f tx ty t).zone = t.zone ∧ ((f tx ty t).state = .dirty ↔ t.state = .dirty)) :
    dirtyTiles (a.mapTiles g p r f).tiles n = dirtyTiles a.tiles n := by
  unfold Part.mapTiles
  split
  · next c hc =>
    refine mapTilesFrom_countP _ _ _ _ _ _ _ _ fun k t ht h1 h2 hr => ?_
    rw [Nat.zero_add] at h1 h2 hr ⊢
    obtain ⟨hz, hs⟩ := h _ _ t (List.mem_of_getElem? ht) (Part.tileAt?_of_place hc ht h1 h2) hr
    rw [hz]
    congr 1
    exact Bool.eq_iff_iff.2 (by simpa only [beq_iff_eq] using hs)
  · rfl

theorem Rect.contains_single {tx ty x y : Nat} (h : (⟨tx, tx, ty, ty⟩ : Rect).contains x y = true) : x = tx ∧ y = ty := by
  simp only [Rect.contains, Bool.and_eq_true, decide_eq_true_eq] at h
  omega

/-- The tiles' and the zones' invariants together. -/
def Part.TableSound (a : Part) : Prop := a.TilesSound ∧ a.ZonesInStep

theorem Part.TableSound.congr {a b : Part} (h : a.TableSound) (hs : b.setup = a.setup) (ht : b.tiles = a.tiles)
    (hz : b.zones = a.zones) : b.TableSound := by
  unfold Part.TableSound Part.TilesSound Part.ZonesInStep at h ⊢
  rwa [hs, ht, hz]

theorem Part.zonesInStep_followTiles (a : Part) : a.followTiles.ZonesInStep := by
  intro z hz
  obtain ⟨y, -, rfl⟩ := List.mem_map.1 hz
  refine ⟨rfl, fun h0 => ?_⟩
  have h0' : dirtyTiles a.tiles y.index = 0 := h0
  simp only [Zone.follow, h0', if_true, and_self]

/-- The records that a change of tiles leaves are sound where those that it changes are. -/
theorem Part.TilesSound.mapTiles {a : Part} (h : a.TilesSound) {g : Setup} {p : PanelNo} {r : Rect}
    {f : Nat → Nat → Tile → Tile}
    (hf : ∀ tx ty t, a.tileAt? g p tx ty = some t → r.contains tx ty = true → t.Sound → (f tx ty t).Sound) :
    (a.mapTiles g p r f).TilesSound := by
  obtain ⟨hl, ht⟩ := h
  refine ⟨?_, fun t' ht' => ?_⟩
  · rw [Part.mapTiles_length, hl, Part.mapTiles_eq]
  · rcases Part.mem_mapTiles ht' with hm | ⟨tx, ty, t, hm, hat, hr, rfl⟩
    · exact ht t' hm
    · exact hf tx ty t hat hr (ht t hm)

theorem Part.Update.tableSound {a b : Part} (u : Part.Update a b) (h : a.TableSound) : b.TableSound := by
  obtain ⟨ht, hz⟩ := h
  cases u with
  | inert hl =>
    obtain ⟨hs, hti, hzo, -⟩ := (Part.ledger_eq_iff _ _).1 hl
    exact Part.TableSound.congr ⟨ht, hz⟩ hs hti hzo
  | placed | rewritten | withdrawn | admitted | charged | returned | ended | clocked | sampled => exact ⟨ht, hz⟩
  | zoned f hf =>
    refine ⟨ht, fun z hmem => ?_⟩
    obtain ⟨y, hy, rfl⟩ := List.mem_map.1 hmem
    obtain ⟨hi, hc, hd, hh⟩ := hf hz y hy
    obtain ⟨hcount, hzero⟩ := hz y hy
    refine ⟨?_, fun h0 => ?_⟩
    · rw [hc, hi]; exact hcount
    · rw [hc] at h0
      obtain ⟨hsince, hheld⟩ := hzero h0
      refine ⟨hd.trans hsince, ?_⟩
      rcases hh with e | e | e
      · exact e.trans hheld
      · exact e
      · omega
  | tiled g p r f hf => exact ⟨ht.mapTiles hf, Part.zonesInStep_followTiles _⟩
  | retiled g p tx ty f hf =>
    have hin : ∀ x y t, a.tileAt? g p x y = some t → (⟨tx, tx, ty, ty⟩ : Rect).contains x y = true → t.Sound →
        (f t).Sound ∧ (f t).zone = t.zone ∧ ((f t).state = .dirty ↔ t.state = .dirty) := fun x y t hat hr hs => by
      obtain ⟨rfl, rfl⟩ := Rect.contains_single hr
      exact hf t hat hs
    refine ⟨ht.mapTiles fun x y t hat hr hs => (hin x y t hat hr hs).1, fun z hmem => ?_⟩
    rw [Part.setTile, Part.mapTiles_zones] at hmem
    obtain ⟨hcount, hzero⟩ := hz z hmem
    refine ⟨hcount.trans (Part.dirtyTiles_mapTiles a g p _ _ z.index fun x y t hm hat hr => ?_).symm, hzero⟩
    exact (hin x y t hat hr (ht.2 t hm)).2

/-! ### The counts -/

/-- The counts and figures in range, and the 13 causes. -/
def Part.CountsSound (a : Part) : Prop :=
  a.clock.InRange ∧ a.energy.InRange ∧ a.unit.causes.length = 13

theorem Part.CountsSound.congr {a b : Part} (h : a.CountsSound) (hk : b.clock = a.clock) (he : b.energy = a.energy)
    (hn : b.unit.causes.length = a.unit.causes.length) : b.CountsSound := by
  unfold Part.CountsSound at h ⊢
  rwa [hk, he, hn]

theorem Part.Update.countsSound {a b : Part} (u : Part.Update a b) (h : a.CountsSound) : b.CountsSound := by
  obtain ⟨hclock, henergy, hcauses⟩ := h
  cases u with
  | inert hl =>
    obtain ⟨-, -, -, -, -, -, hk, he, hn, -⟩ := (Part.ledger_eq_iff _ _).1 hl
    exact Part.CountsSound.congr ⟨hclock, henergy, hcauses⟩ hk he hn
  | tiled g p r f => rw [Part.mapTiles_eq]; exact ⟨hclock, henergy, hcauses⟩
  | retiled g p tx ty f => rw [Part.setTile, Part.mapTiles_eq]; exact ⟨hclock, henergy, hcauses⟩
  | clocked k hm hk => exact ⟨hk hclock, henergy, hcauses⟩
  | sampled e he => exact ⟨hclock, he henergy, hcauses⟩
  | zoned | placed | rewritten | withdrawn | admitted | charged | returned | ended => exact ⟨hclock, henergy, hcauses⟩

theorem Part.Update.mono {a b : Part} (u : Part.Update a b) : b.clock.mono = a.clock.mono := by
  cases u with
  | inert hl => rw [((Part.ledger_eq_iff _ _).1 hl).2.2.2.2.2.2.1]
  | tiled g p r f => rw [Part.mapTiles_eq]; rfl
  | retiled g p tx ty f => rw [Part.setTile, Part.mapTiles_eq]
  | clocked k hm => exact hm
  | zoned | placed | rewritten | withdrawn | admitted | charged | returned | ended | sampled => rfl

theorem Part.Update.setup {a b : Part} (u : Part.Update a b) : b.setup = a.setup := by
  cases u with
  | inert hl => exact ((Part.ledger_eq_iff _ _).1 hl).1
  | tiled g p r f => rw [Part.mapTiles_eq]; rfl
  | retiled g p tx ty f => rw [Part.setTile, Part.mapTiles_eq]
  | zoned | placed | rewritten | withdrawn | admitted | charged | returned | ended | clocked | sampled => rfl

theorem Part.Installed.tableSound {a b : Part} (i : Part.Installed a b) (h : a.TableSound) : b.TableSound :=
  ⟨i.tiles h.1, i.zones⟩

theorem Part.Installed.countsSound {a b : Part} (i : Part.Installed a b) (h : a.CountsSound) : b.CountsSound :=
  ⟨i.clock ▸ h.1, i.energy h.2.1, i.causes.trans h.2.2⟩

/-! ### Sequences of updates -/

theorem Part.Updates.single {a b : Part} (u : Part.Update a b) : Part.Updates a b := .tail .refl u

theorem Part.Updates.trans {a b c : Part} (h : Part.Updates a b) (h' : Part.Updates b c) : Part.Updates a c := by
  induction h' with
  | refl => exact h
  | tail _ u ih => exact ih.tail u

/-- What every update keeps, a sequence of updates keeps. -/
theorem Part.Updates.keep {P : Part → Prop} (hP : ∀ {a b}, Part.Update a b → P a → P b) {a b : Part}
    (h : Part.Updates a b) (ha : P a) : P b := by
  induction h with
  | refl => exact ha
  | tail _ u ih => exact hP u ih

theorem Part.Updates.mono {a b : Part} (h : Part.Updates a b) : b.clock.mono = a.clock.mono :=
  h.keep (P := fun x => x.clock.mono = a.clock.mono) (fun u e => u.mono.trans e) rfl

/-- No update installs a setup. -/
theorem Part.Updates.setup {a b : Part} (h : Part.Updates a b) : b.setup = a.setup :=
  h.keep (P := fun x => x.setup = a.setup) (fun u e => u.setup.trans e) rfl

theorem Part.Update.ordersTaken {a b : Part} (u : Part.Update a b) : b.unit.ordersTaken = a.unit.ordersTaken := by
  cases u with
  | inert hl =>
    obtain ⟨-, -, -, -, -, -, -, -, -, ho⟩ := (Part.ledger_eq_iff _ _).1 hl
    exact ho
  | tiled g p r f => rw [Part.mapTiles_eq]; rfl
  | retiled g p tx ty f => rw [Part.setTile, Part.mapTiles_eq]
  | zoned | placed | rewritten | withdrawn | admitted | charged | returned | ended | clocked | sampled => rfl

/-- No update takes an order. -/
theorem Part.Updates.ordersTaken {a b : Part} (h : Part.Updates a b) : b.unit.ordersTaken = a.unit.ordersTaken :=
  h.keep (P := fun x => x.unit.ordersTaken = a.unit.ordersTaken) (fun u e => u.ordersTaken.trans e) rfl

theorem Part.Course.trans {a b c : Part} (h : Part.Course a b) (h' : Part.Updates b c) : Part.Course a c := by
  cases h with
  | updates h => exact .updates (h.trans h')
  | installed hi h => exact .installed hi (h.trans h')
  | noted code r h h'' => exact .noted code r h (h''.trans h')

/-- An order that follows updates. -/
theorem Part.Updates.noteAfter {a b m c : Part} (h : Part.Updates a b) (code : Byte) (r : OrderResult)
    (h' : Part.Updates b m) (hc : c = m.noteOrder code r) : Part.Course a c :=
  hc ▸ .noted code r (h.trans h') .refl

/-- What every update keeps, and the installing of a setup, a command keeps. -/
theorem Part.Course.keep {P : Part → Prop} (hP : ∀ {a b}, Part.Update a b → P a → P b)
    (hI : ∀ {a b}, Part.Installed a b → P a → P b) (hN : ∀ {a : Part} code r, P a → P (a.noteOrder code r))
    {a b : Part} (h : Part.Course a b) (ha : P a) : P b := by
  cases h with
  | updates h => exact h.keep hP ha
  | installed hi h => exact h.keep hP (hI hi ha)
  | noted code r h h' => exact h'.keep hP (hN code r (h.keep hP ha))

theorem Part.Course.mono {a b : Part} (h : Part.Course a b) : b.clock.mono = a.clock.mono :=
  h.keep (P := fun x => x.clock.mono = a.clock.mono) (fun u e => u.mono.trans e)
    (fun i e => (congrArg Clock.mono i.clock).trans e)
    (fun _ _ e => e) rfl

theorem Part.Updates.of_ledger {a b : Part} (h : b.ledger = a.ledger) : Part.Updates a b :=
  .single (.inert h)

theorem Part.Updates.inert {a b c : Part} (h : Part.Updates a b) (hl : c.ledger = b.ledger) : Part.Updates a c :=
  h.tail (.inert hl)

theorem Part.Updates.foldl {α : Type} {f : Part → α → Part} (h : ∀ part x, Part.Updates part (f part x)) (xs : List α)
    (part : Part) : Part.Updates part (xs.foldl f part) := by
  induction xs generalizing part with
  | nil => exact .refl
  | cons x xs ih => exact (h part x).trans (ih _)

end Sys2Proof.Machine
end

section
/-! PROOFS. The operations of the units are made of the updates of `Part.Update`. -/

namespace Sys2Proof.Machine

/-! ### What changes nothing of the ledger -/

section
variable (a : Part)

@[simp] theorem Part.ledger_setPort (p : PanelNo) (x : Port) : (a.setPort p x).ledger = a.ledger := rfl
@[simp] theorem Part.ledger_changePort (p : PanelNo) (x : Port) : (a.changePort p x).ledger = a.ledger := rfl
@[simp] theorem Part.ledger_setEngine (p : PanelNo) (e : Option Engine) : (a.setEngine p e).ledger = a.ledger := rfl
@[simp] theorem Part.ledger_setSelector (p : PanelNo) (x : Selector) : (a.setSelector p x).ledger = a.ledger := rfl
@[simp] theorem Part.ledger_oweWalk : a.oweWalk.ledger = a.ledger := rfl
@[simp] theorem Part.ledger_changeRail (r : Rail) : (a.changeRail r).ledger = a.ledger := rfl
@[simp] theorem Part.ledger_setRunState (r : RunState) : (a.setRunState r).ledger = a.ledger := rfl

@[simp] theorem Part.ledger_latch (c : Cause) (d : Nat) : (a.latch c d).ledger = a.ledger := by
  have hn := Part.latch_causes_length a c d
  rw [Part.latch_eq]
  simpa only [Part.ledger, Prod.mk.injEq, true_and, and_true] using hn

@[simp] theorem Part.ledger_raiseRail (g : Setup) : (a.raiseRail g).ledger = a.ledger := rfl
@[simp] theorem Part.ledger_lowerRail (g : Setup) : (a.lowerRail g).ledger = a.ledger := rfl

@[simp] theorem Part.ledger_releaseRail (g : Setup) : (a.releaseRail g).ledger = a.ledger := by
  rw [Part.releaseRail_frame]; rfl

@[simp] theorem Part.ledger_demandRail (g : Setup) : (a.demandRail g).ledger = a.ledger := by
  rw [Part.demandRail_eq]; rfl

@[simp] theorem Part.ledger_faultRail (g : Setup) (d : Nat) : (a.faultRail g d).ledger = a.ledger :=
  Part.ledger_latch ..

@[simp] theorem Part.ledger_railOff (g : Setup) (elapsed : Nat) : (a.railOff g elapsed).ledger = a.ledger := by
  unfold Part.railOff
  extract_lets down
  split <;> rfl

@[simp] theorem Part.ledger_restIfIdle (p : PanelNo) : (a.restIfIdle p).ledger = a.ledger := by
  rw [Part.restIfIdle_eq]; rfl

@[simp] theorem Part.ledger_restAtOnce (p : PanelNo) : (a.restAtOnce p).ledger = a.ledger := by
  unfold Part.restAtOnce
  split
  · exact Part.ledger_restIfIdle ..
  · rfl

@[simp] theorem Part.ledger_latchLoose (g : Setup) (j : Job) : (a.latchLoose g j).ledger = a.ledger := by
  unfold Part.latchLoose
  split
  · exact Part.ledger_latch ..
  · rfl

@[simp] theorem Part.ledger_noteSweep (j : Job) (r : RunFields) (n : Nat) : (a.noteSweep j r n).ledger = a.ledger := by
  rw [Part.noteSweep_frame]; rfl

@[simp] theorem Part.ledger_noteUrgent (j : Job) (n : Nat) : (a.noteUrgent j n).ledger = a.ledger := by
  unfold Part.noteUrgent
  split
  · exact Part.ledger_latch ..
  · rfl

@[simp] theorem Part.ledger_checkHalted : a.checkHalted.ledger = a.ledger := by
  unfold Part.checkHalted
  split
  · rw [Part.ledger_oweWalk, Part.ledger_latch]; rfl
  · rfl

@[simp] theorem Part.ledger_stopFeed (p : PanelNo) : (a.stopFeed p).ledger = a.ledger := by
  unfold Part.stopFeed
  split <;> rfl

@[simp] theorem Part.ledger_endFrameEarly (p : PanelNo) (w : Window) : (a.endFrameEarly p w).ledger = a.ledger := by
  unfold Part.endFrameEarly
  simp

@[simp] theorem Part.ledger_restore (p : PanelNo) : (a.restore p).ledger = a.ledger := rfl

@[simp] theorem Part.ledger_restorePort (p : PanelNo) : (a.restorePort p).ledger = a.ledger := by
  unfold Part.restorePort
  split
  · split <;> rfl
  · rfl

@[simp] theorem Part.ledger_takeReading (g : Setup) (p : PanelNo) (t : Int) : (a.takeReading g p t).ledger = a.ledger := by
  unfold Part.takeReading
  split <;> rfl

@[simp] theorem Part.ledger_lateTouch (t : Touch) : (a.lateTouch t).ledger = a.ledger := by
  unfold Part.lateTouch
  split
  · split
    · split <;> rfl
    · rfl
  · rfl

@[simp] theorem Part.ledger_slotRow (g : Setup) (c : PanelCfg) (p : PanelNo) (w : Window) :
    (a.slotRow g c p w).1.ledger = a.ledger := by
  unfold Part.slotRow
  split
  · extract_lets frames
    split
    · rfl
    · split
      · rfl
      · exact Part.ledger_latch ..
  · rfl

@[simp] theorem Part.ledger_discardEnded (p : PanelNo) : (a.discardEnded p).ledger = a.ledger := by
  rw [Part.discardEnded_eq]; rfl

end

theorem Part.ledger_pollAt (g : Setup) (a : Part) (p : PanelNo) : (Part.pollAt g a p).ledger = a.ledger := by
  obtain ⟨_, _, h⟩ := Part.pollAt_frame g a p
  rw [h]; rfl

theorem Part.ledger_staleAt (g : Setup) (a : Part) (p : PanelNo) : (Part.staleAt g a p).ledger = a.ledger := by
  unfold Part.staleAt
  split
  · split
    · exact Part.ledger_latch ..
    · rfl
  · rfl

/-! ### What a lookup of a job reads -/

theorem Part.job?_congr {a b : Part} (h : a.pool = b.pool) (slot : Nat) : a.job? slot = b.job? slot := by
  unfold Part.job?
  rw [h]

theorem Part.job?_setJob_self {a : Part} {slot : Nat} {j : Job} (h : a.job? slot = some j) (k : Job) :
    (a.setJob slot k).job? slot = some k := by
  rw [Part.job?_setJob, if_pos ⟨rfl, Part.job?_lt h⟩]

theorem Part.job?_setJob_ne {a : Part} {slot n : Nat} (h : slot ≠ n) (k : Job) : (a.setJob slot k).job? n = a.job? n := by
  rw [Part.job?_setJob, if_neg fun e => h e.1]

theorem Part.job?_freeSlot_ne {a : Part} {slot n : Nat} (h : slot ≠ n) : (a.freeSlot slot).job? n = a.job? n := by
  simp [Part.job?, Part.freeSlot, List.getElem?_set_ne h]

theorem findJob_some {f : Job → Bool} {pool : List (Option Job)} {i slot : Nat} {j : Job}
    (h : findJob f i pool = some (slot, j)) : i ≤ slot ∧ (pool[slot - i]?).join = some j ∧ f j = true := by
  induction pool generalizing i with
  | nil => cases h
  | cons x xs ih =>
    have hnext : findJob f (i + 1) xs = some (slot, j) →
        i ≤ slot ∧ ((x :: xs)[slot - i]?).join = some j ∧ f j = true := fun h' => by
      obtain ⟨hle, hj, hf⟩ := ih h'
      have e : slot - i = slot - (i + 1) + 1 := by omega
      exact ⟨by omega, by rw [e, List.getElem?_cons_succ]; exact hj, hf⟩
    cases x with
    | none => exact hnext h
    | some k =>
      unfold findJob at h
      split at h
      · next hk => cases h; simp [hk]
      · exact hnext h

theorem Part.running?_some {a : Part} {p : PanelNo} {slot : Nat} {j : Job} {r : RunFields}
    (h : a.running? p = some (slot, j, r)) :
    a.job? slot = some j ∧ j.state ≠ .queued ∧ j.panel = p ∧ j.running = some r := by
  unfold Part.running? at h
  split at h
  · next slot' j' hf =>
    split at h
    · next r' hr =>
      cases h
      obtain ⟨-, hj, hp⟩ := findJob_some hf
      simp only [Bool.and_eq_true, bne_iff_ne, beq_iff_eq] at hp
      exact ⟨hj, hp.1, hp.2, hr⟩
    · cases h
  · cases h

theorem Part.queuedPanelJob?_some {a : Part} {p : PanelNo} {slot : Nat} {j : Job}
    (h : a.queuedPanelJob? p = some (slot, j)) : a.job? slot = some j ∧ j.state = .queued ∧ j.scope = .panel p := by
  obtain ⟨-, hj, hp⟩ := findJob_some h
  simp only [Bool.and_eq_true, beq_iff_eq] at hp
  exact ⟨hj, hp.1, hp.2⟩

theorem Part.lowestFree?_free {a : Part} {slot : Nat} (h : a.lowestFree? = some slot) : a.job? slot = none := by
  obtain ⟨hl, hx, -⟩ := List.findIdx?_eq_some_iff_getElem.1 h
  rw [Part.job?, List.getElem?_eq_getElem hl]
  simpa using hx

/-! ### Zones -/

theorem Part.zonesInStep_count {a : Part} (h : a.ZonesInStep) {y z : Zone} (hy : y ∈ a.zones) (hz : z ∈ a.zones)
    (hi : y.index = z.index) : y.dirtyCount = z.dirtyCount := by
  rw [(h y hy).1, (h z hz).1, hi]

/-- A zone's record changed apart from the figures that follow its tiles. -/
theorem Part.Update.updateZone (a : Part) (n : Nat) (f : Zone → Zone)
    (h : a.ZonesInStep → ∀ z ∈ a.zones, z.index = n → (f z).Keeps z) : Part.Update a (a.updateZone n f) := by
  refine .zoned _ fun hz z hmem => ?_
  split
  · next hn => exact h hz z hmem hn
  · exact ⟨rfl, rfl, rfl, .inl rfl⟩

theorem Part.Updates.updateZone (a : Part) (n : Nat) (f : Zone → Zone) (h : ∀ z, (f z).Keeps z) :
    Part.Updates a (a.updateZone n f) :=
  .single (.updateZone a n f fun _ z _ _ => h z)

/-! ### Requests (R39 to R45) -/

theorem Part.Updates.mergeRequest {a : Part} {slot : Nat} {j : Job} (h : a.job? slot = some j) (rect : Rect)
    (cls : RefreshClass) (full : Bool) : Part.Updates a (a.mergeRequest slot j rect cls full) := by
  unfold Part.mergeRequest
  extract_lets merged
  split
  · exact (Part.Updates.inert (.single (.rewritten slot j merged h Iff.rfl rfl)) rfl)
  · exact (Part.Updates.inert (.single (.rewritten slot j { merged with sequence := a.sequence } h Iff.rfl rfl)) rfl)

theorem Part.Updates.requestZone {a b : Part} {z : ZoneCfg} {rect : Rect} {cls : RefreshClass} {o : Origin} {full : Bool}
    (h : a.requestZone z rect cls o full = some b) : Part.Updates a b := by
  unfold Part.requestZone at h
  split at h
  · split at h
    · next hj => cases h; exact .mergeRequest hj ..
    · cases h
  · split at h
    · next slot hfree =>
      cases h
      exact (Part.Updates.single (.placed slot _ _ _ _ _ _ (Part.lowestFree?_free hfree))).trans
        (.updateZone _ _ _ fun z => ⟨rfl, rfl, rfl, .inl rfl⟩)
    · cases h

theorem Tile.Sound.takeUp {t : Tile} (h : t.Sound) : t.takeUp.Sound := by
  obtain ⟨hd, hr⟩ := h
  unfold Tile.takeUp
  split
  · next hs => exact ⟨hd, fun e => by simp [hs] at hr; rw [hr] at e; cases e⟩
  · exact ⟨hd, hr⟩

theorem Part.Updates.takeUpZone (a : Part) (g : Setup) (z : ZoneCfg) : Part.Updates a (a.takeUpZone g z) := by
  refine .single (.tiled _ _ _ _ fun tx ty t _ _ ht => ?_)
  split
  · exact ht.takeUp
  · exact ht

theorem Part.Updates.requestPanel {a b : Part} {g : Setup} {p : PanelNo} {c : PanelCfg} {cls : RefreshClass} {o : Origin}
    {full : Bool} (h : a.requestPanel g p c cls o full = some b) : Part.Updates a b := by
  unfold Part.requestPanel at h
  split at h
  · next hj =>
    cases h
    exact (Part.Updates.mergeRequest (Part.queuedPanelJob?_some hj).1 ..).tail (.tiled _ _ _ _ fun _ _ _ _ _ ht => ht.takeUp)
  · split at h
    · next slot hfree =>
      cases h
      exact (Part.Updates.single (.placed slot _ _ _ _ _ _ (Part.lowestFree?_free hfree))).tail
        (.tiled _ _ _ _ fun _ _ _ _ _ ht => ht.takeUp)
    · cases h

/-! ### Enqueue attempts and triggers (R27 to R33, R75, R76) -/

/-- HELD is set only on a dirty zone (R31). -/
theorem Part.Update.holdZone {a : Part} {n : Nat} (h : a.zoneDirty n = true) (o : Origin) :
    Part.Update a (a.updateZone n fun x => { x with held := some o }) := by
  refine .updateZone a n _ fun hz z hmem hn => ⟨rfl, rfl, rfl, .inr (.inr ?_)⟩
  unfold Part.zoneDirty at h
  split at h
  · next y hy =>
    have hy' : y ∈ a.zones := List.mem_of_find?_eq_some hy
    rw [Part.zonesInStep_count hz hmem hy' (hn.trans (Part.zone?_index hy).symm)]
    simpa using h
  · cases h

theorem Part.Updates.enqueue (a : Part) (g : Setup) (z : ZoneCfg) (o : Origin) : Part.Updates a (a.enqueue g z o) := by
  unfold Part.enqueue
  split
  · next hd =>
    extract_lets waited
    have hw : Part.Updates a waited := .updateZone _ _ _ fun z => ⟨rfl, rfl, rfl, .inl rfl⟩
    split
    · next placed hp =>
      exact ((hw.trans (.requestZone hp)).trans (.takeUpZone ..)).trans
        (.updateZone _ _ _ fun z => ⟨rfl, rfl, rfl, .inr (.inl rfl)⟩)
    · refine (hw.tail (.holdZone ?_ o)).inert (Part.ledger_latch ..)
      have e : waited.zone? z.index = _ := Part.zone?_waited a z.index z.index
      unfold Part.zoneDirty at hd ⊢
      rw [e]
      cases hx : a.zone? z.index with
      | none => rw [hx] at hd; cases hd
      | some x => rw [hx] at hd; simpa using hd
  · exact .refl

theorem Part.Updates.retryHeld (g : Setup) (zs : List ZoneCfg) (a : Part) : Part.Updates a (a.retryHeld g zs) := by
  induction zs generalizing a with
  | nil => exact .refl
  | cons z zs ih =>
    unfold Part.retryHeld
    split
    · exact ih a
    · split
      · exact ih a
      · extract_lets tried
        have ht : Part.Updates a tried := .enqueue ..
        split
        · exact ht
        · exact ht.trans (ih tried)

theorem Part.Updates.slotsFreed (a : Part) (g : Setup) : Part.Updates a (a.slotsFreed g) := .retryHeld ..

theorem Part.Updates.setEpochWait (a : Part) (n : Nat) (f : Zone → Bool) :
    Part.Updates a (a.updateZone n fun x => { x with epochWait := f x }) :=
  .updateZone _ _ _ fun _ => ⟨rfl, rfl, rfl, .inl rfl⟩

theorem Part.Updates.expire (a : Part) (g : Setup) (z : ZoneCfg) (o o' : Origin) :
    Part.Updates a (a.expire g z o o') := by
  unfold Part.expire
  split
  · exact .enqueue ..
  · exact .enqueue ..
  · split
    · exact .refl
    · exact .enqueue ..
  · split
    · split
      · exact (Part.Updates.setEpochWait a z.index fun _ => false).trans (.enqueue ..)
      · exact .refl
    · exact .refl

theorem Part.Updates.epochAt (g : Setup) (a : Part) (z : ZoneCfg) : Part.Updates a (Part.epochAt g a z) := by
  unfold Part.epochAt
  split
  · split
    · exact .enqueue ..
    · exact .setEpochWait a z.index fun _ => true
  · exact .refl

theorem Part.Updates.quietEndAt (g : Setup) (a : Part) (z : ZoneCfg) : Part.Updates a (Part.quietEndAt g a z) := by
  unfold Part.quietEndAt
  split
  · exact .enqueue ..
  · exact .refl

theorem Part.Updates.holdAt (g : Setup) (a : Part) (z : ZoneCfg) : Part.Updates a (Part.holdAt g a z) := by
  unfold Part.holdAt
  split
  · split
    · exact .enqueue ..
    · exact .refl
  · exact .refl

theorem Part.Updates.requestSweep (a : Part) (g : Setup) (p : PanelNo) (c : PanelCfg) (o : Origin) :
    Part.Updates a (a.requestSweep g p c o) := by
  unfold Part.requestSweep
  split
  · next h => exact .requestPanel h
  · exact .of_ledger (Part.ledger_latch ..)

theorem Part.Updates.sweepTimeAt (g : Setup) (a : Part) (p : PanelNo) : Part.Updates a (Part.sweepTimeAt g a p) := by
  unfold Part.sweepTimeAt
  split
  · exact .refl
  · split
    · exact .requestSweep ..
    · exact .refl

theorem Part.Updates.surplusAt (g : Setup) (a : Part) (p : PanelNo) : Part.Updates a (Part.surplusAt g a p) := by
  unfold Part.surplusAt
  split
  · exact .refl
  · split
    · exact .requestSweep ..
    · exact .refl

theorem Part.Updates.surplusTest (a : Part) (g : Setup) : Part.Updates a (a.surplusTest g) := .foldl (.surplusAt g) _ _

/-! ### The ends of jobs (R33, R34, R50 to R54) -/

theorem Part.Updates.clearRunning (a : Part) (j : Job) : Part.Updates a (a.clearRunning j) := by
  unfold Part.clearRunning
  split
  · exact .updateZone _ _ _ fun _ => ⟨rfl, rfl, rfl, .inl rfl⟩
  · exact .refl

theorem Part.Updates.retireTriggerAt (g : Setup) (a : Part) (z : ZoneCfg) :
    Part.Updates a (Part.retireTriggerAt g a z) := by
  unfold Part.retireTriggerAt
  split
  · exact .expire ..
  · exact .refl

theorem Part.Updates.retireZones (a : Part) (g : Setup) (j : Job) : Part.Updates a (a.retireZones g j) :=
  (Part.Updates.clearRunning a j).trans (.foldl (.retireTriggerAt g) _ _)

theorem Part.Updates.restartTimer (a : Part) (z : ZoneCfg) : Part.Updates a (a.restartTimer z) :=
  .updateZone _ _ _ fun _ => ⟨rfl, rfl, rfl, .inl rfl⟩

theorem Part.Updates.abortZoneAt (a : Part) (z : ZoneCfg) : Part.Updates a (a.abortZoneAt z) :=
  (Part.Updates.restartTimer a z).trans (.setEpochWait _ _ fun x => x.epochWait || z.cls == .timed)

theorem Part.Updates.abortZones (g : Setup) (a : Part) (x : RunningJob) : Part.Updates a (Part.abortZones g a x) :=
  (Part.Updates.clearRunning a x.2.1).trans (.foldl Part.Updates.abortZoneAt _ _)

/-- The end of a job whose tiles have been settled: what its retirement and its abort share. -/
theorem Part.Updates.endJob {a : Part} {slot : Nat} {j : Job} {r : RunFields} (h : a.job? slot = some j)
    (hr : j.running = some r) (g : Setup) {f : Nat → Nat → Tile → Tile}
    (hf : ∀ tx ty t, t.Sound → (f tx ty t).Sound) {b : Part}
    (hb : b.ledger = ((a.mapTiles g j.panel j.rect f).followTiles).ledger) : Part.Updates a (b.endJob slot j r) := by
  refine ((Part.Updates.single (.tiled g j.panel j.rect f fun tx ty t _ _ => hf tx ty t)).inert hb).tail (.ended slot j r ?_ hr)
  have hp : b.pool = a.pool := by
    rw [((Part.ledger_eq_iff _ _).1 hb).2.2.2.1, Part.mapTiles_eq]
    rfl
  rwa [Part.job?_congr hp]

theorem Part.Updates.retireNull {a : Part} {slot : Nat} {j : Job} {r : RunFields} (h : a.job? slot = some j)
    (hr : j.running = some r) (g : Setup) : Part.Updates a (a.retireNull g slot j r) := by
  unfold Part.retireNull
  extract_lets settled
  have hend : Part.Updates a (settled.endJob slot j r) := by
    refine .endJob h hr g (fun _ _ t ht => ?_) (Part.ledger_latchLoose ..)
    exact ⟨ht.1, fun e => by cases e⟩
  exact (((hend.inert (Part.ledger_restIfIdle ..)).trans (.slotsFreed ..)).trans (.retireZones ..)).inert
    (Part.ledger_checkHalted _)

theorem Tile.Sound.settle {t : Tile} (h : t.Sound) (mode : DriveMode) (w : Nat) (x : TileContext) :
    (t.settle mode w x).Sound := by
  obtain ⟨hd, -⟩ := h
  unfold Tile.settle
  split
  · exact ⟨hd, fun e => by cases e⟩
  · exact ⟨hd, fun e => by cases e⟩
  · split
    · exact ⟨Nat.zero_le _, fun e => by cases e⟩
    · exact ⟨Nat.min_le_left .., fun e => by cases e⟩

theorem Part.Updates.retireJob {a : Part} {slot : Nat} {j : Job} {r : RunFields} (h : a.job? slot = some j)
    (hr : j.running = some r) (g : Setup) (e : Engine) : Part.Updates a (a.retireJob g slot j r e) := by
  unfold Part.retireJob
  extract_lets settled copied ended
  have hend : Part.Updates a ended :=
    (Part.Updates.endJob h hr g (fun _ _ t ht => ht.settle ..)
      ((Part.ledger_noteSweep ..).trans (Part.ledger_latchLoose ..))).inert (Part.ledger_restIfIdle ..)
  exact (((hend.trans (.slotsFreed ..)).trans (.retireZones ..)).inert (Part.ledger_noteUrgent ..)).inert
    (Part.ledger_checkHalted _)

/-- A running job in its slot. -/
def Part.Holds (a : Part) (x : RunningJob) : Prop := a.job? x.1 = some x.2.1 ∧ x.2.1.running = some x.2.2

theorem Part.Updates.cutJob {a : Part} {x : RunningJob} (h : a.Holds x) (g : Setup) :
    Part.Updates a (Part.cutJob g a x) :=
  (Part.Updates.endJob h.1 h.2 g (f := fun _ _ t => { t with state := .dirty, untrusted := true, redirty := false })
    (fun _ _ t ht => ⟨ht.1, fun e => by cases e⟩) (Part.ledger_latchLoose ..)).inert (Part.ledger_restIfIdle ..)

theorem Part.cutJob_pool (g : Setup) (a : Part) (x : RunningJob) : (Part.cutJob g a x).pool = a.pool.set x.1 none := by
  unfold Part.cutJob
  extract_lets settled
  have hs : settled.pool = a.pool := by
    have hl : settled.ledger = _ := Part.ledger_latchLoose ..
    rw [((Part.ledger_eq_iff _ _).1 hl).2.2.2.1, Part.mapTiles_eq]
    rfl
  rw [Part.restIfIdle_pool]
  show settled.pool.set x.1 none = _
  rw [hs]

theorem Part.Holds.cutJob {a : Part} {x y : RunningJob} (h : a.Holds y) (hne : x.1 ≠ y.1) (g : Setup) :
    (Part.cutJob g a x).Holds y := by
  refine ⟨?_, h.2⟩
  rw [Part.job?, Part.cutJob_pool, List.getElem?_set_ne hne]
  exact h.1

theorem Part.Updates.foldl_cutJob (g : Setup) (xs : List RunningJob) {a : Part} (h : ∀ x ∈ xs, a.Holds x)
    (hd : (xs.map (·.1)).Nodup) : Part.Updates a (xs.foldl (Part.cutJob g) a) := by
  induction xs generalizing a with
  | nil => exact .refl
  | cons x xs ih =>
    obtain ⟨hx, hxs⟩ := List.nodup_cons.1 hd
    refine (Part.Updates.cutJob (h x List.mem_cons_self) g).trans (ih (fun y hy => ?_) hxs)
    exact (h y (List.mem_cons_of_mem _ hy)).cutJob (fun e => hx (List.mem_map.2 ⟨y, hy, e.symm⟩)) g

theorem Part.Updates.abortJobs {a : Part} (g : Setup) {xs : List RunningJob} (h : ∀ x ∈ xs, a.Holds x)
    (hd : (xs.map (·.1)).Nodup) : Part.Updates a (a.abortJobs g xs) := by
  unfold Part.abortJobs
  split
  · exact .refl
  · exact ((((Part.Updates.foldl_cutJob g xs h hd).inert (Part.ledger_releaseRail ..)).trans (.slotsFreed ..)).trans
      (.foldl (Part.Updates.abortZones g) _ _)).inert (Part.ledger_checkHalted _)

theorem Part.Updates.abortJob {a : Part} {slot : Nat} {j : Job} {r : RunFields} (h : a.job? slot = some j)
    (hr : j.running = some r) (g : Setup) : Part.Updates a (a.abortJob g slot j r) :=
  .abortJobs g (by simpa [Part.Holds] using ⟨h, hr⟩) (List.nodup_cons.2 ⟨List.not_mem_nil, List.nodup_nil⟩)

theorem Part.Updates.abortRunning (a : Part) (g : Setup) (p : PanelNo) : Part.Updates a (a.abortRunning g p) := by
  unfold Part.abortRunning
  split
  · next hr =>
    obtain ⟨hj, -, -, hrun⟩ := Part.running?_some hr
    exact .abortJob hj hrun g
  · exact .refl

/-! ### Admission and the walk (R46 to R49, R103) -/

theorem Part.Updates.withdraw {a : Part} {x : Nat × Job} (h : a.job? x.1 = some x.2) (hq : x.2.state = .queued) :
    Part.Updates a (a.withdraw x) := by
  unfold Part.withdraw
  split
  · exact (Part.Updates.single (.withdrawn x.1 x.2 h hq)).trans (.updateZone _ _ _ fun _ => ⟨rfl, rfl, rfl, .inl rfl⟩)
  · exact .refl

theorem Part.job?_withdraw_ne {a : Part} {x : Nat × Job} {n : Nat} (h : x.1 ≠ n) : (a.withdraw x).job? n = a.job? n := by
  unfold Part.withdraw
  split
  · exact Part.job?_freeSlot_ne h
  · rfl

theorem Part.Updates.foldl_withdraw (xs : List (Nat × Job)) {a : Part}
    (h : ∀ x ∈ xs, a.job? x.1 = some x.2 ∧ x.2.state = .queued) (hd : (xs.map (·.1)).Nodup) :
    Part.Updates a (xs.foldl Part.withdraw a) := by
  induction xs generalizing a with
  | nil => exact .refl
  | cons x xs ih =>
    obtain ⟨hx, hxs⟩ := List.nodup_cons.1 hd
    obtain ⟨hj, hq⟩ := h x List.mem_cons_self
    refine (Part.Updates.withdraw hj hq).trans (ih (fun y hy => ?_) hxs)
    obtain ⟨hyj, hyq⟩ := h y (List.mem_cons_of_mem _ hy)
    refine ⟨?_, hyq⟩
    rw [Part.job?_withdraw_ne fun e => hx (List.mem_map.2 ⟨y, hy, e.symm⟩)]
    exact hyj

theorem Part.withdrawnBy_sublist (a : Part) (j : Job) : (a.withdrawnBy j).Sublist (queuedJobs 0 a.pool) := by
  unfold Part.withdrawnBy Part.queuedZoneJobs
  split
  · exact List.filter_sublist
  · exact List.nil_sublist _

theorem Part.Updates.runZone (a : Part) (slot : Nat) (j : Job) : Part.Updates a (a.runZone slot j) := by
  unfold Part.runZone
  split
  · exact .updateZone _ _ _ fun _ => ⟨rfl, rfl, rfl, .inl rfl⟩
  · exact .refl

theorem Part.Updates.admitJob {a : Part} {slot : Nat} {j : Job} (hj : a.job? slot = some j) (hq : j.state = .queued)
    (g : Setup) (c : PanelCfg) (mode : DriveMode) (band cost : Nat) :
    Part.Updates a (a.admitJob g c slot j mode band cost) := by
  unfold Part.admitJob
  extract_lets taken carried running counted admitted active started
  have hw : Part.Updates a (taken.foldl Part.withdraw a) := by
    refine .foldl_withdraw _ (fun x hx => ?_) ?_
    · exact (Part.mem_queuedJobs a x.1 x.2).1 ((Part.withdrawnBy_sublist a j).subset hx)
    · exact (queuedJobs_nodup a.pool 0).sublist ((Part.withdrawnBy_sublist a j).map _)
  have hslot : (taken.foldl Part.withdraw a).job? slot = some j := by
    have hz : ∀ x ∈ taken, ∃ n, x.2.scope = .zone n := fun x hx => ((Part.mem_withdrawnBy a j x.1 x.2).1 hx).2.2.2.2
    rw [(Part.foldl_withdraw_pool taken a hz).2, if_neg, hj]
    intro hmem
    obtain ⟨x, hx, rfl⟩ := List.mem_map.1 hmem
    obtain ⟨⟨p, hp⟩, hxj, -, -, n, hn⟩ := (Part.mem_withdrawnBy a j x.1 x.2).1 hx
    rw [hj] at hxj
    cases hxj
    rw [hp] at hn
    cases hn
  have hadmitted : Part.Updates a admitted := by
    refine (hw.tail (.admitted slot j running _ hslot hq nofun rfl)).inert ?_
    have hf := Part.foldl_withdraw_frame taken a
    have hc : (taken.foldl Part.withdraw a).committed = a.committed := by rw [hf]
    have hn : (taken.foldl Part.withdraw a).runningCount = a.runningCount := by rw [hf]
    rw [Part.ledger_eq_iff]
    exact ⟨rfl, rfl, rfl, rfl, congrArg (· + 1) hn.symm, congrArg (· + cost) hc.symm, rfl, rfl, rfl, rfl⟩
  have hactive : Part.Updates a active := by
    refine hadmitted.tail (.tiled _ _ _ _ fun _ _ t _ _ ht => ?_)
    exact ⟨ht.1, fun e => by cases e⟩
  have hstarted : Part.Updates a started := (hactive.trans (.runZone active slot j)).inert rfl
  split
  · exact hstarted
  · exact hstarted.inert rfl

theorem Part.Updates.walkFrom (g : Setup) (queue : List (Nat × Job)) (a : Part) : Part.Updates a (a.walkFrom g queue) := by
  induction queue generalizing a with
  | nil => exact .of_ledger rfl
  | cons x rest ih =>
    unfold Part.walkFrom
    split
    · exact ih a
    · next j hj =>
      split
      · split
        · exact ih a
        · next hskip =>
          extract_lets mode cost
          split
          · refine (Part.Updates.admitJob hj ?_ g _ mode _ cost).trans (ih _)
            exact Decidable.not_not.1 fun h => hskip (.inl h)
          · exact .of_ledger rfl
      · exact ih a

theorem Part.Updates.starvedAt (g : Setup) (a : Part) (x : Nat × Job) : Part.Updates a (Part.starvedAt g a x) := by
  unfold Part.starvedAt
  split
  · exact .refl
  · next j hj =>
    split
    · exact (Part.Updates.single (.rewritten x.1 j { j with starvedReported := true } hj Iff.rfl rfl)).inert
        (Part.ledger_latch ..)
    · exact .refl

theorem Part.Updates.starvedTest (a : Part) (g : Setup) : Part.Updates a (a.starvedTest g) := .foldl (.starvedAt g) _ _

theorem Part.Updates.walk (a : Part) : Part.Updates a a.walk := by
  unfold Part.walk
  split
  · exact .of_ledger rfl
  · next g _ =>
    extract_lets taken
    refine Part.Updates.trans (b := if a.unit.runState = .running then taken.admitAll g a.queue
      else { taken with stopMark := none }) ?_ (.starvedTest _ g)
    have htaken : Part.Updates a taken := .of_ledger rfl
    split
    · unfold Part.admitAll
      extract_lets admitted
      have hadmitted : Part.Updates a admitted := htaken.trans (.walkFrom ..)
      split
      · exact hadmitted.trans (.slotsFreed ..)
      · exact hadmitted
    · exact .of_ledger rfl

theorem Part.Updates.takeWalks (n : Nat) (a : Part) : Part.Updates a (Part.takeWalks n a) := by
  induction n generalizing a with
  | zero => exact .of_ledger rfl
  | succ n ih =>
    unfold Part.takeWalks
    split
    · exact (Part.Updates.walk a).trans (ih _)
    · exact .refl

/-! ### HALT (R56 to R58) -/

theorem Part.queuedTwin?_some {a : Part} {j q : Job} {other : Nat} (h : a.queuedTwin? j = some (other, q)) :
    a.job? other = some q ∧ q.state = .queued := by
  obtain ⟨-, hj, hp⟩ := findJob_some h
  simp only [Bool.and_eq_true, beq_iff_eq] at hp
  exact ⟨hj, hp.1⟩

theorem Part.Updates.requeueZone (a : Part) (slot : Nat) (j : Job) : Part.Updates a (a.requeueZone slot j) := by
  unfold Part.requeueZone
  split
  · exact .updateZone _ _ _ fun _ => ⟨rfl, rfl, rfl, .inl rfl⟩
  · exact .refl

/-- A running job goes back to the queue: `b` is the part with its cost and its running already withdrawn. -/
theorem Part.Updates.requeue {a b : Part} {slot : Nat} {j : Job} {r : RunFields} (h : a.job? slot = some j)
    (hr : j.running = some r) (hs : j.state ≠ .queued)
    (hb : b.ledger = ({ a with committed := a.committed - r.cost, runningCount := a.runningCount - 1 } : Part).ledger) :
    Part.Updates a (b.requeue slot j) := by
  have hset : ∀ k : Job, k.state = .queued → k.running = none → Part.Updates a (b.setJob slot k) := fun k hk hn => by
    refine (Part.Updates.single (.returned slot j k r h hr hk hn)).inert ?_
    rw [Part.ledger_eq_iff] at hb ⊢
    obtain ⟨h1, h2, h3, h4, h5, h6, h7, h8, h9⟩ := hb
    exact ⟨h1, h2, h3, congrArg (fun l => l.set slot (some k)) h4, h5, h6, h7, h8, h9⟩
  have hpool : b.pool = a.pool := ((Part.ledger_eq_iff _ _).1 hb).2.2.2.1
  unfold Part.requeue
  extract_lets back
  split
  · exact (hset back rfl rfl).trans (.requeueZone ..)
  · next other q htwin =>
    obtain ⟨hq, hqs⟩ := Part.queuedTwin?_some htwin
    have hne : slot ≠ other := fun e => by
      rw [← e, Part.job?_congr hpool, h] at hq
      cases hq
      exact hs hqs
    extract_lets merged renumbered numbered
    have hnumbered : Part.Updates a numbered ∧ numbered.job? other = some q := by
      unfold numbered
      split
      · exact ⟨hset merged rfl rfl, (Part.job?_setJob_ne hne _).trans hq⟩
      · exact ⟨(hset { merged with sequence := b.sequence } rfl rfl).inert rfl, (Part.job?_setJob_ne hne _).trans hq⟩
    exact (hnumbered.1.tail (.withdrawn other q hnumbered.2 hqs)).trans (.requeueZone ..)

theorem Part.Updates.returnJob {a : Part} {slot : Nat} {j : Job} {r : RunFields} (h : a.job? slot = some j)
    (hr : j.running = some r) (hs : j.state ≠ .queued) (g : Setup) (c : PanelCfg) :
    Part.Updates a (a.returnJob g slot j r c) := by
  unfold Part.returnJob
  extract_lets settled released
  have hsettled : Part.Updates a settled := by
    refine .single (.tiled _ _ _ _ fun _ _ t _ _ ht => ?_)
    exact ⟨ht.1, fun e => by cases e⟩
  have hframe : settled.ledger = ({ a with tiles := settled.tiles, zones := settled.zones } : Part).ledger := by
    unfold settled
    rw [Part.mapTiles_followTiles_eq]
  obtain ⟨-, -, -, hpool, hn, hc, -⟩ := (Part.ledger_eq_iff _ _).1 hframe
  have hj : settled.job? slot = some j := (Part.job?_congr hpool slot).trans h
  refine ((hsettled.trans (.requeue hj hr hs ?_)).inert (Part.ledger_releaseRail ..)).inert (Part.ledger_restIfIdle ..)
  rw [Part.ledger_eq_iff]
  exact ⟨rfl, rfl, rfl, rfl, congrArg (· - 1) hn.symm, congrArg (· - r.cost) hc.symm, rfl, rfl, rfl, rfl⟩

theorem Part.Updates.haltAt (g : Setup) (a : Part) (p : PanelNo) : Part.Updates a (Part.haltAt g a p) := by
  unfold Part.haltAt
  split
  · next hr _ =>
    obtain ⟨hj, hs, -, hrun⟩ := Part.running?_some hr
    split
    · exact .returnJob hj hrun hs ..
    · exact .refl
  · exact .refl

theorem Part.Updates.haltJobs (a : Part) (g : Setup) : Part.Updates a (a.haltJobs g) := by
  unfold Part.haltJobs
  extract_lets returned
  have hreturned : Part.Updates a returned := .foldl (.haltAt g) _ _
  split
  · exact hreturned.trans (.slotsFreed ..)
  · exact hreturned

/-! ### The drive, the port faults and the capture's and the commit's ends -/

theorem Part.Updates.startDrive (a : Part) (g : Setup) (p : PanelNo) : Part.Updates a (a.startDrive g p) := by
  unfold Part.startDrive
  split
  · next slot j r c hr hc =>
    obtain ⟨hj, hs, -, -⟩ := Part.running?_some hr
    extract_lets w
    refine (Part.Updates.single (.rewritten slot j { j with state := .driving } hj ?_ rfl)).inert rfl
    exact iff_of_false nofun hs
  · exact .refl

theorem Part.Updates.driveIfReady (a : Part) (g : Setup) (p : PanelNo) : Part.Updates a (a.driveIfReady g p) := by
  unfold Part.driveIfReady
  split
  · exact .startDrive ..
  · exact .refl

theorem Part.Updates.faultPort (a : Part) (g : Setup) (c : PanelCfg) (p : PanelNo) (cause : FaultCause) :
    Part.Updates a (a.faultPort g c p cause) := by
  unfold Part.faultPort
  extract_lets faulted driven poised
  have hf : Part.Updates a faulted := .of_ledger (Part.ledger_latch ..)
  split
  · split
    · split
      · exact hf.inert (Part.ledger_endFrameEarly ..)
      · exact hf
    · have he : Part.Updates a driven := by
        unfold driven
        split
        · exact hf.trans (.abortRunning ..)
        · exact hf
      split
      · exact he.inert rfl
      · exact he
  · refine Part.Updates.inert (b := poised) ?_ rfl
    unfold poised
    split
    · exact hf.trans (.abortRunning ..)
    · exact hf

theorem Part.Updates.captureEnd {a : Part} {slot : Nat} {j : Job} {r : RunFields} (h : a.job? slot = some j)
    (hr : j.running = some r) (g : Setup) (c : PanelCfg) (p : PanelNo) (e : Engine) :
    Part.Updates a (a.captureEnd g c p slot j r e) := by
  unfold Part.captureEnd
  extract_lets total frames pixels cost run poised counted charged fed
  split
  · exact .retireNull h hr g
  · have hcharged : Part.Updates a charged := .single (.charged slot j poised r run h hr nofun rfl)
    split
    · have hpoised : charged.job? slot = some poised := Part.job?_setJob_self h poised
      exact hcharged.trans (.abortJob hpoised rfl g)
    · exact ((hcharged.inert (Part.ledger_setEngine _ p (some fed))).inert (Part.ledger_demandRail _ g)).trans (.driveIfReady ..)

theorem Part.Updates.continueCommit {a : Part} {slot : Nat} {j : Job} {r : RunFields} (h : a.job? slot = some j)
    (hr : j.running = some r) (g : Setup) (c : PanelCfg) (p : PanelNo) (e : Engine) (row tx : Nat) :
    Part.Updates a (a.continueCommit g c p slot j r e row tx) := by
  unfold Part.continueCommit
  split
  · exact .of_ledger rfl
  · exact .retireJob h hr g e

theorem Part.Updates.beginCommit {a : Part} {slot : Nat} {j : Job} {r : RunFields} (h : a.job? slot = some j)
    (hs : j.state ≠ .queued) (hr : j.running = some r) (g : Setup) (c : PanelCfg) (p : PanelNo) (r' : RunFields)
    (hc : r'.cost = r.cost) (e : Engine) : Part.Updates a (a.beginCommit g c p slot j r' e) := by
  unfold Part.beginCommit
  extract_lets run committing emptied begun
  have hset : Part.Updates a (a.setJob slot committing) := by
    refine .single (.rewritten slot j committing h (iff_of_false nofun hs) ?_)
    rw [hr]
    exact congrArg some hc
  have hbegun : begun.ledger = (a.setJob slot committing).ledger := Part.ledger_releaseRail ..
  refine (hset.inert hbegun).trans (.continueCommit ?_ rfl ..)
  exact (Part.job?_congr ((Part.ledger_eq_iff _ _).1 hbegun).2.2.2.1 slot).trans (Part.job?_setJob_self h committing)

theorem Part.Updates.frameSent (a : Part) (g : Setup) (c : PanelCfg) (p : PanelNo) (w : Window) :
    Part.Updates a (a.frameSent g c p w) := by
  unfold Part.frameSent
  split
  · extract_lets ended
    have he : Part.Updates a ended := .abortRunning ..
    split
    · exact he.inert rfl
    · exact he
  · split
    · exact .refl
    · split
      · next hr _ =>
        obtain ⟨hj, hs, -, hrun⟩ := Part.running?_some hr
        split
        · exact .beginCommit hj hs hrun _ _ _ _ (by rfl) _
        · exact .refl
      · exact .refl

theorem Part.Updates.lineSlot (a : Part) (g : Setup) (c : PanelCfg) (p : PanelNo) (w : Window) (busy : Bool) :
    Part.Updates a (a.lineSlot g c p w busy) := by
  unfold Part.lineSlot
  extract_lets sent after
  have ha : Part.Updates a after := .of_ledger (Part.ledger_slotRow a g c p w)
  split
  · exact ha.trans (.frameSent ..)
  · exact ha

theorem Part.Updates.setFrame (a : Part) (p : PanelNo) (f : Nat) : Part.Updates a (a.setFrame p f) := by
  unfold Part.setFrame
  split
  · next slot j r hr =>
    obtain ⟨hj, hs, -, hrun⟩ := Part.running?_some hr
    refine .single (.rewritten slot j _ hj Iff.rfl ?_)
    rw [hrun]
    rfl
  · exact .refl

theorem Part.Updates.startFrame (a : Part) (c : PanelCfg) (p : PanelNo) : Part.Updates a (a.startFrame c p) := by
  unfold Part.startFrame
  split
  · exact Part.Updates.trans (.of_ledger (Part.ledger_setPort ..)) (.setFrame ..)
  · exact .refl

end Sys2Proof.Machine
end

section
/-! PROOFS. The commands' effects on the part are made of the updates of `Part.Update`. -/

namespace Sys2Proof.Machine

/-! ### APPLY (R14, R16, R162 to R164) -/

theorem Part.Updates.levelChanged (a : Part) (g : Setup) (before : PolicyLevel) :
    Part.Updates a (a.levelChanged g before) := by
  unfold Part.levelChanged
  split
  · exact .refl
  · extract_lets noted
    have hn : Part.Updates a noted := .of_ledger (Part.ledger_latch ..)
    split
    · exact hn.trans (.surplusTest ..)
    · exact hn

theorem Setup.zoneTiles_length (g : Setup) (p : PanelNo) (cols : Nat) (ts : List Tile) (i : Nat) :
    (g.zoneTiles p cols i ts).length = ts.length := by
  induction ts generalizing i with
  | nil => rfl
  | cons t ts ih => rw [Setup.zoneTiles, List.length_cons, ih, List.length_cons]

theorem Setup.zoneTiles_sound (g : Setup) (p : PanelNo) (cols : Nat) (ts : List Tile) (h : ∀ t ∈ ts, t.Sound) (i : Nat) :
    ∀ t ∈ g.zoneTiles p cols i ts, t.Sound := by
  induction ts generalizing i with
  | nil => exact fun t ht => by cases ht
  | cons x ts ih =>
    intro t ht
    rcases List.mem_cons.1 ht with rfl | ht
    · exact h x List.mem_cons_self
    · exact ih (fun t ht => h t (List.mem_cons_of_mem _ ht)) (i + 1) t ht

theorem Setup.tilesOf_eq {g : Setup} {p : PanelNo} {c : PanelCfg} (h : g.panels.get p = some c) :
    g.tilesOf p = c.tileCount := by
  rw [Setup.tilesOf, h]

/-- A panel's records lie within the table (R7). -/
theorem Setup.firstTile_add_le_total (g : Setup) (p : PanelNo) : g.firstTile p + g.tilesOf p ≤ g.tileTotal := by
  match p with
  | 0 | 1 | 2 | 3 => simp [Setup.firstTile, Setup.tileTotal, panelNos] <;> omega

theorem preservedPanel_eq {old new : Setup} {p : PanelNo} {c : PanelCfg} (hc : new.panels.get p = some c)
    (h : preservedPanel (some old) new p = true) :
    ∃ was, old.panels.get p = some was ∧ was.preserves c = true := by
  unfold preservedPanel at h
  simp only [hc] at h
  cases hw : old.panels.get p with
  | none => rw [hw] at h; cases h
  | some was => rw [hw] at h; exact ⟨was, rfl, h⟩

theorem PanelCfg.tileCount_of_preserves {a b : PanelCfg} (h : a.preserves b = true) : a.tileCount = b.tileCount := by
  simp only [PanelCfg.preserves, Bool.and_eq_true, beq_iff_eq] at h
  obtain ⟨⟨⟨⟨⟨hw, hh⟩, -⟩, -⟩, -⟩, -⟩ := h
  simp only [PanelCfg.tileCount, PanelCfg.cols, PanelCfg.rows, hw, hh]

theorem Tile.Sound.carry {t : Tile} (h : t.Sound) : t.carry.Sound := ⟨h.1, fun e => by cases e⟩

theorem Tile.fresh_sound : Tile.fresh.Sound := ⟨by decide, by decide⟩

/-- A panel's records before their zone fields are computed (R14). -/
def Part.baseRecords (a : Part) (new : Setup) (p : PanelNo) (c : PanelCfg) : List Tile :=
  match a.setup with
  | some old =>
    if preservedPanel (some old) new p then ((a.tiles.drop (old.firstTile p)).take c.tileCount).map Tile.carry
    else List.replicate c.tileCount Tile.fresh
  | none => List.replicate c.tileCount Tile.fresh

theorem Part.rebuildPanel_eq (a : Part) {new : Setup} {p : PanelNo} {c : PanelCfg} (hc : new.panels.get p = some c) :
    a.rebuildPanel new p = new.zoneTiles p c.cols 0 (a.baseRecords new p c) := by
  unfold Part.rebuildPanel Part.baseRecords
  simp only [hc] <;> rfl

theorem Part.baseRecords_length {a : Part} (h : a.TilesSound) {new : Setup} {p : PanelNo} {c : PanelCfg}
    (hc : new.panels.get p = some c) : (a.baseRecords new p c).length = c.tileCount := by
  unfold Part.baseRecords
  split
  · next old hold =>
    split
    · next hp =>
      obtain ⟨was, hwas, hkept⟩ := preservedPanel_eq hc hp
      have hle := old.firstTile_add_le_total p
      have hlen := h.1
      rw [hold, Option.map_some, Option.getD_some] at hlen
      rw [Setup.tilesOf_eq hwas, PanelCfg.tileCount_of_preserves hkept] at hle
      rw [List.length_map, List.length_take, List.length_drop]
      omega
    · exact List.length_replicate ..
  · exact List.length_replicate ..

theorem Part.baseRecords_sound {a : Part} (h : a.TilesSound) (new : Setup) (p : PanelNo) (c : PanelCfg) :
    ∀ t ∈ a.baseRecords new p c, t.Sound := by
  have hfresh : ∀ t ∈ List.replicate c.tileCount Tile.fresh, t.Sound := fun t ht => by
    rw [List.eq_of_mem_replicate ht]
    exact Tile.fresh_sound
  unfold Part.baseRecords
  split
  · split
    · intro t ht
      obtain ⟨x, hx, rfl⟩ := List.mem_map.1 ht
      exact (h.2 x (List.mem_of_mem_drop (List.mem_of_mem_take hx))).carry
    · exact hfresh
  · exact hfresh

theorem Part.rebuildPanel_sound {a : Part} (h : a.TilesSound) (new : Setup) (p : PanelNo) :
    (a.rebuildPanel new p).length = new.tilesOf p ∧ ∀ t ∈ a.rebuildPanel new p, t.Sound := by
  cases hc : new.panels.get p with
  | none => simp [Part.rebuildPanel, Setup.tilesOf, hc]
  | some c =>
    rw [Part.rebuildPanel_eq a hc, Setup.zoneTiles_length, Part.baseRecords_length h hc, Setup.tilesOf_eq hc]
    exact ⟨rfl, Setup.zoneTiles_sound _ _ _ _ (Part.baseRecords_sound h new p c) 0⟩

/-- The table that an accepted APPLY builds holds a sound record for each tile of the new setup (R14). -/
theorem Part.rebuilt_tilesSound {a : Part} (h : a.TilesSound) (new : Setup) :
    (panelNos.flatMap (a.rebuildPanel new)).length = new.tileTotal
      ∧ ∀ t ∈ panelNos.flatMap (a.rebuildPanel new), t.Sound := by
  constructor
  · rw [List.length_flatMap, Setup.tileTotal]
    exact congrArg List.sum (List.map_congr_left fun p _ => (Part.rebuildPanel_sound h new p).1)
  · intro t ht
    obtain ⟨p, -, hp⟩ := List.mem_flatMap.1 ht
    exact (Part.rebuildPanel_sound h new p).2 t hp

theorem ZoneCfg.build_inStep (tiles : List Tile) (now : Count32) (c : ZoneCfg) :
    (c.build tiles now).dirtyCount = dirtyTiles tiles (c.build tiles now).index
      ∧ ((c.build tiles now).dirtyCount = 0 → (c.build tiles now).dirtySince = none ∧ (c.build tiles now).held = none) := by
  refine ⟨rfl, fun h => ⟨?_, rfl⟩⟩
  have h' : dirtyTiles tiles c.index = 0 := h
  simp only [ZoneCfg.build, h', if_true]

theorem Part.poolSound_of_empty {a : Part} {n : Nat} (hp : a.pool = List.replicate n none) (hk : a.committed = 0)
    (hn : a.runningCount = 0) : a.PoolSound := by
  rw [Part.poolSound_iff, hp, hk, hn]
  refine ⟨fun j hj => (by cases List.eq_of_mem_replicate hj), ?_, ?_⟩
  · simp
  · simp [List.countP_replicate]

theorem Energy.InRange.apply {e : Energy} (h : e.InRange) (g : GlobalSettings) : (e.apply g).InRange := by
  unfold Energy.apply
  split <;> exact h

/-- An accepted APPLY installs the setup that it has read. -/
theorem Part.Course.acceptSetup (a : Part) (x : ReadSetup) : Part.Course a (a.acceptSetup x) := by
  unfold Part.acceptSetup
  extract_lets g tiles unit rebuilt levelled
  have hrebuilt : Part.Installed a rebuilt :=
    { clock := rfl
      causes := rfl
      energy := fun h => h.apply g.globals
      pool := Part.poolSound_of_empty rfl rfl rfl
      tiles := fun h => Part.rebuilt_tilesSound h g
      zones := fun z hz => by
        obtain ⟨c, -, rfl⟩ := List.mem_map.1 hz
        exact ZoneCfg.build_inStep .. }
  exact .installed hrebuilt ((Part.Updates.levelChanged ..).inert ((Part.ledger_latch ..).trans rfl))

theorem Part.ledger_rejectSetup (a : Part) (cause : SetupCause) (index clamps : Nat) :
    (a.rejectSetup cause index clamps).ledger = a.ledger := (Part.ledger_latch ..).trans rfl

theorem Part.Course.decideApply (a : Part) (d : Memory) : Part.Course a (a.decideApply d) := by
  unfold Part.decideApply
  split
  · exact .updates (.of_ledger (Part.ledger_rejectSetup ..))
  · extract_lets x
    split
    · exact .updates (.of_ledger (Part.ledger_rejectSetup ..))
    · exact .acceptSetup ..

/-! ### The ends of bursts -/

theorem Part.liveJob?_some {a : Part} {b : Burst} {slot : Nat} {j : Job} {r : RunFields} {e : Engine}
    (h : a.liveJob? b = some (slot, j, r, e)) :
    a.running? b.panel = some (slot, j, r) ∧ a.engine? b.panel = some e ∧ e.inFlight = true ∧ e.discard = false := by
  unfold Part.liveJob? at h
  split at h
  · next slot' j' r' e' hr he =>
    split at h
    · next hl =>
      cases h
      simp only [Bool.and_eq_true, Bool.not_eq_true'] at hl
      exact ⟨hr, he, hl⟩
    · cases h
  · cases h

theorem Part.Updates.captureBurst (a : Part) (b : Burst) (data : List Byte) :
    Part.Updates a (a.captureBurst b data) := by
  unfold Part.captureBurst
  split
  · next hl =>
    obtain ⟨hj, -, -, hr⟩ := Part.running?_some (Part.liveJob?_some hl).1
    split
    · exact .captureEnd hj hr ..
    · exact .of_ledger rfl
  · exact .refl

theorem Part.Updates.feedBurstEnded (a : Part) (b : Burst) (data : List Byte) :
    Part.Updates a (a.feedBurstEnded b data) := by
  unfold Part.feedBurstEnded
  split
  · exact .of_ledger rfl
  · exact .of_ledger (Part.ledger_discardEnded ..)

theorem Part.Updates.commitRead (a : Part) (b : Burst) (data : List Byte) : Part.Updates a (a.commitRead b data) := by
  unfold Part.commitRead
  split
  · exact .of_ledger rfl
  · exact .refl

theorem Part.Updates.commitWrite (a : Part) (b : Burst) : Part.Updates a (a.commitWrite b) := by
  unfold Part.commitWrite
  split
  · next hl =>
    obtain ⟨hj, -, -, hr⟩ := Part.running?_some (Part.liveJob?_some hl).1
    exact .continueCommit hj hr ..
  · exact .refl

theorem Part.Course.setupReadDone (a : Part) (i : Nat) (cells : Memory) : Part.Course a (a.setupReadDone i cells) := by
  unfold Part.setupReadDone
  split
  · extract_lets data
    split
    · exact .updates (.of_ledger rfl)
    · exact .decideApply ..
  · exact .updates .refl

/-! ### Orders -/

theorem Part.Updates.note {a : Part} {x : Answered} (h : Part.Updates a x.part) (code : Byte) :
    Part.Course a (x.note code) := .noted code x.result h .refl

theorem Part.Updates.orderApply (a : Part) : Part.Updates a a.orderApply.part := by
  unfold Part.orderApply
  split <;> exact .of_ledger rfl

theorem Part.Updates.orderRun (a : Part) : Part.Updates a a.orderRun.part := by
  unfold Part.orderRun
  split <;> exact .of_ledger rfl

theorem Part.Updates.startHalt (a : Part) : Part.Updates a a.startHalt := by
  unfold Part.startHalt
  have hset : Part.Updates a (a.setRunState .halting) := .of_ledger rfl
  split
  · exact (hset.trans (.haltJobs ..)).inert (Part.ledger_checkHalted _)
  · exact hset.inert (Part.ledger_checkHalted _)

theorem Part.Updates.orderHalt (a : Part) : Part.Updates a a.orderHalt.part := by
  unfold Part.orderHalt
  split
  · exact .startHalt a
  · exact .refl
  · exact .refl
  · exact .refl
  · exact .refl

theorem Part.Updates.refreshZoneWith (a : Part) (g : Setup) (z : ZoneCfg) (cls : RefreshClass) (full : Bool) :
    Part.Updates a (a.refreshZoneWith g z cls full).part := by
  unfold Part.refreshZoneWith
  split
  · next hp => exact (Part.Updates.requestZone hp).trans (.takeUpZone ..)
  · exact .of_ledger (Part.ledger_latch ..)

theorem Part.Updates.orderRefreshZone (a : Part) (target mode cls : Nat) :
    Part.Updates a (a.orderRefreshZone target mode cls).part := by
  unfold Part.orderRefreshZone
  split
  · split
    · exact .refl
    · split
      · exact .refl
      · split
        · exact .refreshZoneWith ..
        · exact .refl
  · exact .refl

theorem Part.Updates.refreshPanelWith (a : Part) (g : Setup) (p : PanelNo) (c : PanelCfg) (cls : RefreshClass)
    (full : Bool) : Part.Updates a (a.refreshPanelWith g p c cls full).part := by
  unfold Part.refreshPanelWith
  split
  · next hp => exact .requestPanel hp
  · exact .of_ledger (Part.ledger_latch ..)

theorem Part.Updates.orderRefreshPanel (a : Part) (target mode cls : Nat) :
    Part.Updates a (a.orderRefreshPanel target mode cls).part := by
  unfold Part.orderRefreshPanel
  split
  · split
    · exact .refl
    · split
      · exact .refl
      · split
        · exact .refreshPanelWith ..
        · exact .refl
  · exact .refl

theorem Part.Updates.foldl_sweepOne (g : Setup) (ps : List PanelNo) (x : Answered) :
    Part.Updates x.part (ps.foldl g.sweepOne x).part := by
  induction ps generalizing x with
  | nil => exact .refl
  | cons p ps ih =>
    refine Part.Updates.trans (b := (g.sweepOne x p).part) ?_ (ih _)
    unfold Setup.sweepOne
    split
    · exact .refl
    · split
      · next hp => exact .requestPanel hp
      · exact .of_ledger (Part.ledger_latch ..)

theorem Part.Updates.orderSweep (a : Part) (mask : Nat) : Part.Updates a (a.orderSweep mask).part := by
  unfold Part.orderSweep
  split
  · split
    · exact .refl
    · split
      · exact .refl
      · exact .foldl_sweepOne _ _ ⟨a, .done⟩
  · exact .refl

theorem Part.Updates.orderSetClock (a : Part) (arg1 arg2 : BitVec 32) :
    Part.Updates a (a.orderSetClock arg1 arg2).part := by
  unfold Part.orderSetClock
  split
  · next h => exact .single (.clocked _ rfl fun hk => ⟨h.1, h.2, hk.2.2⟩)
  · exact .refl

theorem clearCauses_length (mask : BitVec 32) (i : Nat) (cs : List (Option Nat)) :
    (clearCauses mask i cs).length = cs.length := by
  induction cs generalizing i with
  | nil => rfl
  | cons c cs ih => rw [clearCauses, List.length_cons, ih, List.length_cons]

theorem Part.Updates.orderClearAttn (a : Part) (mask : BitVec 32) : Part.Updates a (a.orderClearAttn mask).part := by
  refine .of_ledger ?_
  rw [Part.ledger_eq_iff]
  exact ⟨rfl, rfl, rfl, rfl, rfl, rfl, rfl, rfl, clearCauses_length .., rfl⟩

theorem Part.Updates.orderRestorePort (a : Part) (target : Nat) : Part.Updates a (a.orderRestorePort target).part := by
  unfold Part.orderRestorePort
  split
  · split
    · exact .refl
    · split
      · exact .refl
      · exact .of_ledger (Part.ledger_restorePort ..)
  · exact .refl

theorem Part.Updates.answerOrder (a : Part) (o : Order) : Part.Updates a (a.answerOrder o).part := by
  unfold Part.answerOrder
  split
  · exact .orderApply a
  · exact .orderRun a
  · exact .orderHalt a
  · exact .orderRefreshZone ..
  · exact .orderRefreshPanel ..
  · exact .orderSweep ..
  · exact .orderSetClock ..
  · exact .orderClearAttn ..
  · exact .orderRestorePort ..
  · exact .refl

theorem Part.Course.takeOrder (a : Part) : Part.Course a a.takeOrder := (Part.Updates.answerOrder ..).note _

/-! ### Ports and the rail -/

theorem Part.Updates.withPanel {a : Part} {p : PanelNo} {f : Setup → PanelCfg → Part}
    (h : ∀ g c, Part.Updates a (f g c)) : Part.Updates a (a.withPanel p f) := by
  unfold Part.withPanel
  split
  · exact .refl
  · split
    · exact .refl
    · exact h ..

theorem Part.Updates.withSetup {a : Part} {f : Setup → Part} (h : ∀ g, Part.Updates a (f g)) :
    Part.Updates a (a.withSetup f) := by
  unfold Part.withSetup
  split
  · exact .refl
  · exact h ..

theorem Part.Updates.close (a : Part) (c : PanelCfg) (p : PanelNo) (busy : Bool) : Part.Updates a (a.close c p busy) := by
  unfold Part.close
  split
  · exact .of_ledger rfl
  · exact .of_ledger (Part.ledger_restAtOnce ..)

theorem Part.Updates.identArrives (a : Part) (g : Setup) (c : PanelCfg) (p : PanelNo) (width height : Nat) :
    Part.Updates a (a.identArrives g c p width height) := by
  unfold Part.identArrives
  split
  · exact .of_ledger rfl
  · exact .faultPort ..

theorem Part.ledger_closeEnds (a : Part) (p : PanelNo) : (a.closeEnds p).ledger = a.ledger := by
  unfold Part.closeEnds
  extract_lets idle
  split
  · rfl
  · exact Part.ledger_restAtOnce ..

theorem Part.Updates.busyNegated (a : Part) (p : PanelNo) : Part.Updates a (a.busyNegated p) := by
  unfold Part.busyNegated
  split
  · exact .of_ledger rfl
  · exact .of_ledger (Part.ledger_closeEnds ..)
  · split <;> exact .of_ledger rfl
  · exact .of_ledger rfl
  · exact .of_ledger rfl

theorem Part.Updates.tempArrives (a : Part) (g : Setup) (p : PanelNo) (degrees : Int) :
    Part.Updates a (a.tempArrives g p degrees) :=
  .of_ledger ((Part.ledger_restAtOnce ..).trans (Part.ledger_takeReading ..))

theorem Part.Updates.frameBusyPasses (a : Part) (g : Setup) (c : PanelCfg) (p : PanelNo) :
    Part.Updates a (a.frameBusyPasses g c p) := by
  unfold Part.frameBusyPasses
  split
  · exact .of_ledger rfl
  · exact .faultPort ..

theorem Part.Updates.closeBusyPasses (a : Part) (p : PanelNo) : Part.Updates a (a.closeBusyPasses p) := by
  unfold Part.closeBusyPasses
  split
  · exact .refl
  · split
    · exact .faultPort ..
    · exact .of_ledger (Part.ledger_changePort ..)

theorem Part.Updates.retryExpires (a : Part) (c : PanelCfg) (p : PanelNo) (holdPassed busy : Bool) :
    Part.Updates a (a.retryExpires c p holdPassed busy) := by
  unfold Part.retryExpires
  extract_lets counted
  split
  · exact .of_ledger (Part.ledger_changePort ..)
  · exact .of_ledger (Part.ledger_setPort ..)

theorem Part.Updates.railGood (a : Part) (g : Setup) : Part.Updates a (a.railGood g) :=
  Part.Updates.trans
    (.of_ledger (b := (a.changeRail { a.rail with state := .up, timer := none }).releaseRail g)
      (Part.ledger_releaseRail (a.changeRail { a.rail with state := .up, timer := none }) g))
    (.foldl (fun x p => .driveIfReady x g p) panelNos _)

theorem Part.ledger_loseRailAt (a : Part) (p : PanelNo) : (a.loseRailAt p).ledger = a.ledger := by
  unfold Part.loseRailAt
  split
  · split
    · exact Part.ledger_endFrameEarly ..
    · rfl
  · rfl

theorem Part.ledger_foldl_loseRailAt (ps : List PanelNo) (a : Part) : (ps.foldl Part.loseRailAt a).ledger = a.ledger := by
  induction ps generalizing a with
  | nil => rfl
  | cons p ps ih => exact (ih _).trans (Part.ledger_loseRailAt ..)

theorem Part.betweenFrames?_some {a : Part} {p : PanelNo} {x : RunningJob} (h : a.betweenFrames? p = some x) :
    a.Holds x ∧ x.2.1.panel = p := by
  unfold Part.betweenFrames? at h
  split at h
  · split at h
    · cases h
    · obtain ⟨hj, -, hp, hr⟩ := Part.running?_some (slot := x.1) (j := x.2.1) (r := x.2.2) h
      exact ⟨⟨hj, hr⟩, hp⟩
  · cases h

/-- The jobs that a loss of rail-good finds between frames stand in slots of their own. -/
theorem Part.betweenFrames?_nodup (a : Part) (ps : List PanelNo) (h : ps.Nodup) :
    ((ps.filterMap a.betweenFrames?).map (·.1)).Nodup := by
  have hdistinct : (ps.filterMap a.betweenFrames?).Nodup :=
    List.Pairwise.filterMap _ (fun p q hpq x hp y hq hxy => hpq
      ((Part.betweenFrames?_some hp).2.symm.trans (Part.betweenFrames?_some (hxy ▸ hq)).2)) h
  refine List.pairwise_map.2 (hdistinct.imp_of_mem fun {x y} hx hy hne e => hne ?_)
  obtain ⟨p, -, hp⟩ := List.mem_filterMap.1 hx
  obtain ⟨q, -, hq⟩ := List.mem_filterMap.1 hy
  obtain ⟨⟨hxj, hxr⟩, -⟩ := Part.betweenFrames?_some hp
  obtain ⟨⟨hyj, hyr⟩, -⟩ := Part.betweenFrames?_some hq
  obtain ⟨x1, x2, x3⟩ := x
  obtain ⟨y1, y2, y3⟩ := y
  simp only at e hxj hyj hxr hyr
  subst e
  rw [hxj] at hyj
  cases hyj
  rw [hxr] at hyr
  cases hyr
  rfl

theorem Part.Updates.railLost (a : Part) (g : Setup) : Part.Updates a (a.railLost g) := by
  unfold Part.railLost
  have hlost : (panelNos.foldl Part.loseRailAt (a.faultRail g 2)).ledger = a.ledger :=
    (Part.ledger_foldl_loseRailAt ..).trans (Part.ledger_faultRail ..)
  have hpool : (panelNos.foldl Part.loseRailAt (a.faultRail g 2)).pool = a.pool := ((Part.ledger_eq_iff _ _).1 hlost).2.2.2.1
  refine (Part.Updates.of_ledger hlost).trans (.abortJobs g (fun x hx => ?_) (a.betweenFrames?_nodup panelNos (by decide)))
  obtain ⟨p, -, hp⟩ := List.mem_filterMap.1 hx
  obtain ⟨⟨hj, hr⟩, -⟩ := Part.betweenFrames?_some hp
  exact ⟨(Part.job?_congr hpool _).trans hj, hr⟩

/-! ### Time -/

theorem Clock.InRange.tickEnd {k : Clock} (h : k.InRange) (c : Int) : (k.tickEnd c).InRange := by
  obtain ⟨hs, hd, ht, hw⟩ := h
  unfold Clock.tickEnd
  split
  · exact ⟨hs, hd, Nat.succ_pos _, hw⟩
  · next hne => exact ⟨hs, hd, by unfold Config.ticksPerSecond at hne; show k.tick + 1 < 32; omega, hw⟩

theorem Clock.tickEnd_mono (k : Clock) (c : Int) : (k.tickEnd c).mono = k.mono := by
  unfold Clock.tickEnd
  split <;> rfl

theorem Clock.InRange.secondEnd {k : Clock} (h : k.InRange) : k.secondEnd.InRange := by
  obtain ⟨hs, hd, ht, -⟩ := h
  refine ⟨?_, ?_, ht, Nat.mod_lt _ (by decide)⟩
  · show k.nextSecond < 86400
    unfold Clock.nextSecond Config.daySeconds
    split <;> omega
  · show (if _ then _ else _) < 65536
    split
    · exact Nat.mod_lt _ (by decide)
    · exact hd

theorem Zone.tick_keeps (z : Zone) : z.tick.Keeps z := by
  unfold Zone.tick
  split
  · exact ⟨rfl, rfl, rfl, .inl rfl⟩
  · split <;> exact ⟨rfl, rfl, rfl, .inl rfl⟩

theorem Part.Updates.tickEnd (a : Part) : Part.Updates a a.tickEnd :=
  (Part.Updates.single (.zoned Zone.tick fun _ z _ => z.tick_keeps)).tail
    (.clocked (a.clock.tickEnd a.compensation) (Clock.tickEnd_mono ..) fun h => h.tickEnd _)

theorem Part.Updates.settleExpired (a : Part) (n : Nat) : Part.Updates a (a.settleExpired n) := by
  unfold Part.settleExpired
  extract_lets taken
  have ht : Part.Updates a taken := .updateZone _ _ _ fun _ => ⟨rfl, rfl, rfl, .inl rfl⟩
  split
  · exact ht
  · split
    · exact ht.trans (.expire ..)
    · exact ht

theorem Energy.InRange.advanceLight {e : Energy} (h : e.InRange) (g : GlobalSettings) : (e.advanceLight g).InRange := by
  obtain ⟨hv, hl, hn⟩ := h
  unfold Energy.advanceLight
  cases hd : e.dark <;> simp only [hd, if_true, Bool.false_eq_true, if_false] at hn ⊢
  · split
    · split
      · exact ⟨hv, hl, Nat.succ_pos _⟩
      · exact ⟨hv, hl, by simp only [Bool.false_eq_true, if_false]; omega⟩
    · exact ⟨hv, hl, Nat.succ_pos _⟩
  · split
    · split
      · exact ⟨hv, hl, Nat.succ_pos _⟩
      · exact ⟨hv, hl, by simp only [if_true]; omega⟩
    · exact ⟨hv, hl, Nat.succ_pos _⟩

theorem clampInput_le (hi : Nat) (v : Int) : clampInput hi v ≤ hi := Nat.min_le_left ..

theorem Part.Updates.takeSample (a : Part) (storage solar : Int) : Part.Updates a (a.takeSample storage solar) := by
  unfold Part.takeSample
  extract_lets vs vsol
  have hin : ∀ e : Energy, a.energy.InRange → e.dark = a.energy.dark → e.runCount = a.energy.runCount → e.vs = vs →
      e.vsol = vsol → e.InRange := fun e h hd hn hv hl => by
    refine ⟨hv ▸ clampInput_le .., hl ▸ clampInput_le .., ?_⟩
    rw [hd, hn]
    exact h.2.2
  split
  · have hs : Part.Updates a { a with energy := { a.energy with vs := vs, vsol := vsol, sampled := true } } :=
      .single (.sampled { a.energy with vs := vs, vsol := vsol, sampled := true } fun h =>
        hin { a.energy with vs := vs, vsol := vsol, sampled := true } h rfl rfl rfl rfl)
    exact hs.inert rfl
  · next g _ =>
    have hs : Part.Updates a { a with energy := a.energy.sample g.globals vs vsol } :=
      .single (.sampled _ fun h => Energy.InRange.advanceLight
        (e := { a.energy with vs := vs, vsol := vsol, sampled := true, usable := usableEnergy g.globals vs })
        (hin { a.energy with vs := vs, vsol := vsol, sampled := true, usable := usableEnergy g.globals vs } h
          rfl rfl rfl rfl) g.globals)
    exact (hs.inert (c := { a with energy := a.energy.sample g.globals vs vsol, walkOwed := true }) rfl).trans
      (.levelChanged ..)

theorem Part.Updates.walkIfOwed (a : Part) : Part.Updates a a.walkIfOwed := by
  unfold Part.walkIfOwed
  split
  · exact .walk a
  · exact .refl

theorem Part.Updates.secondTaskWith (g : Setup) (storage solar : Int) (a : Part) (t : SecondTask) :
    Part.Updates a (Part.secondTaskWith g storage solar a t) := by
  have hif : ∀ {c : Prop} [Decidable c] {b : Part}, Part.Updates a b → Part.Updates a (if c then b else a) :=
    fun {c} _ {b} h => by
    split
    · exact h
    · exact .refl
  cases t with
  | epochZones => exact hif (.foldl (.epochAt g) _ _)
  | epochSweeps => exact hif (.surplusTest ..)
  | epochLead =>
    simp only [Part.secondTaskWith, Part.epochLeadTest]
    split
    · exact .of_ledger (Part.ledger_latch ..)
    · exact .refl
  | quietEnd => exact hif (.foldl (.quietEndAt g) _ _)
  | sweepTime => exact hif (.foldl (.sweepTimeAt g) _ _)
  | maximumHold => exact .foldl (.holdAt g) _ _
  | polls => exact .foldl (fun x p => .of_ledger (Part.ledger_pollAt g x p)) _ _
  | staleness => exact .foldl (fun x p => .of_ledger (Part.ledger_staleAt g x p)) _ _
  | starved => exact .starvedTest ..
  | sample => exact .takeSample ..
  | walk => exact .walkIfOwed a

theorem Part.Updates.secondTask (storage solar : Int) (a : Part) (t : SecondTask) :
    Part.Updates a (Part.secondTask storage solar a t) := by
  unfold Part.secondTask
  split
  · exact .secondTaskWith ..
  · split
    · exact .takeSample ..
    · exact .walkIfOwed a
    all_goals exact .refl

theorem Part.Updates.secondEvent (a : Part) (storage solar : Int) (order : List SecondTask) :
    Part.Updates { a with clock := a.clock.secondEnd } (a.secondEvent storage solar order) :=
  .foldl (.secondTask storage solar) _ _

/-! ### Touches -/

theorem Part.Updates.growJob (a : Part) (slot tx ty : Nat) : Part.Updates a (a.growJob slot tx ty) := by
  unfold Part.growJob
  split
  · next j hj => exact .single (.rewritten slot j { j with rect := j.rect.join ⟨tx, tx, ty, ty⟩ } hj Iff.rfl rfl)
  · exact .refl

theorem Part.growJob_tiles (a : Part) (slot tx ty : Nat) : (a.growJob slot tx ty).tiles = a.tiles := by
  unfold Part.growJob
  split <;> rfl

/-- A CLEAN tile takes another state (R19). -/
theorem Tile.Sound.leaveClean {t : Tile} (h : t.Sound) (hc : t.state = .clean) (x : TileState) :
    ({ t with state := x } : Tile).Sound :=
  ⟨h.1, fun e => by have := h.2 e; rw [hc] at this; cases this⟩

theorem Part.Update.queueTile {a : Part} {g : Setup} {t : Touch} {x : Tile}
    (hx : a.tileAt? g t.panel t.tx t.ty = some x) (hc : x.state = .clean) :
    Part.Update a (a.setTile g t.panel t.tx t.ty fun y => { y with state := .queued }) := by
  refine .retiled g t.panel t.tx t.ty _ fun y hy hs => ?_
  rw [hx] at hy
  cases hy
  exact ⟨hs.leaveClean hc _, rfl, by simp [hc]⟩

theorem Part.Updates.touchClean {a : Part} {g : Setup} {t : Touch} {x : Tile}
    (hx : a.tileAt? g t.panel t.tx t.ty = some x) (hc : x.state = .clean) : Part.Updates a (a.touchClean g t x) := by
  unfold Part.touchClean
  split
  · exact (Part.Updates.growJob ..).tail (.queueTile ((Part.tileAt?_congr (Part.growJob_tiles ..) ..).trans hx) hc)
  · split
    · exact .single (.queueTile hx hc)
    · extract_lets dirtied
      have hd : Part.Updates a dirtied := by
        refine .single (.tiled g t.panel _ _ fun tx ty y hy hr hs => ?_)
        obtain ⟨rfl, rfl⟩ := Rect.contains_single hr
        rw [hx] at hy
        cases hy
        exact hs.leaveClean hc _
      split
      · exact hd
      · exact hd.inert (Part.ledger_latch ..)

theorem Part.Updates.touchActive {a : Part} {g : Setup} {c : PanelCfg} {t : Touch} {x : Tile}
    (hx : a.tileAt? g t.panel t.tx t.ty = some x) (hc : x.state = .active) : Part.Updates a (a.touchActive g c t) := by
  unfold Part.touchActive
  split
  · next hr _ =>
    obtain ⟨hj, -, -, hrun⟩ := Part.running?_some hr
    split
    · extract_lets i
      split
      · exact .refl
      · refine .single (.rewritten _ _ _ hj Iff.rfl ?_)
        rw [hrun]
        rfl
    · refine .single (.retiled g t.panel t.tx t.ty _ fun y hy hs => ?_)
      rw [hx] at hy
      cases hy
      exact ⟨⟨hs.1, fun _ => hc⟩, rfl, Iff.rfl⟩
  · exact .refl

theorem Part.Updates.restartZoned (a : Part) (g : Setup) (x : Tile) : Part.Updates a (a.restartZoned g x) := by
  unfold Part.restartZoned
  split
  · exact .restartTimer ..
  · exact .refl

theorem Part.Updates.targetTouch (a : Part) (t : Touch) : Part.Updates a (a.targetTouch t) := by
  unfold Part.targetTouch
  split
  · exact .refl
  · split
    · next hx =>
      refine Part.Updates.trans ?_ (.restartZoned ..)
      split
      · next hc => exact .touchClean hx hc
      · exact .refl
      · exact .refl
      · next hc => exact .touchActive hx hc
    · exact .refl

theorem Part.Updates.shownTouch (a : Part) (t : Touch) : Part.Updates a (a.shownTouch t) := by
  unfold Part.shownTouch
  split
  · exact .refl
  · refine ((Part.Updates.single (.retiled _ _ _ _ _ fun y _ hs => ?_)).inert (Part.ledger_latch ..)).inert
      (Part.ledger_lateTouch ..)
    exact ⟨hs, rfl, Iff.rfl⟩

theorem Part.Updates.taint (a : Part) (g : Setup) (c : PanelCfg) (t : Touch) : Part.Updates a (a.taint g c t) := by
  unfold Part.taint
  split
  · next slot j r e hr he =>
    obtain ⟨hj, -, -, hrun⟩ := Part.running?_some hr
    split
    · extract_lets marked
      have hm : Part.Updates a (a.setEngine t.panel (some marked)) := .of_ledger rfl
      unfold Part.reformCommit
      split
      · split
        · exact hm.trans (Part.Updates.continueCommit (a := a.setEngine t.panel (some marked)) hj hrun ..)
        · exact hm
      · exact hm
    · exact .refl
  · exact .refl

theorem Part.Updates.stageTouch (a : Part) (t : Touch) : Part.Updates a (a.stageTouch t) := by
  unfold Part.stageTouch
  split
  · exact .refl
  · extract_lets noted
    have hn : Part.Updates a noted := .of_ledger (Part.ledger_latch ..)
    split
    · split
      · exact hn.trans (.taint ..)
      · exact hn
    · exact hn

end Sys2Proof.Machine
end

section
/-! PROOFS. Said once what a command can answer: nothing, the reset's own moves, a dropped transaction in reset, or its own
effect with what every step ends with. -/

namespace Sys2Proof

/-! ### The kinds of commands -/

/-- The command reports a forwarded host byte `d` at `a` (R145). -/
def Instr.Forwards (c : Instr) (a : Nat) (d : Byte) : Prop :=
  c = .targetTouch a d ∨ c = .shownTouch a d ∨ c = .stageTouch a d
    ∨ c = .orderBlockWrite a d ∨ c = .setupEdit a d ∨ c = .untappedWrite a d

/-- The command reports the end of a write burst of this kind (R108, R149). -/
def Instr.Lands (c : Instr) (k : Machine.BurstKind) : Prop :=
  (c = .captureBurstEnd ∧ k = .captureStage) ∨ (c = .commitWriteEnd ∧ k = .commitWrite)
    ∨ (c = .statusPostEnd ∧ k = .statusPost)

/-- The command is neither one of the reset's nor SECOND. -/
def Instr.plain : Instr → Bool
  | .hardwareReset _ | .resetEnd _ _ | .second _ _ _ => false
  | _ => true

theorem Instr.plain_ne {c : Instr} (h : c.plain = true) :
    (∀ n, c ≠ .hardwareReset n) ∧ (∀ a b, c ≠ .resetEnd a b) ∧ ∀ a b o, c ≠ .second a b o := by
  refine ⟨?_, ?_, ?_⟩ <;> rintro _ <;> intros <;> rintro rfl <;> cases h

end Sys2Proof

namespace Sys2Proof.Machine

/-! ### What every step ends with keeps (R46, R146, R149) -/

theorem State.advancePath_cases (s : State) :
    s.advancePath = s ∨ (s.path.burst = none ∧
      ((s.path.host = none ∧ s.advancePath = s.grant)
        ∨ ∃ h, s.path.host = some h ∧ h.phase = .held
          ∧ ((∃ p, s.advancePath
                = ({ s with path := { s.path with host := some { h with inserted := true } } }).grantPanel 0 p)
            ∨ s.advancePath = { s with path := { s.path with host := some { h with phase := .forwarding } } }))) := by
  cases hb : s.path.burst with
  | some b => exact .inl (by simp [State.advancePath, hb])
  | none =>
    cases hh : s.path.host with
    | none => exact .inr ⟨rfl, .inl ⟨rfl, by simp [State.advancePath, hb, hh]⟩⟩
    | some h =>
      by_cases hp : h.phase = .held
      · refine .inr ⟨rfl, .inr ⟨h, rfl, hp, ?_⟩⟩
        unfold State.advancePath
        simp only [hb, hh, hp, if_true]
        split
        · exact .inl ⟨_, rfl⟩
        · exact .inr rfl
      · exact .inl (by simp [State.advancePath, hb, hh, hp])

/-- What a grant does: nothing, or it begins a burst and keeps the host's transaction and the ledger; what stays waiting
stays, but for the posting that begins. -/
structure State.Granted (s t : State) : Prop where
  host : t.path.host = s.path.host
  ledger : t.part.ledger = s.part.ledger
  walkOwed : t.part.walkOwed = s.part.walkOwed
  posting : t.part.unit.postingOwed = true →
    s.part.unit.postingOwed = true ∧ t.part.unit.postWaiting = s.part.unit.postWaiting

theorem State.Granted.self (s : State) : s.Granted s := ⟨rfl, rfl, rfl, fun h => ⟨h, rfl⟩⟩

theorem State.grantPanel_granted (s : State) (l p : PanelNo) : s.Granted (s.grantPanel l p) := by
  unfold State.grantPanel
  split
  · exact ⟨rfl, rfl, rfl, fun h => ⟨h, rfl⟩⟩
  · exact .self s

theorem State.grantUnit_granted (s : State) : s.Granted s.grantUnit := by
  unfold State.grantUnit
  split
  · exact ⟨rfl, rfl, rfl, fun h => ⟨h, rfl⟩⟩
  · split
    · exact ⟨rfl, rfl, rfl, nofun⟩
    · exact .self s

theorem State.grantFrom_granted (s : State) (ls : List PanelNo) : s.Granted (s.grantFrom ls) := by
  induction ls with
  | nil => exact s.grantUnit_granted
  | cons l ls ih =>
    unfold State.grantFrom
    split
    · exact s.grantPanel_granted ..
    · exact ih

/-- The memory port's business keeps the ledger and the walk mark. -/
theorem State.advancePath_part (s : State) :
    s.advancePath.part.ledger = s.part.ledger ∧ s.advancePath.part.walkOwed = s.part.walkOwed := by
  rcases s.advancePath_cases with h | ⟨-, ⟨-, h⟩ | ⟨k, -, -, ⟨p, h⟩ | h⟩⟩ <;> rw [h]
  · exact ⟨rfl, rfl⟩
  · exact ⟨(s.grantFrom_granted _).ledger, (s.grantFrom_granted _).walkOwed⟩
  · exact ⟨(State.grantPanel_granted _ 0 p).ledger, (State.grantPanel_granted _ 0 p).walkOwed⟩
  · exact ⟨rfl, rfl⟩

theorem State.finish_ledger (b u : State) : (State.finish b u).part.ledger = (u.part.takeWalks 8).ledger :=
  (State.advancePath_part _).1.trans rfl

theorem State.finish_walkOwed (b u : State) : (State.finish b u).part.walkOwed = false :=
  (State.advancePath_part _).2.trans (Part.takeWalks_walkOwed 8 u.part)

theorem State.finish_updates (b u : State) : Part.Updates u.part (State.finish b u).part :=
  (Part.Updates.takeWalks 8 u.part).inert (State.finish_ledger b u)

theorem State.finish_pending (b u : State) : (State.finish b u).pending = u.pending :=
  (State.finish_agreesOutsideWalk b u).pending

theorem State.finish_memory (b u : State) : (State.finish b u).memory = u.memory :=
  (State.finish_agreesOutsideWalk b u).memory

theorem State.finish_inReset (b u : State) : (State.finish b u).path.inReset = u.path.inReset :=
  (State.finish_agreesOutsideWalk b u).inReset

/-! ### The memory path's invariant at the end of a step -/

/-- A grant that begins no burst finds no request waiting (R146). -/
theorem State.grantUnit_idle {s : State} (h : s.grantUnit.path.burst = none) :
    s.grantUnit = s ∧ s.part.unit.setupRequest = none ∧ s.part.unit.postWaiting = false := by
  unfold State.grantUnit at h ⊢
  split at h
  · cases h
  · next hs =>
    split at h
    · cases h
    · next hw => exact ⟨by simp [hw], hs, Bool.eq_false_iff.2 hw⟩

theorem State.grantPanel_burst {s : State} {l p : PanelNo} (h : s.nextPanel? l = some p) :
    (s.grantPanel l p).path.burst ≠ none := by
  obtain ⟨hl, -⟩ := State.nextPanel?_eq_some h
  unfold State.grantPanel
  cases he : s.part.engine? p with
  | none => simp [Part.requestLevel?, he] at hl
  | some e =>
    cases hb : e.presented? with
    | none => simp [Part.requestLevel?, he, hb] at hl
    | some b => simp [hb]

theorem State.grantFrom_idle {s : State} (ls : List PanelNo) (h : (s.grantFrom ls).path.burst = none) :
    s.grantFrom ls = s ∧ (∀ l ∈ ls, s.nextPanel? l = none) ∧ s.part.unit.setupRequest = none
      ∧ s.part.unit.postWaiting = false := by
  induction ls with
  | nil =>
    obtain ⟨hs, hq, hw⟩ := State.grantUnit_idle h
    exact ⟨hs, nofun, hq, hw⟩
  | cons l ls ih =>
    unfold State.grantFrom at h ⊢
    cases hn : s.nextPanel? l with
    | some p =>
      rw [hn] at h
      exact absurd h (State.grantPanel_burst hn)
    | none =>
      rw [hn] at h
      obtain ⟨hs, hls, hq⟩ := ih h
      exact ⟨hs, List.forall_mem_cons.2 ⟨hn, hls⟩, hq⟩

theorem mem_panelNos (p : PanelNo) : p ∈ panelNos := by
  revert p
  decide

/-- The memory port's next business leaves no request waiting at a free port (R146). -/
theorem State.advancePath_neverIdles (s : State) : s.advancePath.NeverIdles := by
  intro _ hb hh
  have hgrant : s.grant.path.burst = none → s.grant.requestWaits = false := fun h => by
    obtain ⟨hs, hl, hq, hw⟩ := State.grantFrom_idle _ h
    have hnone : ∀ p, s.part.requestLevel? p = none := fun p => Option.eq_none_iff_forall_ne_some.2 fun l =>
      State.nextPanel?_eq_none (hl l (mem_panelNos l)) p
    unfold State.grant at h ⊢
    rw [hs]
    simp [State.requestWaits, hnone, hq, hw]
  rcases s.advancePath_cases with h | ⟨-, ⟨-, h⟩ | ⟨k, -, -, ⟨p, h⟩ | h⟩⟩
  · rw [h] at hb hh
    have : s.advancePath = s.grant := by simp [State.advancePath, hb, hh]
    rw [this]
    refine hgrant ?_
    rw [← this, h]
    exact hb
  · rw [h] at hb ⊢
    exact hgrant hb
  · rw [h, (State.grantPanel_granted _ 0 p).host] at hh
    cases hh
  · rw [h] at hh
    cases hh

/-- The memory port's next business begins no burst beside a forwarded transaction (R144). -/
theorem State.NeverInterleaves.advancePath {s : State} (hs : s.NeverInterleaves) : s.advancePath.NeverInterleaves := by
  rcases s.advancePath_cases with h | ⟨hb, ⟨hh, h⟩ | ⟨k, hh, hp, ⟨p, h⟩ | h⟩⟩ <;> rw [h]
  · exact hs
  · intro _
    simp [Path.forwarding, State.grant, (s.grantFrom_granted _).host, hh]
  · intro _
    simp [Path.forwarding, (State.grantPanel_granted _ 0 p).host, hp]
  · intro hburst
    rw [hb] at hburst
    cases hburst

/-- What a step owes is waiting, or in progress, when the memory port takes its next business (R149). -/
theorem State.owePosting_postingAsked (b e s : State) :
    (State.owePosting b e s).part.unit.postingOwed = true →
      ((State.owePosting b e s).part.unit.postWaiting || (State.owePosting b e s).path.busyWith .statusPost) = true := by
  intro h
  have hw : (State.owePosting b e s).part.unit.postWaiting
      = (s.part.unit.postWaiting
        || ((State.owePosting b e s).part.unit.postingOwed && !s.path.busyWith .statusPost)) := rfl
  have hp : (State.owePosting b e s).path = s.path := rfl
  rw [hw, h, hp]
  cases s.part.unit.postWaiting <;> cases s.path.busyWith .statusPost <;> rfl

theorem State.postingAsked_advancePath {s : State}
    (hs : s.part.unit.postingOwed = true → (s.part.unit.postWaiting || s.path.busyWith .statusPost) = true) :
    s.advancePath.PostingAsked := by
  have hfree : s.path.burst = none → s.part.unit.postingOwed = true → s.part.unit.postWaiting = true := fun hb ho => by
    have := hs ho
    simpa [Path.busyWith, hb] using this
  intro _ ho
  rcases s.advancePath_cases with h | ⟨hb, ⟨-, h⟩ | ⟨k, -, -, ⟨p, h⟩ | h⟩⟩ <;> rw [h] at ho ⊢
  · exact hs ho
  · obtain ⟨ho', hw⟩ := (s.grantFrom_granted _).posting ho
    rw [State.grant, hw, hfree hb ho', Bool.true_or]
  · obtain ⟨ho', hw⟩ := (State.grantPanel_granted _ 0 p).posting ho
    rw [hw, Bool.or_eq_true_iff]
    exact .inl (hfree hb ho')
  · rw [Bool.or_eq_true_iff]
    exact .inl (hfree hb ho)

/-- Every step that ends as steps do keeps the memory path sound. -/
theorem State.finish_pathSound {b u : State} (h : u.NeverInterleaves) : (State.finish b u).PathSound :=
  ⟨State.NeverInterleaves.advancePath h, State.advancePath_neverIdles _,
    State.postingAsked_advancePath (State.owePosting_postingAsked b u _)⟩

/-! ### A command's own effect -/

/-- The part as a command's counting leaves it: SECOND's advances the clock (R152). -/
def Part.countedFor (a : Part) : Instr → Part
  | .second _ _ _ => { a with clock := a.clock.secondEnd }
  | _ => a

/-- What a command may leave in the sign memory: what stood there, with a forwarded byte, or with its write burst. -/
inductive State.Stores (c : Instr) (s : State) : Memory → Prop
  | none : State.Stores c s s.memory
  | byte (a : Nat) (d : Byte) (hc : c.Forwards a d) (hf : s.forwards a = true) :
      State.Stores c s (if a < Config.memoryEnd then s.memory.write a d else s.memory)
  | burst (b : Burst) (hb : s.path.burst = some b) (hc : c.Lands b.kind) :
      State.Stores c s (s.memory.writeRun b.addr b.data)

/-- What a command's own effect `u` on `s` keeps to. -/
structure State.Effect (c : Instr) (s u : State) : Prop where
  queue : u.pending = s.pending
  running : u.path.inReset = s.path.inReset
  memory : State.Stores c s u.memory
  part : Part.Course (s.part.countedFor c) u.part
  path : s.NeverInterleaves → u.NeverInterleaves

/-- RESET_END's own effect (R149, R150, R159). -/
def State.resume (s : State) (second first : Bool) : State :=
  { s with
    path := { s.path with inReset := false }
    part := { s.part with
      unit := { s.part.unit with base := Config.windowBase second first, postingOwed := true } } }

theorem State.resume_updates (s : State) (second first : Bool) :
    Part.Updates s.part (State.finish s (s.resume second first)).part :=
  (Part.Updates.of_ledger (a := s.part) (b := (s.resume second first).part) rfl).trans
    (State.finish_updates s (s.resume second first))

theorem exec_resetEnd {s : State} (h : s.path.inReset = true) (second first : Bool) :
    exec (.resetEnd second first) s = .next (State.finish s (s.resume second first)) := by
  simp only [exec, execResetEnd, h, if_true, State.resume]

/-- What a command can answer. -/
inductive State.Answer (c : Instr) (s : State) : State → Prop
  /-- the reset cuts everything -/
  | cut (landed : Nat) (hc : c = .hardwareReset landed) :
      State.Answer c s
        { s with
          memory := s.cutMemory landed
          path := { Path.reset with host := s.path.host.map fun h => { h with phase := .dropped } }
          part := { Part.reset with unit := { WindowUnit.reset with base := s.part.unit.base } } }
  /-- the reset ends -/
  | resumed (second first : Bool) (hc : c = .resetEnd second first) (hr : s.path.inReset = true) :
      State.Answer c s
        (State.finish s (s.resume second first))
  /-- nothing happens: the state does not hold what the command reports (log 3) -/
  | idle (hc : ∀ n, c ≠ .hardwareReset n) (he : ∀ a b, c = .resetEnd a b → s.path.inReset = false)
      (hs : ∀ a b o, c = .second a b o → s.part.clock.secondDue = true → s.path.inReset = true) : State.Answer c s s
  /-- in reset a host transaction is not forwarded (R150) -/
  | dropped (h : Option HostTransaction) (hc : (∃ x a, c = .hostTransactionStart x a) ∨ ∃ x a, c = .hostTransactionEnd x a)
      (hr : s.path.inReset = true) (hd : ∀ x, h = some x → x.phase = .dropped) :
      State.Answer c s { s with path := { s.path with host := h } }
  /-- the command's own effect, and what every step ends with -/
  | effect (u : State) (hc : ∀ n, c ≠ .hardwareReset n) (hc' : ∀ a b, c ≠ .resetEnd a b) (hr : s.path.inReset = false)
      (hs : ∀ a b o, c = .second a b o → s.part.clock.secondDue = true) (hu : State.Effect c s u) :
      State.Answer c s (State.finish s u)

/-- The command answers a next state, and one that it can answer. -/
def State.Answers (c : Instr) (s : State) : Prop := ∃ t, exec c s = .next t ∧ State.Answer c s t

theorem State.Answers.unchanged {c : Instr} {s : State} (hc : c.plain = true) (h : exec c s = .next s) : State.Answers c s :=
  by
  obtain ⟨h1, h2, h3⟩ := Instr.plain_ne hc
  exact ⟨s, h, .idle h1 (fun a b e => absurd e (h2 a b)) fun a b o e => absurd e (h3 a b o)⟩

theorem State.Answers.of_event {c : Instr} {s : State} {en : Bool} {f : State → State}
    (hp : c.plain = true) (hc : exec c s = s.event en f) (h : en = true → State.Effect c s (f s)) : State.Answers c s := by
  rcases s.event_cases en f with hi | ⟨he, hr, hn⟩
  · exact .unchanged hp (hc.trans hi)
  · obtain ⟨h1, h2, h3⟩ := Instr.plain_ne hp
    exact ⟨_, hc.trans hn, .effect _ h1 h2 hr (fun a b o e => absurd e (h3 a b o)) (h he)⟩

/-- The effect of a command that changes only the part. -/
theorem State.Effect.of_part {c : Instr} {s : State} {a : Part} (h : Part.Course (s.part.countedFor c) a) :
    State.Effect c s { s with part := a } :=
  ⟨rfl, rfl, .none, h, id⟩

theorem Part.countedFor_plain {c : Instr} (h : c.plain = true) (a : Part) : a.countedFor c = a := by
  unfold Part.countedFor
  split
  · cases h
  · rfl

theorem State.Answers.of_partEvent {c : Instr} {s : State} {en : Bool} {f : Part → Part}
    (hp : c.plain = true) (hc : exec c s = s.partEvent en f) (h : ∀ a, Part.Updates a (f a)) : State.Answers c s :=
  .of_event hp hc fun _ => .of_part (.updates (by rw [Part.countedFor_plain hp]; exact h s.part))

/-- A command that is an order. -/
theorem State.Answers.of_order {c : Instr} {s : State} {en : Bool} {f : Part → Answered} {code : Byte}
    (hp : c.plain = true) (hc : exec c s = s.partEvent en fun x => (f x).note code)
    (h : ∀ a, Part.Updates a (f a).part) : State.Answers c s :=
  .of_event hp hc fun _ => .of_part (by rw [Part.countedFor_plain hp]; exact (h s.part).note code)

/-! ### The effects that reach the path or the memory -/

theorem State.NeverInterleaves.of_free {u : State} (h : u.path.burst = none) : u.NeverInterleaves := fun hb => by
  rw [h] at hb
  cases hb

theorem State.NeverInterleaves.of_host {u : State} (h : u.path.host = none) : u.NeverInterleaves := fun _ => by
  simp [Path.forwarding, h]

theorem State.Effect.of_byte {c : Instr} {s : State} {a : Nat} {d : Byte} (hp : c.plain = true) (hc : c.Forwards a d)
    (hf : s.forwards a = true) {b : Part} (h : Part.Updates s.part b) :
    State.Effect c s { s.forwardByte a d with part := b } := by
  refine ⟨rfl, rfl, .byte a d hc hf, .updates (by rwa [Part.countedFor_plain hp]), fun hi hb => ?_⟩
  have := hi hb
  unfold Path.forwarding at this ⊢
  unfold State.forwardByte
  cases hh : s.path.host with
  | none => rfl
  | some x =>
    rw [hh] at this
    exact this

theorem State.forwards_of_touch? {s : State} {plane : Plane} {a : Nat} {t : Touch} (h : s.touch? plane a = some t) :
    s.forwards a = true := by
  unfold State.touch? at h
  split at h
  · assumption
  · cases h

theorem State.forwards_of_orderOffset? {s : State} {a o : Nat} (h : s.orderOffset? a = some o) : s.forwards a = true := by
  unfold State.orderOffset? at h
  split at h
  · assumption
  · cases h

/-- The end of a burst: the port is free, and a write burst's data is in the memory (R108). -/
theorem State.Effect.of_burst {c : Instr} {s : State} {b : Burst} (hp : c.plain = true) (hb : s.path.burst = some b)
    (hk : b.kind.writes = true → c.Lands b.kind) {a : Part} (h : Part.Updates s.part a) :
    State.Effect c s { s.landBurst b with part := a } := by
  unfold State.landBurst
  split
  · next hw => exact ⟨rfl, rfl, .burst b hb (hk hw), .updates (by rwa [Part.countedFor_plain hp]), fun _ => .of_free rfl⟩
  · exact ⟨rfl, rfl, .none, .updates (by rwa [Part.countedFor_plain hp]), fun _ => .of_free rfl⟩

theorem State.Effect.hostStart (command : HostCommand) (addr : Nat) (s : State) :
    State.Effect (.hostTransactionStart command addr) s
      { s with path := { s.path with host := some (HostTransaction.begin command addr) } } :=
  ⟨rfl, rfl, .none, .updates .refl, fun _ _ => rfl⟩

theorem State.Effect.released (x : HostData) (g : Bool) (s : State) :
    State.Effect (.hostTransactionEnd x g) s s.releaseHost :=
  ⟨rfl, rfl, .none, .updates .refl, fun _ => .of_host rfl⟩

theorem State.advancePath_host {s : State} (h : s.path.host = none) : s.advancePath.path.host = none := by
  rcases s.advancePath_cases with e | ⟨-, ⟨-, e⟩ | ⟨k, hk, -⟩⟩
  · rwa [e]
  · rw [e]
    exact (s.grantFrom_granted _).host.trans h
  · rw [h] at hk
    cases hk

theorem State.Effect.ended (x : HostData) (g : Bool) (s : State) (h : HostTransaction) :
    State.Effect (.hostTransactionEnd x g) s (State.endTransaction h x g s) := by
  unfold State.endTransaction
  extract_lets freed unread served
  split
  · exact ⟨rfl, rfl, .none, .updates .refl, fun _ => .of_host rfl⟩
  · split
    · have hserved : served.AgreesOutsidePath freed ∧ served.path.host = none ∧ Part.Updates freed.part served.part := by
        unfold served
        split
        · exact ⟨State.outsidePath_advancePath _, State.advancePath_host rfl, .of_ledger (State.advancePath_part _).1⟩
        · exact ⟨rfl, rfl, .refl⟩
      obtain ⟨hagree, hhost, hpart⟩ := hserved
      refine ⟨hagree.pending, hagree.inReset, ?_, hpart.noteAfter _ _ (.answerOrder ..) rfl, fun _ => .of_host hhost⟩
      show State.Stores _ s served.memory
      rw [hagree.memory]
      exact .none
    · exact ⟨rfl, rfl, .none, .updates .refl, fun _ => .of_host rfl⟩
  · exact ⟨rfl, rfl, .none, .updates .refl, fun _ => .of_host rfl⟩

/-! ### Every command answers -/

theorem State.answered_hostTransactionStart (command : HostCommand) (addr : Nat) (s : State) :
    State.Answers (.hostTransactionStart command addr) s := by
  cases hh : s.path.host with
  | some h => exact .unchanged rfl (by simp only [exec, execHostTransactionStart, hh])
  | none =>
    cases hr : s.path.inReset with
    | true =>
      refine ⟨_, by simp only [exec, execHostTransactionStart, hh, hr, if_true],
        .dropped (some { HostTransaction.begin command addr with phase := .dropped }) (.inl ⟨_, _, rfl⟩) hr fun x hx => ?_⟩
      cases hx
      rfl
    | false =>
      exact .of_event rfl (en := true)
        (f := fun x => { x with path := { x.path with host := some (HostTransaction.begin command addr) } })
        (by simp only [exec, execHostTransactionStart, hh, hr, Bool.false_eq_true, if_false]) fun _ => .hostStart ..

theorem State.answered_hostTransactionEnd (data : HostData) (grantFirst : Bool) (s : State) :
    State.Answers (.hostTransactionEnd data grantFirst) s := by
  cases hh : s.path.host with
  | none => exact .unchanged rfl (by simp only [exec, execHostTransactionEnd, hh])
  | some h =>
    cases hph : h.phase with
    | held => exact .unchanged rfl (by simp only [exec, execHostTransactionEnd, hh, hph])
    | forwarding =>
      exact .of_event rfl (en := true) (f := State.endTransaction h data grantFirst)
        (by simp only [exec, execHostTransactionEnd, hh, hph]) fun _ => .ended ..
    | dropped =>
      cases hr : s.path.inReset with
      | true =>
        exact ⟨s.releaseHost, by simp only [exec, execHostTransactionEnd, hh, hph, hr, if_true],
          .dropped none (.inr ⟨_, _, rfl⟩) hr nofun⟩
      | false =>
        exact .of_event rfl (en := true) (f := State.releaseHost)
          (by simp only [exec, execHostTransactionEnd, hh, hph, hr, Bool.false_eq_true, if_false]) fun _ => .released ..

/-- A command that is an event of the burst in progress. -/
theorem State.Answers.of_burst {c : Instr} {s : State} {en : Burst → Bool} {f : Burst → State → State}
    (hp : c.plain = true) (hc : exec c s = match s.path.burst with
      | some b => s.event (en b) (f b)
      | none => .next s)
    (h : ∀ b, s.path.burst = some b → en b = true → State.Effect c s (f b s)) : State.Answers c s := by
  cases hb : s.path.burst with
  | some b => exact .of_event hp (hc.trans (by rw [hb])) (h b hb)
  | none => exact .unchanged hp (hc.trans (by rw [hb]))

theorem State.answered_captureBurstEnd (s : State) : State.Answers .captureBurstEnd s :=
  .of_burst rfl (en := fun b => b.kind.isCapture) (show _ = execCaptureBurstEnd s from rfl) fun b hb hk => .of_burst rfl hb
    (fun hw => .inl ⟨rfl, by revert hk hw; cases b.kind <;> simp [BurstKind.isCapture, BurstKind.writes]⟩)
    (.captureBurst ..)

theorem State.answered_feedBurstEnd (s : State) : State.Answers .feedBurstEnd s :=
  .of_burst rfl (en := fun b => b.kind.isFeed) (show _ = execFeedBurstEnd s from rfl) fun b hb hk => .of_burst rfl hb
    (fun hw => by revert hk hw; cases b.kind <;> simp [BurstKind.isFeed, BurstKind.writes])
    (.feedBurstEnded ..)

theorem State.answered_commitReadEnd (s : State) : State.Answers .commitReadEnd s :=
  .of_burst rfl (en := fun b => b.kind == .commitRead) (show _ = execCommitReadEnd s from rfl) fun b hb hk =>
    .of_burst rfl hb
      (fun hw => by rw [eq_of_beq hk] at hw; cases hw) (.commitRead ..)

theorem State.answered_commitWriteEnd (s : State) : State.Answers .commitWriteEnd s :=
  .of_burst rfl (en := fun b => b.kind == .commitWrite) (show _ = execCommitWriteEnd s from rfl) fun _ hb hk =>
    .of_burst rfl hb
      (fun _ => .inr (.inl ⟨rfl, eq_of_beq hk⟩)) (.commitWrite ..)

theorem State.answered_setupReadEnd (s : State) : State.Answers .setupReadEnd s :=
  .of_burst rfl (en := fun b => b.kind == .setupRead) (show _ = execSetupReadEnd s from rfl) fun _ _ _ =>
    ⟨rfl, rfl, .none, .setupReadDone .., fun _ => .of_free rfl⟩

theorem State.answered_statusPostEnd (s : State) : State.Answers .statusPostEnd s :=
  .of_burst rfl (en := fun b => b.kind == .statusPost) (f := fun b x => x.landBurst b) rfl
    fun b hb hk => by
    have he : s.landBurst b = { s.landBurst b with part := s.part } := by unfold State.landBurst; split <;> rfl
    rw [he]
    exact .of_burst rfl hb (fun _ => .inr (.inr ⟨rfl, eq_of_beq hk⟩)) .refl

/-- A command that is a forwarded byte's touch of a plane. -/
theorem State.Answers.of_touch {c : Instr} {s : State} {plane : Plane} {a : Nat} {d : Byte} {f : Part → Touch → Part}
    (hp : c.plain = true) (hf : c.Forwards a d)
    (hc : exec c s = match s.touch? plane a with
      | some t => s.event true fun x => { x.forwardByte a d with part := f x.part t }
      | none => .next s)
    (h : ∀ x t, Part.Updates x (f x t)) : State.Answers c s := by
  cases ht : s.touch? plane a with
  | some t =>
    exact .of_event hp (hc.trans (by rw [ht])) fun _ => .of_byte hp hf (State.forwards_of_touch? ht) (h s.part t)
  | none => exact .unchanged hp (hc.trans (by rw [ht]))

theorem State.answered_orderBlockWrite (a : Nat) (d : Byte) (s : State) : State.Answers (.orderBlockWrite a d) s := by
  cases ho : s.orderOffset? a with
  | some o =>
    refine .of_event rfl (en := true) (f := fun x => (x.forwardByte a d).captureOrderByte o d)
      (by simp only [exec, execOrderBlockWrite, ho]) fun _ => ?_
    refine ⟨rfl, rfl, .byte a d (.inr (.inr (.inr (.inl rfl)))) (State.forwards_of_orderOffset? ho),
      .updates (.of_ledger rfl),
      fun hi hb => ?_⟩
    have := hi hb
    unfold Path.forwarding at this ⊢
    unfold State.captureOrderByte State.forwardByte
    cases hh : s.path.host with
    | none => rfl
    | some x =>
      rw [hh] at this
      exact this
  | none => exact .unchanged rfl (by simp only [exec, execOrderBlockWrite, ho])

theorem State.answered_setupEdit (a : Nat) (d : Byte) (s : State) : State.Answers (.setupEdit a d) s :=
  .of_event rfl (en := s.editsSetup a) (f := fun x => { x.forwardByte a d with part := x.part.setupEdit })
    rfl fun he => by
    simp only [State.editsSetup, Bool.and_eq_true] at he
    exact .of_byte rfl (.inr (.inr (.inr (.inr (.inl rfl))))) he.1 (.of_ledger rfl)

theorem State.answered_untappedWrite (a : Nat) (d : Byte) (s : State) : State.Answers (.untappedWrite a d) s :=
  .of_event rfl (en := s.passesBy a) (f := fun x => x.forwardByte a d) rfl fun he => by
    simp only [State.passesBy, Bool.and_eq_true] at he
    exact .of_byte rfl (b := s.part) (.inr (.inr (.inr (.inr (.inr rfl))))) he.1 .refl

theorem State.answered_second (storage solar : Int) (order : List SecondTask) (s : State) :
    State.Answers (.second storage solar order) s := by
  have hexec : exec (.second storage solar order) s
      = s.partEvent s.part.clock.secondDue fun x => x.secondEvent storage solar order := rfl
  unfold State.partEvent at hexec
  cases hr : s.path.inReset with
  | true =>
    exact ⟨s, by rw [hexec]; simp [State.event, hr], .idle nofun nofun fun _ _ _ _ _ => hr⟩
  | false =>
    cases hd : s.part.clock.secondDue with
    | false => exact ⟨s, hexec.trans (State.event_disabled hd _), .idle nofun nofun fun _ _ _ _ h => by rw [hd] at h; cases h⟩
    | true =>
      exact ⟨_, hexec.trans (State.event_enabled hr hd _),
        .effect _ nofun nofun hr (fun _ _ _ _ => hd) (.of_part (.updates (.secondEvent ..)))⟩

theorem State.answered_lineSlot (p : PanelNo) (busy : Bool) (s : State) : State.Answers (.lineSlot p busy) s := by
  cases hw : s.part.slotDue? p with
  | some w =>
    exact .of_partEvent (en := true) rfl (f := fun x => x.withPanel p fun g c => x.lineSlot g c p w busy)
      (by simp only [exec, execLineSlot, hw]) fun a => .withPanel fun g c => .lineSlot a g c p w busy
  | none => exact .unchanged rfl (by simp only [exec, execLineSlot, hw])

theorem State.answered_railRaise (s : State) : State.Answers .railRaise s :=
  .of_partEvent rfl (show _ = execRailRaise s from rfl) fun a => .withSetup fun g => .of_ledger (Part.ledger_raiseRail a g)

theorem State.answered_railGoodAsserted (s : State) : State.Answers .railGoodAsserted s :=
  .of_partEvent rfl (show _ = execRailGoodAsserted s from rfl) fun a => .withSetup fun g => Part.Updates.railGood a g

theorem State.answered_railGoodNegated (s : State) : State.Answers .railGoodNegated s :=
  .of_partEvent rfl (show _ = execRailGoodNegated s from rfl) fun a => .withSetup fun g => Part.Updates.railLost a g

theorem State.answered_riseLimit (s : State) : State.Answers .riseLimit s :=
  .of_partEvent rfl (show _ = execRiseLimit s from rfl) fun a => .withSetup fun g => .of_ledger (Part.ledger_faultRail a g 1)

theorem State.answered_lingerExpiry (s : State) : State.Answers .lingerExpiry s :=
  .of_partEvent rfl (show _ = execLingerExpiry s from rfl) fun a => .withSetup fun g => .of_ledger (Part.ledger_lowerRail a g)

theorem State.answered_dischargeEnd (s : State) : State.Answers .dischargeEnd s :=
  .of_partEvent rfl (show _ = execDischargeEnd s from rfl) fun a => .withSetup fun g => .of_ledger (Part.ledger_railOff a g _)

theorem State.answered_railRetry (s : State) : State.Answers .railRetry s :=
  .of_partEvent rfl (show _ = execRailRetry s from rfl) fun a => .withSetup fun g => .of_ledger (Part.ledger_railOff a g _)

theorem State.answered_driveStart (p : PanelNo) (s : State) : State.Answers (.driveStart p) s :=
  .of_partEvent rfl (show _ = execDriveStart p s from rfl) fun a => .withPanel fun g _ => .startDrive a g p

theorem State.answered_frameStart (p : PanelNo) (s : State) : State.Answers (.frameStart p) s :=
  .of_partEvent rfl (show _ = execFrameStart p s from rfl) fun a => .withPanel fun _ c => .startFrame a c p

theorem State.answered_wakeBusyLimit (p : PanelNo) (s : State) : State.Answers (.wakeBusyLimit p) s :=
  .of_partEvent rfl (show _ = execWakeBusyLimit p s from rfl) fun a => .withPanel fun g c => .faultPort a g c p _

theorem State.answered_identReplyTimeout (p : PanelNo) (s : State) : State.Answers (.identReplyTimeout p) s :=
  .of_partEvent rfl (show _ = execIdentReplyTimeout p s from rfl) fun a => .withPanel fun g c => .faultPort a g c p _

theorem State.answered_tempReplyTimeout (p : PanelNo) (s : State) : State.Answers (.tempReplyTimeout p) s :=
  .of_partEvent rfl (show _ = execTempReplyTimeout p s from rfl) fun a => .withPanel fun g c => .faultPort a g c p _

theorem State.answered_frameBusyLimit (p : PanelNo) (s : State) : State.Answers (.frameBusyLimit p) s :=
  .of_partEvent rfl (show _ = execFrameBusyLimit p s from rfl) fun a => .withPanel fun g c => .frameBusyPasses a g c p

theorem State.answered_closeBusyLimit (p : PanelNo) (s : State) : State.Answers (.closeBusyLimit p) s :=
  .of_partEvent rfl (show _ = execCloseBusyLimit p s from rfl) fun a => .closeBusyPasses a p

theorem State.answered_close (p : PanelNo) (busy : Bool) (s : State) : State.Answers (.close p busy) s :=
  .of_partEvent rfl (show _ = execClose p busy s from rfl) fun a => .withPanel fun _ c => .close a c p busy

theorem State.answered_retryWake (p : PanelNo) (h busy : Bool) (s : State) : State.Answers (.retryWake p h busy) s :=
  .of_partEvent rfl (show _ = execRetryWake p h busy s from rfl) fun a => .withPanel fun _ c => .retryExpires a c p h busy

theorem State.answered_ident (p : PanelNo) (w h : Nat) (s : State) : State.Answers (.ident p w h) s :=
  .of_partEvent rfl (show _ = execIdent p w h s from rfl) fun a => .withPanel fun g c => .identArrives a g c p w h

theorem State.answered_temp (p : PanelNo) (d : Int) (s : State) : State.Answers (.temp p d) s :=
  .of_partEvent rfl (show _ = execTemp p d s from rfl) fun a => .withPanel fun g _ => .tempArrives a g p d

theorem State.answered_apply (s : State) : State.Answers .apply s :=
  .of_order rfl (show _ = execApply s from rfl) fun a => Part.Updates.orderApply a

theorem State.answered_run (s : State) : State.Answers .run s :=
  .of_order rfl (show _ = execRun s from rfl) fun a => Part.Updates.orderRun a

theorem State.answered_halt (s : State) : State.Answers .halt s :=
  .of_order rfl (show _ = execHalt s from rfl) fun a => Part.Updates.orderHalt a

theorem State.answered_refreshZone (t m k : Byte) (s : State) : State.Answers (.refreshZone t m k) s :=
  .of_order rfl (show _ = execRefreshZone t m k s from rfl) fun a => Part.Updates.orderRefreshZone a ..

theorem State.answered_refreshPanel (t m k : Byte) (s : State) : State.Answers (.refreshPanel t m k) s :=
  .of_order rfl (show _ = execRefreshPanel t m k s from rfl) fun a => Part.Updates.orderRefreshPanel a ..

theorem State.answered_sweep (m : Byte) (s : State) : State.Answers (.sweep m) s :=
  .of_order rfl (show _ = execSweep m s from rfl) fun a => Part.Updates.orderSweep a _

theorem State.answered_setClock (x y : BitVec 32) (s : State) : State.Answers (.setClock x y) s :=
  .of_order rfl (show _ = execSetClock x y s from rfl) fun a => Part.Updates.orderSetClock a ..

theorem State.answered_clearAttn (m : BitVec 32) (s : State) : State.Answers (.clearAttn m) s :=
  .of_order rfl (show _ = execClearAttn m s from rfl) fun a => Part.Updates.orderClearAttn a _

theorem State.answered_restorePort (t : Byte) (s : State) : State.Answers (.restorePort t) s :=
  .of_order rfl (show _ = execRestorePort t s from rfl) fun a => Part.Updates.orderRestorePort a _

theorem State.answered_unknownOrder (k : Byte) (s : State) : State.Answers (.unknownOrder k) s :=
  .of_order (f := Part.orderUnknown) rfl (show _ = execUnknownOrder k s from rfl) fun _ => .refl

/-- Every command answers, and answers one of the things that it can answer. -/
theorem State.answered (c : Instr) (s : State) : State.Answers c s := by
  cases c with
  | hardwareReset landed => exact ⟨_, rfl, .cut landed rfl⟩
  | resetEnd second first =>
    cases hr : s.path.inReset with
    | true => exact ⟨_, exec_resetEnd hr second first, .resumed second first rfl hr⟩
    | false =>
      exact ⟨s, by simp only [exec, execResetEnd, hr, Bool.false_eq_true, if_false], .idle nofun (fun _ _ _ => hr) nofun⟩
  | hostTransactionStart x a => exact s.answered_hostTransactionStart x a
  | hostTransactionEnd x g => exact s.answered_hostTransactionEnd x g
  | targetTouch a d =>
    exact .of_touch rfl (plane := .target) (.inl rfl) (show _ = execTargetTouch a d s from rfl) .targetTouch
  | shownTouch a d =>
    exact .of_touch rfl (plane := .shown) (.inr (.inl rfl)) (show _ = execShownTouch a d s from rfl) .shownTouch
  | stageTouch a d =>
    exact .of_touch rfl (plane := .stage) (.inr (.inr (.inl rfl)))
      (show _ = execStageTouch a d s from rfl) .stageTouch
  | orderBlockWrite a d => exact s.answered_orderBlockWrite a d
  | setupEdit a d => exact s.answered_setupEdit a d
  | untappedWrite a d => exact s.answered_untappedWrite a d
  | apply => exact s.answered_apply
  | run => exact s.answered_run
  | halt => exact s.answered_halt
  | refreshZone t m k => exact s.answered_refreshZone t m k
  | refreshPanel t m k => exact s.answered_refreshPanel t m k
  | sweep m => exact s.answered_sweep m
  | setClock x y => exact s.answered_setClock x y
  | clearAttn m => exact s.answered_clearAttn m
  | restorePort t => exact s.answered_restorePort t
  | unknownOrder k => exact s.answered_unknownOrder k
  | captureBurstEnd => exact s.answered_captureBurstEnd
  | feedBurstEnd => exact s.answered_feedBurstEnd
  | commitReadEnd => exact s.answered_commitReadEnd
  | commitWriteEnd => exact s.answered_commitWriteEnd
  | setupReadEnd => exact s.answered_setupReadEnd
  | statusPostEnd => exact s.answered_statusPostEnd
  | tick => exact .of_partEvent rfl (show _ = execTick s from rfl) .tickEnd
  | settleExpiry z => exact .of_partEvent rfl (show _ = execSettleExpiry z s from rfl) fun a => .settleExpired a z.val
  | second x y o => exact s.answered_second x y o
  | driveStart p => exact s.answered_driveStart p
  | frameStart p => exact s.answered_frameStart p
  | lineSlot p busy => exact s.answered_lineSlot p busy
  | close p busy => exact s.answered_close p busy
  | wake p busy => exact .of_partEvent rfl (show _ = execWake p busy s from rfl) fun a => .withPanel fun _ _ => .of_ledger (Part.ledger_changePort a p _)
  | busyNegated p => exact .of_partEvent rfl (show _ = execBusyNegated p s from rfl) fun a => .busyNegated a p
  | ident p w h => exact s.answered_ident p w h
  | tempQuery p => exact .of_partEvent rfl (show _ = execTempQuery p s from rfl) fun a => .of_ledger (Part.ledger_setPort a p _)
  | temp p d => exact s.answered_temp p d
  | wakeBusyLimit p => exact s.answered_wakeBusyLimit p
  | identReplyTimeout p => exact s.answered_identReplyTimeout p
  | tempReplyTimeout p => exact s.answered_tempReplyTimeout p
  | frameBusyLimit p => exact s.answered_frameBusyLimit p
  | closeBusyLimit p => exact s.answered_closeBusyLimit p
  | rest p => exact .of_partEvent rfl (show _ = execRest p s from rfl) fun a => .of_ledger (Part.ledger_changePort a p _)
  | retryWake p h busy => exact s.answered_retryWake p h busy
  | railRaise => exact s.answered_railRaise
  | railGoodAsserted => exact s.answered_railGoodAsserted
  | railGoodNegated => exact s.answered_railGoodNegated
  | riseLimit => exact s.answered_riseLimit
  | lingerExpiry => exact s.answered_lingerExpiry
  | dischargeEnd => exact s.answered_dischargeEnd
  | railRetry => exact s.answered_railRetry

/-- What a command answered is one of the things that it can answer. -/
theorem State.Answer.of_exec {c : Instr} {s t : State} (h : exec c s = .next t) : State.Answer c s t := by
  obtain ⟨t', h', ha⟩ := State.answered c s
  rw [h] at h'
  cases h'
  exact ha

end Sys2Proof.Machine
end

section
/-! PROOFS of the statements about the machine as a whole, its invariants and its reset. -/

namespace Sys2Proof.Machine

/-! ### What an answer keeps -/

/-- The part right after a hardware reset: the window base alone holds (R159). -/
def Part.resetAt (base : Nat) : Part := { Part.reset with unit := { WindowUnit.reset with base := base } }

/-- A predicate that every update keeps, and SECOND's counts, and that holds in reset, is kept by every answer. -/
theorem State.Answer.keeps {P : Part → Prop} (hu : ∀ {a b}, Part.Update a b → P a → P b)
    (hi : ∀ {a b}, Part.Installed a b → P a → P b) (hn : ∀ {a : Part} code r, P a → P (a.noteOrder code r))
    (hs : ∀ a : Part, P a → P { a with clock := a.clock.secondEnd }) (hr : ∀ base, P (Part.resetAt base))
    {c : Instr} {s t : State} (h : State.Answer c s t) (ha : P s.part) : P t.part := by
  cases h with
  | cut => exact hr s.part.unit.base
  | resumed a b => exact (s.resume_updates a b).keep hu ha
  | idle => exact ha
  | dropped => exact ha
  | effect u _ _ _ _ he =>
    have hcounted : P (s.part.countedFor c) := by
      unfold Part.countedFor
      split
      · exact hs _ ha
      · exact ha
    exact (he.part.trans (State.finish_updates s u)).keep hu hi hn hcounted

theorem State.Answer.pending {c : Instr} {s t : State} (h : State.Answer c s t) : t.pending = s.pending := by
  cases h with
  | cut | idle | dropped => rfl
  | resumed => exact State.finish_pending ..
  | effect u _ _ _ _ he => exact (State.finish_pending ..).trans he.queue

/-- What every answer keeps, whatever waits in the queue, every step keeps. -/
theorem step_keeps {P : State → Prop} (hq : ∀ (s : State) (q : List Instr), P s → P { s with pending := q })
    (hk : ∀ {c s t}, State.Answer c s t → P s → P t) {s t : State} (hs : P s) (h : step s = .next t) : P t := by
  unfold step at h
  split at h
  · cases h
    exact hs
  · exact hk (.of_exec h) (hq _ _ hs)

/-! ### The reset meets the invariants -/

theorem Part.resetAt_poolSound (base : Nat) : (Part.resetAt base).PoolSound :=
  Part.poolSound_of_empty (n := Config.slots) rfl rfl rfl

theorem Part.resetAt_tableSound (base : Nat) : (Part.resetAt base).TableSound := ⟨⟨rfl, nofun⟩, nofun⟩

theorem Clock.reset_inRange : Clock.reset.InRange := by
  unfold Clock.InRange
  decide

theorem Energy.reset_inRange : Energy.reset.InRange := by
  unfold Energy.InRange
  decide

theorem Part.resetAt_countsSound (base : Nat) : (Part.resetAt base).CountsSound :=
  ⟨Clock.reset_inRange, Energy.reset_inRange, rfl⟩

/-! ### The memory path and the memory -/

theorem State.Answer.pathSound {c : Instr} {s t : State} (h : State.Answer c s t) (hs : s.PathSound) : t.PathSound := by
  cases h with
  | cut => exact ⟨.of_free rfl, nofun, nofun⟩
  | resumed => exact State.finish_pathSound hs.1
  | idle => exact hs
  | dropped h _ hr hd =>
    refine ⟨fun _ => ?_, fun hn => absurd (hr.symm.trans hn) nofun, fun hn => absurd (hr.symm.trans hn) nofun⟩
    cases h with
    | none => rfl
    | some x => simp [Path.forwarding, hd x rfl]
  | effect u _ _ _ _ he => exact State.finish_pathSound (he.path hs.1)

theorem State.cutMemory_wf {s : State} (h : Memory.wf s.memory = true) (n : Nat) : Memory.wf (s.cutMemory n) = true := by
  unfold State.cutMemory
  split
  · split
    · exact Memory.wf_writeRun _ h _
    · exact h
  · exact h

theorem State.Stores.wf {c : Instr} {s : State} {m : Memory} (h : State.Stores c s m) (hs : Memory.wf s.memory = true) :
    Memory.wf m = true := by
  cases h with
  | none => exact hs
  | byte a d =>
    split
    · exact Memory.wf_write hs a d
    · exact hs
  | burst b => exact Memory.wf_writeRun _ hs _

theorem State.Answer.memoryCanonical {c : Instr} {s t : State} (h : State.Answer c s t) (hs : s.MemoryCanonical) :
    t.MemoryCanonical := by
  cases h with
  | cut n => exact State.cutMemory_wf hs n
  | resumed => exact (congrArg Memory.wf (State.finish_memory ..)).trans hs
  | idle | dropped => exact hs
  | effect u _ _ _ _ he => exact (congrArg Memory.wf (State.finish_memory ..)).trans (he.memory.wf hs)

theorem State.Answer.walkOwed {c : Instr} {s t : State} (h : State.Answer c s t) (hs : s.part.walkOwed = false) :
    t.part.walkOwed = false := by
  cases h with
  | cut => rfl
  | resumed | effect => exact State.finish_walkOwed ..
  | idle | dropped => exact hs

/-- Where a run of written bytes reads otherwise, the run covers the address. -/
theorem Memory.in_run_of_read_ne {m : Memory} {bs : List Byte} {a x : Nat}
    (h : Memory.read (m.writeRun a bs) x ≠ Memory.read m x) : a ≤ x ∧ x < a + bs.length := by
  exact Decidable.byContradiction fun hn => h (Memory.read_writeRun_out bs m a x (by omega))

/-- A reset changes the memory only inside the write burst that it cuts (R150). -/
theorem State.cutMemory_read_ne {s : State} {n x : Nat}
    (h : Memory.read (s.cutMemory n) x ≠ Memory.read s.memory x) :
    ∃ b, s.path.burst = some b ∧ b.kind.writes = true ∧ b.addr ≤ x ∧ x < b.addr + b.data.length := by
  unfold State.cutMemory at h
  split at h
  · next b hb =>
    split at h
    · next hw =>
      obtain ⟨h1, h2⟩ := Memory.in_run_of_read_ne h
      rw [List.length_take] at h2
      exact ⟨b, hb, hw, h1, by omega⟩
    · exact absurd rfl h
  · exact absurd rfl h

/-- A command's own effect changes the memory only at its forwarded byte or inside its write burst. -/
theorem State.Stores.read_ne {c : Instr} {s : State} {m : Memory} {x : Nat} (h : State.Stores c s m)
    (hx : Memory.read m x ≠ Memory.read s.memory x) :
    (x < Config.memoryEnd ∧ s.forwards x = true ∧ ∃ d, c.Forwards x d)
      ∨ ∃ b, s.path.burst = some b ∧ c.Lands b.kind ∧ b.addr ≤ x ∧ x < b.addr + b.data.length := by
  cases h with
  | none => exact absurd rfl hx
  | byte a d hc hf =>
    split at hx
    · next hlt =>
      by_cases hxa : x = a
      · subst hxa
        exact .inl ⟨hlt, hf, d, hc⟩
      · exact absurd (Memory.read_write_ne s.memory d hxa) hx
    · exact absurd rfl hx
  | burst b hb hc => exact .inr ⟨b, hb, hc, Memory.in_run_of_read_ne hx⟩

theorem State.cutMemory_landed {s : State} {b : Burst} (hb : s.path.burst = some b) (hw : b.kind.writes = true) {n i : Nat}
    (hn : i < n) (hi : i < b.data.length) : Memory.read (s.cutMemory n) (b.addr + i) = b.data.getD i 0 := by
  unfold State.cutMemory
  simp only [hb, hw, if_true]
  rw [Memory.read_writeRun_in _ _ _ i (by rw [List.length_take]; omega), List.getElem_take, List.getD_eq_getElem?_getD,
    List.getElem?_eq_getElem hi, Option.getD_some]

theorem State.cutMemory_kept {s : State} {n a : Nat}
    (h : ∀ b, s.path.burst = some b → b.kind.writes = true → a < b.addr ∨ b.addr + (b.data.take n).length ≤ a) :
    Memory.read (s.cutMemory n) a = Memory.read s.memory a := by
  unfold State.cutMemory
  split
  · next b hb =>
    split
    · next hw => exact Memory.read_writeRun_out _ _ _ _ (h b hb hw)
    · rfl
  · rfl

end Sys2Proof.Machine

open Sys2Proof Sys2Proof.Machine

/-! ### What every step keeps -/

/-- Settles O6: a write, or a run of writes, keeps the canonical form. -/
theorem memoryStaysCanonical : Obligations.MemoryStaysCanonical := fun _ _ hs h =>
  step_keeps (P := State.MemoryCanonical) (fun _ _ => id) (fun ha => ha.memoryCanonical) hs h

/-- Settles O7: the end of a step makes the path sound from any effect that does not interleave. -/
theorem memoryPathStaysSound : Obligations.MemoryPathStaysSound := fun _ _ hs h =>
  step_keeps (P := State.PathSound) (fun _ _ => id) (fun ha => ha.pathSound) hs h

/-- Settles O8: every update of the part keeps the counts, and a step ends with no walk owed. -/
theorem countsStayInRange : Obligations.CountsStayInRange := fun _ _ hs h => by
  obtain ⟨hclock, henergy, howed, hcauses⟩ := hs
  obtain ⟨⟨hk, he, hn⟩, hw⟩ := step_keeps (P := fun s => s.part.CountsSound ∧ s.part.walkOwed = false) (fun _ _ => id)
    (fun ha hp => ⟨ha.keeps (fun u => u.countsSound) (fun i => i.countsSound) (fun _ _ => id)
      (fun _ hs => ⟨hs.1.secondEnd, hs.2⟩) Part.resetAt_countsSound hp.1, ha.walkOwed hp.2⟩)
    ⟨⟨hclock, henergy, hcauses⟩, howed⟩ h
  exact ⟨hk, he, hw, hn⟩

/-- Settles O9: every update of the part moves K and the running count with the pool. -/
theorem committedEnergyIsRunningCost : Obligations.CommittedEnergyIsRunningCost := fun _ _ hs h =>
  step_keeps (P := fun s => s.part.PoolSound) (fun _ _ => id)
    (fun ha => ha.keeps (fun u => u.poolSound) (fun i _ => i.pool) (fun _ _ => id) (fun _ => id) Part.resetAt_poolSound) hs h

/-- Settles O10: every update of the part keeps the records sound and the DIRTY counts in step. -/
theorem tileRecordsStaySound : Obligations.TileRecordsStaySound := fun _ _ hs h =>
  step_keeps (P := fun s => s.part.TableSound) (fun _ _ => id)
    (fun ha => ha.keeps (fun u => u.tableSound) (fun i => i.tableSound)
      (fun _ _ => id) (fun _ => id) Part.resetAt_tableSound) hs h

/-! ### The machine as a whole -/

/-- Settles O1: by the definition of a step. -/
theorem stepRunsFrontCommand : Obligations.StepRunsFrontCommand :=
  ⟨fun c rest s h => by simp only [step, h], fun s h => by simp only [step, h]⟩

/-- Settles O2: every command answers something that keeps the queue. -/
theorem everyCommandAnswers : Obligations.EveryCommandAnswers := fun c s => by
  obtain ⟨t, ht, ha⟩ := State.answered c s
  exact ⟨t, ht, ha.pending⟩

/-- Settles O3, by what a command can answer: no effect of a command touches the reset, and none is made in it. -/
theorem resetBracketsEverything : Obligations.ResetBracketsEverything := fun c s t h => by
  cases State.Answer.of_exec h with
  | cut n hc => subst hc; rfl
  | resumed a b hc => subst hc; exact State.finish_inReset ..
  | idle hc he =>
    split
    · exact absurd rfl (hc _)
    · exact he _ _ rfl
    · exact ⟨rfl, fun _ => ⟨rfl, rfl, rfl⟩⟩
  | dropped x hc => rcases hc with ⟨_, _, rfl⟩ | ⟨_, _, rfl⟩ <;> exact ⟨rfl, fun _ => ⟨rfl, rfl, rfl⟩⟩
  | effect u hc hc' hr _ he =>
    split
    · exact absurd rfl (hc _)
    · exact absurd rfl (hc' _ _)
    · exact ⟨(State.finish_inReset ..).trans he.running, fun h => by rw [hr] at h; cases h⟩

/-- Settles O4, by what a command can leave in the memory. -/
theorem memoryChangesOnlyWhereWritten : Obligations.MemoryChangesOnlyWhereWritten := fun c s t a h hne => by
  cases State.Answer.of_exec h with
  | cut n hc =>
    obtain ⟨b, hb, hw, h1, h2⟩ := State.cutMemory_read_ne hne
    exact .inr ⟨b, hb, h1, h2, .inr (.inr (.inr ⟨⟨n, hc⟩, hw⟩))⟩
  | resumed => rw [State.finish_memory] at hne; exact absurd rfl hne
  | idle | dropped => exact absurd rfl hne
  | effect u _ _ _ _ he =>
    rw [State.finish_memory] at hne
    rcases he.memory.read_ne hne with hbyte | ⟨b, hb, hl, h1, h2⟩
    · exact .inl hbyte
    · refine .inr ⟨b, hb, h1, h2, ?_⟩
      rcases hl with hl | hl | hl
      · exact .inl hl
      · exact .inr (.inl hl)
      · exact .inr (.inr (.inl hl))

/-- Settles O5: no update of the part moves monotonic seconds; SECOND's counting does. -/
theorem monotonicSecondsOnlyCount : Obligations.MonotonicSecondsOnlyCount := fun c s t h => by
  cases State.Answer.of_exec h with
  | cut n hc => subst hc; rfl
  | resumed a b hc =>
    subst hc
    exact (s.resume_updates a b).mono
  | idle hc _ hs =>
    split
    · exact absurd rfl (hc _)
    · split
      · next hd => exact absurd (hs _ _ _ rfl hd.1) (by simp [hd.2])
      · rfl
    · rfl
  | dropped x hc => rcases hc with ⟨_, _, rfl⟩ | ⟨_, _, rfl⟩ <;> rfl
  | effect u hc _ hr hs he =>
    have hm := (he.part.trans (State.finish_updates s u)).mono
    split
    · exact absurd rfl (hc _)
    · rw [if_pos ⟨hs _ _ _ rfl, hr⟩]
      exact hm
    · next hns =>
      refine hm.trans ?_
      unfold Part.countedFor
      split
      · exact absurd rfl (hns _ _ _)
      · rfl

/-! ### The reset -/

/-- Settles O11. -/
theorem resetMeetsInvariants : Obligations.ResetMeetsInvariants := by
  obtain ⟨hclock, henergy, hcauses⟩ := Part.resetAt_countsSound (Config.windowBase false false)
  obtain ⟨htiles, hzones⟩ := Part.resetAt_tableSound (Config.windowBase false false)
  exact ⟨rfl, ⟨.of_free rfl, nofun, nofun⟩, hclock, henergy, ⟨rfl, hcauses⟩,
    Part.resetAt_poolSound (Config.windowBase false false), htiles, hzones⟩

/-- Settles O12, by the definition of the reset's state and of the memory that it cuts. -/
theorem hardwareResetClears : Obligations.HardwareResetClears := fun landed s => by
  have hport : ∀ p, Part.reset.port p = Port.reset := fun p => by
    match p with
    | 0 | 1 | 2 | 3 => rfl
  refine ⟨_, rfl, rfl, rfl, rfl, fun h hh => ?_, rfl, rfl, rfl, rfl, rfl, rfl, rfl, rfl, rfl, rfl, rfl, fun p => ?_,
    rfl, rfl, rfl, rfl, rfl, rfl, rfl, rfl, rfl, rfl, rfl, rfl, rfl, rfl, rfl, rfl, rfl, rfl, rfl, ?_, ?_⟩
  · obtain ⟨x, -, rfl⟩ := Option.map_eq_some_iff.1 hh
    rfl
  · have h := hport p
    unfold Part.port at h ⊢
    dsimp only
    rw [h]
    exact ⟨rfl, rfl, rfl, rfl, rfl, rfl, rfl, rfl, rfl, rfl, rfl, rfl, rfl, rfl⟩
  · exact fun b i hb hw hn hi => State.cutMemory_landed hb hw hn hi
  · exact fun a h => State.cutMemory_kept h

/-- Settles O13. -/
theorem resetEndSamplesStraps : Obligations.ResetEndSamplesStraps := fun second first s => by
  refine ⟨fun hr => ?_, fun hr => by simp only [exec, execResetEnd, hr, Bool.false_eq_true, if_false]⟩
  have hbase : Config.windowBase second first
      = if second then (if first then 0x7FF000 else 0x3FF000) else (if first then 0x1FF000 else 0x0FF000) := by
    cases second <;> cases first <;> rfl
  rw [← hbase]
  refine ⟨_, exec_resetEnd hr second first, rfl, State.finish_agreesOutsideWalk .., fun h => ?_,
    fun h => ?_⟩
  · exact State.finish_agreesOutsidePath _ h
  · exact State.finish_of_not_running _ h

end

section
/-! PROOFS of the statements about the memory path: the host's transactions, the arbiter, and the bytes of a host write. -/

namespace Sys2Proof.Machine

/-! ### The end of a step, before the memory port's next business -/

/-- The state of a step's effect after its walks, with the posting it owes. -/
def State.beforePath (b u : State) : State := State.owePosting b u { u with part := u.part.takeWalks 8 }

theorem State.finish_eq (b u : State) : State.finish b u = (State.beforePath b u).advancePath := rfl

theorem State.beforePath_path (b u : State) : (State.beforePath b u).path = u.path := rfl

theorem State.beforePath_setup (b u : State) : (State.beforePath b u).part.setup = u.part.setup :=
  Part.setup_of_outsideWalk (Part.outsideWalk_takeWalks 8 u.part)

/-- Where no walk is owed, the requests are those of the effect. -/
theorem State.beforePath_requestLevel? {b u : State} (h : u.part.walkOwed = false) (p : PanelNo) :
    (State.beforePath b u).part.requestLevel? p = u.part.requestLevel? p := by
  have hw : u.part.takeWalks 8 = u.part := Part.takeWalks_of_not_owed h 8
  show (u.part.takeWalks 8).requestLevel? p = _
  rw [hw]

theorem State.beforePath_engine? {b u : State} (h : u.part.walkOwed = false) (p : PanelNo) :
    (State.beforePath b u).part.engine? p = u.part.engine? p := by
  have hw : u.part.takeWalks 8 = u.part := Part.takeWalks_of_not_owed h 8
  show (u.part.takeWalks 8).engine? p = _
  rw [hw]

theorem State.nextPanel?_congr {s t : State} (hl : s.path.lastServed = t.path.lastServed)
    (h : ∀ p, s.part.requestLevel? p = t.part.requestLevel? p) (l : PanelNo) : s.nextPanel? l = t.nextPanel? l := by
  unfold State.nextPanel?
  rw [hl]
  exact congrArg (fun f => List.find? f (afterPanel (t.path.lastServed.get l))) (funext fun p => by rw [h p])

theorem State.advancePath_busy {s : State} {b : Burst} (h : s.path.burst = some b) : s.advancePath = s := by
  unfold State.advancePath
  rw [h]

/-! ### A host transaction starts (R144, R148) -/

/-- The state in which a host transaction has begun and waits for the memory port. -/
def State.hostBegun (s : State) (command : HostCommand) (addr : Nat) : State :=
  { s with path := { s.path with host := some (HostTransaction.begin command addr) } }

theorem exec_hostTransactionStart {s : State} (hr : s.path.inReset = false) (hh : s.path.host = none)
    (command : HostCommand) (addr : Nat) :
    exec (.hostTransactionStart command addr) s = .next (State.finish s (s.hostBegun command addr)) := by
  have he : exec (.hostTransactionStart command addr) s = s.event true fun x => x.hostBegun command addr := by
    simp only [exec, execHostTransactionStart, hh, hr, Bool.false_eq_true, if_false, State.hostBegun]
  exact he.trans (State.event_enabled hr rfl _)

/-! ### A held transaction at the end of a burst -/

/-- The commands that end a burst end it, and act on the part with the port free. -/
theorem exec_burstEnd {c : Instr} {s : State} {b : Burst} (hr : s.path.inReset = false) (hb : s.path.burst = some b)
    (hc : (c = .captureBurstEnd ∧ b.kind.isCapture = true) ∨ (c = .feedBurstEnd ∧ b.kind.isFeed = true)
      ∨ (c = .commitReadEnd ∧ b.kind = .commitRead) ∨ (c = .commitWriteEnd ∧ b.kind = .commitWrite)
      ∨ (c = .setupReadEnd ∧ b.kind = .setupRead) ∨ (c = .statusPostEnd ∧ b.kind = .statusPost)) :
    ∃ u, exec c s = .next (State.finish s u) ∧ u.path = { s.path with burst := none }
      ∧ (c ≠ .setupReadEnd → u.part.setup = s.part.setup) ∧ (c = .statusPostEnd → u.part = s.part) := by
  have hland : (s.landBurst b).path = { s.path with burst := none } := by unfold State.landBurst; split <;> rfl
  have hpart : (s.landBurst b).part = s.part := by unfold State.landBurst; split <;> rfl
  rcases hc with ⟨rfl, hk⟩ | ⟨rfl, hk⟩ | ⟨rfl, hk⟩ | ⟨rfl, hk⟩ | ⟨rfl, hk⟩ | ⟨rfl, hk⟩
  · refine ⟨State.captureBurstEnd b s, ?_, hland, fun _ => (Part.Updates.captureBurst ..).setup, nofun⟩
    simp only [exec, execCaptureBurstEnd, hb]
    exact State.event_enabled hr hk _
  · refine ⟨State.feedBurstEnd b s, ?_, hland, fun _ => (Part.Updates.feedBurstEnded ..).setup, nofun⟩
    simp only [exec, execFeedBurstEnd, hb]
    exact State.event_enabled hr hk _
  · refine ⟨State.commitReadEnd b s, ?_, hland, fun _ => (Part.Updates.commitRead ..).setup, nofun⟩
    simp only [exec, execCommitReadEnd, hb]
    exact State.event_enabled hr (beq_iff_eq.2 hk) _
  · refine ⟨State.commitWriteEnd b s, ?_, hland, fun _ => (Part.Updates.commitWrite ..).setup, nofun⟩
    simp only [exec, execCommitWriteEnd, hb]
    exact State.event_enabled hr (beq_iff_eq.2 hk) _
  · refine ⟨State.setupReadEnd b s, ?_, rfl, fun h => absurd rfl h, nofun⟩
    simp only [exec, execSetupReadEnd, hb]
    exact State.event_enabled hr (beq_iff_eq.2 hk) _
  · refine ⟨s.landBurst b, ?_, hland, fun _ => congrArg Part.setup hpart, fun _ => hpart⟩
    simp only [exec, execStatusPostEnd, hb]
    exact State.event_enabled hr (beq_iff_eq.2 hk) _

/-- A held transaction where the feed stall test does not hold it back is forwarded, and nothing else of the path changes. -/
theorem State.advancePath_forwards {v : State} {h : HostTransaction} (hb : v.path.burst = none)
    (hh : v.path.host = some h) (hp : h.phase = .held)
    (hc : h.inserted = true ∨ (∀ g, v.part.setup = some g → g.globals.feedStall = false)
      ∨ (∀ q, v.part.requestLevel? q ≠ some 0)) :
    v.advancePath.path = { v.path with host := some { h with phase := .forwarding } } ∧ v.advancePath.part = v.part := by
  rw [(State.advancePath_held hb hh hp).1 hc]
  exact ⟨rfl, rfl⟩

/-- One urgent feed burst is inserted before a held transaction (R148). -/
structure State.Inserts (v t : State) (h : HostTransaction) (p : PanelNo) (e : Engine) (b : Burst) : Prop where
  path : t.path = { v.path with
    host := some { h with inserted := true }, burst := some b, lastServed := v.path.lastServed.set 0 p }
  part : ∃ k, t.part = v.part.setEngine p (some { e with request := none, inFlight := true, cursor := k })

theorem State.advancePath_inserts {v : State} {h : HostTransaction} {g : Setup} {p : PanelNo} (hb : v.path.burst = none)
    (hh : v.path.host = some h) (hp : h.phase = .held) (hi : h.inserted = false) (hg : v.part.setup = some g)
    (hs : g.globals.feedStall = true) (hn : v.nextPanel? 0 = some p) :
    ∃ e b, v.part.engine? p = some e ∧ e.request = some b ∧ v.Inserts v.advancePath h p e b := by
  obtain ⟨-, e, b, -, -, -, -, he, -, hr, -⟩ := Part.requestLevel?_eq_zero (State.nextPanel?_eq_some hn).1
  obtain ⟨k, hk⟩ := (State.advancePath_held hb hh hp).2 g p e b hi hg hs hn he hr
  exact ⟨e, b, he, hr, by rw [hk], k, by rw [hk]⟩

/-- After an inserted burst's grant the panel has no request, and the others' are as they were. -/
theorem State.Inserts.requestLevel? {v t : State} {h : HostTransaction} {p : PanelNo} {e : Engine} {b : Burst}
    (hi : v.Inserts t h p e b) :
    t.part.requestLevel? p = none ∧ ∀ q, q ≠ p → t.part.requestLevel? q = v.part.requestLevel? q := by
  obtain ⟨k, hk⟩ := hi.part
  rw [hk]
  exact ⟨Part.requestLevel?_setEngine_inFlight rfl, fun q hq => Part.requestLevel?_setEngine_ne hq _⟩

/-! ### What a host transaction's end returns (R143) -/

theorem Memory.hostBytes_length (m : Memory) (a n : Nat) : (m.hostBytes a n).length = n := by
  induction n generalizing a with
  | zero => rfl
  | succ n ih => rw [Memory.hostBytes, List.length_cons, ih]

theorem Memory.hostBytes_getElem? (m : Memory) (a n i : Nat) (hi : i < n) (ha : a + i < Config.memoryEnd) :
    (m.hostBytes a n)[i]? = some (m.read (a + i)) := by
  induction n generalizing a i with
  | zero => exact absurd hi (Nat.not_lt_zero _)
  | succ n ih =>
    cases i with
    | zero => rw [Memory.hostBytes, List.getElem?_cons_zero, if_pos (by simpa using ha), Nat.add_zero]
    | succ i =>
      rw [Memory.hostBytes, List.getElem?_cons_succ, ih (a + 1) i (Nat.lt_of_succ_lt_succ hi) (by omega)]
      congr 2
      omega

theorem exec_hostTransactionEnd {s : State} {h : HostTransaction} (hr : s.path.inReset = false)
    (hh : s.path.host = some h) (hp : h.phase = .forwarding) (data : HostData) (grantFirst : Bool) :
    exec (.hostTransactionEnd data grantFirst) s = .next (State.finish s (State.endTransaction h data grantFirst s)) := by
  have he : exec (.hostTransactionEnd data grantFirst) s = s.event true (State.endTransaction h data grantFirst) := by
    simp only [exec, execHostTransactionEnd, hh, hp]
  exact he.trans (State.event_enabled hr rfl _)

/-- A step's end from an effect that leaves no walk owed. -/
theorem CompletesWith.of_exec {c : Instr} {s u : State} (h : exec c s = .next (State.finish s u)) :
    CompletesWith c s u :=
  ⟨_, h, rfl, State.finish_agreesOutsideWalk .., fun hw => State.finish_agreesOutsidePath _ hw,
    fun hr => State.finish_of_not_running _ hr⟩

/-! ### The order that a transaction's end gives (R160) -/

theorem byte_eq_of_toNat {b : Byte} {n : Nat} (h : b.toNat = n) : b = BitVec.ofNat 8 n := by
  rw [← h, BitVec.ofNat_toNat, BitVec.setWidth_eq]

/-- The command of an order is the copy's order, noted (R160, R161). -/
theorem exec_orderCommand_eq (copy : List Byte) (s : State) :
    exec (orderCommand copy) s
      = s.partEvent true fun x => (x.answerOrder (orderOf copy)).note (orderByte copy 0) := by
  have hbyte : ∀ n, (orderOf copy).code = n → orderByte copy 0 = BitVec.ofNat 8 n := fun n h => byte_eq_of_toNat h
  unfold orderCommand
  split
  case h_10 h1 h2 h3 h4 h5 h6 h7 h8 h9 =>
    have hcode : unknownCode (orderByte copy 0) = true := by
      have hk : (orderOf copy).code = (orderByte copy 0).toNat := rfl
      have hnot : ∀ n, (orderOf copy).code = n → ¬ (1 ≤ n ∧ n ≤ 9) := fun n he ⟨hlow, hhigh⟩ => by
        obtain rfl | rfl | rfl | rfl | rfl | rfl | rfl | rfl | rfl : n = 1 ∨ n = 2 ∨ n = 3 ∨ n = 4 ∨ n = 5 ∨ n = 6 ∨ n = 7
            ∨ n = 8 ∨ n = 9 := by omega
        all_goals contradiction
      have hrange := hnot _ hk
      simp only [unknownCode, Bool.or_eq_true, beq_iff_eq, decide_eq_true_eq]
      omega
    have hun : ∀ x : Part, x.answerOrder (orderOf copy) = x.orderUnknown := fun x => by
      unfold Part.answerOrder
      split <;> first | contradiction | rfl
    simp only [hun]
    have hexec : exec (.unknownOrder (orderByte copy 0)) s
        = s.partEvent (unknownCode (orderByte copy 0)) fun x => x.orderUnknown.note (orderByte copy 0) := rfl
    rw [hexec, hcode]
  all_goals
    next hcode =>
    simp only [Part.answerOrder, hcode, hbyte _ hcode]
    rfl

theorem exec_orderCommand {s : State} (hr : s.path.inReset = false) :
    exec (orderCommand s.part.unit.orderCopy) s = .next (State.finish s { s with part := s.part.takeOrder }) :=
  (exec_orderCommand_eq ..).trans (State.partEvent_enabled hr rfl _)

end Sys2Proof.Machine

open Sys2Proof Sys2Proof.Machine

/-! ### Host transactions -/

/-- Settles O14: the feed stall test meets the transaction in the step that begins it. -/
theorem hostTransactionStarts : Obligations.HostTransactionStarts := by
  intro command addr s hs hh
  obtain ⟨hr, hw⟩ := hs
  refine ⟨_, exec_hostTransactionStart hr hh command addr, State.finish_agreesOutsidePath _ hw, fun b hb => ?_,
    fun hb hc => ?_, fun g p hb hg hf hn => ?_⟩
  · rw [State.finish_eq, State.advancePath_busy (s := State.beforePath s (s.hostBegun command addr)) (b := b) hb]
    exact ⟨rfl, hb⟩
  · obtain ⟨hpath, -⟩ := State.advancePath_forwards (v := State.beforePath s (s.hostBegun command addr))
      (h := HostTransaction.begin command addr) hb rfl rfl <| hc.elim
        (fun h => .inr (.inl fun g hg => h g ((State.beforePath_setup ..).symm.trans hg)))
        (fun h => .inr (.inr fun q hq => h q ((State.beforePath_requestLevel? hw q).symm.trans hq)))
    rw [State.finish_eq, hpath]
    exact ⟨rfl, hb⟩
  · have hn' : (State.beforePath s (s.hostBegun command addr)).nextPanel? 0 = some p :=
      (State.nextPanel?_congr (s := State.beforePath s (s.hostBegun command addr)) (t := s) rfl
        (State.beforePath_requestLevel? (u := s.hostBegun command addr) hw) 0).trans hn
    obtain ⟨e, b, he, hreq, hi⟩ := State.advancePath_inserts (v := State.beforePath s (s.hostBegun command addr))
      (h := HostTransaction.begin command addr) hb rfl rfl rfl ((State.beforePath_setup ..).trans hg) hf hn'
    rw [State.finish_eq, hi.path]
    exact ⟨rfl, Quad.get_set_self s.path.lastServed 0 p, e, b,
      (State.beforePath_engine? (u := s.hostBegun command addr) hw p).symm.trans he, hreq, rfl⟩

/-- Settles O15: a burst's end frees the port, and the held transaction meets the feed stall test. -/
theorem heldTransactionIsForwarded : Obligations.HeldTransactionIsForwarded := by
  intro c s h b hs hh hp hb hc
  obtain ⟨hr, hw⟩ := hs
  obtain ⟨u, hexec, hpath, hsetup, hpost⟩ := exec_burstEnd hr hb hc
  have hvb : (State.beforePath s u).path.burst = none := by rw [State.beforePath_path, hpath]
  have hvh : (State.beforePath s u).path.host = some h := by rw [State.beforePath_path, hpath]; exact hh
  have hvl : (State.beforePath s u).path.lastServed = s.path.lastServed := by rw [State.beforePath_path, hpath]
  have hvs : (State.beforePath s u).part.setup = u.part.setup := State.beforePath_setup s u
  have hkeeps : (State.finish s u).part.setup = u.part.setup := (State.finish_agreesOutsideWalk s u).setup
  -- forwarded wherever the feed stall test does not hold it back
  have hforward : (h.inserted = true ∨ (∀ g, u.part.setup = some g → g.globals.feedStall = false)
        ∨ (∀ q, (State.beforePath s u).part.requestLevel? q ≠ some 0)) →
      (State.finish s u).path.host = some { h with phase := .forwarding } ∧ (State.finish s u).path.burst = none
        ∧ (State.finish s u).path.lastServed = s.path.lastServed
        ∧ (State.finish s u).part = (State.beforePath s u).part := fun hcond => by
    obtain ⟨hpath', hpart'⟩ := State.advancePath_forwards hvb hvh hp (by rwa [hvs])
    rw [State.finish_eq, hpath', hpart']
    exact ⟨rfl, hvb, hvl, rfl⟩
  refine ⟨fun hcond => ⟨_, hexec, ?_⟩, fun hi => ⟨_, hexec, fun hne => hkeeps.trans (hsetup hne), fun hoff => ?_,
    fun g hg hon => ?_⟩, fun g hcp hi hg hon => ?_⟩
  · obtain ⟨h1, h2, -⟩ := hforward <| hcond.imp_right fun ⟨hne, hoff⟩ =>
      .inl fun g hg => hoff g ((hsetup hne).symm.trans hg)
    exact ⟨h1, h2⟩
  · obtain ⟨h1, h2, -⟩ := hforward (.inr (.inl fun g hg => hoff g (hkeeps.trans hg)))
    exact ⟨h1, h2⟩
  · cases hn : (State.beforePath s u).nextPanel? 0 with
    | none =>
      have hnone := State.nextPanel?_eq_none hn
      obtain ⟨h1, h2, h3, h4⟩ := hforward (.inr (.inr hnone))
      exact .inl ⟨fun q => by rw [h4]; exact hnone q, h1, h2, h3⟩
    | some p =>
      obtain ⟨hlevel, hfirst⟩ := State.nextPanel?_eq_some hn
      have hvg : (State.beforePath s u).part.setup = some g := hvs.trans (hkeeps.symm.trans hg)
      obtain ⟨e, b', he, hreq, hins⟩ := State.advancePath_inserts hvb hvh hp hi hvg hon hn
      obtain ⟨g', e', b'', slot, j, r, hg', he', -, hreq', hfeed, hrun, hdrive, hlow⟩ := Part.requestLevel?_eq_zero hlevel
      obtain ⟨hnone, hothers⟩ := hins.requestLevel?
      rw [he] at he'
      cases he'
      rw [hreq] at hreq'
      cases hreq'
      rw [hvg] at hg'
      cases hg'
      obtain ⟨k, hk⟩ := hins.part
      rw [← State.finish_eq] at hins hk hnone hothers
      refine .inr ⟨p, { e with request := none, inFlight := true, cursor := k }, slot, j, r, b', ?_, ?_, ?_, ?_, hdrive,
        ?_, hlow, rfl, hfeed, fun q hq => ?_⟩
      · rw [hins.path]
      · rw [hins.path]
      · rw [hins.path, ← hvl]
      · rw [hk]
        exact hrun
      · rw [hk]
        exact Quad.get_set_self ..
      · have hne : q ≠ p := fun hqp => by rw [hqp, hnone] at hq; cases hq
        rw [← hvl]
        exact hfirst q ((hothers q hne).symm.trans hq)
  · have hu : u.part = s.part := hpost hcp
    have huw : u.part.walkOwed = false := by rw [hu]; exact hw
    have hlevel : ∀ q, (State.beforePath s u).part.requestLevel? q = s.part.requestLevel? q := fun q =>
      (State.beforePath_requestLevel? huw q).trans (by rw [hu])
    refine ⟨fun hnone => ⟨_, hexec, ?_⟩, fun p hp0 hfirst => ?_⟩
    · obtain ⟨h1, h2, h3, -⟩ := hforward (.inr (.inr fun q => by rw [hlevel]; exact hnone q))
      exact ⟨h1, h2, h3⟩
    · have hn : (State.beforePath s u).nextPanel? 0 = some p :=
        (State.nextPanel?_congr hvl hlevel 0).trans (State.nextPanel?_eq hp0 hfirst)
      obtain ⟨e, b', he, hreq, hins⟩ := State.advancePath_inserts hvb hvh hp hi (by rw [hvs, hu]; exact hg) hon hn
      obtain ⟨hnone, hothers⟩ := hins.requestLevel?
      rw [← State.finish_eq] at hins hnone hothers
      refine ⟨_, e, b', hexec, by rw [hins.path], ?_, hreq, by rw [hins.path], by rw [hins.path, hvl], hnone,
        fun q hq => (hothers q hq).trans (hlevel q)⟩
      rw [← he, State.beforePath_engine? huw, hu]

/-- Settles O16. -/
theorem hostTransactionEnds : Obligations.HostTransactionEnds := by
  intro data grantFirst s h hs hh hp
  obtain ⟨hr, hw⟩ := hs
  have hexec := exec_hostTransactionEnd hr hh hp data grantFirst
  refine ⟨fun hc => ?_, fun hc hno => .of_exec ?_, fun opcode hc => .of_exec ?_⟩
  · have hend : State.endTransaction h data grantFirst s
        = { s with path := { s.path with host := none, hostRead := s.memory.hostBytes h.start data.bytesRead } } := by
      simp only [State.endTransaction, hc, State.releaseHost]
    rw [hend] at hexec
    have hagree := State.finish_agreesOutsidePath s
      (s := { s with path := { s.path with host := none, hostRead := s.memory.hostBytes h.start data.bytesRead } }) hw
    have hread := hagree.hostRead
    refine ⟨_, hexec, ?_, fun i hi ha => ?_, ?_⟩
    · rw [hread]
      exact Memory.hostBytes_length ..
    · rw [hread]
      exact Memory.hostBytes_getElem? _ _ _ _ hi ha
    · rw [hread]
      exact hagree
  · rw [hexec]
    simp only [State.endTransaction, hc, hno, State.releaseHost, Bool.false_eq_true, if_false]
  · rw [hexec]
    simp only [State.endTransaction, hc, State.releaseHost]

/-- Settles O17: the effect takes the copy's order, before the grant or after it. -/
theorem transactionEndGivesOrder : Obligations.TransactionEndGivesOrder := by
  intro data grantFirst s h hs hh hp hc hg
  obtain ⟨hr, -⟩ := hs
  have hexec := exec_hostTransactionEnd hr hh hp data grantFirst
  refine ⟨fun hlast => ?_, _, hexec, ?_⟩
  · rw [hexec]
    have horder := exec_orderCommand (s := s.releaseHost) hr
    simp only [State.endTransaction, hc, hg, hlast, if_true, Bool.false_eq_true, if_false]
    exact horder.symm
  · -- the state at which the order is taken: the transaction over, with the grant or without it
    have htaken : ∃ v : State, v.AgreesOutsidePath s.releaseHost
        ∧ State.endTransaction h data grantFirst s = { v with part := v.part.takeOrder } := by
      cases grantFirst with
      | false => exact ⟨s.releaseHost, rfl, by simp [State.endTransaction, hc, hg]⟩
      | true => exact ⟨s.releaseHost.advancePath, State.outsidePath_advancePath _, by simp [State.endTransaction, hc, hg]⟩
    obtain ⟨v, hv, hend⟩ := htaken
    rw [hend]
    have hunit : v.part.unit.outsidePath = s.part.unit.outsidePath := congrArg (fun x : State => x.part.unit) hv
    have hcopy : v.part.unit.orderCopy = s.part.unit.orderCopy := by
      show v.part.unit.outsidePath.orderCopy = s.part.unit.outsidePath.orderCopy
      rw [hunit]
    have hcount : v.part.unit.ordersTaken = s.part.unit.ordersTaken := by
      show v.part.unit.outsidePath.ordersTaken = s.part.unit.outsidePath.ordersTaken
      rw [hunit]
    have hafter := (State.finish_agreesOutsideWalk s { v with part := v.part.takeOrder })
    have hafterUnit := congrArg Part.unit hafter.part
    refine ⟨?_, ?_, (State.finish_memory ..).trans hv.memory⟩
    · refine (congrArg WindowUnit.ordersTaken hafterUnit).trans ?_
      show (v.part.answerOrder _).part.unit.ordersTaken + 1 = _
      rw [(Part.Updates.answerOrder ..).ordersTaken, hcount]
    · refine (congrArg WindowUnit.lastOrder hafterUnit).trans ?_
      show orderByte v.part.unit.orderCopy 0 = _
      rw [hcopy]
      rfl

end

section
/-! PROOFS of the statements about the arbiter and the bytes of a host write. -/

namespace Sys2Proof.Machine

/-! ### The grant at a level (R147) -/

/-- The first level of a list with a request is granted. -/
theorem State.grantFrom_first {s : State} {level p : PanelNo} (hn : s.nextPanel? level = some p) (before after : List PanelNo)
    (h : ∀ l ∈ before, s.nextPanel? l = none) : s.grantFrom (before ++ level :: after) = s.grantPanel level p := by
  induction before with
  | nil => simp only [List.nil_append, State.grantFrom, hn]
  | cons l ls ih =>
    simp only [List.cons_append, State.grantFrom, h l List.mem_cons_self]
    exact ih fun l' hl' => h l' (List.mem_cons_of_mem _ hl')

/-- The levels as those before a level, the level, and those after it. -/
theorem panelNos_split (level : PanelNo) :
    ∃ before after, panelNos = before ++ level :: after ∧ ∀ l ∈ before, l < level := by
  match level with
  | 0 => exact ⟨[], [1, 2, 3], rfl, by decide⟩
  | 1 => exact ⟨[0], [2, 3], rfl, by decide⟩
  | 2 => exact ⟨[0, 1], [3], rfl, by decide⟩
  | 3 => exact ⟨[0, 1, 2], [], rfl, by decide⟩

theorem State.advancePath_grants {s : State} {level p : PanelNo} (hb : s.path.burst = none) (hh : s.path.host = none)
    (hn : s.nextPanel? level = some p) (hlow : ∀ l < level, s.nextPanel? l = none) :
    s.advancePath = s.grantPanel level p := by
  obtain ⟨before, after, hsplit, hbefore⟩ := panelNos_split level
  have hgrant : s.advancePath = s.grant := by simp only [State.advancePath, hb, hh]
  rw [hgrant, State.grant, hsplit]
  exact State.grantFrom_first hn before after fun l hl => hlow l (hbefore l hl)

/-- A panel with a request has an engine that presents it. -/
theorem Part.presented_of_requestLevel? {part : Part} {p level : PanelNo} (h : part.requestLevel? p = some level) :
    ∃ e b, part.engine? p = some e ∧ e.inFlight = false ∧ e.request = some b := by
  cases he : part.engine? p with
  | none => simp [Part.requestLevel?, he] at h
  | some e =>
    cases hb : e.presented? with
    | none => simp [Part.requestLevel?, he, hb] at h
    | some b => exact ⟨e, b, rfl, Engine.presented?_eq_some.1 hb⟩

theorem Part.requestLevel?_inFlight {part : Part} {p : PanelNo} {e : Engine} (he : part.engine? p = some e)
    (hf : e.inFlight = true) : part.requestLevel? p = none := by
  simp [Part.requestLevel?, he, Engine.presented?, hf]

/-! ### From a byte address to a tile (R5) -/

/-- A byte of a plane, by its row and column. -/
theorem planeByte?_of_coords (p : PanelNo) (c : PanelCfg) (plane : Plane) {row column : Nat} (hr : row < c.height)
    (hc : column < c.stride) :
    planeByte? p c plane (c.planeBase plane + row * c.stride + column)
      = some (if c.width / 4 ≤ column then .padding
          else .pixel ⟨plane, p, row, column, column / 8, row / 32⟩) := by
  have hsub : c.planeBase plane + row * c.stride + column - c.planeBase plane = row * c.stride + column := by omega
  have hdiv : (row * c.stride + column) / c.stride = row := by
    rw [Nat.add_comm, Nat.add_mul_div_right _ _ (by omega), Nat.div_eq_of_lt hc, Nat.zero_add]
  have hmod : (row * c.stride + column) % c.stride = column := by
    rw [Nat.add_comm, Nat.add_mul_mod_self_right, Nat.mod_eq_of_lt hc]
  have hlt : row * c.stride + column < c.planeBytes := by
    have := Nat.mul_le_mul_right c.stride (Nat.succ_le_of_lt hr)
    rw [Nat.succ_mul] at this
    exact Nat.lt_of_lt_of_le (Nat.add_lt_add_left hc _) this
  have hin : c.planeBase plane ≤ c.planeBase plane + row * c.stride + column
      ∧ c.planeBase plane + row * c.stride + column < c.planeBase plane + c.planeBytes := by omega
  unfold planeByte?
  simp only [hin, and_self, if_true, hsub, hdiv, hmod]
  split <;> rfl

theorem planeByte?_outside (p : PanelNo) {c : PanelCfg} {plane : Plane} {a : Nat}
    (h : a < c.planeBase plane ∨ c.planeBase plane + c.height * c.stride ≤ a) : planeByte? p c plane a = none := by
  have hout : ¬ (c.planeBase plane ≤ a ∧ a < c.planeBase plane + c.planeBytes) := by
    unfold PanelCfg.planeBytes
    omega
  simp only [planeByte?, hout, if_false]

/-- A panel none of whose planes holds the address is passed over. -/
theorem planeClass?_skip {g : Setup} {a : Nat} {q : PanelNo} (qs : List PanelNo)
    (h : ∀ d plane, g.panels.get q = some d → planeByte? q d plane a = none) :
    planeClass? g a (q :: qs) = planeClass? g a qs := by
  conv => lhs; unfold planeClass?
  cases hq : g.panels.get q with
  | none => rfl
  | some d => simp only [h d _ hq]

/-- The class of an address that one plane alone holds. -/
theorem planeClass?_of_unique {g : Setup} {a : Nat} {p : PanelNo} {c : PanelCfg} {plane : Plane} {k : ByteClass}
    (hc : g.panels.get p = some c) (hk : planeByte? p c plane a = some k)
    (hother : ∀ q d plane', g.panels.get q = some d → (q, plane') ≠ (p, plane) → planeByte? q d plane' a = none)
    (ps : List PanelNo) (hp : p ∈ ps) : planeClass? g a ps = some k := by
  induction ps with
  | nil => cases hp
  | cons q qs ih =>
    by_cases hq : q = p
    · subst hq
      have hne : ∀ plane', plane' ≠ plane → planeByte? q c plane' a = none := fun plane' h =>
        hother q c plane' hc (by simpa using h)
      unfold planeClass?
      simp only [hc]
      cases plane with
      | target => simp only [hk]
      | shown => simp only [hne .target (by decide), hk]
      | stage => simp only [hne .target (by decide), hne .shown (by decide), hk]
    · rw [planeClass?_skip qs fun d plane' hd => hother q d plane' hd (by simp [hq])]
      exact ih ((List.mem_cons.1 hp).resolve_left fun h => hq h.symm)

/-- An address that no plane holds. -/
theorem planeClass?_none {g : Setup} {a : Nat} (h : ∀ q d plane, g.panels.get q = some d → planeByte? q d plane a = none)
    (ps : List PanelNo) : planeClass? g a ps = none := by
  induction ps with
  | nil => rfl
  | cons q qs ih => rw [planeClass?_skip qs (h q), ih]

/-- What a plane gives an address is its padding or a pixel of it. -/
theorem planeByte?_some {p : PanelNo} {c : PanelCfg} {plane : Plane} {a : Nat} {k : ByteClass}
    (h : planeByte? p c plane a = some k) : k = .padding ∨ ∃ t, k = .pixel t := by
  unfold planeByte? at h
  extract_lets base row column at h
  split at h
  · split at h
    · cases h; exact .inl rfl
    · cases h; exact .inr ⟨_, rfl⟩
  · cases h

theorem planeClass?_some {g : Setup} {a : Nat} {k : ByteClass} (ps : List PanelNo) (h : planeClass? g a ps = some k) :
    k = .padding ∨ ∃ t, k = .pixel t := by
  induction ps with
  | nil => cases h
  | cons q qs ih =>
    unfold planeClass? at h
    split at h
    · exact ih h
    · split at h
      · next h' => cases h; exact planeByte?_some h'
      · split at h
        · next h' => cases h; exact planeByte?_some h'
        · split at h
          · next h' => cases h; exact planeByte?_some h'
          · exact ih h

/-! ### The areas of the window and the bytes outside it (R145) -/

/-- The order block offset of a class. -/
def ByteClass.orderBlock? : ByteClass → Option Nat
  | .orderBlock o => some o
  | .pixel _ | .padding | .statusArea | .setupArea | .windowOther | .untapped => none

theorem State.classAt_window {s : State} {o : Nat} (ha : s.part.unit.base + o < 0x1000000) (ho : o < 0x1000) :
    s.classAt (s.part.unit.base + o) = windowClass o := by
  unfold State.classAt classify
  rw [if_neg (by unfold Config.memoryEnd; omega), if_pos (by unfold Config.windowBytes; omega), Nat.add_sub_cancel_left]

/-- A byte outside the window is of a plane, or is untapped. -/
theorem State.classAt_outside {s : State} {a : Nat} (ha : a < 0x1000000)
    (ho : a < s.part.unit.base ∨ s.part.unit.base + 0x1000 ≤ a) :
    s.classAt a = (s.part.setup.bind fun g => planeClass? g a panelNos).getD .untapped := by
  unfold State.classAt classify
  rw [if_neg (by unfold Config.memoryEnd; omega), if_neg (by unfold Config.windowBytes; omega)]
  cases s.part.setup <;> rfl

theorem State.classAt_outside_cases {s : State} {a : Nat} (ha : a < 0x1000000)
    (ho : a < s.part.unit.base ∨ s.part.unit.base + 0x1000 ≤ a) :
    s.classAt a = .untapped ∨ s.classAt a = .padding ∨ ∃ t, s.classAt a = .pixel t := by
  have hclass := State.classAt_outside ha ho
  cases hg : s.part.setup with
  | none => exact .inl (by rw [hclass, hg]; rfl)
  | some g =>
    rw [hg, Option.bind_some] at hclass
    cases hk : planeClass? g a panelNos with
    | none => exact .inl (by rw [hclass, hk, Option.getD_none])
    | some k =>
      rw [hclass, hk, Option.getD_some]
      exact .inr (planeClass?_some panelNos hk)

theorem State.classAt_beyond {s : State} {a : Nat} (ha : 0x1000000 ≤ a) : s.classAt a = .untapped := by
  unfold State.classAt classify
  rw [if_pos (by unfold Config.memoryEnd; omega)]

section
variable {s : State} {a : Nat} (hf : s.forwards a = true)
include hf

theorem State.orderOffset?_eq : s.orderOffset? a = (s.classAt a).orderBlock? := by
  unfold State.orderOffset? ByteClass.orderBlock?
  cases s.classAt a <;> exact if_pos hf

theorem State.editsSetup_iff : s.editsSetup a = true ↔ s.classAt a = .setupArea := by
  unfold State.editsSetup
  rw [hf, Bool.true_and, beq_iff_eq]

theorem State.passesBy_eq : s.passesBy a = (s.classAt a).handedToNoOne := by
  unfold State.passesBy
  rw [hf, Bool.true_and]

theorem State.touch?_of_pixel {t : Touch} (h : s.classAt a = .pixel t) : s.touch? t.plane a = some t := by
  simp only [State.touch?, hf, h, if_true]

end

/-! ### Where a forwarded byte arrives -/

/-- A transaction that is being forwarded stays so at a step's end (R144). -/
theorem State.finish_forwarding {b u : State} {h : HostTransaction} (hh : u.path.host = some h)
    (hp : h.phase = .forwarding) : (State.finish b u).path.host = some h := by
  rw [State.finish_eq]
  rcases (State.beforePath b u).advancePath_cases with e | ⟨-, ⟨e, -⟩ | ⟨k, e, hk, -⟩⟩
  · rw [e]
    exact hh
  · exact absurd (hh.symm.trans e) nofun
  · cases hh.symm.trans e
    rw [hp] at hk
    cases hk

theorem State.host_of_forwards {s : State} {a : Nat} (h : s.forwards a = true) :
    ∃ x, s.path.host = some x ∧ x.phase = .forwarding := by
  unfold State.forwards at h
  cases hx : s.path.host with
  | none => simp [hx] at h
  | some x =>
    simp only [hx, Bool.and_eq_true, beq_iff_eq] at h
    exact ⟨x, rfl, h.1.2⟩

theorem State.forwardByte_read (s : State) (a x : Nat) (d : Byte) :
    Memory.read (s.forwardByte a d).memory x
      = if x = a ∧ a < 0x1000000 then d else Memory.read s.memory x := by
  show Memory.read (if a < Config.memoryEnd then s.memory.write a d else s.memory) x = _
  by_cases ha : a < 0x1000000
  · rw [if_pos (show a < Config.memoryEnd from ha)]
    by_cases hx : x = a
    · subst hx
      rw [if_pos ⟨rfl, ha⟩, Memory.read_write_self]
    · rw [if_neg fun h => hx h.1, Memory.read_write_ne _ _ hx]
  · rw [if_neg (show ¬ a < Config.memoryEnd from ha), if_neg fun h => ha h.2]

theorem exec_orderBlockWrite {s : State} (hr : s.path.inReset = false) {a o : Nat} (d : Byte)
    (ho : s.orderOffset? a = some o) :
    exec (.orderBlockWrite a d) s = .next (State.finish s ((s.forwardByte a d).captureOrderByte o d)) := by
  have he : exec (.orderBlockWrite a d) s = s.event true fun x => (x.forwardByte a d).captureOrderByte o d := by
    simp only [exec, execOrderBlockWrite, ho]
  exact he.trans (State.event_enabled hr rfl _)

theorem exec_setupEdit {s : State} (hr : s.path.inReset = false) {a : Nat} (d : Byte) (h : s.editsSetup a = true) :
    exec (.setupEdit a d) s = .next (State.finish s { s.forwardByte a d with part := s.part.setupEdit }) :=
  State.event_enabled hr h fun x => { x.forwardByte a d with part := x.part.setupEdit }

theorem exec_untappedWrite {s : State} (hr : s.path.inReset = false) {a : Nat} (d : Byte) (h : s.passesBy a = true) :
    exec (.untappedWrite a d) s = .next (State.finish s (s.forwardByte a d)) :=
  State.event_enabled hr h fun x => x.forwardByte a d

/-- Every command of a forwarded byte forwards it. -/
theorem exec_forwards {c : Instr} {s : State} {a : Nat} {d : Byte} (hs : s.Ready)
    (hc : (c = .targetTouch a d ∧ (s.touch? .target a).isSome = true)
      ∨ (c = .shownTouch a d ∧ (s.touch? .shown a).isSome = true)
      ∨ (c = .stageTouch a d ∧ (s.touch? .stage a).isSome = true)
      ∨ (c = .orderBlockWrite a d ∧ (s.orderOffset? a).isSome = true)
      ∨ (c = .setupEdit a d ∧ s.editsSetup a = true) ∨ (c = .untappedWrite a d ∧ s.passesBy a = true)) :
    s.forwards a = true ∧ ∃ u, exec c s = .next (State.finish s u) ∧ u.memory = (s.forwardByte a d).memory
      ∧ ∀ h, s.path.host = some h → ∃ h', u.path.host = some h' ∧ h'.next = a + 1 ∧ h'.phase = h.phase := by
  have hnext : ∀ h, s.path.host = some h →
      ∃ h', (s.forwardByte a d).path.host = some h' ∧ h'.next = a + 1 ∧ h'.phase = h.phase := fun h hh => by
    refine ⟨{ h with next := a + 1 }, ?_, rfl, rfl⟩
    show s.path.host.map _ = _
    rw [hh]
    rfl
  rcases hc with ⟨rfl, h⟩ | ⟨rfl, h⟩ | ⟨rfl, h⟩ | ⟨rfl, h⟩ | ⟨rfl, h⟩ | ⟨rfl, h⟩
  · obtain ⟨t, ht⟩ := Option.isSome_iff_exists.1 h
    exact ⟨State.forwards_of_touch? ht, _, exec_targetTouch hs d ht, rfl, hnext⟩
  · obtain ⟨t, ht⟩ := Option.isSome_iff_exists.1 h
    exact ⟨State.forwards_of_touch? ht, _, exec_shownTouch hs d ht, rfl, hnext⟩
  · obtain ⟨t, ht⟩ := Option.isSome_iff_exists.1 h
    exact ⟨State.forwards_of_touch? ht, _, exec_stageTouch hs d ht, rfl, hnext⟩
  · obtain ⟨o, ho⟩ := Option.isSome_iff_exists.1 h
    refine ⟨State.forwards_of_orderOffset? ho, _, exec_orderBlockWrite hs.1 d ho, rfl, fun x hx => ?_⟩
    obtain ⟨h', hh', hn, hp⟩ := hnext x hx
    refine ⟨{ h' with givesOrder := h'.givesOrder || o == 0x0F }, ?_, hn, hp⟩
    show (s.forwardByte a d).path.host.map _ = _
    rw [hh']
    rfl
  · exact ⟨(Bool.and_eq_true _ _ ▸ h).1, _, exec_setupEdit hs.1 d h, rfl, hnext⟩
  · exact ⟨(Bool.and_eq_true _ _ ▸ h).1, _, exec_untappedWrite hs.1 d h, rfl, hnext⟩

/-- The window's areas in ascending offset (R145, R159). -/
theorem windowClass_cases (o : Nat) :
    (o < 0x100 ∧ windowClass o = .statusArea)
      ∨ ((0x100 ≤ o ∧ o < 0x110) ∧ windowClass o = .orderBlock (o - 0x100))
      ∨ ((0x110 ≤ o ∧ ((0x200 ≤ o ∧ o < 0x380) ∨ (0x400 ≤ o ∧ o < 0x500) ∨ (0x600 ≤ o ∧ o < 0xE00)))
          ∧ windowClass o = .setupArea)
      ∨ ((0x110 ≤ o ∧ ¬ ((0x200 ≤ o ∧ o < 0x380) ∨ (0x400 ≤ o ∧ o < 0x500) ∨ (0x600 ≤ o ∧ o < 0xE00)))
          ∧ windowClass o = .windowOther) := by
  unfold windowClass
  split
  · next h => exact .inl ⟨h, rfl⟩
  · split
    · next h h' => exact .inr (.inl ⟨⟨by omega, h'⟩, rfl⟩)
    · split
      · next h h' hset => exact .inr (.inr (.inl ⟨⟨by omega, hset⟩, rfl⟩))
      · next h h' hset => exact .inr (.inr (.inr ⟨⟨by omega, hset⟩, rfl⟩))

/-- What becomes of a forwarded byte of the window, by its offset (R145). -/
theorem State.windowByte {s : State} {a o : Nat} (hf : s.forwards a = true) (hclass : s.classAt a = windowClass o) :
    s.orderOffset? a = (if 0x100 ≤ o ∧ o < 0x110 then some (o - 0x100) else none)
      ∧ (s.editsSetup a = true ↔
          (0x200 ≤ o ∧ o < 0x380) ∨ (0x400 ≤ o ∧ o < 0x500) ∨ (0x600 ≤ o ∧ o < 0xE00))
      ∧ (s.passesBy a = true ↔
          o < 0x100 ∨ (0x110 ≤ o ∧ o < 0x200) ∨ (0x380 ≤ o ∧ o < 0x400) ∨ (0x500 ≤ o ∧ o < 0x600) ∨ 0xE00 ≤ o) := by
  rw [State.orderOffset?_eq hf, State.editsSetup_iff hf, State.passesBy_eq hf]
  rcases windowClass_cases o with ⟨ho, h⟩ | ⟨ho, h⟩ | ⟨ho, h⟩ | ⟨ho, h⟩ <;> rw [hclass, h]
  · exact ⟨(if_neg (by omega)).symm, iff_of_false nofun (by omega), iff_of_true rfl (by omega)⟩
  · exact ⟨(if_pos (by omega)).symm, iff_of_false nofun (by omega), iff_of_false nofun (by omega)⟩
  · exact ⟨(if_neg (by omega)).symm, iff_of_true rfl (by omega), iff_of_false nofun (by omega)⟩
  · exact ⟨(if_neg (by omega)).symm, iff_of_false nofun (by omega), iff_of_true rfl (by omega)⟩

end Sys2Proof.Machine

open Sys2Proof Sys2Proof.Machine

/-- Settles O18: with the lower levels empty, the level's first panel is granted. -/
theorem roundRobinWithinLevels : Obligations.RoundRobinWithinLevels := by
  refine ⟨fun s p e he hf => Part.requestLevel?_inFlight he hf, fun s level p hb hh hp hlow hfirst => ?_⟩
  obtain ⟨e, b, he, hf, hreq⟩ := Part.presented_of_requestLevel? hp
  have hgrant : s.advancePath = s.grantPanel level p :=
    State.advancePath_grants hb hh (State.nextPanel?_eq hp hfirst) fun l hl =>
      Option.eq_none_iff_forall_ne_some.2 fun q hq => hlow l hl q (State.nextPanel?_eq_some hq).1
  obtain ⟨k, hk⟩ := State.grantPanel_eq (l := level) he hf hreq
  rw [hgrant, hk]
  exact ⟨e, b, he, hreq, rfl, Quad.get_set_self .., fun l hl => Quad.get_set_ne _ _ hl,
    Part.requestLevel?_setEngine_inFlight rfl, fun q hq => Part.requestLevel?_setEngine_ne hq _⟩

/-- Settles O19: the offset's quotient and remainder by the stride are the row and the column. -/
theorem addressMapsToTile : Obligations.AddressMapsToTile := by
  intro s g p c plane row column hg hc hr hcol hmem hwin hother
  rw [State.classAt_outside hmem hwin, hg]
  have hclass := planeClass?_of_unique hc (planeByte?_of_coords p c plane hr hcol)
    (fun q d plane' hd hne => planeByte?_outside q (hother q d plane' hd hne)) panelNos (mem_panelNos p)
  simp only [Option.bind_some, hclass, Option.getD_some]

/-- Settles O20. -/
theorem forwardedByteReachesMemory : Obligations.ForwardedByteReachesMemory := by
  intro c s a d hs hc
  obtain ⟨hf, u, hexec, hmem, hhost⟩ := exec_forwards hs hc
  obtain ⟨h, hh, hp⟩ := State.host_of_forwards hf
  obtain ⟨h', hh', hn, hp'⟩ := hhost h hh
  refine ⟨_, hexec, fun x => ?_, h', State.finish_forwarding hh' (hp'.trans hp), hn, hp'.trans hp⟩
  rw [State.finish_memory, hmem, State.forwardByte_read]

/-- Settles O27, by the classes of the addresses. -/
theorem windowBytes : Obligations.WindowBytes := by
  intro s a d hs
  obtain ⟨hr, hw⟩ := hs
  refine ⟨fun hf ha => ⟨fun o hao ho => ?_, fun hout => ?_⟩, fun hf ha => ?_, fun o ho => ?_, fun he => ?_, fun hp => ?_⟩
  · subst hao
    exact State.windowByte hf (State.classAt_window ha ho)
  · have hcases := State.classAt_outside_cases ha hout
    rw [State.orderOffset?_eq hf, Bool.eq_false_iff, ne_eq, State.editsSetup_iff hf, State.passesBy_eq hf]
    refine ⟨?_, ?_, fun hnone => ?_, fun h => by rw [h]; rfl, fun t ht => ⟨by rw [ht]; rfl, State.touch?_of_pixel hf ht⟩⟩
    · rcases hcases with h | h | ⟨t, h⟩ <;> exact congrArg ByteClass.orderBlock? h
    · rcases hcases with h | h | ⟨t, h⟩ <;> rw [h] <;> nofun
    · have hclass : s.classAt a = .untapped := by
        rw [State.classAt_outside ha hout]
        cases hg : s.part.setup with
        | none => rfl
        | some g =>
          have hno := planeClass?_none (fun q c plane hc => planeByte?_outside q (hnone g q c plane hg hc)) panelNos
          simp only [Option.bind_some, hno, Option.getD_none]
      rw [hclass]
      rfl
  · rw [State.orderOffset?_eq hf, Bool.eq_false_iff, ne_eq, State.editsSetup_iff hf, State.passesBy_eq hf,
      State.classAt_beyond ha]
    exact ⟨rfl, nofun, rfl⟩
  · obtain ⟨h, hh, hp⟩ := State.host_of_forwards (State.forwards_of_orderOffset? ho)
    have hhost : ((s.forwardByte a d).captureOrderByte o d).path.host
        = some { h with next := a + 1, givesOrder := h.givesOrder || o == 15 } := by
      show (s.path.host.map _).map _ = _
      rw [hh]
      rfl
    have hfin := State.finish_forwarding (b := s) hhost hp
    have hagree := State.finish_agreesOutsidePath s (s := (s.forwardByte a d).captureOrderByte o d) hw
    refine ⟨_, exec_orderBlockWrite hr d ho, ?_, fun h' hh' => ?_⟩
    · rw [hfin, ← hhost]
      exact hagree
    · rw [hh] at hh'
      cases hh'
      exact hfin
  · exact .of_exec (exec_setupEdit hr d he)
  · exact .of_exec (exec_untappedWrite hr d hp)

end

section
/-! PROOFS of the statements about TARGET, SHOWN and STAGE touches (R19 to R25). -/

namespace Sys2Proof.Machine

/-! ### What a TARGET touch leaves alone -/

/-- The part apart from the tiles, the zones, the queue and the causes. -/
def Part.outsideTouch (a : Part) : Part :=
  { a with tiles := [], zones := [], pool := [], unit := { a.unit with causes := [] } }

theorem Part.eq_of_outsideTouch {a b : Part} (h : b.outsideTouch = a.outsideTouch) :
    b = { a with
      tiles := b.tiles, zones := b.zones, pool := b.pool
      unit := { a.unit with causes := b.unit.causes } } :=
  congrArg (fun x : Part => { x with
    tiles := b.tiles, zones := b.zones, pool := b.pool
    unit := { x.unit with causes := b.unit.causes } }) h

theorem Part.outsideTouch_mapTiles (a : Part) (g : Setup) (p : PanelNo) (r : Rect) (f : Nat → Nat → Tile → Tile) :
    (a.mapTiles g p r f).outsideTouch = a.outsideTouch := by
  rw [Part.mapTiles_eq]
  rfl

theorem Part.outsideTouch_latch (a : Part) (k : Cause) (n : Nat) : (a.latch k n).outsideTouch = a.outsideTouch := by
  rw [Part.latch_eq]
  rfl

theorem Part.outsideTouch_growJob (a : Part) (slot tx ty : Nat) :
    (a.growJob slot tx ty).outsideTouch = a.outsideTouch := by
  unfold Part.growJob
  split <;> rfl

section
variable (a : Part) (g : Setup) (x : Tile)

theorem Part.outsideTouch_restartZoned : (a.restartZoned g x).outsideTouch = a.outsideTouch := by
  rw [Part.restartZoned_eq]
  rfl

@[simp] theorem Part.restartZoned_tiles : (a.restartZoned g x).tiles = a.tiles := by rw [Part.restartZoned_eq]
@[simp] theorem Part.restartZoned_pool : (a.restartZoned g x).pool = a.pool := by rw [Part.restartZoned_eq]
@[simp] theorem Part.restartZoned_unit : (a.restartZoned g x).unit = a.unit := by rw [Part.restartZoned_eq]

/-- The restart keeps every zone's index and DIRTY count. -/
theorem Part.mem_restartZoned {z : Zone} (h : z ∈ (a.restartZoned g x).zones) :
    ∃ y ∈ a.zones, z.index = y.index ∧ z.dirtyCount = y.dirtyCount := by
  rw [Part.restartZoned_eq] at h
  obtain ⟨y, hy, rfl⟩ := List.mem_map.1 h
  refine ⟨y, hy, ?_⟩
  split
  · split <;> exact ⟨rfl, rfl⟩
  · exact ⟨rfl, rfl⟩

end

@[simp] theorem Part.mapTiles_unit (a : Part) (g : Setup) (p : PanelNo) (r : Rect) (f : Nat → Nat → Tile → Tile) :
    (a.mapTiles g p r f).unit = a.unit := by
  rw [Part.mapTiles_eq]

@[simp] theorem Part.mapTiles_pool (a : Part) (g : Setup) (p : PanelNo) (r : Rect) (f : Nat → Nat → Tile → Tile) :
    (a.mapTiles g p r f).pool = a.pool := by
  rw [Part.mapTiles_eq]

@[simp] theorem Part.latch_pool (a : Part) (k : Cause) (n : Nat) : (a.latch k n).pool = a.pool := by
  rw [Part.latch_eq]

/-- One tile changed: the others keep their records. -/
theorem Part.tileAt?_setTile_ne (a : Part) (g : Setup) {p q : PanelNo} {tx ty x y : Nat} (f : Tile → Tile)
    (h : (q, x, y) ≠ (p, tx, ty)) : (a.setTile g p tx ty f).tileAt? g q x y = a.tileAt? g q x y := by
  by_cases hq : q = p
  · subst hq
    rw [Part.tileAt?_setTile]
    have : ¬ (x = tx ∧ y = ty) := fun e => h (by rw [e.1, e.2])
    cases a.tileAt? g q x y with
    | none => rfl
    | some t => simp only [Option.map_some, this, if_false]
  · exact Part.tileAt?_mapTiles_other a g hq _ _ x y

theorem Part.Latched.congr {a b c : Part} {k : Cause} {n : Nat} (h : a.Latched b k n)
    (hc : c.unit.causes = b.unit.causes) : a.Latched c k n :=
  ⟨fun hl => (WindowUnit.detail?_congr hc k).trans (h.1 hl), fun q hq => (WindowUnit.detail?_congr hc q).trans (h.2 q hq)⟩

/-! ### A touch of a CLEAN tile (R19, R23) -/

section
variable {a : Part} {g : Setup} {t : Touch} {x : Tile}

/-- Where the tile's zone has a queued job, the job takes the tile in. -/
theorem Part.touchClean_zoneJob {slot : Nat} (h : a.zoneJobSlot? x = some slot) :
    a.touchClean g t x
      = (a.growJob slot t.tx t.ty).setTile g t.panel t.tx t.ty fun y => { y with state := .queued } := by
  unfold Part.touchClean
  rw [h]

theorem Part.touchClean_panelJob (h : a.zoneJobSlot? x = none) (hp : (a.queuedPanelJob? t.panel).isSome = true) :
    a.touchClean g t x = a.setTile g t.panel t.tx t.ty fun y => { y with state := .queued } := by
  obtain ⟨k, hk⟩ := Option.isSome_iff_exists.1 hp
  unfold Part.touchClean
  simp only [h, hk]

/-- The part with the touched tile DIRTY, and the zones' counts with it. -/
def Part.dirtied (a : Part) (g : Setup) (t : Touch) : Part :=
  (a.setTile g t.panel t.tx t.ty fun y => { y with state := .dirty }).followTiles

theorem Part.touchClean_dirtied (h : a.zoneJobSlot? x = none) (hp : a.queuedPanelJob? t.panel = none) :
    a.touchClean g t x
      = if x.zone.isSome then a.dirtied g t else (a.dirtied g t).latch .looseWrite t.panel.val := by
  unfold Part.touchClean
  simp only [h, hp]
  cases x.zone <;> rfl

theorem Part.outsideTouch_touchClean (a : Part) (g : Setup) (t : Touch) (x : Tile) :
    (a.touchClean g t x).outsideTouch = a.outsideTouch := by
  unfold Part.touchClean
  split
  · exact (Part.outsideTouch_mapTiles ..).trans (Part.outsideTouch_growJob ..)
  · split
    · exact Part.outsideTouch_mapTiles ..
    · extract_lets dirtied
      have hd : dirtied.outsideTouch = a.outsideTouch := Part.outsideTouch_mapTiles a ..
      split
      · exact hd
      · exact (Part.outsideTouch_latch ..).trans hd

/-- Every case of a touch of a CLEAN tile changes that tile's record alone. -/
theorem Part.touchClean_tiles (a : Part) (g : Setup) (t : Touch) (x : Tile) :
    ∃ f, ∀ p tx ty, (a.touchClean g t x).tileAt? g p tx ty = (a.setTile g t.panel t.tx t.ty f).tileAt? g p tx ty := by
  cases hj : a.zoneJobSlot? x with
  | some slot =>
    refine ⟨fun y => { y with state := .queued }, fun p tx ty => ?_⟩
    rw [Part.touchClean_zoneJob hj]
    refine Part.tileAt?_congr ?_ ..
    unfold Part.setTile Part.mapTiles
    split <;> simp only [Part.growJob_tiles]
  | none =>
    cases hp : a.queuedPanelJob? t.panel with
    | some k => exact ⟨_, fun p tx ty => by rw [Part.touchClean_panelJob hj (by rw [hp]; rfl)]⟩
    | none =>
      refine ⟨fun y => { y with state := .dirty }, fun p tx ty => ?_⟩
      rw [Part.touchClean_dirtied hj hp]
      split
      · rfl
      · exact Part.tileAt?_congr (Part.latch_tiles ..) ..

end

/-- A zone's record found by its index is that of the list. -/
theorem Part.zone?_some {a : Part} {n : Nat} {z : Zone} (h : a.zone? n = some z) : z ∈ a.zones ∧ z.index = n :=
  ⟨List.mem_of_find?_eq_some h, by simpa using List.find?_some h⟩

/-! ### A touch of an ACTIVE tile (R21) -/

section
variable {a : Part} {g : Setup} {c : PanelCfg} {t : Touch} {slot : Nat} {j : Job} {r : RunFields} {e : Engine}
  (hr : a.running? t.panel = some (slot, j, r)) (he : a.engine? t.panel = some e)
include hr he

/-- At or beyond the cursor of a CAPTURING job the tile is in the carried set afterwards. -/
theorem Part.touchActive_ahead (hs : j.state = .capturing) (hc : e.cursor ≤ t.row) :
    ∃ r', a.touchActive g c t = { a with pool := a.pool.set slot (some { j with running := some r' }) }
      ∧ r' = { r with carried := r'.carried }
      ∧ ∀ i, i ∈ r'.carried ↔ i ∈ r.carried ∨ i = g.tileIndex t.panel c t.tx t.ty := by
  obtain ⟨hj, -, -, hrun⟩ := Part.running?_some hr
  obtain ⟨hlt, hslot⟩ := Part.job?_eq_getElem? hj
  unfold Part.touchActive
  simp only [hr, he]
  rw [if_pos ⟨hs, hc⟩]
  split
  · next hin =>
    refine ⟨r, ?_, rfl, fun i => ⟨.inl, fun h => h.elim id fun h => by rw [h]; simpa using hin⟩⟩
    have hsame : a.pool.set slot (some { j with running := some r }) = a.pool := by
      have : ({ j with running := some r } : Job) = j := by rw [← hrun]
      rw [this, ← hslot, List.set_getElem_self]
    rw [hsame]
  · exact ⟨{ r with carried := g.tileIndex t.panel c t.tx t.ty :: r.carried }, rfl, rfl, fun i => by
      simp only [List.mem_cons]; exact or_comm⟩

/-- Below the cursor, or in a later state of the job, the tile takes REDIRTY. -/
theorem Part.touchActive_behind (h : j.state = .capturing → t.row < e.cursor) :
    a.touchActive g c t = a.setTile g t.panel t.tx t.ty fun y => { y with redirty := true } := by
  have hno : ¬ (j.state = .capturing ∧ e.cursor ≤ t.row) := fun ⟨hs, hc⟩ => absurd (h hs) (by omega)
  unfold Part.touchActive
  simp only [hr, he, hno, if_false]

end

/-! ### A SHOWN touch (R24, R73) -/

/-- What the memory port's business may change of a panel's engine is its request alone. -/
theorem State.AgreesOutsidePath.engine {t u : State} (h : t.AgreesOutsidePath u) (p : PanelNo) :
    (t.part.engine? p).map Engine.outsidePath = (u.part.engine? p).map Engine.outsidePath := by
  have := congrArg (fun x : State => x.part.engines.get p) h
  simpa [State.outsidePath, Part.outsidePath, enginesOutsidePath, Part.engine?] using this

/-- What the memory port's business leaves of an engine, of every field that is no request. -/
theorem State.AgreesOutsidePath.engine_map {t u : State} (h : t.AgreesOutsidePath u) (p : PanelNo) {α : Type}
    {f : Engine → α} (hf : ∀ e, f e.outsidePath = f e) : (t.part.engine? p).map f = (u.part.engine? p).map f := by
  have := congrArg (Option.map f) (h.engine p)
  rw [Option.map_map, Option.map_map] at this
  simpa only [Function.comp_def, hf] using this

/-- The agreement does not look at the engines' requests: the engines may be taken from either side. -/
theorem State.AgreesOutsidePath.withEngines {t u : State} (h : t.AgreesOutsidePath u) :
    t.AgreesOutsidePath { u with part := { u.part with engines := t.part.engines } } := by
  have hpart : t.part.outsidePath = u.part.outsidePath := congrArg State.part h
  have hengines : enginesOutsidePath t.part.engines = enginesOutsidePath u.part.engines := congrArg Part.engines hpart
  refine Eq.trans h ?_
  show ({ u with path := u.path.outsidePath, part := u.part.outsidePath } : State)
    = { u with
        path := u.path.outsidePath
        part := { u.part.outsidePath with engines := enginesOutsidePath t.part.engines } }
  rw [hengines]
  rfl

/-- A SHOWN touch before the late mark (R24): UNKNOWN on the tile, and PLANE_INTRUSION. -/
def Part.distrusted (a : Part) (g : Setup) (t : Touch) : Part :=
  (a.setTile g t.panel t.tx t.ty fun x => { x with untrusted := true }).latch .planeIntrusion t.panel.val

theorem Part.distrusted_eq (a : Part) (g : Setup) (t : Touch) :
    a.distrusted g t = { a with
      tiles := (a.distrusted g t).tiles, unit := { a.unit with causes := (a.distrusted g t).unit.causes } } := by
  unfold Part.distrusted Part.setTile
  rw [Part.latch_eq, Part.mapTiles_eq]

/-- The engine as the late SHOWN mark leaves it (R73). -/
def Part.lateEngine? (a : Part) (t : Touch) : Option Engine :=
  match a.running? t.panel, a.engine? t.panel with
  | some (_, j, r), some e =>
    match e.commit with
    | some pos =>
      if j.state = .committing ∧ j.rect.contains t.tx t.ty ∧ e.toCopy j.rect r.mode t.tx t.ty ∧ pos.written t.row t.tx
      then some (e.updateEntry j.rect t.tx t.ty fun x => { x with lateShown := true })
      else some e
    | none => some e
  | _, e => e

theorem Part.setEngine_engine?_self (a : Part) (p : PanelNo) : a.setEngine p (a.engine? p) = a := by
  unfold Part.setEngine Part.engine?
  rw [Quad.set_get_self]

theorem Part.lateTouch_eq (a : Part) (t : Touch) : a.lateTouch t = a.setEngine t.panel (a.lateEngine? t) := by
  unfold Part.lateTouch Part.lateEngine?
  cases hr : a.running? t.panel with
  | none => exact (Part.setEngine_engine?_self ..).symm
  | some k =>
    cases he : a.engine? t.panel with
    | none => simp only [← he]; exact (Part.setEngine_engine?_self ..).symm
    | some e =>
      have hself : a.setEngine t.panel (some e) = a := he ▸ Part.setEngine_engine?_self a t.panel
      cases hc : e.commit with
      | none => simp only [hc]; exact hself.symm
      | some pos =>
        simp only [hc]
        split
        · rfl
        · exact hself.symm

/-- The late mark touches the context alone. -/
theorem Part.lateEngine?_map (a : Part) (t : Touch) {α : Type} {f : Engine → α}
    (hf : ∀ (e : Engine) l, f { e with context := l } = f e) : (a.lateEngine? t).map f = (a.engine? t.panel).map f := by
  unfold Part.lateEngine?
  split
  · next he =>
    rw [he]
    split
    · split
      · exact congrArg some (hf ..)
      · rfl
    · rfl
  · rfl

theorem CommitPos.written_iff (pos : CommitPos) (y tx : Nat) :
    pos.written y tx = true ↔ y < pos.row ∨ (y = pos.row ∧ tx < pos.tx) := by
  simp [CommitPos.written]

theorem Part.engine?_setEngine_self (a : Part) (p : PanelNo) (e : Option Engine) : (a.setEngine p e).engine? p = e :=
  Quad.get_set_self ..

theorem Part.engine?_setEngine_ne (a : Part) {p q : PanelNo} (h : q ≠ p) (e : Option Engine) :
    (a.setEngine p e).engine? q = a.engine? q := Quad.get_set_ne _ _ h

end Sys2Proof.Machine

open Sys2Proof Sys2Proof.Machine

/-- Settles O21, by the tile's zone's queued job, the panel's queued PANEL job, or neither. -/
theorem targetTouchOfCleanTile : Obligations.TargetTouchOfCleanTile := by
  intro s a d t g c x hs ht hg hc hx hclean
  have htouch : s.part.targetTouch t = (s.part.touchClean g t x).restartZoned g x := by
    simp only [Part.targetTouch, hg, hc, hx, hclean]
  have hframe := Part.eq_of_outsideTouch
    ((Part.outsideTouch_restartZoned (s.part.touchClean g t x) g x).trans (Part.outsideTouch_touchClean s.part g t x))
  rw [← htouch] at hframe
  have howed : (s.part.targetTouch t).walkOwed = false := by rw [hframe]; exact hs.2
  have hagree := State.finish_agreesOutsidePath s (s := { s.forwardByte a d with part := s.part.targetTouch t }) howed
  have htiles := hagree.tiles
  have hzones := hagree.zones
  have hpool := hagree.pool
  have hcauses := hagree.causes
  refine ⟨_, exec_targetTouch hs d ht, ?_, fun p tx ty hne => ?_, fun n z slot j hn hz hq hj => ?_, fun hnone => ?_⟩
  · rw [htiles, hzones, hpool, hcauses]
    exact Eq.trans hagree (congrArg State.outsidePath (by rw [← hframe]))
  · obtain ⟨f, hf⟩ := Part.touchClean_tiles s.part g t x
    rw [Part.tileAt?_congr htiles, htouch, Part.tileAt?_congr (Part.restartZoned_tiles ..), hf,
      Part.tileAt?_setTile_ne _ _ _ hne]
  · have hslot : s.part.zoneJobSlot? x = some slot := by simp [Part.zoneJobSlot?, hn, hz, hq]
    have hgrow : s.part.growJob slot t.tx t.ty
        = s.part.setJob slot { j with rect := j.rect.join ⟨t.tx, t.tx, t.ty, t.ty⟩ } := by
      simp only [Part.growJob, hj]
    rw [Part.touchClean_zoneJob hslot, hgrow] at htouch
    refine ⟨?_, ?_, ?_⟩
    · rw [Part.tileAt?_congr htiles, htouch, Part.tileAt?_congr (Part.restartZoned_tiles ..)]
      exact Part.tileAt?_setTile_self (part := s.part.setJob slot _) hx _
    · rw [hpool, htouch, Part.restartZoned_pool, Part.setTile, Part.mapTiles_pool]
      rfl
    · rw [hcauses, htouch, Part.restartZoned_unit, Part.setTile, Part.mapTiles_unit]
      rfl
  · have hslot : s.part.zoneJobSlot? x = none := by
      cases hn : x.zone with
      | none => simp [Part.zoneJobSlot?, hn]
      | some n =>
        cases hz : s.part.zone? n with
        | none => simp [Part.zoneJobSlot?, hn, hz]
        | some z => simp [Part.zoneJobSlot?, hn, hz, hnone n z hn hz]
    refine ⟨?_, fun hp => ?_, fun hp => ?_⟩
    · rw [hpool, htouch, Part.restartZoned_pool]
      cases hp : s.part.queuedPanelJob? t.panel with
      | some k => rw [Part.touchClean_panelJob hslot (by rw [hp]; rfl), Part.setTile, Part.mapTiles_pool]
      | none =>
        rw [Part.touchClean_dirtied hslot hp]
        split
        · exact Part.mapTiles_pool ..
        · exact (Part.latch_pool ..).trans (Part.mapTiles_pool ..)
    · rw [Part.touchClean_panelJob hslot hp] at htouch
      refine ⟨?_, ?_⟩
      · rw [Part.tileAt?_congr htiles, htouch, Part.tileAt?_congr (Part.restartZoned_tiles ..)]
        exact Part.tileAt?_setTile_self hx _
      · rw [hcauses, htouch, Part.restartZoned_unit, Part.setTile, Part.mapTiles_unit]
    · rw [Part.touchClean_dirtied hslot hp] at htouch
      have hdtiles : (s.part.targetTouch t).tiles = (s.part.dirtied g t).tiles := by
        rw [htouch, Part.restartZoned_tiles]
        split
        · rfl
        · exact Part.latch_tiles ..
      have hdunit : (s.part.dirtied g t).unit = s.part.unit := Part.mapTiles_unit ..
      refine ⟨?_, fun n z _ hz => ?_, fun hsome => ?_, fun hloose => ?_⟩
      · rw [Part.tileAt?_congr htiles, Part.tileAt?_congr hdtiles]
        exact Part.tileAt?_setTile_self hx _
      · obtain ⟨hmem, hidx⟩ := Part.zone?_some hz
        rw [hzones] at hmem
        rw [htiles]
        show z.dirtyCount = dirtyTiles (s.part.targetTouch t).tiles n
        have hmem' : z ∈ (s.part.targetTouch t).zones := hmem
        rw [htouch] at hmem'
        obtain ⟨y, hy, hyi, hyc⟩ := Part.mem_restartZoned _ _ _ hmem'
        have hy' : y ∈ (s.part.dirtied g t).zones := by
          split at hy
          · exact hy
          · rwa [Part.latch_zones] at hy
        obtain ⟨hcount, -⟩ := Part.zonesInStep_followTiles _ y hy'
        rw [hyc, hcount, hdtiles, ← hidx, hyi]
        rfl
      · rw [hcauses, htouch, Part.restartZoned_unit, if_pos hsome, hdunit]
      · have hnsome : ¬ x.zone.isSome = true := by rw [hloose]; nofun
        have hl := (s.part.dirtied g t).latched_latch .looseWrite t.panel.val
        refine Part.Latched.congr (b := (s.part.dirtied g t).latch .looseWrite t.panel.val) ?_ ?_
        · unfold Part.Latched at hl ⊢
          rwa [hdunit] at hl
        · rw [hcauses, htouch, Part.restartZoned_unit, if_neg hnsome]

/-- Settles O23, by the capture cursor. -/
theorem targetTouchOfActiveTile : Obligations.TargetTouchOfActiveTile := by
  intro s a d t g c x slot j r e hs ht hg hc hx hactive hr he
  have htouch : s.part.targetTouch t = (s.part.touchActive g c t).restartZoned g x := by
    simp only [Part.targetTouch, hg, hc, hx, hactive]
  -- the two cases of the touch, before the restart of the zone's timer
  have hcases : (j.state = .capturing ∧ e.cursor ≤ t.row) ∨ (j.state = .capturing → t.row < e.cursor) := by
    by_cases h : j.state = .capturing ∧ e.cursor ≤ t.row
    · exact .inl h
    · exact .inr fun hcap => Nat.lt_of_not_le fun hle => h ⟨hcap, hle⟩
  have hframe : s.part.targetTouch t = { s.part with
      tiles := (s.part.targetTouch t).tiles, zones := (s.part.targetTouch t).zones, pool := (s.part.targetTouch t).pool } := by
    rw [htouch, Part.restartZoned_eq]
    rcases hcases with ⟨hcap, hle⟩ | hlt
    · obtain ⟨r', h', -⟩ := Part.touchActive_ahead (g := g) (c := c) hr he hcap hle
      rw [h']
    · rw [Part.touchActive_behind hr he hlt, Part.setTile, Part.mapTiles_eq]
  have howed : (s.part.targetTouch t).walkOwed = false := by rw [hframe]; exact hs.2
  have hagree := State.finish_agreesOutsidePath s (s := { s.forwardByte a d with part := s.part.targetTouch t }) howed
  have htiles := hagree.tiles
  have hzones := hagree.zones
  have hpool := hagree.pool
  refine ⟨_, exec_targetTouch hs d ht, ?_, fun p tx ty hne => ?_, fun hcap hle => ?_, fun hlt => ?_⟩
  · rw [htiles, hzones, hpool]
    exact Eq.trans hagree (congrArg State.outsidePath (by rw [← hframe]))
  · rw [Part.tileAt?_congr htiles, htouch, Part.tileAt?_congr (Part.restartZoned_tiles ..)]
    rcases hcases with ⟨hcap, hle⟩ | hlt
    · obtain ⟨r', h', -⟩ := Part.touchActive_ahead (g := g) (c := c) hr he hcap hle
      rw [h']
      rfl
    · rw [Part.touchActive_behind hr he hlt, Part.tileAt?_setTile_ne _ _ _ hne]
  · obtain ⟨r', h', hr', hcarried⟩ := Part.touchActive_ahead (g := g) (c := c) hr he hcap hle
    refine ⟨?_, r', ?_, hr', hcarried⟩
    · rw [htiles, htouch, Part.restartZoned_tiles, h']
    · rw [hpool, htouch, Part.restartZoned_pool, h']
  · rw [Part.touchActive_behind hr he hlt] at htouch
    refine ⟨?_, ?_⟩
    · rw [hpool, htouch, Part.restartZoned_pool, Part.setTile, Part.mapTiles_pool]
    · rw [Part.tileAt?_congr htiles, htouch, Part.tileAt?_congr (Part.restartZoned_tiles ..)]
      exact Part.tileAt?_setTile_self hx _

/-- Settles O25: the touch is UNKNOWN with its cause, and then the late mark in the engine. -/
theorem shownTouchSetsUnknown : Obligations.ShownTouchSetsUnknown := by
  intro s a d t g c x hs ht hg hc hx
  have hbase := Part.distrusted_eq s.part g t
  have hrun : (s.part.distrusted g t).running? t.panel = s.part.running? t.panel := by rw [hbase]; rfl
  have hengine : ∀ p, (s.part.distrusted g t).engine? p = s.part.engine? p := fun p => by rw [hbase]; rfl
  have hlate : (s.part.distrusted g t).lateEngine? t = s.part.lateEngine? t := by
    unfold Part.lateEngine?
    rw [hrun, hengine]
  have htouch : s.part.shownTouch t = (s.part.distrusted g t).setEngine t.panel (s.part.lateEngine? t) := by
    rw [← hlate, ← Part.lateTouch_eq]
    simp only [Part.shownTouch, hg, Part.distrusted]
  have howed : (s.part.shownTouch t).walkOwed = false := by
    rw [htouch, hbase]
    exact hs.2
  have hagree := State.finish_agreesOutsidePath s (s := { s.forwardByte a d with part := s.part.shownTouch t }) howed
  have htiles : _ = (s.part.shownTouch t).tiles := hagree.tiles
  have hcauses : _ = (s.part.shownTouch t).unit.causes := hagree.causes
  have hself : (s.part.shownTouch t).engine? t.panel = s.part.lateEngine? t := by
    rw [htouch, Part.engine?_setEngine_self]
  have hother : ∀ p, p ≠ t.panel → (s.part.shownTouch t).engine? p = s.part.engine? p := fun p hp => by
    rw [htouch, Part.engine?_setEngine_ne _ hp, hengine]
  have htile : ∀ p tx ty, (s.part.shownTouch t).tileAt? g p tx ty
      = (s.part.setTile g t.panel t.tx t.ty fun x => { x with untrusted := true }).tileAt? g p tx ty := fun p tx ty =>
    Part.tileAt?_congr (by rw [htouch]; exact Part.latch_tiles ..) ..
  have hcontext := hagree.engine_map t.panel (f := fun e : Engine => e.context) fun _ => rfl
  refine ⟨_, exec_shownTouch hs d ht, ?_, ?_, fun p tx ty hne => ?_, ?_, fun p hp => ?_, ?_,
    fun slot j r e pos hr he hpos => ?_, fun hno => ?_⟩
  · refine Eq.trans hagree.withEngines (congrArg State.outsidePath ?_)
    rw [htiles, hcauses]
    show ({ s.forwardByte a d with part := { s.part.shownTouch t with engines := _ } } : State) = _
    rw [htouch, hbase]
    rfl
  · rw [Part.tileAt?_congr htiles, htile]
    exact Part.tileAt?_setTile_self hx _
  · rw [Part.tileAt?_congr htiles, htile]
    exact Part.tileAt?_setTile_ne _ _ _ hne
  · refine Part.Latched.congr (b := s.part.distrusted g t) ?_ (hcauses.trans (by rw [htouch]; rfl))
    have hl := (s.part.setTile g t.panel t.tx t.ty fun x => { x with untrusted := true }).latched_latch
      .planeIntrusion t.panel.val
    unfold Part.Latched at hl ⊢
    rwa [Part.setTile, Part.mapTiles_unit] at hl
  · rw [hagree.engine p]
    exact congrArg (Option.map Engine.outsidePath) (hother p hp)
  · have := hagree.engine_map t.panel (f := fun e : Engine => { e.outsidePath with context := [] }) fun _ => rfl
    refine this.trans ?_
    show ((s.part.shownTouch t).engine? t.panel).map _ = _
    rw [hself]
    exact Part.lateEngine?_map _ _ fun _ _ => rfl
  · refine hcontext.trans ?_
    show ((s.part.shownTouch t).engine? t.panel).map _ = _
    rw [hself]
    simp only [Part.lateEngine?, hr, he, hpos, CommitPos.written_iff]
    split <;> rfl
  · refine hcontext.trans ?_
    show ((s.part.shownTouch t).engine? t.panel).map _ = _
    rw [hself]
    unfold Part.lateEngine?
    split
    · next hr he =>
      rw [he]
      rcases hno with h | h
      · rw [h] at hr
        cases hr
      · simp only [h _ he]
    · rfl

end

section
/-! PROOFS of the statement about STAGE touches (R25, R119). -/

namespace Sys2Proof.Machine

/-! ### Groups of a commit, over the tiles of a rectangle -/

/-- The next group depends on the tiles of the rectangle alone, from its first row on. -/
theorem Rect.NextGroup.congr {b : Rect} {P Q : Nat → Nat → Prop} {y0 x0 row tx n : Nat}
    (h : b.NextGroup P y0 x0 row tx n) (hx : b.tx0 ≤ x0)
    (hPQ : ∀ x y, b.tx0 ≤ x → x ≤ b.tx1 → y0 ≤ y → y ≤ 32 * b.ty1 + 31 → (P x y ↔ Q x y)) :
    b.NextGroup Q y0 x0 row tx n := by
  obtain ⟨hpos, hmax, hrow, hright, hleft, hafter, hall, hend, hnone⟩ := h
  have hleft' := hleft hx
  refine ⟨hpos, hmax, hrow, hright, hleft, hafter, fun x h1 h2 => ?_, fun h1 h2 hq => ?_, fun y x h1 h2 h3 h4 hq => ?_⟩
  · exact (hPQ x row (by omega) (by omega) (by omega) hrow).1 (hall x h1 h2)
  · exact hend h1 h2 ((hPQ (tx + n) row (by omega) h2 (by omega) hrow).2 hq)
  · exact hnone y x h1 h2 h3 h4 ((hPQ x y h1 h2 (by omega) (by omega)).2 hq)

theorem Rect.NoneLeft.congr {b : Rect} {P Q : Nat → Nat → Prop} {y0 x0 : Nat} (h : b.NoneLeft P y0 x0)
    (hPQ : ∀ x y, b.tx0 ≤ x → x ≤ b.tx1 → y0 ≤ y → y ≤ 32 * b.ty1 + 31 → (P x y ↔ Q x y)) : b.NoneLeft Q y0 x0 :=
  fun y x h1 h2 h3 h4 hq => h y x h1 h2 h3 h4 ((hPQ x y h1 h2 (by omega) h3).2 hq)

/-! ### TAINTED (R25) -/

/-- A tile's entry with TAINTED. -/
def TileContext.taintedMark (x : TileContext) : TileContext := { x with tainted := true }

/-- The engine with a tile's TAINTED mark. -/
def Engine.tainted (e : Engine) (r : Rect) (t : Touch) : Engine := e.updateEntry r t.tx t.ty TileContext.taintedMark

/-- A tainted tile is not to be copied, and every other tile of the rectangle is as it was (R71, R118). -/
theorem Engine.toCopy_tainted {e : Engine} {r : Rect} {t : Touch} (mode : DriveMode)
    (hl : e.context.length = r.cols * r.rows) (ht : r.contains t.tx t.ty = true) {x y : Nat} (hxy : r.contains x y = true) :
    (e.tainted r t).toCopy r mode x y = true ↔ e.toCopy r mode x y = true ∧ ¬ (x = t.tx ∧ y = t.ty) := by
  unfold Engine.toCopy Engine.tainted
  rw [Engine.entry_updateEntry _ hl ht hxy]
  by_cases h : x = t.tx ∧ y = t.ty
  · rw [if_pos h]
    have hout : TileContext.outcome mode (TileContext.taintedMark (e.entry r x y)) = .uncommitted := by
      simp [TileContext.outcome, TileContext.taintedMark]
    rw [hout]
    exact iff_of_false nofun fun hn => hn.2 h
  · rw [if_neg h]
    exact ⟨fun hc => ⟨hc, h⟩, fun hc => hc.1⟩

/-- The STAGE read that covers the touched segment has ended (R25). -/
theorem CommitPos.hasRead_iff (pos : CommitPos) (y tx : Nat) :
    pos.hasRead y tx = true
      ↔ y < pos.row ∨ (y = pos.row ∧ tx < if pos.writing then pos.tx + pos.tiles else pos.tx) := by
  simp [CommitPos.hasRead]

theorem CommitPos.holds_iff (pos : CommitPos) (tx ty : Nat) :
    pos.holds tx ty = true ↔ ty = pos.row / 32 ∧ pos.tx ≤ tx ∧ tx < pos.tx + pos.tiles := by
  simp only [CommitPos.holds, Bool.and_eq_true, beq_iff_eq, decide_eq_true_eq, and_assoc]
  exact and_congr_left fun _ => eq_comm

/-! ### The touch, with PLANE_INTRUSION latched (R25) -/

/-- The part with PLANE_INTRUSION latched for a touch. -/
def Part.intruded (a : Part) (t : Touch) : Part := a.latch .planeIntrusion t.panel.val

theorem Part.intruded_eq (a : Part) (t : Touch) :
    a.intruded t = { a with unit := { a.unit with causes := (a.intruded t).unit.causes } } := Part.latch_eq ..

theorem Part.intruded_latched (a : Part) (t : Touch) : a.Latched (a.intruded t) .planeIntrusion t.panel.val :=
  Part.latched_latch ..

theorem Part.intruded_running? (a : Part) (t : Touch) (p : PanelNo) : (a.intruded t).running? p = a.running? p := by
  rw [Part.intruded_eq]
  rfl

theorem Part.intruded_engine? (a : Part) (t : Touch) (p : PanelNo) : (a.intruded t).engine? p = a.engine? p := by
  rw [Part.intruded_eq]
  rfl

section
variable {a : Part} {g : Setup} {c : PanelCfg} {t : Touch} {x : Tile} (hg : a.setup = some g)
  (hc : g.panels.get t.panel = some c) (hx : a.tileAt? g t.panel t.tx t.ty = some x)
include hg hc hx

/-- A touch of a tile that is not ACTIVE latches the cause and does nothing else. -/
theorem Part.stageTouch_inactive (h : x.state ≠ .active) : a.stageTouch t = a.intruded t := by
  simp only [Part.stageTouch, hg, hc, hx, h, if_false]
  rfl

section
variable {slot : Nat} {j : Job} {r : RunFields} {e : Engine} (ha : x.state = .active)
  (hr : a.running? t.panel = some (slot, j, r)) (he : a.engine? t.panel = some e)
  (hin : j.rect.contains t.tx t.ty = true)
include ha hr he hin

theorem Part.stageTouch_active :
    a.stageTouch t
      = if e.taints j r.mode t = true
        then ((a.intruded t).setEngine t.panel (some (e.tainted j.rect t))).reformCommit g c t slot j r (e.tainted j.rect t)
        else a.intruded t := by
  have hnoted : a.stageTouch t = (a.intruded t).taint g c t := by
    simp only [Part.stageTouch, hg, hc, hx, ha, if_true]
    rfl
  rw [hnoted, Part.taint]
  simp only [Part.intruded_running?, Part.intruded_engine?, hr, he, hin, true_and]
  rfl

end

end

/-- Where no waiting read of a commit holds the tile, the mark is all (R119). -/
theorem Part.reformCommit_none {b : Part} {g : Setup} {c : PanelCfg} {t : Touch} {slot : Nat} {j : Job} {r : RunFields}
    {e : Engine}
    (h : e.commit = none ∨ ∀ q pos, e.request = some q → e.commit = some pos →
      ¬ (q.kind = .commitRead ∧ pos.holds t.tx t.ty = true)) : b.reformCommit g c t slot j r e = b := by
  unfold Part.reformCommit
  split
  · next q pos hq hpos =>
    rcases h with h | h
    · rw [h] at hpos
      cases hpos
    · exact if_neg (h q pos hq hpos)
  · rfl

/-- The waiting read of a commit that holds the tile is re-formed (R119). -/
theorem Part.reformCommit_some {b : Part} {g : Setup} {c : PanelCfg} {t : Touch} {slot : Nat} {j : Job} {r : RunFields}
    {e e' : Engine} {q : Burst} {pos : CommitPos} (hq : e.request = some q) (hpos : e.commit = some pos)
    (h : q.kind = .commitRead ∧ pos.holds t.tx t.ty = true)
    (hn : ({ e with request := none } : Engine).nextCommit c t.panel j.rect r.mode pos.row pos.tx = some e') :
    b.reformCommit g c t slot j r e = b.setEngine t.panel (some e') := by
  have hreform : b.reformCommit g c t slot j r e
      = b.continueCommit g c t.panel slot j r { e with request := none } pos.row pos.tx := by
    unfold Part.reformCommit
    split
    · next q' pos' hq' hpos' =>
      cases hq.symm.trans hq'
      cases hpos.symm.trans hpos'
      exact if_pos h
    · next hno => exact absurd hpos (hno q pos hq)
  rw [hreform]
  unfold Part.continueCommit
  rw [hn]

/-- The job states in which a touch of a job that commits nothing taints (R25). -/
theorem Engine.taints_iff {e : Engine} {j : Job} {mode : DriveMode} {t : Touch} (hq : j.state ≠ .queued)
    (hc : j.state ≠ .committing) :
    e.taints j mode t = true ↔ j.state = .poised ∨ j.state = .driving ∨ t.row < e.cursor := by
  unfold Engine.taints
  cases hs : j.state <;> simp_all

theorem Engine.taints_committing {e : Engine} {j : Job} {mode : DriveMode} {t : Touch} {pos : CommitPos}
    (hs : j.state = .committing) (hc : e.commit = some pos) :
    e.taints j mode t = (e.toCopy j.rect mode t.tx t.ty && !pos.hasRead t.row t.tx) := by
  simp only [Engine.taints, hs, hc]

end Sys2Proof.Machine

open Sys2Proof Sys2Proof.Machine

/-- Settles O26: the mark falls by the job's stage, and a waiting commit read with the tile in its group is re-formed. -/
theorem stageTouchTaints : Obligations.StageTouchTaints := by
  intro s a d t g c x hs ht hg hc hx
  have hexec := exec_stageTouch hs d ht
  have hbase := Part.intruded_eq s.part t
  have hlatched := Part.intruded_latched s.part t
  refine ⟨fun hna => ?_, fun slot j r e ha hr he hno hin hstage => ?_,
    fun slot j r e pos ha hr he hpos hin hstage ended hended => ?_⟩
  · -- a tile that is not ACTIVE
    have htouch := Part.stageTouch_inactive hg hc hx hna
    rw [htouch] at hexec
    have hagree := State.finish_agreesOutsidePath s (s := { s.forwardByte a d with part := s.part.intruded t })
      (by rw [hbase]; exact hs.2)
    have hcauses : _ = (s.part.intruded t).unit.causes := hagree.causes
    refine ⟨_, hexec, ?_, hlatched.congr hcauses⟩
    rw [hcauses]
    exact Eq.trans hagree (congrArg State.outsidePath (by rw [← hbase]))
  · -- a job that commits nothing
    obtain ⟨-, hq, -⟩ := Part.running?_some hr
    have htouch := Part.stageTouch_active hg hc hx ha hr he hin
    rw [Part.reformCommit_none (.inl (show (e.tainted j.rect t).commit = none from hno))] at htouch
    -- in both cases the engine is the only other thing that may change
    obtain ⟨e', he', hmap, hctx⟩ : ∃ e', s.part.stageTouch t = (s.part.intruded t).setEngine t.panel (some e')
        ∧ (∀ l, { e' with context := l } = ({ e with context := l } : Engine))
        ∧ e'.context = if j.state = .poised ∨ j.state = .driving ∨ t.row < e.cursor then
            e.context.set (j.rect.contextIndex t.tx t.ty) { e.entry j.rect t.tx t.ty with tainted := true }
          else e.context := by
      have hiff := Engine.taints_iff (e := e) (mode := r.mode) (t := t) hq hstage
      by_cases htaints : e.taints j r.mode t = true
      · refine ⟨e.tainted j.rect t, by rw [htouch, if_pos htaints], fun _ => rfl, ?_⟩
        exact (if_pos (hiff.1 htaints)).symm
      · refine ⟨e, ?_, fun _ => rfl, ?_⟩
        · rw [htouch, if_neg htaints, ← he, ← Part.intruded_engine? s.part t, Part.setEngine_engine?_self]
        · exact (if_neg fun h => htaints (hiff.2 h)).symm
    rw [he'] at hexec
    have hagree := State.finish_agreesOutsidePath s
      (s := { s.forwardByte a d with part := (s.part.intruded t).setEngine t.panel (some e') }) (by rw [hbase]; exact hs.2)
    have hcauses : _ = (s.part.intruded t).unit.causes := hagree.causes
    refine ⟨_, hexec, ?_, ?_, hlatched.congr hcauses, ?_, fun p hp => ?_⟩
    · refine Eq.trans hagree.withEngines (congrArg State.outsidePath ?_)
      rw [hcauses]
      show ({ s.forwardByte a d with part := { s.part.intruded t with engines := _ } } : State) = _
      rw [hbase]
    · refine (hagree.engine_map t.panel (f := fun e : Engine => e.context) fun _ => rfl).trans ?_
      show (((s.part.intruded t).setEngine t.panel (some e')).engine? t.panel).map _ = _
      rw [Part.engine?_setEngine_self, Option.map_some, hctx]
    · refine (hagree.engine_map t.panel (f := fun e : Engine => { e.outsidePath with context := [] }) fun _ => rfl).trans ?_
      show (((s.part.intruded t).setEngine t.panel (some e')).engine? t.panel).map _ = _
      rw [Part.engine?_setEngine_self, Option.map_some]
      exact congrArg (fun y : Engine => some y.outsidePath) (hmap [])
    · rw [hagree.engine p]
      show (((s.part.intruded t).setEngine t.panel (some e')).engine? p).map _ = _
      rw [Part.engine?_setEngine_ne _ hp, Part.intruded_engine?]
  · -- a job that is COMMITTING
    have htouch := Part.stageTouch_active hg hc hx ha hr he hin
    rw [Engine.taints_committing hstage hpos] at htouch
    have hread : pos.hasRead t.row t.tx = ended :=
      Bool.eq_iff_iff.2 ((CommitPos.hasRead_iff ..).trans hended.symm)
    rw [hread] at htouch
    refine ⟨fun hor => ?_, fun hcopy hnot hout => ?_, fun b copied hcopy hnot hreq hkind hty h1 h2 hleft hlen hcopied hsome => ?_⟩
    · have hno : (e.toCopy j.rect r.mode t.tx t.ty && !ended) = false := by
        rcases hor with h | h <;> simp [h]
      rw [hno, if_neg Bool.false_ne_true] at htouch
      rw [htouch] at hexec
      refine ⟨_, .of_exec hexec, ?_, hlatched⟩
      show ({ s.forwardByte a d with part := s.part.intruded t } : State) = _
      rw [← hbase]
    · rw [hcopy, hnot, Bool.not_false, Bool.and_true, if_pos rfl] at htouch
      have hkeep : ∀ q pos', (e.tainted j.rect t).request = some q → (e.tainted j.rect t).commit = some pos' →
          ¬ (q.kind = .commitRead ∧ pos'.holds t.tx t.ty = true) := fun q pos' hq hp' hboth => by
        have hsame : e.commit = some pos' := hp'
        rw [hpos] at hsame
        cases hsame
        have hholds := (CommitPos.holds_iff ..).1 hboth.2
        rcases hout q hq hboth.1 with h | h | h <;> omega
      rw [Part.reformCommit_none (.inr hkeep)] at htouch
      rw [htouch] at hexec
      refine ⟨_, .of_exec hexec, ?_, hlatched⟩
      show ({ s.forwardByte a d with part := (s.part.intruded t).setEngine t.panel _ } : State) = _
      rw [hbase]
      rfl
    · rw [hcopy, hnot, Bool.not_false, Bool.and_true, if_pos rfl] at htouch
      have hcontains : ∀ x y, j.rect.tx0 ≤ x → x ≤ j.rect.tx1 → pos.row ≤ y → y ≤ 32 * j.rect.ty1 + 31 →
          j.rect.contains x (y / 32) = true := fun x y hx0 hx1 hy0 hy1 => by
        simp only [Rect.contains, Bool.and_eq_true, decide_eq_true_eq] at hin ⊢
        omega
      have hsame : ∀ x y, j.rect.tx0 ≤ x → x ≤ j.rect.tx1 → pos.row ≤ y → y ≤ 32 * j.rect.ty1 + 31 →
          (({ e.tainted j.rect t with request := none } : Engine).toCopy j.rect r.mode x (y / 32) = true ↔ copied x y) :=
        fun x y hx0 hx1 hy0 hy1 =>
          (Engine.toCopy_tainted r.mode hlen hin (hcontains x y hx0 hx1 hy0 hy1)).trans (hcopied x y).symm
      obtain ⟨hgroup, hnone⟩ := Engine.nextCommit_spec ({ e.tainted j.rect t with request := none }) c t.panel j.rect r.mode
        pos.row pos.tx
      cases hnext : ({ e.tainted j.rect t with request := none } : Engine).nextCommit c t.panel j.rect r.mode pos.row
          pos.tx with
      | none => exact absurd ((hnone hnext).congr hsame) hsome
      | some e' =>
        obtain ⟨row, tx, n, hnextGroup, he'⟩ := hgroup e' hnext
        rw [Part.reformCommit_some (e := e.tainted j.rect t) hreq hpos
          ⟨hkind, (CommitPos.holds_iff ..).2 ⟨hty, h1, h2⟩⟩ hnext] at htouch
        rw [htouch] at hexec
        refine ⟨_, row, tx, n, .of_exec hexec, ?_, hlatched, hnextGroup.congr hleft hsame⟩
        show ({ s.forwardByte a d with part := ((s.part.intruded t).setEngine t.panel _).setEngine t.panel _ } : State) = _
        rw [hbase, he', Part.setEngine, Part.setEngine, Quad.set_set]
        rfl

end

section
/-! PROOFS of the statements about the orders but HALT (R40 to R45, R77, R137, R158, R160 to R162, R167). -/

namespace Sys2Proof.Machine

/-! ### What an order's bytes spell (R160) -/

theorem RunState.takesRefresh_iff {r : RunState} : r.takesRefresh = true ↔ r = .stopped ∨ r = .running := by
  cases r <;> simp [RunState.takesRefresh]

theorem orderClass?_eq {cls : Byte} {k : RefreshClass}
    (h : (cls = 0 ∧ k = .urgent) ∨ (cls = 1 ∧ k = .timed) ∨ (cls = 2 ∧ k = .routine)) :
    orderClass? cls.toNat = some k := by
  rcases h with ⟨rfl, rfl⟩ | ⟨rfl, rfl⟩ | ⟨rfl, rfl⟩ <;> rfl

theorem orderFull?_eq {mode : Byte} (h : mode = 0 ∨ mode = 1) : orderFull? mode.toNat = some (decide (mode = 1)) := by
  rcases h with rfl | rfl <;> rfl

theorem orderClass?_isSome {n : Nat} (h : n < 3) : ∃ k, orderClass? n = some k := by
  match n, h with
  | 0, _ => exact ⟨_, rfl⟩
  | 1, _ => exact ⟨_, rfl⟩
  | 2, _ => exact ⟨_, rfl⟩

theorem orderFull?_isSome {n : Nat} (h : n < 2) : ∃ full, orderFull? n = some full := by
  match n, h with
  | 0, _ => exact ⟨_, rfl⟩
  | 1, _ => exact ⟨_, rfl⟩

theorem orderClass?_none {n : Nat} (h : 2 < n) : orderClass? n = none := by
  match n, h with
  | n + 3, _ => rfl

theorem orderFull?_none {n : Nat} (h : 1 < n) : orderFull? n = none := by
  match n, h with
  | n + 2, _ => rfl

/-- A mode or class code that none has refuses the order (R160). -/
theorem orderArguments_refused {α : Type} {mode cls : Nat} (h : 2 < cls ∨ 1 < mode) (refused : α)
    (taken : RefreshClass → Bool → α) :
    ((orderClass? cls).elim refused fun k => (orderFull? mode).elim refused (taken k)) = refused := by
  rcases h with h | h
  · rw [orderClass?_none h, Option.elim_none]
  · rw [orderFull?_none h]
    cases orderClass? cls <;> rfl

theorem panelOf?_val (p : PanelNo) : panelOf? p.val = some p := by
  unfold panelOf?
  rw [dif_pos p.isLt]

theorem panelOf?_eq_some {n : Nat} {p : PanelNo} (h : panelOf? n = some p) : p.val = n := by
  unfold panelOf? at h
  split at h
  · cases h
    rfl
  · cases h

/-- The target number of an enabled panel names it. -/
theorem Setup.panelTarget?_eq {g : Setup} {p : PanelNo} {c : PanelCfg} (h : g.panels.get p = some c) :
    g.panelTarget? p.val = some (p, c) := by
  unfold Setup.panelTarget?
  rw [panelOf?_val, Option.bind_some, h, Option.map_some]

theorem Setup.panelTarget?_none {g : Setup} {n : Nat} (h : ∀ p : PanelNo, p.val = n → g.panels.get p = none) :
    g.panelTarget? n = none := by
  unfold Setup.panelTarget?
  cases hp : panelOf? n with
  | none => rfl
  | some p => rw [Option.bind_some, h p (panelOf?_eq_some hp), Option.map_none]

theorem mem_sweepPanels {mask : Nat} {p : PanelNo} : p ∈ sweepPanels mask ↔ mask.testBit p.val = true := by
  unfold sweepPanels
  rw [List.mem_filter]
  exact and_iff_right (mem_panelNos p)

/-- The mask of one panel names that panel alone. -/
theorem sweepPanels_single (p : PanelNo) : sweepPanels (2 ^ p.val) = [p] := by
  revert p
  decide

/-- A mask that names no panel, or one that is not enabled, is refused (R77). -/
theorem Setup.refusesMask_of {g : Setup} {mask : Nat}
    (h : mask % 16 = 0 ∨ ∃ p : PanelNo, mask.testBit p.val = true ∧ g.panels.get p = none) : g.refusesMask mask = true := by
  unfold Setup.refusesMask
  rw [Bool.or_eq_true, Bool.or_eq_true]
  refine Or.inl (h.imp (fun hmod => ?_) fun ⟨p, hbit, hoff⟩ => ?_)
  · rw [List.isEmpty_iff, List.eq_nil_iff_forall_not_mem]
    intro p hp
    have hlow : (mask % 2 ^ 4).testBit p.val = true := by
      rw [Nat.testBit_mod_two_pow, mem_sweepPanels.1 hp, decide_eq_true p.isLt]
      rfl
    rw [show mask % 2 ^ 4 = 0 from hmod, Nat.zero_testBit] at hlow
    cases hlow
  · exact List.any_eq_true.2 ⟨p, mem_sweepPanels.2 hbit, by rw [hoff]; rfl⟩

/-- The mask of one enabled panel is taken. -/
theorem Setup.refusesMask_single {g : Setup} {p : PanelNo} {c : PanelCfg} (h : g.panels.get p = some c) :
    g.refusesMask (2 ^ p.val) = false := by
  have hsmall : ¬ 16 ≤ 2 ^ p.val := by
    have := Nat.pow_lt_pow_right (a := 2) (by omega) p.isLt
    omega
  simp [Setup.refusesMask, sweepPanels_single, h, hsmall]

/-! ### The orders that take a target, tested and taken (R40, R41, R77, R137) -/

section
variable {part : Part} {g : Setup} {target mode cls : Nat} (hrun : part.unit.runState = .stopped ∨ part.unit.runState = .running)
  (hg : part.setup = some g)
include hrun

theorem Part.refreshes : part.unit.runState.takesRefresh = true := RunState.takesRefresh_iff.2 hrun

include hg

theorem Part.orderRefreshZone_tested :
    part.orderRefreshZone target mode cls
      = (g.zone? target).elim (part.refuse .refusedTarget) fun z =>
          (orderClass? cls).elim (part.refuse .refusedArgument) fun k =>
            (orderFull? mode).elim (part.refuse .refusedArgument) fun full => part.refreshZoneWith g z k full := by
  unfold Part.orderRefreshZone
  rw [if_pos (Part.refreshes hrun), hg]
  cases hz : g.zone? target <;> simp only [hz] <;> cases hk : orderClass? cls <;> cases hf : orderFull? mode <;> rfl

theorem Part.orderRefreshPanel_tested :
    part.orderRefreshPanel target mode cls
      = (g.panelTarget? target).elim (part.refuse .refusedTarget) fun x =>
          (orderClass? cls).elim (part.refuse .refusedArgument) fun k =>
            (orderFull? mode).elim (part.refuse .refusedArgument) fun full => part.refreshPanelWith g x.1 x.2 k full := by
  unfold Part.orderRefreshPanel
  rw [if_pos (Part.refreshes hrun), hg]
  cases hz : g.panelTarget? target <;> simp only [hz] <;> cases hk : orderClass? cls <;> cases hf : orderFull? mode <;> rfl

theorem Part.orderRefreshZone_taken {z : ZoneCfg} {k : RefreshClass} {mode cls : Byte} (hz : g.zone? target = some z)
    (hk : (cls = 0 ∧ k = .urgent) ∨ (cls = 1 ∧ k = .timed) ∨ (cls = 2 ∧ k = .routine)) (hmode : mode = 0 ∨ mode = 1) :
    part.orderRefreshZone target mode.toNat cls.toNat = part.refreshZoneWith g z k (decide (mode = 1)) := by
  rw [Part.orderRefreshZone_tested hrun hg, hz, Option.elim_some, orderClass?_eq hk, Option.elim_some, orderFull?_eq hmode,
    Option.elim_some]

theorem Part.orderRefreshPanel_taken {p : PanelNo} {c : PanelCfg} {k : RefreshClass} {mode cls : Byte}
    (hc : g.panels.get p = some c) (hk : (cls = 0 ∧ k = .urgent) ∨ (cls = 1 ∧ k = .timed) ∨ (cls = 2 ∧ k = .routine))
    (hmode : mode = 0 ∨ mode = 1) :
    part.orderRefreshPanel p.val mode.toNat cls.toNat = part.refreshPanelWith g p c k (decide (mode = 1)) := by
  rw [Part.orderRefreshPanel_tested hrun hg, Setup.panelTarget?_eq hc, Option.elim_some, orderClass?_eq hk, Option.elim_some,
    orderFull?_eq hmode, Option.elim_some]

theorem Part.orderSweep_tested :
    part.orderSweep target
      = if g.refusesMask target then part.refuse .refusedTarget else (sweepPanels target).foldl g.sweepOne ⟨part, .done⟩ := by
  unfold Part.orderSweep
  rw [if_pos (Part.refreshes hrun), hg]

theorem Part.orderRestorePort_tested :
    part.orderRestorePort target
      = (g.panelTarget? target).elim (part.refuse .refusedTarget) fun x => ⟨part.restorePort x.1, .done⟩ := by
  unfold Part.orderRestorePort
  rw [if_pos (Part.refreshes hrun), hg]
  cases hz : g.panelTarget? target <;> simp only [hz] <;> rfl

/-- A SWEEP of one enabled panel is a request for it, as a REFRESH_PANEL's. -/
theorem Part.orderSweep_single {p : PanelNo} {c : PanelCfg} (hc : g.panels.get p = some c) :
    part.orderSweep (2 ^ p.val) = part.refreshPanelWith g p c .sweep true := by
  rw [Part.orderSweep_tested hrun hg, Setup.refusesMask_single hc, if_neg Bool.false_ne_true, sweepPanels_single]
  show g.sweepOne ⟨part, .done⟩ p = _
  unfold Setup.sweepOne
  rw [hc]
  unfold Part.refreshPanelWith
  rfl

end

/-- Outside STOPPED and RUNNING the four orders are refused before any other test (R161). -/
theorem Part.orders_refused {part : Part} (h1 : part.unit.runState ≠ .stopped) (h2 : part.unit.runState ≠ .running)
    (target mode cls : Nat) :
    part.orderRefreshZone target mode cls = part.refuse .refusedState
      ∧ part.orderRefreshPanel target mode cls = part.refuse .refusedState
      ∧ part.orderSweep target = part.refuse .refusedState
      ∧ part.orderRestorePort target = part.refuse .refusedState := by
  have hno : ¬ part.unit.runState.takesRefresh = true := fun h => (RunState.takesRefresh_iff.1 h).elim h1 h2
  exact ⟨if_neg hno, if_neg hno, if_neg hno, if_neg hno⟩

theorem Part.orderApply_taken {part : Part} (h : part.unit.runState = .noSetup ∨ part.unit.runState = .stopped) :
    part.orderApply = ⟨{ part with
      unit := { part.unit with
        runState := .applying, leftState := part.unit.runState, editMark := false, setupData := []
        setupRequest := some 0 } }, .started⟩ := by
  unfold Part.orderApply
  rcases h with h | h <;> rw [h]

/-! ### Attention (R167) -/

theorem WindowUnit.attnFrom_iff (mask : BitVec 13) (causes : List (Option Nat)) :
    ∀ i, WindowUnit.attnFrom mask i causes = true
      ↔ ∃ k, (causes[k]?).join.isSome = true ∧ mask.getLsbD (i + k) = true := by
  induction causes with
  | nil => simp [WindowUnit.attnFrom]
  | cons c cs ih =>
    intro i
    simp only [WindowUnit.attnFrom, Bool.or_eq_true, Bool.and_eq_true, ih]
    constructor
    · rintro (⟨hc, hm⟩ | ⟨k, hc, hm⟩)
      · exact ⟨0, by simpa using hc, hm⟩
      · exact ⟨k + 1, by simpa using hc, by rw [show i + (k + 1) = i + 1 + k by omega]; exact hm⟩
    · rintro ⟨k, hc, hm⟩
      cases k with
      | zero => exact .inl ⟨by simpa using hc, hm⟩
      | succ k => exact .inr ⟨k, by simpa using hc, by rw [show i + 1 + k = i + (k + 1) by omega]; exact hm⟩

/-- Every place of the attention word is a cause's. -/
theorem Cause.exists_bit {i : Nat} (h : i < 13) : ∃ k : Cause, k.bit = i := by
  have hall : ∀ i : Fin 13, ∃ k ∈ [Cause.setupResult, .halted, .urgentShown, .portFault, .railFault, .starved,
      .policyChanged, .planeIntrusion, .looseWrite, .queueFull, .underrun, .tempStale, .epochLead], k.bit = i.val := by
    decide
  obtain ⟨k, -, hk⟩ := hall ⟨i, h⟩
  exact ⟨k, hk⟩

theorem clearCauses_getElem? (mask : BitVec 32) (cs : List (Option Nat)) :
    ∀ i k, (clearCauses mask i cs)[k]? = (cs[k]?).map fun c => if mask.getLsbD (i + k) then none else c := by
  induction cs with
  | nil => simp [clearCauses]
  | cons c cs ih =>
    intro i k
    cases k with
    | zero => rfl
    | succ k =>
      simp only [clearCauses, List.getElem?_cons_succ, ih]
      rw [show i + 1 + k = i + (k + 1) by omega]

/-! ### REFRESH_ZONE, REFRESH_PANEL and SWEEP taken (R40 to R44) -/

/-- A zone's record follows the tiles as it stands where its own tiles have not changed and it was in step (R17). -/
theorem Zone.follow_of_inStep {x : Zone} {tiles : List Tile} (now : Count32) (hcount : x.dirtyCount = dirtyTiles tiles x.index)
    (hzero : x.dirtyCount = 0 → x.held = none ∧ x.dirtySince = none) : x.follow tiles now = x := by
  cases x with
  | mk index dirtyCount timer expired dirtySince queuedJob runningJob held epochWait =>
    simp only [Zone.follow, Zone.mk.injEq, true_and, and_true] at hcount hzero ⊢
    rw [← hcount]
    refine ⟨rfl, ?_, ?_⟩
    · split
      · next h => exact (hzero h).2.symm
      · rfl
    · split
      · next h => exact (hzero h).1.symm
      · rfl

/-- What a REFRESH_ZONE takes up changes no other zone's DIRTY count. -/
theorem Part.dirtyTiles_takeUpZone (a : Part) (g : Setup) (z : ZoneCfg) {n : Nat} (h : n ≠ z.index) :
    dirtyTiles (a.takeUpZone g z).tiles n = dirtyTiles a.tiles n := by
  show dirtyTiles (a.mapTiles g z.panel z.rect _).tiles n = _
  unfold Part.mapTiles dirtyTiles
  split
  · refine mapTilesFrom_countP _ _ _ _ _ _ _ _ fun k t _ _ _ _ => ?_
    by_cases hz : t.zone = some z.index
    · have hother : ∀ u : Tile, u.zone = some z.index → (u.zone == some n && u.state == TileState.dirty) = false :=
        fun u hu => by simp [hu, Ne.symm h]
      rw [hother t hz, if_pos hz]
      refine hother _ ?_
      unfold Tile.takeUp
      split <;> exact hz
    · rw [if_neg hz]
  · rfl

/-- A REFRESH_ZONE whose request is placed or merged takes up the zone's DIRTY tiles, and the zone records follow. -/
theorem Part.refreshZoneWith_taken {part placed : Part} {g : Setup} {z : ZoneCfg} {cls : RefreshClass} {full : Bool}
    (h : part.requestZone z z.rect cls .order full = some placed) :
    part.refreshZoneWith g z cls full = ⟨placed.takeUpZone g z, .done⟩ := by
  unfold Part.refreshZoneWith
  rw [h]

theorem Part.refreshZoneWith_refused {part : Part} {g : Setup} {z : ZoneCfg} {cls : RefreshClass} {full : Bool}
    (h : part.requestZone z z.rect cls .order full = none) :
    part.refreshZoneWith g z cls full = ⟨part.latch .queueFull z.index, .refusedState⟩ := by
  unfold Part.refreshZoneWith
  rw [h]

/-- A request merged into a QUEUED job (R43, R44). -/
theorem Part.mergeRequest_eq (part : Part) (slot : Nat) (j : Job) (rect : Rect) (cls : RefreshClass) (full : Bool) :
    part.mergeRequest slot j rect cls full
      = { part with
          pool := part.pool.set slot (some { j with
            rect := j.rect.join rect
            cls := if cls.rank < j.cls.rank then cls else j.cls
            fullRequest := j.fullRequest || full
            sequence := if cls.rank < j.cls.rank then part.sequence else j.sequence })
          sequence := if cls.rank < j.cls.rank then part.sequence + 1 else part.sequence
          walkOwed := true } := by
  unfold Part.mergeRequest Job.merge
  by_cases h : cls.rank < j.cls.rank
  · have hrises : j.cls.moreUrgent cls = cls := by
      unfold RefreshClass.moreUrgent
      rw [if_pos h]
    have hne : cls ≠ j.cls := fun he => by rw [he] at h; omega
    simp only [hrises, hne, h, if_true, if_false]
    rfl
  · have hstays : j.cls.moreUrgent cls = j.cls := (RefreshClass.moreUrgent_eq ..).2 h
    simp only [hstays, h, if_true, if_false]
    rfl

theorem Part.refreshPanelWith_placed {part : Part} {g : Setup} {p : PanelNo} {c : PanelCfg} {cls : RefreshClass} {full : Bool}
    {slot : Nat} (hq : part.queuedPanelJob? p = none) (hs : part.lowestFree? = some slot) :
    part.refreshPanelWith g p c cls full
      = ⟨((part.placeJob slot p (.panel p) c.whole cls .order full).mapTiles g p c.whole fun _ _ t => t.takeUp).followTiles,
          .done⟩ := by
  simp only [Part.refreshPanelWith, Part.requestPanel, hq, hs]

theorem Part.refreshPanelWith_refused {part : Part} {g : Setup} {p : PanelNo} {c : PanelCfg} {cls : RefreshClass} {full : Bool}
    (hq : part.queuedPanelJob? p = none) (hs : part.lowestFree? = none) :
    part.refreshPanelWith g p c cls full = ⟨part.latch .queueFull (0x80 + p.val), .refusedState⟩ := by
  simp only [Part.refreshPanelWith, Part.requestPanel, hq, hs]
  rfl

/-! ### RESTORE_PORT (R137) -/

theorem Part.restore_eq (part : Part) (p : PanelNo) :
    part.restore p = part.changePort p (part.restored p (part.port p)) := by
  unfold Part.restore Part.restored
  cases part.selector? p <;> rfl

theorem Part.restorePort_other {part : Part} {p : PanelNo} (h : (part.port p).state ≠ .fault) : part.restorePort p = part :=
  if_neg h

theorem Part.restorePort_waits {part : Part} {p : PanelNo} (h : (part.port p).state = .fault)
    (howed : (part.port p).owesRows = true) :
    part.restorePort p = part.setPort p { part.port p with restoreWaits := true } :=
  (if_pos h).trans (if_pos howed)

theorem Part.restorePort_restores {part : Part} {p : PanelNo} (h : (part.port p).state = .fault)
    (howed : (part.port p).owesRows = false) :
    part.restorePort p = part.changePort p (part.restored p (part.port p)) :=
  ((if_pos h).trans (if_neg (by rw [howed]; exact Bool.false_ne_true))).trans (Part.restore_eq part p)

/-- An order's command completes with its answer noted. -/
theorem CompletesWith.of_order {c : Instr} {s u : State} {en : Bool} {f : Part → Answered} {code : Byte} {a : Answered}
    (hs : s.Ready) (hc : exec c s = s.partEvent en fun x => (f x).note code) (he : en = true) (ha : f s.part = a)
    (hu : ({ s with part := a.note code } : State) = u) : CompletesWith c s u :=
  .of_partEvent hs.1 hc he (by rw [ha]; exact hu)

end Sys2Proof.Machine

open Sys2Proof Sys2Proof.Machine

/-- Settles O28: APPLY and RUN, by the run state. -/
theorem applyAndRunOrders : Obligations.ApplyAndRunOrders := by
  intro s hs
  refine ⟨fun h => ?_, fun h => ?_, fun h => ?_, fun h => ?_, fun h => ?_⟩
  · refine .of_order (f := Part.orderApply) (code := 1) (en := true) hs rfl rfl (Part.orderApply_taken h) rfl
  · refine .of_order (f := Part.orderApply) (code := 1) (en := true) (a := s.part.refuse .refusedState) hs rfl rfl ?_ rfl
    unfold Part.orderApply
    rcases h with h | h | h <;> rw [h]
  · refine .of_order (f := Part.orderRun) (code := 2) (en := true) (a := ⟨(s.part.setRunState .running).oweWalk, .done⟩)
      hs rfl rfl ?_ rfl
    unfold Part.orderRun
    rw [h]
  · refine .of_order (f := Part.orderRun) (code := 2) (en := true) (a := ⟨s.part, .done⟩) hs rfl rfl ?_ rfl
    unfold Part.orderRun
    rw [h]
  · refine .of_order (f := Part.orderRun) (code := 2) (en := true) (a := s.part.refuse .refusedState) hs rfl rfl ?_ rfl
    unfold Part.orderRun
    rcases h with h | h | h <;> rw [h]

/-- Settles O30: the zone request finds the lowest free slot, and its tiles are taken up. -/
theorem refreshZonePlaces : Obligations.RefreshZonePlaces := by
  intro s g z target mode cls k slot hs hg hrun hz hk hmode hno hfree hlt hbelow
  have hqueued : (s.part.zone? z.index).bind (·.queuedJob) = none := by
    cases hx : s.part.zone? z.index with
    | none => rfl
    | some x => exact hno x hx
  obtain ⟨placed, hplaced⟩ : ∃ placed, placed = (s.part.placeJob slot z.panel (.zone z.index) z.rect k .order
      (decide (mode = 1))).updateZone z.index fun x => { x with queuedJob := some slot } := ⟨_, rfl⟩
  have hrequest := Part.requestZone_placed z.rect k .order (decide (mode = 1)) hqueued
    (Part.lowestFree?_eq hfree hlt hbelow)
  rw [← hplaced] at hrequest
  have hanswer := (Part.orderRefreshZone_taken hrun hg hz hk hmode).trans (Part.refreshZoneWith_taken (g := g) hrequest)
  have hrecord : ∀ n, placed.zone? n = (s.part.zone? n).map fun x => if n = z.index then { x with queuedJob := some slot } else x :=
    fun n => by
      rw [hplaced]
      exact Part.zone?_updateZone _ _ _ (fun x : Zone => { x with queuedJob := some slot }) fun _ => rfl
  have htiles : placed.tiles = s.part.tiles := by rw [hplaced]; rfl
  have hclock : placed.clock = s.part.clock := by rw [hplaced]; rfl
  refine ⟨_, .of_order (f := fun a => a.orderRefreshZone target.toNat mode.toNat cls.toNat) (code := 4) (en := true) hs rfl
    rfl hanswer rfl, ?_, fun p tx ty x hx => ?_, fun x y hx hy => ?_, fun n x hn hx hcount hzero => ?_⟩
  · show ({ s with part := (placed.takeUpZone g z).noteOrder 4 .done } : State) = _
    rw [Part.takeUpZone_eq, hplaced]
    rfl
  · refine (Part.tileAt?_takeUpZone placed g z p tx ty).trans ?_
    rw [Part.tileAt?_congr htiles, hx]
    rfl
  · have hfollowed : (placed.takeUpZone g z).zone? z.index = some y := hy
    rw [Part.zone?_takeUpZone, hrecord, hx, Option.map_some, if_pos rfl, Option.map_some] at hfollowed
    cases hfollowed
    refine ⟨rfl, rfl, rfl, congrArg (dirtyTiles _) (show x.index = z.index from Part.zone?_index hx), fun h0 => ?_⟩
    simp only [Zone.follow] at h0 ⊢
    simp [h0]
  · refine (Part.zone?_takeUpZone placed g z n).trans ?_
    rw [hrecord, hx, Option.map_some, if_neg hn, Option.map_some, hclock]
    refine congrArg some (Zone.follow_of_inStep _ ?_ hzero)
    rw [Part.zone?_index hx, hcount, Part.dirtyTiles_takeUpZone _ _ _ hn, htiles]

/-- Settles O31: the zone's queued job takes the request in. -/
theorem refreshZoneMerges : Obligations.RefreshZoneMerges := by
  intro s g z target mode cls k slot x j hs hg hrun hz hk hmode hx hq hj
  have hqueued : (s.part.zone? z.index).bind (·.queuedJob) = some slot := by rw [hx]; exact hq
  have hrequest := Part.requestZone_merged z.rect k .order (decide (mode = 1)) hqueued hj
  have hanswer := (Part.orderRefreshZone_taken hrun hg hz hk hmode).trans (Part.refreshZoneWith_taken (g := g) hrequest)
  refine ⟨_, .of_order (f := fun a => a.orderRefreshZone target.toNat mode.toNat cls.toNat) (code := 4) (en := true) hs rfl
    rfl hanswer rfl, ?_, fun p tx ty y hy => ?_, fun y hy => ?_⟩
  · show ({ s with part := ((s.part.mergeRequest slot j z.rect k (decide (mode = 1))).takeUpZone g z).noteOrder 4 .done }
      : State) = _
    rw [Part.takeUpZone_eq, Part.mergeRequest_eq]
    rfl
  · refine (Part.tileAt?_takeUpZone _ g z p tx ty).trans ?_
    rw [Part.mergeRequest_eq]
    show (s.part.tileAt? g p tx ty).map _ = _
    rw [hy]
    rfl
  · have hfollowed : ((s.part.mergeRequest slot j z.rect k (decide (mode = 1))).takeUpZone g z).zone? z.index = some y := hy
    rw [Part.zone?_takeUpZone, Part.mergeRequest_eq] at hfollowed
    replace hfollowed : (s.part.zone? z.index).map _ = some y := hfollowed
    rw [hx, Option.map_some] at hfollowed
    cases hfollowed
    exact ⟨hq, rfl, rfl⟩

/-- Settles O32: the panel request finds the lowest free slot, and every DIRTY tile of the panel is taken up. -/
theorem panelRequestPlaces : Obligations.PanelRequestPlaces := by
  intro s g p c target mode cls k slot hs hg hrun hc hq hfree hlt hbelow o ho
  have hslot := Part.lowestFree?_eq hfree hlt hbelow
  obtain ⟨placed, hplaced⟩ : ∃ placed, placed = s.part.placeJob slot p (.panel p) c.whole k .order
    (decide (mode = 1 ∨ k = .sweep)) := ⟨_, rfl⟩
  have htook := Part.tookUp_panel (part := s.part) (placed := placed) hc (by rw [hplaced]; rfl) (by rw [hplaced]; rfl)
    (by rw [hplaced]; rfl)
  have hcompletes : CompletesWith o s { s with
      part := ((placed.mapTiles g p c.whole fun _ _ t => t.takeUp).followTiles).noteOrder (if k = .sweep then 6 else 5)
        .done } := by
    rcases ho with ⟨rfl, htarget, hmode, hk⟩ | ⟨rfl, htarget, rfl⟩
    · have hne : k ≠ .sweep := by rcases hk with ⟨-, rfl⟩ | ⟨-, rfl⟩ | ⟨-, rfl⟩ <;> decide
      rw [if_neg hne]
      refine .of_order (f := fun a => a.orderRefreshPanel target.toNat mode.toNat cls.toNat) (code := 5) (en := true)
        (a := ⟨(placed.mapTiles g p c.whole fun _ _ t => t.takeUp).followTiles, .done⟩) hs rfl rfl ?_ rfl
      rw [htarget, Part.orderRefreshPanel_taken hrun hg hc hk hmode, Part.refreshPanelWith_placed hq hslot, hplaced]
      simp only [hne, or_false]
    · rw [if_pos rfl]
      refine .of_order (f := fun a => a.orderSweep target.toNat) (code := 6) (en := true)
        (a := ⟨(placed.mapTiles g p c.whole fun _ _ t => t.takeUp).followTiles, .done⟩) hs rfl rfl ?_ rfl
      rw [htarget, Part.orderSweep_single hrun hg hc, Part.refreshPanelWith_placed hq hslot, hplaced]
      simp only [or_true, decide_true]
  refine ⟨_, hcompletes, ?_, fun q tx ty x hx => ?_, fun n y hy => ?_⟩
  · rw [Part.mapTiles_eq, hplaced]
    rfl
  · obtain ⟨htaken, hkept⟩ := htook.1 q tx ty x hx
    by_cases h : x.state = .dirty ∧ q = p
    · exact (htaken h).trans (by rw [if_pos h.symm])
    · exact (hkept h).trans (by rw [if_neg fun hn => h hn.symm])
  · have hfollowed : ((placed.mapTiles g p c.whole fun _ _ t => t.takeUp).followTiles).zone? n = some y := hy
    rw [Part.zone?_followTiles] at hfollowed
    cases hz : (placed.mapTiles g p c.whole fun _ _ t => t.takeUp).zone? n with
    | none => rw [hz] at hfollowed; cases hfollowed
    | some x =>
      rw [hz] at hfollowed
      cases hfollowed
      exact congrArg (dirtyTiles _) (Part.zone?_index hz)

/-- Settles O33: the request that finds no slot latches QUEUE_FULL and nothing else. -/
theorem fullPoolRefusesOrders : Obligations.FullPoolRefusesOrders := by
  intro s g target mode cls d hs hg hrun hmode hcls hfull o ho
  have hnone := Part.lowestFree?_eq_none hfull
  obtain ⟨k, hk⟩ := orderClass?_isSome hcls
  obtain ⟨full, hf⟩ := orderFull?_isSome hmode
  -- each of the three asks for a slot, finds none and is refused
  obtain ⟨code, f, hexec, hrefused⟩ : ∃ (code : Byte) (f : Part → Answered), exec o s = s.partEvent true (fun x => Answered.note (f x) code)
      ∧ f s.part = (⟨s.part.latch .queueFull d, .refusedState⟩ : Answered) := by
    rcases ho with ⟨rfl, z, hz, rfl, hno⟩ | ⟨rfl, p, htarget, hon, hq, rfl⟩ | ⟨rfl, p, htarget, hon, hq, rfl⟩
    · have hqueued : (s.part.zone? z.index).bind (·.queuedJob) = none := by
        cases hx : s.part.zone? z.index with
        | none => rfl
        | some x => exact hno x hx
      refine ⟨4, fun x => x.orderRefreshZone target.toNat mode.toNat cls.toNat, rfl, ?_⟩
      show s.part.orderRefreshZone target.toNat mode.toNat cls.toNat = _
      rw [Part.orderRefreshZone_tested hrun hg, hz, hk, hf]
      exact Part.refreshZoneWith_refused (Part.requestZone_refused z.rect k .order full hqueued hnone)
    · obtain ⟨c, hc⟩ := Option.isSome_iff_exists.1 hon
      refine ⟨5, fun x => x.orderRefreshPanel target.toNat mode.toNat cls.toNat, rfl, ?_⟩
      show s.part.orderRefreshPanel target.toNat mode.toNat cls.toNat = _
      rw [htarget, Part.orderRefreshPanel_tested hrun hg, Setup.panelTarget?_eq hc, hk, hf]
      exact Part.refreshPanelWith_refused hq hnone
    · obtain ⟨c, hc⟩ := Option.isSome_iff_exists.1 hon
      refine ⟨6, fun x => x.orderSweep target.toNat, rfl, ?_⟩
      show s.part.orderSweep target.toNat = _
      rw [htarget, Part.orderSweep_single hrun hg hc]
      exact Part.refreshPanelWith_refused hq hnone
  have hnext := State.partEvent_enabled hs.1 rfl fun x => Answered.note (f x) code
  simp only [hrefused] at hnext
  have hlatch := Part.latch_eq s.part .queueFull d
  have hagree := State.finish_agreesOutsidePath s
    (s := { s with part := (⟨s.part.latch .queueFull d, .refusedState⟩ : Answered).note code }) (by
      show (s.part.latch .queueFull d).walkOwed = false
      rw [hlatch]
      exact hs.2)
  have hcauses : _ = (s.part.latch .queueFull d).unit.causes := hagree.causes
  have hunit := congrArg (fun u : State => u.part.unit) hagree
  have hcode : (State.finish s _).part.unit.lastOrder = code := congrArg WindowUnit.lastOrder hunit
  refine ⟨_, hexec.trans hnext, congrArg WindowUnit.lastResult hunit, (Part.latched_latch ..).congr hcauses, ?_⟩
  rw [hcauses, hcode]
  refine Eq.trans hagree (congrArg State.outsidePath ?_)
  show ({ s with part := (s.part.latch .queueFull d).noteOrder code .refusedState } : State) = _
  rw [hlatch]
  rfl

/-- Settles O34: each order is refused at the first of its tests that it fails. -/
theorem ordersRefusedInTurn : Obligations.OrdersRefusedInTurn := by
  intro s target mode cls o hs ho result hresult
  rcases hresult with ⟨hns, hnr, rfl⟩ | ⟨g, hrun, hg, hresult⟩
  · obtain ⟨h4, h5, h6, h9⟩ := Part.orders_refused hns hnr target.toNat mode.toNat cls.toNat
    rcases ho with rfl | rfl | rfl | rfl
    · exact .of_order (f := fun a => a.orderRefreshZone target.toNat mode.toNat cls.toNat) (code := 4) (en := true) hs rfl rfl
        h4 rfl
    · exact .of_order (f := fun a => a.orderRefreshPanel target.toNat mode.toNat cls.toNat) (code := 5) (en := true) hs rfl rfl
        h5 rfl
    · exact .of_order (f := fun a => a.orderSweep target.toNat) (code := 6) (en := true) hs rfl rfl h6 rfl
    · exact .of_order (f := fun a => a.orderRestorePort target.toNat) (code := 9) (en := true) hs rfl rfl h9 rfl
  rcases hresult with ⟨rfl, rfl, hno⟩ | ⟨rfl, rfl | rfl, hno⟩ | ⟨rfl, rfl, hmask⟩ | ⟨rfl, rfl, hz, hbad⟩
    | ⟨rfl, rfl, ⟨p, hp, hon⟩, hbad⟩
  · refine .of_order (f := fun a => a.orderRefreshZone target.toNat mode.toNat cls.toNat) (code := 4) (en := true)
      (a := s.part.refuse .refusedTarget) hs rfl rfl ?_ rfl
    rw [Part.orderRefreshZone_tested hrun hg, hno]
    rfl
  · refine .of_order (f := fun a => a.orderRefreshPanel target.toNat mode.toNat cls.toNat) (code := 5) (en := true)
      (a := s.part.refuse .refusedTarget) hs rfl rfl ?_ rfl
    rw [Part.orderRefreshPanel_tested hrun hg, Setup.panelTarget?_none hno]
    rfl
  · refine .of_order (f := fun a => a.orderRestorePort target.toNat) (code := 9) (en := true)
      (a := s.part.refuse .refusedTarget) hs rfl rfl ?_ rfl
    rw [Part.orderRestorePort_tested hrun hg, Setup.panelTarget?_none hno]
    rfl
  · refine .of_order (f := fun a => a.orderSweep target.toNat) (code := 6) (en := true)
      (a := s.part.refuse .refusedTarget) hs rfl rfl ?_ rfl
    rw [Part.orderSweep_tested hrun hg]
    exact if_pos (Setup.refusesMask_of hmask)
  · obtain ⟨z, hz⟩ := Option.isSome_iff_exists.1 hz
    refine .of_order (f := fun a => a.orderRefreshZone target.toNat mode.toNat cls.toNat) (code := 4) (en := true)
      (a := s.part.refuse .refusedArgument) hs rfl rfl ?_ rfl
    rw [Part.orderRefreshZone_tested hrun hg, hz]
    exact orderArguments_refused hbad _ _
  · obtain ⟨c, hc⟩ := Option.isSome_iff_exists.1 hon
    refine .of_order (f := fun a => a.orderRefreshPanel target.toNat mode.toNat cls.toNat) (code := 5) (en := true)
      (a := s.part.refuse .refusedArgument) hs rfl rfl ?_ rfl
    rw [Part.orderRefreshPanel_tested hrun hg, ← hp, Setup.panelTarget?_eq hc]
    exact orderArguments_refused hbad _ _

/-- Settles O35: the two values are set, or refused together. -/
theorem setClockOrder : Obligations.SetClockOrder := by
  intro s arg1 arg2 hs
  refine ⟨fun h1 h2 => ?_, fun h => ?_⟩
  · refine .of_order (f := fun a => a.orderSetClock arg1 arg2) (code := 7) (en := true) hs rfl rfl
      (if_pos ⟨Nat.lt_succ_of_le h1, Nat.lt_succ_of_le h2⟩) rfl
  · refine .of_order (f := fun a => a.orderSetClock arg1 arg2) (code := 7) (en := true) hs rfl rfl (if_neg fun hn => ?_) rfl
    have hday : arg1.toNat < 86400 := hn.1
    have hcount := hn.2
    omega

/-- Settles O36: ATTN by the latched causes and the mask, what CLEAR_ATTN unlatches, and the orders that no code names. -/
theorem clearAttnAndUnknownOrders : Obligations.ClearAttnAndUnknownOrders := by
  refine ⟨fun u => ?_, fun s hs => ⟨fun mask => ?_, fun code hcode => ?_⟩⟩
  · refine (WindowUnit.attnFrom_iff u.mask u.causes 0).trans ⟨fun ⟨i, hlatched, hmask⟩ => ?_, fun ⟨k, hlatched, hmask⟩ => ?_⟩
    · rw [Nat.zero_add] at hmask
      obtain ⟨k, rfl⟩ := Cause.exists_bit (BitVec.lt_of_getLsbD hmask)
      exact ⟨k, hlatched, hmask⟩
    · exact ⟨k.bit, hlatched, by rw [Nat.zero_add]; exact hmask⟩
  · have hnext := State.partEvent_enabled hs.1 rfl fun x => (x.orderClearAttn mask).note 8
    have hagree := State.finish_agreesOutsidePath s (s := { s with part := (s.part.orderClearAttn mask).note 8 }) hs.2
    have hcauses : _ = clearCauses mask 0 s.part.unit.causes := hagree.causes
    refine ⟨_, hnext, fun k => ?_, ?_⟩
    · unfold WindowUnit.detail?
      rw [hcauses, clearCauses_getElem?, Nat.zero_add]
      cases s.part.unit.causes[k.bit]? with
      | none => split <;> rfl
      | some c => rfl
    · rw [hcauses]
      exact hagree
  · refine .of_order (f := fun a => a.orderUnknown) (code := code) (en := unknownCode code) hs rfl ?_ rfl rfl
    unfold unknownCode
    rcases hcode with h | h <;> simp [h]

/-- Settles O37: RESTORE_PORT by the port's state. -/
theorem restorePortOrder : Obligations.RestorePortOrder := by
  intro s g p c target hs hg hrun htarget hc
  have hcompletes : CompletesWith (.restorePort target) s
      { s with part := (⟨s.part.restorePort p, .done⟩ : Answered).note 9 } := by
    refine .of_order (f := fun a => a.orderRestorePort target.toNat) (code := 9) (en := true) hs rfl rfl ?_ rfl
    rw [htarget, Part.orderRestorePort_tested hrun hg, Setup.panelTarget?_eq hc]
    rfl
  refine ⟨_, hcompletes, ?_⟩
  by_cases hfault : (s.part.port p).state = .fault
  · cases howed : (s.part.port p).owesRows with
    | true =>
      rw [Part.restorePort_waits hfault howed]
      exact ⟨rfl, fun q hq => Quad.get_set_ne _ _ hq, fun h => absurd hfault h,
        fun _ _ => ⟨Quad.get_set_self .., hs.2⟩, nofun⟩
    | false =>
      rw [Part.restorePort_restores hfault howed]
      exact ⟨rfl, fun q hq => Quad.get_set_ne _ _ hq, fun h => absurd hfault h, nofun,
        fun _ _ => ⟨rfl, Quad.get_set_self ..⟩⟩
  · rw [Part.restorePort_other hfault]
    exact ⟨rfl, fun _ _ => rfl, fun _ => ⟨rfl, hs.2⟩, fun h => absurd h hfault, fun h => absurd h hfault⟩

end

section
/-! PROOFS of the statement about HALT (R35, R56 to R59, R111). -/

namespace Sys2Proof.Machine

/-! ### The HELD retry reads and changes few fields (R31, R32) -/

/-- The fields of `x` that an enqueue reads or changes, with a walk owed, and every other field of `t`. -/
def Part.within (x t : Part) : Part :=
  { t with
    tiles := x.tiles, zones := x.zones, pool := x.pool, sequence := x.sequence, clock := x.clock, walkOwed := true
    unit := { t.unit with causes := x.unit.causes } }

section
variable (x t : Part)

theorem Part.within_self (h : x.walkOwed = true) : x.within x = x := by
  show ({ x with walkOwed := true } : Part) = x
  rw [← h]

theorem Part.within_latch (k : Cause) (n : Nat) : (x.within t).latch k n = (x.latch k n).within t := by
  have hdetail : (x.within t).unit.detail? k = x.unit.detail? k := rfl
  unfold Part.latch
  rw [hdetail]
  cases x.unit.detail? k <;> rfl

theorem Part.within_updateZone (n : Nat) (f : Zone → Zone) :
    (x.within t).updateZone n f = (x.updateZone n f).within t := rfl

theorem Part.within_takeUpZone (g : Setup) (z : ZoneCfg) : (x.within t).takeUpZone g z = (x.takeUpZone g z).within t := by
  unfold Part.takeUpZone Part.mapTiles
  cases g.panels.get z.panel <;> rfl

theorem Part.within_requestZone (z : ZoneCfg) (rect : Rect) (cls : RefreshClass) (o : Origin) (full : Bool) :
    (x.within t).requestZone z rect cls o full = (x.requestZone z rect cls o full).map (·.within t) := by
  have hzone : (x.within t).zone? z.index = x.zone? z.index := rfl
  have hslot : (x.within t).lowestFree? = x.lowestFree? := rfl
  cases hq : (x.zone? z.index).bind (·.queuedJob) with
  | some slot =>
    cases hj : x.job? slot with
    | some j =>
      rw [Part.requestZone_merged rect cls o full hq hj,
        Part.requestZone_merged (part := x.within t) rect cls o full (by rw [hzone, hq]) hj,
        Part.mergeRequest_eq, Part.mergeRequest_eq]
      rfl
    | none =>
      have hj' : (x.within t).job? slot = none := hj
      unfold Part.requestZone
      simp only [hzone, hq, hj, hj', Option.map_none]
  | none =>
    cases hs : x.lowestFree? with
    | some slot =>
      rw [Part.requestZone_placed rect cls o full hq hs,
        Part.requestZone_placed (part := x.within t) rect cls o full (by rw [hzone, hq]) (by rw [hslot, hs])]
      rfl
    | none =>
      rw [Part.requestZone_refused rect cls o full hq hs,
        Part.requestZone_refused (part := x.within t) rect cls o full (by rw [hzone, hq]) (by rw [hslot, hs])]
      rfl

theorem Part.within_enqueue (g : Setup) (z : ZoneCfg) (o : Origin) :
    (x.within t).enqueue g z o = (x.enqueue g z o).within t := by
  have hdirty : (x.within t).zoneDirty z.index = x.zoneDirty z.index := rfl
  unfold Part.enqueue
  rw [hdirty]
  split
  · have hwaited : (x.within t).updateZone z.index (fun y => { y with epochWait := false })
        = (x.updateZone z.index fun y => { y with epochWait := false }).within t := rfl
    have hbox : (x.within t).dirtyBox? g z = x.dirtyBox? g z := rfl
    simp only [hwaited, hbox, Part.within_requestZone]
    cases (x.updateZone z.index fun y => { y with epochWait := false }).requestZone z ((x.dirtyBox? g z).getD z.rect) z.cls o
        false with
    | some placed =>
      simp only [Option.map_some, Part.within_takeUpZone]
      rfl
    | none =>
      simp only [Option.map_none]
      rw [Part.within_updateZone, Part.within_latch]
  · rfl

theorem Part.within_retryHeld (g : Setup) (zs : List ZoneCfg) :
    ∀ x : Part, (x.within t).retryHeld g zs = (x.retryHeld g zs).within t := by
  induction zs with
  | nil => exact fun _ => rfl
  | cons z zs ih =>
    intro x
    have hzone : (x.within t).zone? z.index = x.zone? z.index := rfl
    have hquiet : (x.within t).quiet g = x.quiet g := rfl
    have htried : ∀ o, ((x.enqueue g z o).within t).zone? z.index = (x.enqueue g z o).zone? z.index := fun _ => rfl
    unfold Part.retryHeld
    simp only [hzone, hquiet, Part.within_enqueue, htried]
    cases (x.zone? z.index).bind (·.held) with
    | none => exact ih x
    | some o =>
      simp only
      split
      · exact ih x
      · cases ((x.enqueue g z o).zone? z.index).bind (·.held) with
        | none => exact ih _
        | some _ => rfl

/-- The HELD retry commutes with a change of the fields it neither reads nor changes. -/
theorem Part.within_slotsFreed (g : Setup) : (x.within t).slotsFreed g = (x.slotsFreed g).within t :=
  Part.within_retryHeld t g g.zones x

/-- What the HELD retry leaves alone, in a step that owes a walk already. -/
theorem Part.slotsFreed_within (g : Setup) (h : x.walkOwed = true) : x.slotsFreed g = (x.slotsFreed g).within x := by
  rw [← Part.within_slotsFreed, Part.within_self x h]

end

/-! ### A pool search past a slot that it does not concern -/

/-- A search over the pool does not see a slot changed whose job it passes over before and after. -/
theorem findJob_set {f : Job → Bool} {pool : List (Option Job)} {k : Nat} {x : Option Job}
    (hbefore : ∀ j, (pool[k]?).join = some j → f j = false) (hafter : ∀ j, x = some j → f j = false) (i : Nat) :
    findJob f i (pool.set k x) = findJob f i pool := by
  induction pool generalizing i k with
  | nil => rfl
  | cons y ys ih =>
    cases k with
    | zero =>
      have hskip : ∀ y : Option Job, (∀ j, y = some j → f j = false) → findJob f i (y :: ys) = findJob f (i + 1) ys :=
        fun y hy => by
          cases y with
          | none => rfl
          | some j =>
            exact if_neg (by rw [hy j rfl]; exact Bool.false_ne_true)
      exact (hskip x hafter).trans (hskip y fun j hj => hbefore j (by rw [hj]; rfl)).symm
    | succ k =>
      have hrest := ih (k := k) (fun j hj => hbefore j (by rw [List.getElem?_cons_succ]; exact hj)) (i + 1)
      cases y <;> simp only [List.set_cons_succ, findJob, hrest]

/-- A search finds a job where there is one to find. -/
theorem findJob_isSome {f : Job → Bool} {pool : List (Option Job)} {k : Nat} {j : Job} (hj : (pool[k]?).join = some j)
    (hf : f j = true) (i : Nat) : (findJob f i pool).isSome = true := by
  induction pool generalizing i k with
  | nil => cases hj
  | cons y ys ih =>
    cases k with
    | zero =>
      have hy : y = some j := hj
      subst hy
      unfold findJob
      rw [if_pos hf]
      rfl
    | succ k =>
      have hrest := ih (k := k) (by rw [List.getElem?_cons_succ] at hj; exact hj) (i + 1)
      cases y with
      | none => exact hrest
      | some y =>
        unfold findJob
        split
        · rfl
        · exact hrest

/-- A panel's running job is not affected by a slot that held, and holds, no running job of the panel. -/
theorem Part.running?_set {a b : Part} {slot : Nat} {x : Option Job} {p : PanelNo} (hpool : b.pool = a.pool.set slot x)
    (hbefore : ∀ j, a.job? slot = some j → j.state = .queued ∨ j.panel ≠ p)
    (hafter : ∀ j, x = some j → j.state = .queued ∨ j.panel ≠ p) : b.running? p = a.running? p := by
  have hno : ∀ j : Job, j.state = .queued ∨ j.panel ≠ p → (j.state != .queued && j.panel == p) = false := by
    rintro j (h | h) <;> simp [h]
  unfold Part.running?
  rw [hpool, findJob_set (fun j hj => hno j (hbefore j hj)) fun j hj => hno j (hafter j hj)]

/-! ### A job goes back to the queue (R35, R57, R58) -/

section
variable {a : Part} {slot : Nat} {j : Job}

/-- The job's record back in the queue (R57). -/
def Job.returned (j : Job) : Job := { j with state := .queued, running := none }

/-- The zones as the job goes back: its zone's running job none, its queued job the slot (R35). -/
theorem Part.requeueZone_eq (a : Part) (slot : Nat) (j : Job) :
    a.requeueZone slot j = { a with zones := (a.requeueZone slot j).zones } := by
  unfold Part.requeueZone
  cases j.scope <;> rfl

theorem Part.zone?_requeueZone (a : Part) (slot : Nat) (j : Job) (n : Nat) :
    (a.requeueZone slot j).zone? n = (a.zone? n).map fun y =>
      { y with
        runningJob := if j.scope = .zone n then none else y.runningJob
        queuedJob := if j.scope = .zone n then some slot else y.queuedJob } := by
  unfold Part.requeueZone
  cases hs : j.scope with
  | panel p =>
    cases a.zone? n <;> simp
  | zone m =>
    show (a.updateZone m _).zone? n = _
    rw [Part.zone?_updateZone _ _ _ (fun z : Zone => { z with runningJob := none, queuedJob := some slot }) fun _ => rfl]
    cases a.zone? n with
    | none => rfl
    | some y =>
      by_cases h : n = m
      · subst h
        simp
      · have hne : ¬ m = n := fun e => h e.symm
        simp [h, hne]

theorem Part.requeue_eq (a : Part) (slot : Nat) (j : Job) :
    a.requeue slot j = { a with
      pool := (a.requeue slot j).pool, sequence := (a.requeue slot j).sequence, stopMark := (a.requeue slot j).stopMark
      zones := (a.requeue slot j).zones } := by
  unfold Part.requeue
  cases a.queuedTwin? j with
  | none =>
    simp only
    rw [Part.requeueZone_eq]
    rfl
  | some x =>
    simp only
    rw [Part.requeueZone_eq]
    split <;> rfl

theorem Part.zone?_requeue (a : Part) (slot : Nat) (j : Job) (n : Nat) :
    (a.requeue slot j).zone? n = (a.zone? n).map fun y =>
      { y with
        runningJob := if j.scope = .zone n then none else y.runningJob
        queuedJob := if j.scope = .zone n then some slot else y.queuedJob } := by
  unfold Part.requeue
  cases a.queuedTwin? j with
  | none => exact Part.zone?_requeueZone ..
  | some x =>
    simp only
    rw [Part.zone?_requeueZone]
    refine congrArg (Option.map _) ?_
    split <;> rfl

/-- The pool, the sequence counter and the stop mark as a job goes back with no QUEUED job of its scope (R57). -/
theorem Part.requeue_alone (h : ∀ k q, a.job? k = some q → q.state = .queued → q.scope ≠ j.scope) :
    a.requeue slot j = (a.setJob slot j.returned).requeueZone slot j := by
  have htwin : a.queuedTwin? j = none := findJob_eq_none _ _ _ fun k q hq => by
    by_cases hs : q.state = .queued
    · simp [hs, h k q hq hs]
    · simp [hs]
  unfold Part.requeue
  rw [htwin]
  rfl

/-- The record of a returned job that has taken in the QUEUED job of its scope (R58). -/
def Part.joined (a : Part) (j q : Job) : Job :=
  { j with
    state := .queued, running := none
    rect := j.rect.join q.rect
    cls := if q.cls.rank < j.cls.rank then q.cls else j.cls
    sequence := if q.cls.rank < j.cls.rank then a.sequence else j.sequence
    fullRequest := j.fullRequest || q.fullRequest
    urgentCarried := j.urgentCarried || q.urgentCarried }

/-- As a job goes back with the one QUEUED job of its scope, which it takes in (R58). -/
theorem Part.requeue_joined {k : Nat} {q : Job} (hk : a.job? k = some q) (hq : q.state = .queued) (hscope : q.scope = j.scope)
    (honly : ∀ i y, a.job? i = some y → y.state = .queued → y.scope = j.scope → i = k) :
    a.requeue slot j = ({ a with
      pool := (a.pool.set slot (some (a.joined j q))).set k none
      sequence := if q.cls.rank < j.cls.rank then a.sequence + 1 else a.sequence
      stopMark := if a.stopMark = some k then none else a.stopMark } : Part).requeueZone slot j := by
  have htwin : a.queuedTwin? j = some (k, q) := by
    cases ht : a.queuedTwin? j with
    | none =>
      have := findJob_isSome (f := fun x => x.state == .queued && x.scope == j.scope) hk (by simp [hq, hscope]) 0
      rw [show findJob _ 0 a.pool = none from ht] at this
      cases this
    | some x =>
      obtain ⟨i, y⟩ := x
      obtain ⟨-, hy, hf⟩ := findJob_some ht
      simp only [Bool.and_eq_true, beq_iff_eq] at hf
      have hi := honly i y hy hf.1 hf.2
      subst hi
      have hsame : a.job? i = some y := hy
      rw [hk] at hsame
      cases hsame
      rfl
  unfold Part.requeue
  rw [htwin]
  by_cases h : q.cls.rank < j.cls.rank
  · have hrises : j.cls.moreUrgent q.cls = q.cls := if_pos h
    have hne : q.cls ≠ j.cls := fun e => by rw [e] at h; omega
    simp only [Job.takeIn, hrises, hne, if_false, Part.joined, h, if_true]
    rfl
  · have hstays : j.cls.moreUrgent q.cls = j.cls := if_neg h
    simp only [Job.takeIn, hstays, if_true, Part.joined, h, if_false]
    rfl

end

/-! ### HALT returns a job (R56, R57, R111) -/

section
variable (a : Part) (g : Setup) (slot : Nat) (j : Job) (r : RunFields) (c : PanelCfg)

/-- A tile of a returned job (R57). -/
def Tile.returned (t : Tile) (marked : Bool) : Tile :=
  { t with state := if t.redirty || marked then .queued else .clean, redirty := false }

theorem Tile.returned_eq (t : Tile) (marked : Bool) (P : Prop) [Decidable P] (h : marked = true ↔ P) :
    t.returned marked = { t with state := if t.redirty = true ∨ P then .queued else .clean, redirty := false } := by
  simp only [Tile.returned, Bool.or_eq_true, h]

/-- The tiles and DIRTY counts of a returned job (R17, R57). -/
def Part.tilesReturned : Part :=
  (a.mapTiles g j.panel j.rect fun tx ty t => t.returned (r.carried.contains (g.tileIndex j.panel c tx ty))).followTiles

theorem Part.tilesReturned_eq :
    a.tilesReturned g j r c = { a with tiles := (a.tilesReturned g j r c).tiles, zones := (a.tilesReturned g j r c).zones } := by
  unfold Part.tilesReturned Part.followTiles
  rw [Part.mapTiles_eq]

theorem Part.tileAt?_tilesReturned (q : PanelNo) (tx ty : Nat) :
    (a.tilesReturned g j r c).tileAt? g q tx ty = (a.tileAt? g q tx ty).map fun x =>
      if q = j.panel ∧ j.rect.contains tx ty = true then x.returned (r.carried.contains (g.tileIndex j.panel c tx ty)) else x := by
  unfold Part.tilesReturned
  rw [Part.tileAt?_followTiles]
  by_cases h : q = j.panel
  · subst h
    rw [Part.tileAt?_mapTiles]
    simp
  · rw [Part.tileAt?_mapTiles_other _ _ h]
    simp [h]

theorem Part.zone?_tilesReturned (n : Nat) :
    (a.tilesReturned g j r c).zone? n = (a.zone? n).map fun y => y.counted (a.tilesReturned g j r c).tiles a.clock.mono := by
  unfold Part.tilesReturned
  rw [Part.zone?_followTiles, Part.mapTiles_eq]
  rfl

/-- The part with the job's tiles settled, its context and its admitted cost gone, before it goes back to the queue. -/
def Part.released : Part :=
  { (a.tilesReturned g j r c).setEngine j.panel none with
    committed := a.committed - r.cost, runningCount := a.runningCount - 1, walkOwed := true }

theorem Part.released_eq :
    a.released g j r c = { a with
      tiles := (a.tilesReturned g j r c).tiles, zones := (a.tilesReturned g j r c).zones
      engines := a.engines.set j.panel none, committed := a.committed - r.cost, runningCount := a.runningCount - 1
      walkOwed := true } := by
  unfold Part.released
  rw [Part.tilesReturned_eq]
  rfl

/-- The part with the job back in the queue, before the rail and the port. -/
def Part.requeued : Part := (a.released g j r c).requeue slot j

theorem Part.requeued_eq :
    a.requeued g slot j r c = { a with
      tiles := (a.tilesReturned g j r c).tiles, zones := (a.requeued g slot j r c).zones
      pool := (a.requeued g slot j r c).pool, sequence := (a.requeued g slot j r c).sequence
      stopMark := (a.requeued g slot j r c).stopMark, engines := a.engines.set j.panel none
      committed := a.committed - r.cost, runningCount := a.runningCount - 1, walkOwed := true } := by
  have hframe : a.requeued g slot j r c = { a.released g j r c with
      pool := (a.requeued g slot j r c).pool, sequence := (a.requeued g slot j r c).sequence
      stopMark := (a.requeued g slot j r c).stopMark, zones := (a.requeued g slot j r c).zones } := Part.requeue_eq ..
  rw [Part.released_eq] at hframe
  exact hframe

theorem Part.zone?_requeued (n : Nat) :
    (a.requeued g slot j r c).zone? n = (a.zone? n).map fun y =>
      { y.counted (a.tilesReturned g j r c).tiles a.clock.mono with
        runningJob := if j.scope = .zone n then none else y.runningJob
        queuedJob := if j.scope = .zone n then some slot else y.queuedJob } := by
  unfold Part.requeued
  rw [Part.zone?_requeue]
  show ((a.tilesReturned g j r c).zone? n).map _ = _
  rw [Part.zone?_tilesReturned, Option.map_map]
  rfl

theorem Part.returnJob_requeued :
    a.returnJob g slot j r c = ((a.requeued g slot j r c).releaseRail g).restIfIdle j.panel := rfl

/-- What HALT leaves of a part with a job returned. -/
theorem Part.returnJob_eq (hc : a.panelCfg? j.panel = some c) :
    a.returnJob g slot j r c = { a.requeued g slot j r c with
      rail := (a.returnJob g slot j r c).rail
      ports := a.ports.set j.panel ((a.port j.panel).restsAtOnce c ⟨a.clock.mono, a.clock.tick⟩) } := by
  have hframe := Part.releaseRail_frame (a.requeued g slot j r c) g
  have hwalk : ((a.requeued g slot j r c).releaseRail g).walkOwed = true := by
    unfold Part.releaseRail
    split
    · split <;> rfl
    · rw [Part.requeued_eq]
  have hrail : (a.returnJob g slot j r c).rail = ((a.requeued g slot j r c).releaseRail g).rail := Part.restIfIdle_rail ..
  rw [hrail, Part.returnJob_requeued, Part.restIfIdle_eq_ports (c := c) ?_ hwalk, hframe]
  · rw [hwalk, Part.requeued_eq]
    rfl
  · rw [hframe, Part.requeued_eq]
    exact hc

/-- The rail as HALT returns a job (R141): the pool's other demands are as they were. -/
theorem Part.railReleased_returnJob (hback : ∀ q, (a.requeued g slot j r c).job? slot = some q → q.state = .queued)
    (hothers : ∀ k q, k ≠ slot → q.state = .poised ∨ q.state = .driving →
      ((a.requeued g slot j r c).job? k = some q ↔ a.job? k = some q)) :
    a.RailReleased (a.returnJob g slot j r c) g slot := by
  obtain ⟨hkeeps, hfalls⟩ := Part.railReleased (before := a.requeued g slot j r c) (part := a.requeued g slot j r c) g
    (slot := slot) rfl rfl (fun _ _ => rfl) fun q hq => by simp [hback q hq]
  have hrail : (a.returnJob g slot j r c).rail = ((a.requeued g slot j r c).releaseRail g).rail := Part.restIfIdle_rail ..
  have hsame : (a.requeued g slot j r c).rail = a.rail := by rw [Part.requeued_eq]
  have hclock : (a.requeued g slot j r c).clock = a.clock := by rw [Part.requeued_eq]
  rw [hsame] at hkeeps hfalls
  rw [hclock] at hfalls
  refine ⟨fun h => hrail.trans (hkeeps (h.imp_right fun ⟨k, q, hk, hq, hd⟩ => ⟨k, q, hk, (hothers k q hk hd).2 hq, hd⟩)),
    fun hup hno => hrail.trans (hfalls hup fun k q hk hq => ?_)⟩
  by_cases hd : q.state = .poised ∨ q.state = .driving
  · exact hno k q hk ((hothers k q hk hd).1 hq)
  · exact not_or.1 hd

end

theorem Part.RailReleased.congr {x y z : Part} {g : Setup} {slot : Nat} (h : x.RailReleased y g slot) (hr : z.rail = y.rail) :
    x.RailReleased z g slot := ⟨fun hk => hr.trans (h.1 hk), fun h1 h2 => hr.trans (h.2 h1 h2)⟩

theorem Part.zone?_congr {x y : Part} (h : x.zones = y.zones) (n : Nat) : x.zone? n = y.zone? n := by
  unfold Part.zone?
  rw [h]

/-! ### HALT over the panels (R56) -/

/-- A pass over a list with one element that does anything, which it does once. -/
theorem foldl_once {α β : Type} {f : α → β → α} {a : α} {p : β} (hbefore : ∀ q, q ≠ p → f a q = a)
    (hafter : ∀ q, q ≠ p → f (f a p) q = f a p) : ∀ l : List β, l.Nodup → p ∈ l → l.foldl f a = f a p := by
  have hrest : ∀ l : List β, p ∉ l → l.foldl f (f a p) = f a p := by
    intro l hl
    induction l with
    | nil => rfl
    | cons q qs ih =>
      obtain ⟨hq, hqs⟩ := not_or.1 (fun h => hl (List.mem_cons.2 h))
      rw [List.foldl_cons, hafter q (Ne.symm hq), ih hqs]
  intro l hl hp
  induction l with
  | nil => cases hp
  | cons q qs ih =>
    obtain ⟨hq, hqs⟩ := List.nodup_cons.1 hl
    by_cases h : q = p
    · subst h
      exact hrest qs hq
    · rw [List.foldl_cons, hbefore q h]
      exact ih hqs ((List.mem_cons.1 hp).resolve_left (Ne.symm h))

theorem Part.haltAt_none {g : Setup} {a : Part} {p : PanelNo} (h : a.running? p = none) : Part.haltAt g a p = a := by
  unfold Part.haltAt
  rw [h]

theorem Part.haltAt_returns {g : Setup} {a : Part} {p : PanelNo} {slot : Nat} {j : Job} {r : RunFields} {c : PanelCfg}
    (h : a.running? p = some (slot, j, r)) (hc : g.panels.get p = some c) (hs : j.state = .capturing ∨ j.state = .poised) :
    Part.haltAt g a p = a.returnJob g slot j r c := by
  unfold Part.haltAt
  rw [h, hc]
  exact if_pos hs

theorem Part.haltAt_leaves {g : Setup} {a : Part} {p : PanelNo}
    (h : ∀ slot j r, a.running? p = some (slot, j, r) → j.state = .driving ∨ j.state = .committing) : Part.haltAt g a p = a := by
  unfold Part.haltAt
  split
  · next slot j r c hr hc =>
    refine if_neg fun hs => ?_
    rcases h slot j r hr with hd | hd <;> rw [hd] at hs <;> rcases hs with hs | hs <;> cases hs
  · rfl

theorem Part.getElem_of_job? {a : Part} {slot : Nat} {j : Job} (h : a.job? slot = some j) (hlt : slot < a.pool.length) :
    a.pool[slot] = some j := by
  unfold Part.job? at h
  rw [List.getElem?_eq_getElem hlt] at h
  exact h

/-! ### What HALT leaves of its one job (R35, R57, R58) -/

section
variable {a : Part} {g : Setup} {p : PanelNo} {slot : Nat} {j : Job} {r : RunFields} {c : PanelCfg}
  (hr : a.running? p = some (slot, j, r)) (hc : g.panels.get p = some c) (hs : j.state = .capturing ∨ j.state = .poised)
  (hothers : ∀ q, q ≠ p → a.running? q = none)
include hr hc hs hothers

theorem Part.foldl_haltAt (hafter : ∀ q, q ≠ p → (a.returnJob g slot j r c).running? q = none) :
    panelNos.foldl (Part.haltAt g) a = a.returnJob g slot j r c := by
  have hp := Part.haltAt_returns hr hc hs
  refine (foldl_once (p := p) (fun q hq => Part.haltAt_none (hothers q hq)) (fun q hq => ?_) panelNos (by decide)
    (mem_panelNos p)).trans hp
  rw [hp]
  exact Part.haltAt_none (hafter q hq)

variable (hg : a.setup = some g)
include hg

omit hs hothers in
theorem Part.returnJob_panel :
    a.returnJob g slot j r c = { a.requeued g slot j r c with
      rail := (a.returnJob g slot j r c).rail
      ports := a.ports.set p ((a.port p).restsAtOnce c ⟨a.clock.mono, a.clock.tick⟩) } := by
  obtain ⟨-, -, hpanel, -⟩ := Part.running?_some hr
  have h := Part.returnJob_eq a g slot j r c (by
    unfold Part.panelCfg?
    rw [hg, hpanel]
    exact hc)
  rw [hpanel] at h
  exact h

/-- The returned job with no QUEUED job of its scope: no slot frees (R57). -/
theorem Part.haltJobs_alone (halone : ∀ k q, a.job? k = some q → q.state = .queued → q.scope ≠ j.scope) :
    a.haltJobs g = a.returnJob g slot j r c
      ∧ (a.requeued g slot j r c).pool = a.pool.set slot (some j.returned)
      ∧ (a.requeued g slot j r c).sequence = a.sequence ∧ (a.requeued g slot j r c).stopMark = a.stopMark
      ∧ a.RailReleased (a.returnJob g slot j r c) g slot := by
  obtain ⟨hjob, hrunning, hpanel, -⟩ := Part.running?_some hr
  have hlt : slot < a.pool.length := Part.job?_lt hjob
  have hrequeued : a.requeued g slot j r c = ((a.released g j r c).setJob slot j.returned).requeueZone slot j :=
    Part.requeue_alone (by rw [Part.released_eq]; exact halone)
  have hpool : (a.requeued g slot j r c).pool = a.pool.set slot (some j.returned) := by
    rw [hrequeued, Part.requeueZone_eq, Part.released_eq]
    rfl
  have hreturned : (a.returnJob g slot j r c).pool = a.pool.set slot (some j.returned) := by
    rw [Part.returnJob_panel hr hc hg]
    exact hpool
  have hfold := Part.foldl_haltAt hr hc hs hothers fun q hq => by
    refine (Part.running?_set hreturned (fun x hx => ?_) fun x hx => ?_).trans (hothers q hq)
    · rw [hjob] at hx
      cases hx
      exact .inr fun he => hq (he.symm.trans hpanel)
    · cases hx
      exact .inl rfl
  have hself : (a.requeued g slot j r c).job? slot = some j.returned := by
    simp [Part.job?, hpool, hlt]
  refine ⟨?_, hpool, ?_, ?_, Part.railReleased_returnJob a g slot j r c (fun q hq => ?_) fun k q hk _ => ?_⟩
  · rw [Part.haltJobs_of_none_freed, hfold]
    rw [hfold]
    unfold Part.occupied
    rw [hreturned]
    have hcount := countP_set_add Option.isSome a.pool slot hlt (some j.returned)
    rw [Part.getElem_of_job? hjob hlt] at hcount
    simp only [Option.isSome_some, if_true] at hcount
    omega
  · rw [hrequeued, Part.requeueZone_eq, Part.released_eq]
    rfl
  · rw [hrequeued, Part.requeueZone_eq, Part.released_eq]
    rfl
  · rw [hself] at hq
    cases hq
    rfl
  · simp only [Part.job?, hpool, List.getElem?_set_ne (Ne.symm hk)]

/-- The returned job with a QUEUED job of its scope, which it takes in: a slot frees and the HELD retry is made (R32, R58). -/
theorem Part.haltJobs_joined {k : Nat} {q : Job} (hk : a.job? k = some q) (hq : q.state = .queued) (hscope : q.scope = j.scope)
    (honly : ∀ i y, a.job? i = some y → y.state = .queued → y.scope = j.scope → i = k) :
    a.haltJobs g = (a.returnJob g slot j r c).slotsFreed g
      ∧ (a.requeued g slot j r c).pool = (a.pool.set slot (some (a.joined j q))).set k none
      ∧ (a.requeued g slot j r c).sequence = (if q.cls.rank < j.cls.rank then a.sequence + 1 else a.sequence)
      ∧ a.RailReleased (a.returnJob g slot j r c) g slot := by
  obtain ⟨hjob, hrunning, hpanel, -⟩ := Part.running?_some hr
  have hlt : slot < a.pool.length := Part.job?_lt hjob
  have hltk : k < a.pool.length := Part.job?_lt hk
  have hne : slot ≠ k := fun e => by
    rw [e, hk] at hjob
    cases hjob
    exact hrunning hq
  have hrequeued : a.requeued g slot j r c = ({ a.released g j r c with
      pool := ((a.released g j r c).pool.set slot (some ((a.released g j r c).joined j q))).set k none
      sequence := if q.cls.rank < j.cls.rank then (a.released g j r c).sequence + 1 else (a.released g j r c).sequence
      stopMark := if (a.released g j r c).stopMark = some k then none else (a.released g j r c).stopMark }
        : Part).requeueZone slot j :=
    Part.requeue_joined (by rw [Part.released_eq]; exact hk) hq hscope (by rw [Part.released_eq]; exact honly)
  have hpool : (a.requeued g slot j r c).pool = (a.pool.set slot (some (a.joined j q))).set k none := by
    rw [hrequeued, Part.requeueZone_eq, Part.released_eq]
    rfl
  have hreturned : (a.returnJob g slot j r c).pool = (a.pool.set slot (some (a.joined j q))).set k none := by
    rw [Part.returnJob_panel hr hc hg]
    exact hpool
  have hfold := Part.foldl_haltAt hr hc hs hothers fun m hm => by
    have hfirst : ({ a with pool := a.pool.set slot (some (a.joined j q)) } : Part).running? m = a.running? m := by
      refine Part.running?_set rfl (fun x hx => ?_) fun x hx => ?_
      · rw [hjob] at hx
        cases hx
        exact .inr fun he => hm (he.symm.trans hpanel)
      · cases hx
        exact .inl rfl
    refine (Part.running?_set (a := { a with pool := a.pool.set slot (some (a.joined j q)) }) hreturned (fun x hx => ?_)
      fun x hx => absurd hx (Option.some_ne_none x).symm).trans (hfirst.trans (hothers m hm))
    simp only [Part.job?, List.getElem?_set_ne hne] at hx
    have hsame : a.job? k = some x := hx
    rw [hk] at hsame
    cases hsame
    exact .inl hq
  refine ⟨?_, hpool, ?_, Part.railReleased_returnJob a g slot j r c (fun y hy => ?_) fun i y hi hy => ?_⟩
  · unfold Part.haltJobs
    rw [hfold]
    refine if_pos ?_
    unfold Part.occupied
    rw [hreturned]
    have hcount := countP_set_add Option.isSome a.pool slot hlt (some (a.joined j q))
    have hcountk := countP_set_add Option.isSome (a.pool.set slot (some (a.joined j q))) k
      (by rw [List.length_set]; exact hltk) none
    rw [Part.getElem_of_job? hjob hlt] at hcount
    rw [List.getElem_set_ne hne, Part.getElem_of_job? hk hltk] at hcountk
    simp only [Option.isSome_some, Option.isSome_none, if_true, Bool.false_eq_true, if_false] at hcount hcountk
    omega
  · rw [hrequeued, Part.requeueZone_eq, Part.released_eq]
  · have hself : (a.requeued g slot j r c).job? slot = some (a.joined j q) := by
      rw [Part.job?, hpool, List.getElem?_set_ne (Ne.symm hne)]
      simp [hlt]
    rw [hself] at hy
    cases hy
    rfl
  · by_cases hik : i = k
    · subst hik
      have hnone : (a.requeued g slot j r c).job? i = none := by simp [Part.job?, hpool, hltk]
      rw [hnone, hk]
      refine iff_of_false nofun fun he => ?_
      cases he
      rw [hq] at hy
      rcases hy with hy | hy <;> cases hy
    · simp only [Part.job?, hpool, List.getElem?_set_ne (Ne.symm hik), List.getElem?_set_ne (Ne.symm hi)]

end

theorem Part.orderHalt_running {a : Part} {g : Setup} (h : a.unit.runState = .running) (hg : a.setup = some g) :
    a.orderHalt = ⟨((a.setRunState .halting).haltJobs g).checkHalted, .done⟩ := by
  unfold Part.orderHalt Part.startHalt
  rw [h, hg]

section
variable {a : Part} {g : Setup} {p : PanelNo} {slot : Nat} {j : Job} {r : RunFields} {c : PanelCfg}
  (hrun : a.unit.runState = .running) (hg : a.setup = some g) (hr : a.running? p = some (slot, j, r))
  (hc : g.panels.get p = some c) (hs : j.state = .capturing ∨ j.state = .poised)
  (hothers : ∀ q, q ≠ p → a.running? q = none)
include hrun hg hr hc hs hothers

/-- HALT with one job, CAPTURING or POISED, and no QUEUED one of its scope. -/
theorem Part.orderHalt_alone (halone : ∀ k q, a.job? k = some q → q.state = .queued → q.scope ≠ j.scope)
    (hcount : a.runningCount = 1) :
    ∃ b, a.orderHalt = ⟨b, .done⟩
      ∧ b = { a with
          pool := a.pool.set slot (some j.returned), committed := a.committed - r.cost, runningCount := 0
          tiles := b.tiles, zones := b.zones, engines := a.engines.set p none, rail := b.rail
          ports := a.ports.set p ((a.port p).restsAtOnce c ⟨a.clock.mono, a.clock.tick⟩), walkOwed := true
          unit := { a.unit with causes := b.unit.causes, runState := .stopped } }
      ∧ a.RailReleased b g slot
      ∧ (∀ q tx ty, b.tileAt? g q tx ty = (a.tileAt? g q tx ty).map fun x =>
          if q = p ∧ j.rect.contains tx ty = true then x.returned (r.carried.contains (g.tileIndex p c tx ty)) else x)
      ∧ (∀ n, b.zone? n = (a.zone? n).map fun y =>
          { y.counted b.tiles a.clock.mono with
            runningJob := if j.scope = .zone n then none else y.runningJob
            queuedJob := if j.scope = .zone n then some slot else y.queuedJob })
      ∧ a.Latched b .halted 0 := by
  obtain ⟨-, -, hpanel, -⟩ := Part.running?_some hr
  obtain ⟨hjobs, hpool, hsequence, hmark, hrail⟩ := Part.haltJobs_alone (a := a.setRunState .halting) hr hc hs hothers hg halone
  have hreturned := Part.returnJob_panel (a := a.setRunState .halting) hr hc hg
  have hrequeued := Part.requeued_eq (a.setRunState .halting) g slot j r c
  have hzones := Part.zone?_requeued (a.setRunState .halting) g slot j r c
  have htiles := Part.tileAt?_tilesReturned (a.setRunState .halting) g j r c
  have hanswer := Part.orderHalt_running hrun hg
  have hzero : (a.setRunState .halting).runningCount - 1 = 0 := by
    show a.runningCount - 1 = 0
    rw [hcount]
  rw [hpool, hsequence, hmark, hpanel, hzero] at hrequeued
  rw [hpanel] at htiles
  rw [hjobs] at hanswer
  generalize (a.setRunState .halting).requeued g slot j r c = b at hrequeued hreturned hzones
  generalize (a.setRunState .halting).tilesReturned g j r c = m at hrequeued hzones htiles
  generalize (a.setRunState .halting).returnJob g slot j r c = d at hanswer hreturned hrail
  rw [hrequeued] at hreturned
  obtain ⟨hended, hlatched⟩ := (Part.halted d).1 (by
    rw [hreturned]
    exact ⟨rfl, rfl⟩)
  generalize d.checkHalted = x at hended hlatched hanswer
  have hbzones : b.zones = d.zones := by rw [hreturned]
  refine ⟨x, hanswer, ?_, ?_, fun q tx ty => ?_, fun n => ?_, ?_⟩
  · rw [hended, hreturned]
    rfl
  · rw [hended]
    exact hrail
  · refine Eq.trans ?_ (htiles q tx ty)
    refine Part.tileAt?_congr ?_ ..
    rw [hended, hreturned]
  · have hz : x.zone? n = b.zone? n := by rw [hended]; unfold Part.zone?; rw [hbzones]
    have ht : x.tiles = m.tiles := by rw [hended, hreturned]
    rw [hz, ht]
    exact hzones n
  · have hcauses : d.unit.causes = a.unit.causes := by rw [hreturned]; rfl
    exact ⟨fun h => by rw [← WindowUnit.detail?_congr hcauses]; exact hlatched.1 (by rw [hcauses]; exact h),
      fun k hk => (hlatched.2 k hk).trans (WindowUnit.detail?_congr hcauses k)⟩

/-- HALT with one job, CAPTURING or POISED, and one QUEUED one of its scope, which it takes in. -/
theorem Part.orderHalt_joined {k : Nat} {q : Job} (hk : a.job? k = some q) (hq : q.state = .queued) (hscope : q.scope = j.scope)
    (honly : ∀ i y, a.job? i = some y → y.state = .queued → y.scope = j.scope → i = k) (hcount : a.runningCount = 1) :
    ∃ d b, a.orderHalt = ⟨b, .done⟩
      ∧ d = { a with
          pool := (a.pool.set slot (some (a.joined j q))).set k none
          sequence := if q.cls.rank < j.cls.rank then a.sequence + 1 else a.sequence
          committed := a.committed - r.cost, runningCount := 0
          tiles := d.tiles, zones := d.zones, engines := a.engines.set p none, rail := d.rail
          ports := a.ports.set p ((a.port p).restsAtOnce c ⟨a.clock.mono, a.clock.tick⟩), stopMark := none, walkOwed := true
          unit := { a.unit with runState := .stopped } }
      ∧ a.RailReleased d g slot
      ∧ (∀ q tx ty, d.tileAt? g q tx ty = (a.tileAt? g q tx ty).map fun x =>
          if q = p ∧ j.rect.contains tx ty = true then x.returned (r.carried.contains (g.tileIndex p c tx ty)) else x)
      ∧ (∀ n, d.zone? n = (a.zone? n).map fun y =>
          { y.counted d.tiles a.clock.mono with
            runningJob := if j.scope = .zone n then none else y.runningJob
            queuedJob := if j.scope = .zone n then some slot else y.queuedJob })
      ∧ b = { d.slotsFreed g with
          stopMark := b.stopMark, unit := { (d.slotsFreed g).unit with causes := b.unit.causes } }
      ∧ (d.slotsFreed g).Latched b .halted 0 := by
  obtain ⟨-, -, hpanel, -⟩ := Part.running?_some hr
  obtain ⟨hjobs, hpool, hsequence, hrail⟩ := Part.haltJobs_joined (a := a.setRunState .halting) hr hc hs hothers hg hk hq hscope
    honly
  have hreturned := Part.returnJob_panel (a := a.setRunState .halting) hr hc hg
  have hrequeued := Part.requeued_eq (a.setRunState .halting) g slot j r c
  have hzones := Part.zone?_requeued (a.setRunState .halting) g slot j r c
  have htiles := Part.tileAt?_tilesReturned (a.setRunState .halting) g j r c
  have hanswer := Part.orderHalt_running hrun hg
  have hzero : (a.setRunState .halting).runningCount - 1 = 0 := by
    show a.runningCount - 1 = 0
    rw [hcount]
  rw [hpool, hsequence, hpanel, hzero] at hrequeued
  rw [hpanel] at htiles
  rw [hjobs] at hanswer
  generalize (a.setRunState .halting).requeued g slot j r c = m at hrequeued hreturned hzones
  generalize (a.setRunState .halting).tilesReturned g j r c = n at hrequeued hzones htiles
  generalize (a.setRunState .halting).returnJob g slot j r c = e at hanswer hreturned hrail
  rw [hrequeued] at hreturned
  have hwalk : e.walkOwed = true := by rw [hreturned]
  have hfreed := Part.slotsFreed_within e g hwalk
  -- the retry as the halt leaves the rest of the part
  have hretry := Part.within_slotsFreed e { e with stopMark := none, unit := { e.unit with runState := .stopped } } g
  obtain ⟨hended, hlatched⟩ := (Part.halted (e.slotsFreed g)).1 (by
    rw [hfreed, hreturned]
    exact ⟨rfl, rfl⟩)
  generalize (e.slotsFreed g).checkHalted = b at hended hlatched hanswer
  refine ⟨e.within { e with stopMark := none, unit := { e.unit with runState := .stopped } }, b, hanswer, ?_, hrail, fun q tx ty => ?_,
    fun i => ?_, ?_, ?_⟩
  · rw [hreturned]
    rfl
  · refine Eq.trans (Part.tileAt?_congr ?_ ..) (htiles q tx ty)
    show e.tiles = n.tiles
    rw [hreturned]
  · have hz : e.zones = m.zones := by rw [hreturned]
    have ht : e.tiles = n.tiles := by rw [hreturned]
    refine (Part.zone?_congr (y := m) hz i).trans ((hzones i).trans ?_)
    rw [← ht]
    rfl
  · rw [hretry, hended, hfreed]
    rfl
  · rw [hretry]
    exact hlatched

end

theorem Part.orderHalt_other {a : Part} (h : a.unit.runState ≠ .running) :
    a.orderHalt = ⟨a, if a.unit.runState = .stopped then .done else .refusedState⟩ := by
  unfold Part.orderHalt
  cases hs : a.unit.runState <;> first | rfl | exact absurd hs h

end Sys2Proof.Machine

open Sys2Proof Sys2Proof.Machine

/-- Settles O29: the one job goes back, alone or with the QUEUED job of its scope taken in; else HALT waits or answers. -/
theorem haltOrder : Obligations.HaltOrder := by
  intro s g hs hg
  refine ⟨fun p slot j r c hrun hc hr hpanel hothers hstate halone hcount => ?_,
    fun p slot j r c k q rises hrun hc hr hpanel hothers hstate hk hq hscope honly hcount hrises => ?_,
    fun hrun hleft hcount => ?_, fun hrun => ?_⟩
  · obtain ⟨b, hanswer, hb, hrail, htiles, hzones, hlatched⟩ := Part.orderHalt_alone hrun hg hr hc hstate hothers halone
      hcount
    have hnext := State.partEvent_enabled hs.1 rfl fun x => x.orderHalt.note 3
    rw [hanswer] at hnext
    have hstopped : ({ s with part := b.noteOrder 3 .done } : State).part.unit.runState ≠ .running := by
      have hstate : b.unit.runState = .stopped := by rw [hb]
      show b.unit.runState ≠ .running
      rw [hstate]
      decide
    have hagree := State.finish_of_not_running s hstopped
    have ht : (s.partEvent true fun x => x.orderHalt.note 3) = .next (State.finish s { s with part := b.noteOrder 3 .done }) := hnext
    generalize State.finish s _ = t at ht hagree
    have htiles' : t.part.tiles = b.tiles := hagree.tiles
    have hzones' : t.part.zones = b.zones := hagree.zones
    have hcauses' : t.part.unit.causes = b.unit.causes := hagree.causes
    have hrail' : t.part.rail = b.rail := congrArg (fun u : State => u.part.rail) hagree
    have hengines : ∀ q, (t.part.engine? q).map Engine.outsidePath
        = if q = p then none else (s.part.engine? q).map Engine.outsidePath := fun q => by
      have hb' : b.engine? q = if q = p then none else s.part.engine? q :=
        (congrArg (fun x : Part => x.engine? q) hb).trans (Quad.get_set ..)
      refine (hagree.engine q).trans ?_
      show (b.engine? q).map _ = _
      rw [hb']
      split <;> rfl
    refine ⟨t, ht, ?_, hrail.congr hrail', ?_, fun q hq => (hengines q).trans (if_neg hq), fun tx ty x hx hin => ?_,
      fun q tx ty hq => ?_, fun n y hy => ?_, hlatched.congr hcauses'⟩
    · refine Eq.trans hagree.withEngines ?_
      rw [htiles', hzones', hcauses', hrail', hb]
      rfl
    · exact Option.map_eq_none_iff.1 ((hengines p).trans (if_pos rfl))
    · rw [Part.tileAt?_congr htiles', htiles, hx, Option.map_some, if_pos ⟨rfl, hin⟩]
      exact congrArg some (Tile.returned_eq x _ _ List.contains_iff_mem)
    · rw [Part.tileAt?_congr htiles', htiles]
      have hout : ¬ (q = p ∧ j.rect.contains tx ty = true) := fun h => hq.elim (· h.1) fun h' => by
        rw [h.2] at h'
        cases h'
      simp only [hout, if_false, Option.map_id']
    · rw [Part.zone?_congr hzones', hzones, hy, htiles']
      rfl
  · obtain ⟨d, b, hanswer, hd, hrail, htiles, hzones, hb, hlatched⟩ := Part.orderHalt_joined hrun hg hr hc hstate hothers hk hq
      hscope honly hcount
    subst hrises
    have hnext := State.partEvent_enabled hs.1 rfl fun x => x.orderHalt.note 3
    rw [hanswer] at hnext
    have hwalk : d.walkOwed = true := congrArg (fun x : Part => x.walkOwed) hd
    have hwalk' : (d.noteOrder 3 .done).walkOwed = true := hwalk
    have hretry : (d.noteOrder 3 .done).slotsFreed g = (d.slotsFreed g).within (d.noteOrder 3 .done) :=
      (congrArg (fun x : Part => x.slotsFreed g) (Part.within_self (d.noteOrder 3 .done) hwalk').symm).trans
        (Part.within_slotsFreed d (d.noteOrder 3 .done) g)
    have hfreed := Part.slotsFreed_within d g hwalk
    have hstopped : ({ s with part := b.noteOrder 3 .done } : State).part.unit.runState ≠ .running := by
      have hstate : d.unit.runState = .stopped := congrArg (fun x : Part => x.unit.runState) hd
      have hkept : (d.slotsFreed g).unit.runState = d.unit.runState := by
        rw [hfreed]
        rfl
      have hends : b.unit.runState = (d.slotsFreed g).unit.runState := by rw [hb]
      show b.unit.runState ≠ .running
      rw [hends, hkept, hstate]
      decide
    have hagree := State.finish_of_not_running s hstopped
    have ht : (s.partEvent true fun x => x.orderHalt.note 3) = .next (State.finish s { s with part := b.noteOrder 3 .done }) := hnext
    generalize State.finish s _ = t at ht hagree
    have hcauses' : t.part.unit.causes = b.unit.causes := hagree.causes
    refine ⟨t, d.noteOrder 3 .done, (d.noteOrder 3 .done).slotsFreed g, ht, ?_, hrail, fun m tx ty x hx => ?_, fun n y hy => ?_,
      Part.heldPass_slotsFreed _ g, ?_, ?_⟩
    · simp only [decide_eq_true_eq]
      conv => lhs; rw [hd]
      rfl
    · refine (htiles m tx ty).trans ?_
      rw [hx, Option.map_some]
      refine congrArg some ?_
      split
      · exact Tile.returned_eq x _ _ List.contains_iff_mem
      · rfl
    · refine (hzones n).trans ?_
      rw [hy]
      rfl
    · refine Eq.trans hagree ?_
      have hmark : (d.noteOrder 3 .done).stopMark = none := congrArg (fun x : Part => x.stopMark) hd
      have hmarked : d.noteOrder 3 .done = { d.noteOrder 3 .done with stopMark := none } := by rw [← hmark]
      rw [hcauses', hretry, hmarked, hb, hfreed]
      rfl
    · rw [hretry]
      exact hlatched.congr hcauses'
  · refine .of_order (f := Part.orderHalt) (code := 3) (en := true) hs rfl rfl (Part.orderHalt_running hrun hg) ?_
    have hstays : ∀ q, Part.haltAt g (s.part.setRunState .halting) q = s.part.setRunState .halting := fun q =>
      Part.haltAt_leaves fun slot j r h => hleft q slot j r h
    have hfold : panelNos.foldl (Part.haltAt g) (s.part.setRunState .halting) = s.part.setRunState .halting := by
      simp only [panelNos, List.foldl_cons, List.foldl_nil, hstays]
    rw [Part.haltJobs_of_none_freed (Nat.le_of_eq (by rw [hfold])), hfold, (Part.halted (s.part.setRunState .halting)).2 fun h => hcount h.2]
    rfl
  · refine .of_order (f := Part.orderHalt) (code := 3) (en := true) hs rfl rfl (Part.orderHalt_other hrun) ?_
    unfold Answered.note Part.noteOrder
    split <;> rfl

end

section
/-! SUPPORT. What walks, enqueues and sweep requests leave of the part: the ports but for a wake, and every cause but
QUEUE_FULL and STARVED. -/

namespace Sys2Proof.Machine

/-- A port's record after events that may demand a wake of it (R48, R127). -/
def Port.Woken (x y : Port) : Prop := y = x ∨ y = x.demandWake

theorem Port.demandWake_demandWake (x : Port) : x.demandWake.demandWake = x.demandWake := by
  unfold Port.demandWake
  by_cases h : x.state = .off ∨ (x.state = .closing ∧ x.closingOver)
  · simp only [if_pos h]
  · simp only [if_neg h]

theorem Port.Woken.trans {x y z : Port} (h : x.Woken y) (h' : y.Woken z) : x.Woken z := by
  rcases h with rfl | rfl
  · exact h'
  · rcases h' with rfl | rfl
    · exact .inr rfl
    · exact .inr x.demandWake_demandWake

/-- Demanding a wake changes no port but one that is OFF or CLOSING. -/
theorem Port.Woken.eq {x y : Port} (h : x.Woken y) (hoff : x.state ≠ .off) (hclosing : x.state ≠ .closing) : y = x := by
  rcases h with rfl | rfl
  · rfl
  · exact if_neg fun h => h.elim hoff fun h => hclosing h.1

/-- The part `b` that events leave of `a` which change nothing outside what walks change (R46), demand wakes of ports, and
latch QUEUE_FULL and STARVED alone. -/
def Part.Wakes (a b : Part) : Prop :=
  b.outsideWalk = a.outsideWalk ∧ b.unit.causes.length = a.unit.causes.length
    ∧ (∀ k, k ≠ .queueFull → k ≠ .starved → b.unit.detail? k = a.unit.detail? k)
    ∧ ∀ p, (a.port p).Woken (b.port p)

theorem Part.Wakes.refl (a : Part) : a.Wakes a := ⟨rfl, rfl, fun _ _ _ => rfl, fun _ => .inl rfl⟩

theorem Part.Wakes.trans {a b c : Part} (h : a.Wakes b) (h' : b.Wakes c) : a.Wakes c := by
  obtain ⟨ho, hl, hd, hp⟩ := h
  obtain ⟨ho', hl', hd', hp'⟩ := h'
  exact ⟨ho'.trans ho, hl'.trans hl, fun k h1 h2 => (hd' k h1 h2).trans (hd k h1 h2), fun p => (hp p).trans (hp' p)⟩

theorem Part.Wakes.of_same {a b : Part} (ho : b.outsideWalk = a.outsideWalk) (hc : b.unit.causes = a.unit.causes)
    (hp : b.ports = a.ports) : a.Wakes b :=
  ⟨ho, by rw [hc], fun k _ _ => WindowUnit.detail?_congr hc k, fun p => .inl (by unfold Part.port; rw [hp])⟩

theorem Part.Wakes.latch (a : Part) {k : Cause} (hk : k = .queueFull ∨ k = .starved) (n : Nat) : a.Wakes (a.latch k n) := by
  refine ⟨Part.outsideWalk_latch .., Part.latch_causes_length .., fun q h1 h2 => ?_, fun p => .inl (by rw [Part.latch_eq]; rfl)⟩
  refine Part.detail_latch_ne _ _ ?_
  rcases hk with rfl | rfl
  · exact h1
  · exact h2

theorem Part.Wakes.foldl {α : Type} {f : Part → α → Part} (hf : ∀ (a : Part) x, a.Wakes (f a x)) (xs : List α) (a : Part) :
    a.Wakes (xs.foldl f a) := by
  induction xs generalizing a with
  | nil => exact .refl a
  | cons x xs ih => exact (hf a x).trans (ih _)

/-! ### Requests and enqueues (R31, R39 to R45) -/

theorem Part.requestZone_frame {a placed : Part} {z : ZoneCfg} {rect : Rect} {cls : RefreshClass} {o : Origin} {full : Bool}
    (h : a.requestZone z rect cls o full = some placed) : placed.unit = a.unit ∧ placed.ports = a.ports := by
  unfold Part.requestZone at h
  split at h
  · split at h
    · cases h
      rw [Part.mergeRequest_eq]
      exact ⟨rfl, rfl⟩
    · cases h
  · split at h
    · cases h
      exact ⟨rfl, rfl⟩
    · cases h

theorem Part.requestPanel_frame {a placed : Part} {g : Setup} {p : PanelNo} {c : PanelCfg} {cls : RefreshClass} {o : Origin}
    {full : Bool} (h : a.requestPanel g p c cls o full = some placed) : placed.unit = a.unit ∧ placed.ports = a.ports := by
  unfold Part.requestPanel at h
  split at h
  · cases h
    rw [Part.mapTiles_eq, Part.mergeRequest_eq]
    exact ⟨rfl, rfl⟩
  · split at h
    · cases h
      rw [Part.mapTiles_eq]
      exact ⟨rfl, rfl⟩
    · cases h

theorem Part.wakes_enqueue (a : Part) (g : Setup) (z : ZoneCfg) (o : Origin) : a.Wakes (a.enqueue g z o) := by
  have hout := Part.outsideWalk_enqueue a g z o
  unfold Part.enqueue at hout ⊢
  by_cases hd : a.zoneDirty z.index = true
  · rw [if_pos hd] at hout ⊢
    cases hr : (a.updateZone z.index fun x => { x with epochWait := false }).requestZone z ((a.dirtyBox? g z).getD z.rect) z.cls o
        false with
    | some placed =>
      simp only [hr] at hout ⊢
      obtain ⟨hu, hp⟩ := Part.requestZone_frame hr
      refine .of_same hout ?_ ?_
      · rw [Part.takeUpZone_eq]
        exact congrArg WindowUnit.causes hu
      · rw [Part.takeUpZone_eq]
        exact hp
    | none =>
      simp only [hr]
      exact .trans (b := (a.updateZone z.index fun x => { x with epochWait := false }).updateZone z.index
        fun x => { x with held := some o }) (.of_same rfl rfl rfl) (.latch _ (.inl rfl) _)
  · rw [if_neg hd]
    exact .refl a

theorem Part.wakes_retryHeld (g : Setup) (zs : List ZoneCfg) (a : Part) : a.Wakes (a.retryHeld g zs) := by
  induction zs generalizing a with
  | nil => exact .refl a
  | cons z zs ih =>
    unfold Part.retryHeld
    split
    · exact ih a
    · split
      · exact ih a
      · dsimp only
        split
        · exact Part.wakes_enqueue ..
        · exact (Part.wakes_enqueue ..).trans (ih _)

theorem Part.wakes_requestSweep (a : Part) (g : Setup) (p : PanelNo) (c : PanelCfg) (o : Origin) :
    a.Wakes (a.requestSweep g p c o) := by
  have hout := Part.outsideWalk_requestSweep g a p c o
  unfold Part.requestSweep at hout ⊢
  cases hr : a.requestPanel g p c .sweep o true with
  | some placed =>
    obtain ⟨hu, hp⟩ := Part.requestPanel_frame hr
    simp only [hr] at hout ⊢
    exact .of_same hout (congrArg WindowUnit.causes hu) hp
  | none => exact .latch a (.inl rfl) _

/-! ### The triggers of a second (R28 to R30, R75, R76) -/

theorem Part.wakes_epochAt (g : Setup) (a : Part) (z : ZoneCfg) : a.Wakes (a.epochAt g z) := by
  unfold Part.epochAt
  split
  · split
    · exact Part.wakes_enqueue ..
    · exact .of_same rfl rfl rfl
  · exact .refl a

theorem Part.wakes_quietEndAt (g : Setup) (a : Part) (z : ZoneCfg) : a.Wakes (a.quietEndAt g z) := by
  unfold Part.quietEndAt
  split
  · exact Part.wakes_enqueue ..
  · exact .refl a

theorem Part.wakes_holdAt (g : Setup) (a : Part) (z : ZoneCfg) : a.Wakes (a.holdAt g z) := by
  unfold Part.holdAt
  split
  · split
    · exact Part.wakes_enqueue ..
    · exact .refl a
  · exact .refl a

theorem Part.wakes_sweepTimeAt (g : Setup) (a : Part) (p : PanelNo) : a.Wakes (a.sweepTimeAt g p) := by
  unfold Part.sweepTimeAt
  split
  · exact .refl a
  · split
    · exact Part.wakes_requestSweep ..
    · exact .refl a

theorem Part.wakes_surplusAt (g : Setup) (a : Part) (p : PanelNo) : a.Wakes (a.surplusAt g p) := by
  unfold Part.surplusAt
  split
  · exact .refl a
  · split
    · exact Part.wakes_requestSweep ..
    · exact .refl a

/-! ### Walks (R46 to R49, R103) -/

theorem Part.foldl_withdraw_unit (xs : List (Nat × Job)) (a : Part) : (xs.foldl Part.withdraw a).unit = a.unit := by
  induction xs generalizing a with
  | nil => rfl
  | cons x xs ih =>
    rw [List.foldl_cons, ih]
    unfold Part.withdraw
    split <;> rfl

theorem Part.runZone_unit (a : Part) (slot : Nat) (j : Job) : (a.runZone slot j).unit = a.unit := by
  unfold Part.runZone
  split <;> rfl

theorem Part.wakes_admitJob (a : Part) (g : Setup) (c : PanelCfg) (slot : Nat) (j : Job) (mode : DriveMode) (band cost : Nat) :
    a.Wakes (a.admitJob g c slot j mode band cost) := by
  have hout := Part.outsideWalk_admit a g c slot j mode band cost
  obtain ⟨hcauses, hports⟩ : (a.admitJob g c slot j mode band cost).unit.causes = a.unit.causes
      ∧ (a.admitJob g c slot j mode band cost).ports = a.ports.set j.panel (a.port j.panel).demandWake := by
    unfold Part.admitJob
    extract_lets taken carried running placed admitted active started
    have hactive : active.unit = a.unit ∧ active.ports = a.ports := by
      simp [active, admitted, placed, Part.foldl_withdraw_unit]
    have hstarted : started.unit = a.unit ∧ started.ports = a.ports.set j.panel (a.port j.panel).demandWake := by
      simp only [started, Part.runZone_unit, Part.setEngine_unit, Part.setPort_unit, Part.setPort_ports, Part.setEngine_ports,
        Part.runZone_ports, hactive, and_true]
    split
    · exact ⟨congrArg WindowUnit.causes hstarted.1, hstarted.2⟩
    · exact ⟨congrArg WindowUnit.causes hstarted.1, hstarted.2⟩
  refine ⟨hout, by rw [hcauses], fun k _ _ => WindowUnit.detail?_congr hcauses k, fun p => ?_⟩
  unfold Part.port
  rw [hports, Quad.get_set]
  split
  · next h =>
    subst h
    exact .inr rfl
  · exact .inl rfl

theorem Part.wakes_walkFrom (g : Setup) (queue : List (Nat × Job)) (a : Part) : a.Wakes (a.walkFrom g queue) := by
  induction queue generalizing a with
  | nil => exact .of_same rfl rfl rfl
  | cons x rest ih =>
    obtain ⟨slot, q⟩ := x
    unfold Part.walkFrom
    split
    · exact ih a
    · split
      · split
        · exact ih a
        · dsimp only
          split
          · exact (Part.wakes_admitJob ..).trans (ih _)
          · exact .of_same rfl rfl rfl
      · exact ih a

theorem Part.wakes_admitAll (a : Part) (g : Setup) (queue : List (Nat × Job)) : a.Wakes (a.admitAll g queue) := by
  unfold Part.admitAll
  dsimp only
  split
  · exact (Part.wakes_walkFrom ..).trans (Part.wakes_retryHeld ..)
  · exact Part.wakes_walkFrom ..

theorem Part.wakes_starvedAt (g : Setup) (a : Part) (x : Nat × Job) : a.Wakes (Part.starvedAt g a x) := by
  unfold Part.starvedAt
  split
  · exact .refl a
  · split
    · exact .trans (.of_same rfl rfl rfl) (.latch _ (.inr rfl) _)
    · exact .refl a

theorem Part.wakes_starvedTest (a : Part) (g : Setup) : a.Wakes (a.starvedTest g) := .foldl (Part.wakes_starvedAt g) _ _

theorem Part.wakes_walk (a : Part) : a.Wakes a.walk := by
  unfold Part.walk
  split
  · exact .of_same rfl rfl rfl
  · next g _ =>
    dsimp only
    refine .trans ?_ (Part.wakes_starvedTest _ g)
    split
    · exact .trans (b := { a with walkOwed := false }) (.of_same rfl rfl rfl) (Part.wakes_admitAll ..)
    · exact .of_same rfl rfl rfl

theorem Part.wakes_takeWalks (n : Nat) (a : Part) : a.Wakes (a.takeWalks n) := by
  induction n generalizing a with
  | zero => exact .of_same rfl rfl rfl
  | succ n ih =>
    unfold Part.takeWalks
    split
    · exact (Part.wakes_walk a).trans (ih _)
    · exact .refl a

/-- What the end of a step leaves of its effect. -/
theorem State.wakes_finish (b u : State) : u.part.Wakes (State.finish b u).part := by
  obtain ⟨-, hl, hd, hp⟩ := Part.wakes_takeWalks 8 u.part
  have hagree := State.finish_agreesOutsidePath_walks b u
  have hcauses : (State.finish b u).part.unit.causes = (u.part.takeWalks 8).unit.causes := hagree.causes
  have hports : (State.finish b u).part.ports = (u.part.takeWalks 8).ports := hagree.ports
  refine ⟨(State.finish_agreesOutsideWalk b u).part, by rw [hcauses]; exact hl, fun k h1 h2 => ?_, fun p => ?_⟩
  · exact (WindowUnit.detail?_congr hcauses k).trans (hd k h1 h2)
  · unfold Part.port at hp ⊢
    rw [hports]
    exact hp p

end Sys2Proof.Machine
end

section
/-! PROOFS of the statements about the Time Base (R26 to R31, R75, R76, R84, R85, R88 to R94, R103, R151, R152). -/

namespace Sys2Proof.Machine

/-! ### A tick (R26, R151) -/

/-- One tick of a settle timer whose last expiry has been handled (R26). -/
theorem Zone.tick_eq {z : Zone} (h : z.expired = false) :
    z.tick = { z with
      timer := if z.timer = some 0 ∨ z.timer = some 1 then none else z.timer.map (· - 1)
      expired := decide (z.timer = some 0 ∨ z.timer = some 1) } := by
  cases z with
  | mk index dirtyCount timer expired dirtySince queuedJob runningJob held epochWait =>
    have h' : expired = false := h
    subst h'
    cases timer with
    | none => rfl
    | some n =>
      match n with
      | 0 => rfl
      | 1 => rfl
      | n + 2 => simp [Zone.tick]

theorem Part.compensation_eq (a : Part) : a.compensation = (a.setup.map fun g => g.globals.compensation).getD 0 := by
  unfold Part.compensation
  cases a.setup <;> rfl

/-- The clock at a tick's end (R151). -/
theorem Clock.tickEnd_eq (k : Clock) (c : Int) (hdue : k.secondDue = false) :
    k.tickEnd c = if k.tick = 31 then { k with tick := 0, secondDue := true, tickLength := 1024 }
      else { k with
        tick := k.tick + 1, tickLength := if k.windowSecond = 31 ∧ k.tick = 30 then 1024 + c else 1024 } := by
  unfold Clock.tickEnd tickLengthOf
  by_cases h : k.tick = 31
  · have h' : k.tick + 1 = Config.ticksPerSecond := by rw [h]; rfl
    rw [if_pos h', if_pos h]
    simp [Config.tickPeriods]
  · have h' : ¬ k.tick + 1 = Config.ticksPerSecond := fun e => h (by simpa [Config.ticksPerSecond] using e)
    rw [if_neg h', if_neg h]
    have h30 : k.tick + 1 = 31 ↔ k.tick = 30 := by omega
    simp only [h30, Config.tickPeriods, hdue]
    rfl

/-! ### A settle expiry (R27) -/

theorem Part.expiresNext_eq {a : Part} {n : Nat} {x : Zone} (h : a.zones.find? (fun y => y.expired) = some x)
    (hx : a.zone? n = some x) : a.expiresNext n = true := by
  unfold Part.expiresNext
  rw [h]
  simp [Part.zone?_index hx]

/-- The part with zone `n`'s expiry taken. -/
def Part.expiryTaken (a : Part) (n : Nat) : Part := a.updateZone n fun z => { z with expired := false }

theorem Part.zone?_expiryTaken {a : Part} {n : Nat} {x : Zone} (hx : a.zone? n = some x) :
    (a.expiryTaken n).zone? n = some { x with expired := false } := by
  unfold Part.expiryTaken
  rw [Part.zone?_updateZone a n n (fun z => { z with expired := false }) fun _ => rfl, hx, Option.map_some, if_pos rfl]

theorem Part.settleExpired_eq {a : Part} {g : Setup} {z : ZoneCfg} {n : Nat} (hg : a.setup = some g) (hz : g.zone? n = some z) :
    a.settleExpired n = (a.expiryTaken n).expire g z .settle .epoch := by
  unfold Part.settleExpired
  simp only [hg, hz]
  rfl

theorem Part.enqueue_clean {a : Part} {g : Setup} {z : ZoneCfg} {x : Zone} (hx : a.zone? z.index = some x)
    (h : x.dirtyCount = 0) (o : Origin) : a.enqueue g z o = a :=
  Part.zoneDirty_false_enqueue (by rw [Part.zoneDirty_eq hx, h]; rfl) g o

/-- An expiry that places nothing (R27, R29). -/
theorem Part.expire_nothing {a : Part} {g : Setup} {z : ZoneCfg} {x : Zone} (hx : a.zone? z.index = some x) (o o' : Origin)
    (h : (x.dirtyCount = 0 ∧ z.cls ≠ .timed) ∨ (z.cls = .routine ∧ a.quiet g = true) ∨ (z.cls = .timed ∧ x.epochWait = false)) :
    a.expire g z o o' = a := by
  unfold Part.expire
  rcases h with ⟨hclean, hcls⟩ | ⟨hcls, hquiet⟩ | ⟨hcls, hwait⟩
  · cases hc : z.cls with
    | timed => exact absurd hc hcls
    | urgent => exact Part.enqueue_clean hx hclean o
    | sweep => exact Part.enqueue_clean hx hclean o
    | routine =>
      simp only [Part.enqueue_clean hx hclean o, ite_self]
  · rw [hcls]
    exact if_pos hquiet
  · simp only [hcls, hx, hwait]
    rfl

/-- A zone's record with EPOCH_WAIT set anew. -/
def Part.waiting (a : Part) (n : Nat) (w : Zone → Bool) : Part := a.updateZone n fun y => { y with epochWait := w y }

theorem Part.waiting_self (a : Part) (n : Nat) : a.waiting n (fun y => y.epochWait) = a := by
  unfold Part.waiting Part.updateZone
  simp only [ite_self, List.map_id']

theorem Part.zone?_waiting {a : Part} {n : Nat} {x : Zone} (hx : a.zone? n = some x) (w : Zone → Bool) :
    (a.waiting n w).zone? n = some { x with epochWait := w x } := by
  unfold Part.waiting
  rw [Part.zone?_updateZone a n n (fun y => { y with epochWait := w y }) fun _ => rfl, hx, Option.map_some, if_pos rfl]

/-- An expiry that makes an enqueue attempt does so at the part, or with EPOCH_WAIT cleared, which the attempt clears (R27). -/
theorem Part.expire_enqueues {a : Part} {g : Setup} {z : ZoneCfg} {x : Zone} (hx : a.zone? z.index = some x) {o : Origin}
    (h : (z.cls = .urgent ∧ o = .settle) ∨ (z.cls = .routine ∧ a.quiet g = false ∧ o = .settle)
      ∨ (z.cls = .timed ∧ x.epochWait = true ∧ o = .epoch)) :
    ∃ w, a.expire g z .settle .epoch = (a.waiting z.index w).enqueue g z o := by
  unfold Part.expire
  rcases h with ⟨hcls, rfl⟩ | ⟨hcls, hquiet, rfl⟩ | ⟨hcls, hwait, rfl⟩
  · refine ⟨fun y => y.epochWait, ?_⟩
    rw [Part.waiting_self, hcls]
  · refine ⟨fun y => y.epochWait, ?_⟩
    rw [Part.waiting_self, hcls]
    exact if_neg (by rw [hquiet]; exact Bool.false_ne_true)
  · simp only [hcls, hx, hwait]
    exact ⟨fun _ => false, rfl⟩

/-! ### The tests of a second, each once (R152, log 6) -/

theorem count_dedupTasks {k : SecondTask} (hk : k ≠ .walk) (seen order : List SecondTask) :
    (dedupTasks seen order).count k = if k ∈ order ∧ k ∉ seen then 1 else 0 := by
  induction order generalizing seen with
  | nil => simp [dedupTasks]
  | cons t ts ih =>
    unfold dedupTasks
    split
    · next ht =>
      have hne : t ≠ k := fun e => hk (e.symm.trans ht)
      rw [List.count_cons_of_ne hne, ih]
      simp [Ne.symm hne]
    · split
      · next hseen =>
        rw [ih]
        have hmem : t ∈ seen := List.contains_iff_mem.1 hseen
        by_cases he : k = t
        · subst he
          simp [hmem]
        · simp [he]
      · next hseen =>
        have hmem : t ∉ seen := fun h => hseen (List.contains_iff_mem.2 h)
        by_cases he : k = t
        · subst he
          rw [List.count_cons_self, ih]
          simp [hmem]
        · rw [List.count_cons_of_ne (Ne.symm he), ih]
          simp [he]

theorem count_secondTasks {k : SecondTask} (hk : k ≠ .walk) (order : List SecondTask) : (secondTasks order).count k = 1 := by
  unfold secondTasks
  rw [List.count_append, count_dedupTasks hk]
  by_cases h : k ∈ order
  · rw [if_pos ⟨h, List.not_mem_nil⟩, List.count_eq_zero_of_not_mem]
    simp [h]
  · rw [if_neg fun hn => h hn.1, List.count_filter (by simpa using h)]
    cases k with
    | walk => exact absurd rfl hk
    | _ => rfl

theorem dedupTasks_nodup (seen order : List SecondTask) (hn : (order.filter fun k => k != .walk).Nodup)
    (hs : ∀ t ∈ order, t ≠ .walk → t ∉ seen) : dedupTasks seen order = order := by
  induction order generalizing seen with
  | nil => rfl
  | cons t ts ih =>
    unfold dedupTasks
    split
    · next ht =>
      subst ht
      exact congrArg _ (ih seen hn fun u hu => hs u (List.mem_cons_of_mem _ hu))
    · next ht =>
      rw [List.filter_cons_of_pos (by simpa using ht), List.nodup_cons] at hn
      obtain ⟨hnot, hrest⟩ := hn
      rw [if_neg fun hc => hs t List.mem_cons_self ht (List.contains_iff_mem.1 hc)]
      refine congrArg _ (ih _ hrest fun u hu hw hmem => ?_)
      rcases List.mem_cons.1 hmem with rfl | hmem
      · exact hnot (List.mem_filter.2 ⟨hu, by simpa using hw⟩)
      · exact hs u (List.mem_cons_of_mem _ hu) hw hmem

/-- A test of a second stands once among those made. -/
theorem secondTasks_split {k : SecondTask} (hk : k ≠ .walk) (order : List SecondTask) :
    ∃ before after, secondTasks order = before ++ k :: after ∧ k ∉ before ∧ k ∉ after := by
  have hcount := count_secondTasks hk order
  obtain ⟨before, after, h⟩ := List.append_of_mem (List.count_pos_iff.1 (by rw [hcount]; exact Nat.one_pos))
  rw [h, List.count_append, List.count_cons_self] at hcount
  exact ⟨before, after, h, List.count_eq_zero.1 (by omega), List.count_eq_zero.1 (by omega)⟩

/-! ### What one test of a second changes -/

section
variable (g : Setup) (storage solar : Int) (a : Part)

/-- The tests that ask for refreshes, and the walks, change no more than walks do. -/
theorem Part.wakes_secondTaskWith {t : SecondTask} (h1 : t ≠ .epochLead) (h2 : t ≠ .polls) (h3 : t ≠ .staleness)
    (h4 : t ≠ .sample) : a.Wakes (Part.secondTaskWith g storage solar a t) := by
  cases t with
  | epochLead => exact absurd rfl h1
  | polls => exact absurd rfl h2
  | staleness => exact absurd rfl h3
  | sample => exact absurd rfl h4
  | epochZones =>
    simp only [Part.secondTaskWith, Part.epochZones]
    split
    · exact .foldl (Part.wakes_epochAt g) _ _
    · exact .refl a
  | epochSweeps =>
    simp only [Part.secondTaskWith, Part.epochSweeps]
    split
    · exact .foldl (Part.wakes_surplusAt g) _ _
    · exact .refl a
  | quietEnd =>
    simp only [Part.secondTaskWith, Part.quietEndTest]
    split
    · exact .foldl (Part.wakes_quietEndAt g) _ _
    · exact .refl a
  | sweepTime =>
    simp only [Part.secondTaskWith, Part.sweepTimeTest]
    split
    · exact .foldl (Part.wakes_sweepTimeAt g) _ _
    · exact .refl a
  | maximumHold => exact .foldl (Part.wakes_holdAt g) _ _
  | starved => exact Part.wakes_starvedTest ..
  | walk =>
    simp only [Part.secondTaskWith, Part.walkIfOwed]
    split
    · exact Part.wakes_walk a
    · exact .refl a

theorem Part.epochLeadTest_frame :
    ∃ causes, a.epochLeadTest g = { a with unit := { a.unit with causes := causes } } ∧ causes.length = a.unit.causes.length
      ∧ ∀ k, k ≠ .epochLead → (a.epochLeadTest g).unit.detail? k = a.unit.detail? k := by
  unfold Part.epochLeadTest
  split
  · refine ⟨_, Part.latch_eq .., Part.latch_causes_length .., fun k hk => Part.detail_latch_ne _ _ hk⟩
  · exact ⟨_, rfl, rfl, fun _ _ => rfl⟩

/-- The sample (R88, R93, R94): the figures, POLICY_CHANGED where the level changes, and then at most sweep requests. -/
theorem Part.takeSample_wakes {g : Setup} (hg : a.setup = some g) {e : Energy}
    (he : e = a.energy.sample g.globals (clampInput 6000 storage) (clampInput 30000 solar)) :
    ∃ causes, ({ a with energy := e, walkOwed := true, unit := { a.unit with causes := causes } } : Part).Wakes
        (a.takeSample storage solar)
      ∧ causes = if e.level = a.energy.level then a.unit.causes
        else (a.latch .policyChanged e.level.rank).unit.causes := by
  have hs : a.takeSample storage solar
      = ({ a with energy := e, walkOwed := true } : Part).levelChanged g a.energy.level := by
    unfold Part.takeSample
    rw [hg, he]
  rw [hs]
  unfold Part.levelChanged
  by_cases h : e.level = a.energy.level
  · refine ⟨_, ?_, rfl⟩
    rw [if_pos h, if_pos h]
    exact .refl _
  · refine ⟨_, ?_, rfl⟩
    rw [if_neg h, if_neg h]
    have hnoted : (({ a with energy := e, walkOwed := true } : Part).latch .policyChanged e.level.rank).oweWalk
        = { a with
            energy := e, walkOwed := true
            unit := { a.unit with causes := (a.latch .policyChanged e.level.rank).unit.causes } } := by
      unfold Part.latch
      have hd : ({ a with energy := e, walkOwed := true } : Part).unit.detail? .policyChanged = a.unit.detail? .policyChanged := rfl
      rw [hd]
      cases a.unit.detail? .policyChanged <;> rfl
    simp only [hnoted]
    split
    · exact .foldl (Part.wakes_surplusAt g) _ _
    · exact .refl _

end

/-! ### What no test of a second changes -/

/-- The fields that a second's tests and walks leave alone, with the number of the causes. -/
def Part.secondFixed (a : Part) : Option Setup × Clock × Rail × RunState × Nat :=
  (a.setup, a.clock, a.rail, a.unit.runState, a.unit.causes.length)

theorem Part.Wakes.fixed {a b : Part} (h : a.Wakes b) : b.secondFixed = a.secondFixed := by
  obtain ⟨ho, hl, -, -⟩ := h
  unfold Part.secondFixed
  rw [Part.setup_of_outsideWalk ho, Part.clock_of_outsideWalk ho, Part.rail_of_outsideWalk ho, Part.runState_of_outsideWalk ho,
    hl]

theorem Part.Wakes.energy {a b : Part} (h : a.Wakes b) : b.energy = a.energy := Part.energy_of_outsideWalk h.1

theorem Part.Wakes.selectors {a b : Part} (h : a.Wakes b) : b.selectors = a.selectors := Part.selectors_of_outsideWalk h.1

theorem Part.Wakes.detail {a b : Part} (h : a.Wakes b) {k : Cause} (h1 : k ≠ .queueFull) (h2 : k ≠ .starved) :
    b.unit.detail? k = a.unit.detail? k := by
  obtain ⟨-, -, hd, -⟩ := h
  exact hd k h1 h2

theorem Part.Wakes.port {a b : Part} (h : a.Wakes b) (p : PanelNo) : (a.port p).Woken (b.port p) := by
  obtain ⟨-, -, -, hp⟩ := h
  exact hp p

/-- The staleness tests change selectors and causes alone, and no cause but TEMP_STALE. -/
theorem Part.staleTest_frame (a : Part) (g : Setup) :
    ∃ selectors causes, a.staleTest g = { a with selectors := selectors, unit := { a.unit with causes := causes } }
      ∧ causes.length = a.unit.causes.length ∧ ∀ k, k ≠ .tempStale → (a.staleTest g).unit.detail? k = a.unit.detail? k := by
  obtain ⟨selectors, causes, h, hd⟩ := Part.foldl_staleAt_frame g panelNos a
  refine ⟨selectors, causes, h, ?_, hd⟩
  have hledger : (panelNos.foldl (Part.staleAt g) a).ledger = a.ledger := by
    refine List.foldlRecOn panelNos (Part.staleAt g) (motive := fun b : Part => b.ledger = a.ledger) rfl fun b hb p _ => ?_
    exact (Part.ledger_staleAt g b p).trans hb
  rw [h] at hledger
  obtain ⟨-, -, -, -, -, -, -, -, hlength, -⟩ := (Part.ledger_eq_iff ..).1 hledger
  exact hlength

theorem Part.secondTask_eq {g : Setup} {a : Part} (hg : a.setup = some g) (storage solar : Int) (t : SecondTask) :
    Part.secondTask storage solar a t = Part.secondTaskWith g storage solar a t := by
  unfold Part.secondTask
  rw [hg]

/-- The sequence of a second's tests keeps what each of them keeps. -/
theorem Part.foldl_secondTask {g : Setup} {storage solar : Int} {R : Part → Part → Prop} (hrefl : ∀ a, R a a)
    (htrans : ∀ a b c, R a b → R b c → R a c) (ts : List SecondTask)
    (hR : ∀ a t, t ∈ ts → a.setup = some g → R a (Part.secondTaskWith g storage solar a t)) (a : Part)
    (hg : a.setup = some g) :
    R a (ts.foldl (Part.secondTask storage solar) a) ∧ (ts.foldl (Part.secondTask storage solar) a).setup = some g := by
  induction ts generalizing a with
  | nil => exact ⟨hrefl a, hg⟩
  | cons t ts ih =>
    rw [List.foldl_cons, Part.secondTask_eq hg]
    obtain ⟨hrest, hset⟩ := ih (fun b u hu => hR b u (List.mem_cons_of_mem _ hu)) _
      ((Part.secondTaskWith_setup g storage solar a t).trans hg)
    exact ⟨htrans _ _ _ (hR a t List.mem_cons_self hg) hrest, hset⟩

theorem Part.secondFixed_task {g : Setup} (storage solar : Int) {a : Part} (hg : a.setup = some g) (t : SecondTask) :
    (Part.secondTaskWith g storage solar a t).secondFixed = a.secondFixed := by
  by_cases h1 : t = .epochLead
  · subst h1
    obtain ⟨causes, h, hl, -⟩ := Part.epochLeadTest_frame g a
    simp only [Part.secondTaskWith, Part.secondFixed, h, hl]
  by_cases h2 : t = .polls
  · subst h2
    obtain ⟨s, q, h⟩ := Part.foldl_pollAt_frame g panelNos a
    simp only [Part.secondTaskWith, Part.pollTest, h]
    rfl
  by_cases h3 : t = .staleness
  · subst h3
    obtain ⟨selectors, causes, h, hl, -⟩ := Part.staleTest_frame a g
    simp only [Part.secondTaskWith, Part.secondFixed, h, hl]
  by_cases h4 : t = .sample
  · subst h4
    obtain ⟨causes, hw, hc⟩ := Part.takeSample_wakes storage solar a hg rfl
    refine hw.fixed.trans ?_
    unfold Part.secondFixed
    rw [hc]
    split
    · rfl
    · show (_, _, _, _, (a.latch .policyChanged _).unit.causes.length) = _
      rw [Part.latch_causes_length]
  exact (Part.wakes_secondTaskWith g storage solar a h1 h2 h3 h4).fixed

/-- The part at a second's first test, with the counts advanced (R152). -/
def Part.secondCounted (a : Part) : Part := { a with clock := a.clock.secondEnd }

/-- One test of a second, with what the tests before it and after it keep. -/
theorem Part.secondEvent_around {g : Setup} {a : Part} (hg : a.setup = some g) (storage solar : Int) (order : List SecondTask)
    {k : SecondTask} (hk : k ≠ .walk) {R : Part → Part → Prop} (hrefl : ∀ a, R a a) (htrans : ∀ a b c, R a b → R b c → R a c)
    (hR : ∀ a t, t ∈ secondTasks order → t ≠ k → a.setup = some g → R a (Part.secondTaskWith g storage solar a t)) :
    ∃ b, b.secondFixed = a.secondCounted.secondFixed ∧ R a.secondCounted b
      ∧ R (Part.secondTaskWith g storage solar b k) (a.secondEvent storage solar order)
      ∧ (a.secondEvent storage solar order).secondFixed = a.secondCounted.secondFixed := by
  obtain ⟨before, after, hsplit, hbefore, hafter⟩ := secondTasks_split hk order
  have hmem : ∀ t, t ∈ before ∨ t ∈ after → t ∈ secondTasks order := fun t ht => by
    rw [hsplit, List.mem_append, List.mem_cons]
    exact ht.imp_right .inr
  obtain ⟨hall, -⟩ := Part.foldl_secondTask (g := g) (storage := storage) (solar := solar)
    (R := fun a b => b.secondFixed = a.secondFixed) (fun _ => rfl) (fun _ _ _ h h' => h'.trans h) (secondTasks order)
    (fun b t _ hb => Part.secondFixed_task storage solar hb t) a.secondCounted hg
  obtain ⟨hfixed, hset⟩ := Part.foldl_secondTask (g := g) (storage := storage) (solar := solar)
    (R := fun a b => b.secondFixed = a.secondFixed) (fun _ => rfl) (fun _ _ _ h h' => h'.trans h) before
    (fun b t _ hb => Part.secondFixed_task storage solar hb t) a.secondCounted hg
  obtain ⟨hrel, -⟩ := Part.foldl_secondTask (g := g) (storage := storage) (solar := solar) hrefl htrans before
    (fun b t ht hb => hR b t (hmem t (.inl ht)) (fun e => hbefore (e ▸ ht)) hb) a.secondCounted hg
  have htask := (Part.secondTaskWith_setup g storage solar (before.foldl (Part.secondTask storage solar) a.secondCounted) k).trans
    hset
  obtain ⟨hrest, -⟩ := Part.foldl_secondTask (g := g) (storage := storage) (solar := solar) hrefl htrans after
    (fun b t ht hb => hR b t (hmem t (.inr ht)) (fun e => hafter (e ▸ ht)) hb) _ htask
  refine ⟨_, hfixed, hrel, ?_, hall⟩
  have hevent : a.secondEvent storage solar order
      = after.foldl (Part.secondTask storage solar)
          (Part.secondTaskWith g storage solar (before.foldl (Part.secondTask storage solar) a.secondCounted) k) := by
    unfold Part.secondEvent
    rw [hsplit, List.foldl_append, List.foldl_cons]
    exact congrArg (after.foldl (Part.secondTask storage solar)) (Part.secondTask_eq hset storage solar k)
  rw [hevent]
  exact hrest

/-! ### Energy and POLICY_CHANGED (R88, R93, R94) -/

/-- The energy figures, POLICY_CHANGED and the number of the causes. -/
def Part.sampleView (a : Part) : Energy × Option Nat × Nat := (a.energy, a.unit.detail? .policyChanged, a.unit.causes.length)

theorem Part.Wakes.sampleView {a b : Part} (h : a.Wakes b) : b.sampleView = a.sampleView := by
  obtain ⟨-, hl, -, -⟩ := id h
  unfold Part.sampleView
  rw [h.energy, h.detail (by decide) (by decide), hl]

/-- The sample alone changes them. -/
theorem Part.sampleView_task (g : Setup) (storage solar : Int) (a : Part) {t : SecondTask} (ht : t ≠ .sample) :
    (Part.secondTaskWith g storage solar a t).sampleView = a.sampleView := by
  by_cases h1 : t = .epochLead
  · subst h1
    obtain ⟨causes, h, hl, hd⟩ := Part.epochLeadTest_frame g a
    show (a.epochLeadTest g).sampleView = _
    unfold Part.sampleView
    rw [hd _ (by decide), h, hl]
  by_cases h2 : t = .polls
  · subst h2
    obtain ⟨s, q, h⟩ := Part.foldl_pollAt_frame g panelNos a
    simp only [Part.secondTaskWith, Part.pollTest, h]
    rfl
  by_cases h3 : t = .staleness
  · subst h3
    obtain ⟨selectors, causes, h, hl, hd⟩ := Part.staleTest_frame a g
    show (a.staleTest g).sampleView = _
    unfold Part.sampleView
    rw [hd _ (by decide), h, hl]
  exact (Part.wakes_secondTaskWith g storage solar a h1 h2 h3 ht).sampleView

/-! ### Polls and staleness of one panel (R84, R85) -/

/-- A pass over a list with one element of interest, which what is asked of the state holds before and after. -/
theorem foldl_reaches {α β : Type} {f : α → β → α} {p : β} {P Q : α → Prop} (hbefore : ∀ a q, q ≠ p → P a → P (f a q))
    (hself : ∀ a, P a → Q (f a p)) (hafter : ∀ a q, q ≠ p → Q a → Q (f a q)) :
    ∀ l : List β, l.Nodup → p ∈ l → ∀ a, P a → Q (l.foldl f a) := by
  have hrest : ∀ l : List β, p ∉ l → ∀ a, Q a → Q (l.foldl f a) := by
    intro l hl
    induction l with
    | nil => exact fun _ h => h
    | cons q qs ih =>
      obtain ⟨hq, hqs⟩ := not_or.1 (fun h => hl (List.mem_cons.2 h))
      exact fun a h => ih hqs _ (hafter a q (Ne.symm hq) h)
  intro l hl hp
  induction l with
  | nil => cases hp
  | cons q qs ih =>
    obtain ⟨hq, hqs⟩ := List.nodup_cons.1 hl
    intro a ha
    by_cases h : q = p
    · subst h
      exact hrest qs hq _ (hself a ha)
    · exact ih hqs ((List.mem_cons.1 hp).resolve_left (Ne.symm h)) _ (hbefore a q h ha)

/-- What the polls look at of a selector. -/
def Selector.pollView (x : Selector) : Bool × Count32 := (x.pollDue, x.reference)

/-- What the staleness tests look at and change of a selector. -/
def Selector.staleView (x : Selector) : Selector := { x with pollDue := false }

theorem Part.selector?_congr {a b : Part} (h : b.selectors = a.selectors) (p : PanelNo) : b.selector? p = a.selector? p := by
  unfold Part.selector?
  rw [h]

theorem Part.pollAt_ne (g : Setup) (a : Part) {p q : PanelNo} (h : q ≠ p) :
    (Part.pollAt g a q).selector? p = a.selector? p ∧ (Part.pollAt g a q).port p = a.port p := by
  unfold Part.pollAt
  split
  · split
    · exact ⟨Quad.get_set_ne _ _ (Ne.symm h), Quad.get_set_ne _ _ (Ne.symm h)⟩
    · exact ⟨rfl, rfl⟩
  · exact ⟨rfl, rfl⟩

theorem Part.pollAt_clock (g : Setup) (a : Part) (q : PanelNo) : (Part.pollAt g a q).clock = a.clock := by
  obtain ⟨s, r, h⟩ := Part.pollAt_frame g a q
  rw [h]

/-- The poll test of one panel's selector and port (R84). -/
theorem Part.pollTest_panel {g : Setup} {a : Part} {p : PanelNo} {c : PanelCfg} {sel : Selector} {falls : Bool}
    (hc : g.panels.get p = some c) (hsel : a.selector? p = some sel)
    (hf : falls = (!sel.pollDue && decide (c.pollPeriod ≤ a.age sel.reference))) :
    (a.pollTest g).selector? p = some { sel with pollDue := sel.pollDue || falls }
      ∧ (a.pollTest g).port p = if falls then (a.port p).answerPoll else a.port p := by
  refine foldl_reaches (p := p) (f := Part.pollAt g)
    (P := fun b => b.clock = a.clock ∧ b.selector? p = some sel ∧ b.port p = a.port p)
    (Q := fun b => b.selector? p = some { sel with pollDue := sel.pollDue || falls }
      ∧ b.port p = if falls then (a.port p).answerPoll else a.port p)
    (fun b q hq ⟨hk, hs, hp⟩ => ?_) (fun b ⟨hk, hs, hp⟩ => ?_) (fun b q hq ⟨hs, hp⟩ => ?_) panelNos (by decide) (mem_panelNos p)
    a ⟨rfl, hsel, rfl⟩
  · obtain ⟨h1, h2⟩ := Part.pollAt_ne g b hq
    exact ⟨(Part.pollAt_clock g b q).trans hk, h1.trans hs, h2.trans hp⟩
  · have hage : b.age sel.reference = a.age sel.reference := by
      unfold Part.age
      rw [hk]
    unfold Part.pollAt
    simp only [hc, hs, hage]
    by_cases h : sel.pollDue = false ∧ c.pollPeriod ≤ a.age sel.reference
    · have hfalls : falls = true := by rw [hf, h.1, decide_eq_true h.2]; rfl
      rw [if_pos h, hfalls, Bool.or_true, if_pos rfl, ← hp]
      exact ⟨Quad.get_set_self .., Quad.get_set_self ..⟩
    · have hfalls : falls = false := by
        rw [hf, Bool.and_eq_false_iff, Bool.not_eq_false', decide_eq_false_iff_not]
        cases hd : sel.pollDue with
        | true => exact .inl rfl
        | false => exact .inr fun hle => h ⟨hd, hle⟩
      rw [if_neg h, hfalls, Bool.or_false, if_neg Bool.false_ne_true]
      exact ⟨hs, hp⟩
  · obtain ⟨h1, h2⟩ := Part.pollAt_ne g b hq
    exact ⟨h1.trans hs, h2.trans hp⟩

theorem Part.staleAt_ne (g : Setup) (a : Part) {p q : PanelNo} (h : q ≠ p) :
    (Part.staleAt g a q).selector? p = a.selector? p := by
  unfold Part.staleAt
  split
  · split
    · rw [Part.latch_eq]
      exact Quad.get_set_ne _ _ (Ne.symm h)
    · rfl
  · rfl

theorem Part.staleAt_clock (g : Setup) (a : Part) (q : PanelNo) : (Part.staleAt g a q).clock = a.clock := by
  obtain ⟨s, r, h, -⟩ := Part.staleAt_frame g a q
  rw [h]

/-- TEMP_STALE once latched stays so. -/
theorem Part.staleAt_keeps (g : Setup) (a : Part) (q : PanelNo) (h : (a.unit.detail? .tempStale).isSome = true) :
    ((Part.staleAt g a q).unit.detail? .tempStale).isSome = true := by
  obtain ⟨d, hd⟩ := Option.isSome_iff_exists.1 h
  unfold Part.staleAt
  split
  · split
    · exact Option.isSome_iff_exists.2 ⟨d, Part.detail_latch_keeps _ _ _ _ d hd⟩
    · exact h
  · exact h

/-- The staleness test of one panel's selector (R85), and TEMP_STALE at a step. -/
theorem Part.staleTest_panel {g : Setup} {a : Part} {p : PanelNo} {c : PanelCfg} {sel : Selector} {step : Bool}
    (hc : g.panels.get p = some c) (hsel : a.selector? p = some sel)
    (hf : step = (decide (3 * (sel.staleSteps + 1) * c.pollPeriod < a.age sel.reference)
      && (sel.staleSteps == 0 || decide (0 < sel.band)))) :
    (a.staleTest g).selector? p = some { sel with
        band := if step then sel.band - 1 else sel.band
        staleSteps := if step then sel.staleSteps + 1 else sel.staleSteps
        stale := sel.stale || step }
      ∧ (step = true → a.unit.causes.length = 13 → ((a.staleTest g).unit.detail? .tempStale).isSome = true) := by
  refine foldl_reaches (p := p) (f := Part.staleAt g)
    (P := fun b => b.clock = a.clock ∧ b.selector? p = some sel ∧ b.unit.causes.length = a.unit.causes.length)
    (Q := fun b => b.selector? p = some { sel with
        band := if step then sel.band - 1 else sel.band
        staleSteps := if step then sel.staleSteps + 1 else sel.staleSteps
        stale := sel.stale || step }
      ∧ (step = true → a.unit.causes.length = 13 → (b.unit.detail? .tempStale).isSome = true))
    (fun b q hq ⟨hk, hs, hl⟩ => ?_) (fun b ⟨hk, hs, hl⟩ => ?_) (fun b q hq ⟨hs, hd⟩ => ?_) panelNos (by decide) (mem_panelNos p)
    a ⟨rfl, hsel, rfl⟩
  · obtain ⟨-, -, -, -, -, -, -, -, hlength, -⟩ := (Part.ledger_eq_iff ..).1 (Part.ledger_staleAt g b q)
    exact ⟨(Part.staleAt_clock g b q).trans hk, (Part.staleAt_ne g b hq).trans hs, hlength.trans hl⟩
  · have hage : b.age sel.reference = a.age sel.reference := by
      unfold Part.age
      rw [hk]
    unfold Part.staleAt
    simp only [hc, hs, hage]
    by_cases h : 3 * (sel.staleSteps + 1) * c.pollPeriod < a.age sel.reference ∧ (sel.staleSteps = 0 ∨ 0 < sel.band)
    · have hstep : step = true := by
        rw [hf, decide_eq_true h.1, Bool.true_and, Bool.or_eq_true, beq_iff_eq, decide_eq_true_eq]
        exact h.2
      rw [if_pos h, hstep]
      simp only [if_true, Bool.or_true]
      refine ⟨?_, fun _ h13 => ?_⟩
      · rw [Part.latch_eq]
        exact Quad.get_set_self ..
      · exact Option.isSome_iff_exists.2 ⟨_, Part.detail_latch _ .tempStale _ (hl.trans h13)⟩
    · have hstep : step = false := by
        rw [hf, Bool.and_eq_false_iff, decide_eq_false_iff_not, Bool.or_eq_false_iff, beq_eq_false_iff_ne,
          decide_eq_false_iff_not]
        exact (Decidable.not_and_iff_or_not.1 h).imp_right not_or.1
      rw [if_neg h, hstep]
      simp only [Bool.false_eq_true, if_false, Bool.or_false]
      exact ⟨hs, nofun⟩
  · exact ⟨(Part.staleAt_ne g b hq).trans hs, fun h1 h2 => Part.staleAt_keeps g b q (hd h1 h2)⟩

/-- Of a second's tests the polls alone change what they look at. -/
theorem Part.pollView_task {g : Setup} (storage solar : Int) {a : Part} (hg : a.setup = some g) (p : PanelNo) {t : SecondTask}
    (ht : t ≠ .polls) :
    ((Part.secondTaskWith g storage solar a t).selector? p).map Selector.pollView = (a.selector? p).map Selector.pollView
      ∧ (a.port p).Woken ((Part.secondTaskWith g storage solar a t).port p) := by
  have hwakes : ∀ x y : Part, x.Wakes y → x.selectors = a.selectors → x.ports = a.ports →
      (y.selector? p).map Selector.pollView = (a.selector? p).map Selector.pollView ∧ (a.port p).Woken (y.port p) :=
    fun x y h h1 h2 => by
      refine ⟨congrArg _ (Part.selector?_congr (h.selectors.trans h1) p), ?_⟩
      have hport := h.port p
      unfold Part.port at hport ⊢
      rwa [h2] at hport
  by_cases h1 : t = .epochLead
  · subst h1
    obtain ⟨causes, h, -, -⟩ := Part.epochLeadTest_frame g a
    simp only [Part.secondTaskWith, h]
    exact ⟨rfl, .inl rfl⟩
  by_cases h3 : t = .staleness
  · subst h3
    obtain ⟨selectors, causes, hframe, -, -⟩ := Part.staleTest_frame a g
    refine ⟨?_, .inl ?_⟩
    · refine List.foldlRecOn panelNos (Part.staleAt g)
        (motive := fun b : Part => (b.selector? p).map Selector.pollView = (a.selector? p).map Selector.pollView) rfl
        fun b hb q _ => ?_
      rw [← hb]
      by_cases hq : q = p
      · subst hq
        unfold Part.staleAt
        split
        · next c sel _ hs =>
          split
          · rw [hs, Part.latch_eq]
            show ((b.selectors.set q _).get q).map _ = _
            rw [Quad.get_set_self]
            rfl
          · rfl
        · rfl
      · rw [Part.staleAt_ne g b hq]
    · show (a.staleTest g).port p = _
      rw [hframe]
      rfl
  by_cases h4 : t = .sample
  · subst h4
    obtain ⟨causes, hw, -⟩ := Part.takeSample_wakes storage solar a hg rfl
    exact hwakes _ _ hw rfl rfl
  exact hwakes a _ (Part.wakes_secondTaskWith g storage solar a h1 ht h3 h4) rfl rfl

/-- The staleness tests alone change what they look at, and TEMP_STALE. -/
theorem Part.staleView_task {g : Setup} (storage solar : Int) {a : Part} (hg : a.setup = some g) (p : PanelNo) {t : SecondTask}
    (ht : t ≠ .staleness) :
    ((Part.secondTaskWith g storage solar a t).selector? p).map Selector.staleView = (a.selector? p).map Selector.staleView
      ∧ (Part.secondTaskWith g storage solar a t).unit.detail? .tempStale = a.unit.detail? .tempStale := by
  by_cases h1 : t = .epochLead
  · subst h1
    obtain ⟨causes, h, -, hd⟩ := Part.epochLeadTest_frame g a
    refine ⟨?_, hd _ (by decide)⟩
    simp only [Part.secondTaskWith, h]
    rfl
  by_cases h2 : t = .polls
  · subst h2
    obtain ⟨s, r, hframe⟩ := Part.foldl_pollAt_frame g panelNos a
    refine ⟨?_, ?_⟩
    · refine List.foldlRecOn panelNos (Part.pollAt g)
        (motive := fun b : Part => (b.selector? p).map Selector.staleView = (a.selector? p).map Selector.staleView) rfl
        fun b hb q _ => ?_
      rw [← hb]
      by_cases hq : q = p
      · subst hq
        unfold Part.pollAt
        split
        · next c sel _ hs =>
          split
          · rw [hs]
            show ((b.selectors.set q _).get q).map _ = _
            rw [Quad.get_set_self]
            rfl
          · rfl
        · rfl
      · rw [(Part.pollAt_ne g b hq).1]
    · simp only [Part.secondTaskWith, Part.pollTest, hframe]
  by_cases h4 : t = .sample
  · subst h4
    obtain ⟨causes, hw, hc⟩ := Part.takeSample_wakes storage solar a hg rfl
    refine ⟨congrArg _ (Part.selector?_congr hw.selectors p), (hw.detail (by decide) (by decide)).trans ?_⟩
    split at hc
    · exact WindowUnit.detail?_congr hc _
    · exact (WindowUnit.detail?_congr hc _).trans (Part.detail_latch_ne _ _ (by decide))
  have hw := Part.wakes_secondTaskWith g storage solar a h1 h2 ht h4
  exact ⟨congrArg _ (Part.selector?_congr hw.selectors p), hw.detail (by decide) (by decide)⟩

/-- A selector is what the polls and what the staleness tests look at of it. -/
theorem Selector.eq_of_views {x y : Selector} (hp : x.pollView = y.pollView) (hs : x.staleView = y.staleView) : x = y := by
  obtain ⟨hdue, -⟩ := Prod.mk.inj hp
  calc x = { x.staleView with pollDue := x.pollDue } := rfl
    _ = { y.staleView with pollDue := y.pollDue } := by rw [hs, hdue]
    _ = y := rfl

/-- A port that a poll has been put to between two passages of demands for a wake (R84). -/
theorem Port.woken_polled {x y w z : Port} {falls : Bool} (h : x.Woken y) (hw : w = if falls then y.answerPoll else y)
    (h' : w.Woken z) :
    (falls = true → x.state = .off → z = { x with wakePending := true })
      ∧ (falls = true → x.state = .ready ∨ x.state = .driving → z = { x with queryDue := true })
      ∧ (x.state = .waking ∨ x.state = .fault → z = x) := by
  have hself : x.state ≠ .off → x.state ≠ .closing → y = x := h.eq
  refine ⟨fun hf hoff => ?_, fun hf hstate => ?_, fun hstate => ?_⟩
  · have hy : y.state = .off ∧ { y with wakePending := true } = { x with wakePending := true } := by
      rcases h with rfl | rfl
      · exact ⟨hoff, rfl⟩
      · unfold Port.demandWake
        rw [if_pos (.inl hoff)]
        exact ⟨hoff, rfl⟩
    have hasked : w = { x with wakePending := true } := by
      rw [hw, hf, if_pos rfl, ← hy.2]
      unfold Port.answerPoll
      rw [hy.1]
    rcases h' with rfl | rfl
    · exact hasked
    · rw [hasked]
      exact if_pos (.inl hoff)
  · have hne : x.state ≠ .off ∧ x.state ≠ .closing := by rcases hstate with e | e <;> rw [e] <;> decide
    obtain rfl := hself hne.1 hne.2
    have hasked : w = { y with queryDue := true } := by
      rw [hw, hf, if_pos rfl]
      unfold Port.answerPoll
      rcases hstate with e | e <;> rw [e]
    subst hasked
    exact h'.eq hne.1 hne.2
  · have hne : x.state ≠ .off ∧ x.state ≠ .closing := by rcases hstate with e | e <;> rw [e] <;> decide
    obtain rfl := hself hne.1 hne.2
    have hasked : w = y := by
      rw [hw]
      unfold Port.answerPoll
      rcases hstate with e | e <;> simp only [e, ite_self]
    subst hasked
    exact h'.eq hne.1 hne.2

end Sys2Proof.Machine

open Sys2Proof Sys2Proof.Machine

/-- Settles O45: the timers and the clock of a tick, case by case. -/
theorem tickAdvances : Obligations.TickAdvances := by
  intro s hs hdue hexpired
  refine .of_partEvent (en := s.part.tickReady) (f := Part.tickEnd) hs.1 rfl ?_ ?_
  · have hno : s.part.expiryDue = false := List.any_eq_false.2 fun z hz => by rw [hexpired z hz]; exact Bool.false_ne_true
    simp [Part.tickReady, hdue, hno]
  · unfold Part.tickEnd
    rw [Clock.tickEnd_eq _ _ hdue, Part.compensation_eq, List.map_congr_left fun z hz => Zone.tick_eq (hexpired z hz)]

/-- Settles O46: the expiry by the zone's class, then what its enqueue attempt does. -/
theorem settleExpiryByClass : Obligations.SettleExpiryByClass := by
  intro s g z n x quietAt quiet hs hg hat hquiet hz hx hnext
  have hindex := Setup.zone?_index hz
  have hquiet' : (s.part.expiryTaken n.val).quiet g = quiet := by
    have hall : ∀ i, g.globals.quietAt i = quietAt i := fun i =>
      Bool.eq_iff_iff.2 ((Setup.quietAt_iff g i).trans (hat i).symm)
    rw [hquiet]
    unfold Part.quiet
    rw [hall, hall, Clock.nextSecond_eq]
    rfl
  have htaken : (s.part.expiryTaken n.val).zone? z.index = some { x with expired := false } := by
    rw [hindex]
    exact Part.zone?_expiryTaken hx
  have hexpires := Part.expiresNext_eq hnext hx
  have hexec : exec (.settleExpiry n) s
      = .next (State.finish s { s with part := (s.part.expiryTaken n.val).expire g z .settle .epoch }) := by
    rw [← Part.settleExpired_eq hg hz]
    exact State.partEvent_enabled hs.1 hexpires fun a => a.settleExpired n.val
  refine ⟨fun hcase => ?_, fun o ho hdirty hq => ?_⟩
  · rw [Part.expire_nothing htaken .settle .epoch (by rw [hquiet']; exact hcase)] at hexec
    exact .of_exec hexec
  obtain ⟨w, hw⟩ := Part.expire_enqueues htaken (o := o) (by rw [hquiet']; exact ho)
  rw [hw] at hexec
  obtain ⟨-, henqueued⟩ := Part.enqueued_enqueue ((s.part.expiryTaken n.val).waiting z.index w) g z o
  obtain ⟨hplaced, -, hrefused⟩ := henqueued _ _ (Part.zone?_waiting htaken w) hdirty rfl
  generalize ((s.part.expiryTaken n.val).waiting z.index w).enqueue g z o = u at hexec hplaced hrefused
  refine ⟨fun slot hfree hlt hbelow => ?_, fun hfull => ?_⟩
  · obtain ⟨hu, htiles, hzones⟩ := hplaced slot hq ⟨hfree, hlt, hbelow⟩
    refine ⟨_, .of_exec hexec, ?_, fun p tx ty y hy => ?_, fun y hy => ?_⟩
    · rw [← hindex]
      conv => lhs; rw [hu]
      rfl
    · obtain ⟨htook, hkept⟩ := htiles p tx ty y hy
      rw [← hindex]
      by_cases h : y.state = .dirty ∧ p = z.panel ∧ z.rect.contains tx ty = true ∧ y.zone = some z.index
      · obtain ⟨h1, h2, h3, h4⟩ := id h
        rw [if_pos ⟨h2, h3, h4, h1⟩]
        exact htook h
      · rw [if_neg fun ⟨h2, h3, h4, h1⟩ => h ⟨h1, h2, h3, h4⟩]
        exact hkept h
    · have hrecord := hzones z.index _ (Part.zone?_waiting htaken w)
      rw [← hindex] at hy
      have hy' : u.zone? z.index = some y := hy
      have hhere : x.index = z.index := (Part.zone?_index hx).trans hindex.symm
      obtain rfl := (Option.some.inj (hrecord.symm.trans hy')).symm.trans (if_pos hhere)
      exact ⟨rfl, rfl, rfl, rfl, rfl⟩
  · obtain ⟨hu, hlatched⟩ := hrefused hq hfull
    have hwalk : u.walkOwed = false := by
      rw [hu]
      exact hs.2
    have hagree := State.finish_agreesOutsidePath s (s := { s with part := u }) hwalk
    have hcauses : _ = u.unit.causes := hagree.causes
    refine ⟨_, hexec, hindex ▸ hlatched.congr hcauses, ?_⟩
    rw [hcauses]
    refine Eq.trans hagree (congrArg State.outsidePath ?_)
    have hzones : u.zones = s.part.zones.map fun y =>
        if y.index = n.val then { y with expired := false, epochWait := false, held := some o } else y := by
      rw [hu]
      show ((s.part.zones.map _).map _).map _ = _
      rw [List.map_map, List.map_map, hindex]
      refine List.map_congr_left fun y _ => ?_
      by_cases h : y.index = n.val <;> simp [h]
    have hframe : u = { s.part with zones := u.zones, unit := { s.part.unit with causes := u.unit.causes } } := by
      have hz := congrArg (fun x : Part => x.zones) hu
      simp only at hz
      rw [hz]
      exact hu
    rw [← hzones]
    exact congrArg (fun x : Part => ({ s with part := x } : State)) hframe

/-- Settles O49: the polls and the staleness tests are each made once, and no other test changes what they look at. -/
theorem pollsAndStaleness : Obligations.PollsAndStaleness := by
  intro s g c p sel storage solar order age falls step hs hdue hg hc hsel hage hfalls hstep
  have hexec := exec_second hs hdue storage solar order
  have hfinish := State.wakes_finish s { s with part := s.part.secondEvent storage solar order }
  -- the polls, with what comes before and after them
  obtain ⟨b, hb, ⟨hbview, hbport⟩, ⟨hview, hport⟩, -⟩ := Part.secondEvent_around hg storage solar order (k := .polls) nofun
    (R := fun a b => (b.selector? p).map Selector.pollView = (a.selector? p).map Selector.pollView
      ∧ (a.port p).Woken (b.port p))
    (fun _ => ⟨rfl, .inl rfl⟩) (fun _ _ _ h h' => ⟨h'.1.trans h.1, h.2.trans h'.2⟩)
    fun a t _ ht ha => Part.pollView_task storage solar ha p ht
  obtain ⟨e, he, ⟨heview, hedetail⟩, ⟨hview', hdetail⟩, -⟩ := Part.secondEvent_around hg storage solar order (k := .staleness) nofun
    (R := fun a b => (b.selector? p).map Selector.staleView = (a.selector? p).map Selector.staleView
      ∧ b.unit.detail? .tempStale = a.unit.detail? .tempStale)
    (fun _ => ⟨rfl, rfl⟩) (fun _ _ _ h h' => ⟨h'.1.trans h.1, h'.2.trans h.2⟩)
    fun a t _ ht ha => Part.staleView_task storage solar ha p ht
  generalize s.part.secondEvent storage solar order = u at hexec hfinish hview hport hview' hdetail
  have hfixed : ∀ d : Part, d.secondFixed = s.part.secondCounted.secondFixed →
      d.age sel.reference = age ∧ d.unit.causes.length = s.part.unit.causes.length := fun d hd => by
    obtain ⟨-, hclock, -, -, hlength⟩ : _ ∧ _ ∧ _ ∧ _ ∧ _ := by simpa [Part.secondFixed] using hd
    refine ⟨?_, hlength⟩
    rw [hage]
    unfold Part.age
    rw [hclock]
    rfl
  have hcounted : s.part.secondCounted.selector? p = some sel := hsel
  rw [hcounted] at hbview heview
  obtain ⟨sb, hsb, hsbview⟩ := Option.map_eq_some_iff.1 hbview
  obtain ⟨se, hse, hseview⟩ := Option.map_eq_some_iff.1 heview
  obtain ⟨hsbdue, hsbref⟩ := Prod.mk.inj hsbview
  have hseref : se.reference = sel.reference := show se.staleView.reference = _ by rw [hseview]; rfl
  have hsesteps : se.staleSteps = sel.staleSteps := show se.staleView.staleSteps = _ by rw [hseview]; rfl
  have hseband : se.band = sel.band := show se.staleView.band = _ by rw [hseview]; rfl
  obtain ⟨hpolled, hasked⟩ := Part.pollTest_panel (a := b) (falls := falls) hc hsb
    (by rw [hsbdue, hsbref, (hfixed b hb).1]; exact hfalls)
  obtain ⟨hstale, hlatched⟩ := Part.staleTest_panel (a := e) (step := step) hc hse
    (by rw [hseref, hsesteps, hseband, (hfixed e he).1]; exact hstep)
  obtain ⟨x, hx, hxview⟩ := Option.map_eq_some_iff.1 ((hview.trans (congrArg _ hpolled)).trans (Option.map_some ..))
  have hxview' : x.staleView = _ := Option.some.inj
    ((congrArg (Option.map Selector.staleView) hx).symm.trans (hview'.trans (congrArg _ hstale)))
  have hx' : x = { sel with
      band := if step then sel.band - 1 else sel.band
      staleSteps := if step then sel.staleSteps + 1 else sel.staleSteps
      stale := sel.stale || step
      pollDue := sel.pollDue || falls } := by
    refine Selector.eq_of_views (hxview.trans ?_) (hxview'.trans ?_)
    · show (sb.pollDue || falls, sb.reference) = (sel.pollDue || falls, sel.reference)
      rw [hsbdue, hsbref]
    · have hse' : se = { sel with pollDue := se.pollDue } := congrArg (fun y => { y with pollDue := se.pollDue }) hseview
      rw [hse']
      rfl
  have hport' := Port.woken_polled hbport hasked (hport.trans (hfinish.port p))
  refine ⟨_, hexec, ?_, fun h1 h2 => ?_, hport'⟩
  · exact (Part.selector?_congr hfinish.selectors p).trans (hx.trans (congrArg some hx'))
  · rw [hfinish.detail (by decide) (by decide)]
    show (u.unit.detail? .tempStale).isSome = true
    rw [hdetail]
    exact hlatched h1 ((hfixed e he).2.trans h2)

end

section
/-! PROOFS of the statement about the second event (R88 to R94, R103, R152). -/

namespace Sys2Proof.Machine

/-! ### Light and dark, and the policy level (R91, R93) -/

theorem Energy.advanceLight_light (g : GlobalSettings) (e : Energy) :
    ((e.advanceLight g).dark, (e.advanceLight g).runCount)
      = if (if e.dark then decide (e.vsol < g.lightThreshold) else decide (g.darkThreshold ≤ e.vsol)) then (e.dark, 0)
        else if e.runCount + 1 = (if e.dark then 60 else 120) then (!e.dark, 0) else (e.dark, e.runCount + 1) := by
  unfold Energy.advanceLight
  cases hd : e.dark with
  | true =>
    simp only [if_true, decide_eq_true_eq]
    by_cases h : g.lightThreshold ≤ e.vsol
    · rw [if_pos h, if_neg (Nat.not_lt.2 h)]
      split <;> rfl
    · rw [if_neg h, if_pos (Nat.lt_of_not_le h)]
  | false =>
    simp only [Bool.false_eq_true, if_false, decide_eq_true_eq]
    by_cases h : e.vsol < g.darkThreshold
    · rw [if_pos h, if_neg (Nat.not_le.2 h)]
      split <;> rfl
    · rw [if_neg h, if_pos (Nat.le_of_not_lt h)]

/-- Light and dark detection changes nothing but the light state and its run count. -/
theorem Energy.advanceLight_eq (g : GlobalSettings) (e : Energy) :
    e.advanceLight g = { e with dark := (e.advanceLight g).dark, runCount := (e.advanceLight g).runCount } := by
  unfold Energy.advanceLight
  split <;> split <;> (try split) <;> rfl

theorem PolicyLevel.rank_eq_code (l : PolicyLevel) : l.rank = l.code := by cases l <;> rfl

/-- The up test finds the highest level of a descending list that may be entered. -/
theorem upLevel?_spec (g : GlobalSettings) (c : PolicyLevel) (vs : Nat) (ls : List PolicyLevel) :
    (∀ l ∈ ls, c.rank < l.rank → vs < risingVoltage g l) ∧ upLevel? g c vs ls = none
      ∨ ∃ l ∈ ls, upLevel? g c vs ls = some l ∧ c.rank < l.rank ∧ risingVoltage g l ≤ vs := by
  induction ls with
  | nil => exact .inl ⟨fun _ h => absurd h List.not_mem_nil, rfl⟩
  | cons l ls ih =>
    unfold upLevel?
    by_cases h : c.rank < l.rank ∧ risingVoltage g l ≤ vs
    · rw [if_pos h]
      exact .inr ⟨l, List.mem_cons_self, rfl, h⟩
    · rw [if_neg h]
      rcases ih with ⟨hall, hnone⟩ | ⟨m, hm, hrest⟩
      · refine .inl ⟨fun m hm hrank => ?_, hnone⟩
        rcases List.mem_cons.1 hm with rfl | hm
        · exact Nat.lt_of_not_le fun hle => h ⟨hrank, hle⟩
        · exact hall m hm hrank
      · exact .inr ⟨m, List.mem_cons_of_mem _ hm, hrest⟩

/-- The up test (R93): the highest level above the current one whose rising voltage is reached. -/
theorem selectLevel_up {g : GlobalSettings} {c l : PolicyLevel} {vs : Nat} (hrank : c.rank < l.rank)
    (hv : risingVoltage g l ≤ vs) (habove : ∀ m, l.rank < m.rank → vs < risingVoltage g m) : selectLevel g c vs = l := by
  have hnot : ∀ m, l.rank < m.rank → ¬(c.rank < m.rank ∧ risingVoltage g m ≤ vs) := fun m hm h =>
    absurd h.2 (Nat.not_le.2 (habove m hm))
  have hup : upLevel? g c vs [.surplus, .normal, .lean] = some l := by
    cases l with
    | frozen => exact absurd hrank (Nat.not_lt_zero _)
    | surplus => exact if_pos ⟨hrank, hv⟩
    | normal => exact (if_neg (hnot .surplus (by decide))).trans (if_pos ⟨hrank, hv⟩)
    | lean =>
      exact (if_neg (hnot .surplus (by decide))).trans ((if_neg (hnot .normal (by decide))).trans (if_pos ⟨hrank, hv⟩))
  unfold selectLevel
  rw [hup]

theorem upLevel?_none {g : GlobalSettings} {c : PolicyLevel} {vs : Nat}
    (hup : ∀ l, c.rank < l.rank → vs < risingVoltage g l) (ls : List PolicyLevel) : upLevel? g c vs ls = none := by
  rcases upLevel?_spec g c vs ls with ⟨-, h⟩ | ⟨l, -, -, hrank, hv⟩
  · exact h
  · exact absurd (hup l hrank) (Nat.not_lt.2 hv)

/-- Where no level can be entered from below and the current one holds, it stays (R93). -/
theorem selectLevel_stay {g : GlobalSettings} {c : PolicyLevel} {vs : Nat}
    (hup : ∀ l, c.rank < l.rank → vs < risingVoltage g l) (hold : c = .frozen ∨ fallingVoltage g c ≤ vs) :
    selectLevel g c vs = c := by
  unfold selectLevel
  rw [upLevel?_none hup]
  exact if_neg fun h => hold.elim h.1 fun hle => absurd h.2 (Nat.not_lt.2 hle)

/-- The down test (R93): the highest level below the current one whose falling voltage is at or below Vs. -/
theorem selectLevel_down {g : GlobalSettings} {c l : PolicyLevel} {vs : Nat}
    (hup : ∀ l, c.rank < l.rank → vs < risingVoltage g l) (hlow : vs < fallingVoltage g c) (hrank : l.rank < c.rank)
    (hv : fallingVoltage g l ≤ vs) (hbetween : ∀ m, l.rank < m.rank → m.rank < c.rank → vs < fallingVoltage g m) :
    selectLevel g c vs = l := by
  have hfrozen : c ≠ .frozen := fun h => absurd (h ▸ hlow) (Nat.not_lt_zero _)
  have hnot : ∀ m, l.rank < m.rank → ¬(m.rank < c.rank ∧ fallingVoltage g m ≤ vs) := fun m hm h =>
    absurd h.2 (Nat.not_le.2 (hbetween m hm h.1))
  unfold selectLevel
  rw [upLevel?_none hup]
  refine (if_pos ⟨hfrozen, hlow⟩).trans ?_
  cases l with
  | surplus => cases c <;> exact absurd hrank (by decide)
  | normal => exact if_pos ⟨hrank, hv⟩
  | lean => exact (if_neg (hnot .normal (by decide))).trans (if_pos ⟨hrank, hv⟩)
  | frozen => exact (if_neg (hnot .normal (by decide))).trans (if_neg (hnot .lean (by decide)))

/-- SURPLUS is not entered from below it where Vs is below its voltage (R93). -/
theorem selectLevel_surplus {g : GlobalSettings} {c : PolicyLevel} {vs : Nat}
    (h : c = .surplus ∨ vs < risingVoltage g .surplus) :
    (selectLevel g c vs = .surplus → c = .surplus) ∧ (selectLevel g c vs = .surplus ∨ vs < risingVoltage g .surplus) := by
  rcases h with rfl | hlow
  · refine ⟨fun _ => rfl, ?_⟩
    by_cases hv : vs < risingVoltage g .surplus
    · exact .inr hv
    · refine .inl (selectLevel_stay (fun l hl => ?_) (.inr ?_))
      · cases l <;> exact absurd hl (by decide)
      · exact Nat.le_trans (Nat.sub_le _ _) (Nat.le_of_not_lt hv)
  · refine ⟨fun heq => ?_, .inr hlow⟩
    unfold selectLevel at heq
    rcases upLevel?_spec g c vs [.surplus, .normal, .lean] with ⟨-, h⟩ | ⟨l, -, h, -, hv⟩
    · rw [h] at heq
      by_cases hd : c ≠ .frozen ∧ vs < fallingVoltage g c
      · have hdown : downLevel g c vs [.normal, .lean] = .surplus := (if_pos hd).symm.trans heq
        unfold downLevel at hdown
        split at hdown
        · cases hdown
        · unfold downLevel at hdown
          split at hdown <;> cases hdown
      · exact (if_neg hd).symm.trans heq
    · rw [h] at heq
      obtain rfl : l = .surplus := heq
      exact absurd hlow (Nat.not_lt.2 hv)

/-! ### The tests that an order makes -/

theorem mem_of_mem_dedupTasks {t : SecondTask} {seen order : List SecondTask} (h : t ∈ dedupTasks seen order) : t ∈ order := by
  induction order generalizing seen with
  | nil => cases h
  | cons u us ih =>
    unfold dedupTasks at h
    split at h
    · exact List.mem_cons.2 ((List.mem_cons.1 h).imp_right ih)
    · split at h
      · exact List.mem_cons_of_mem _ (ih h)
      · exact List.mem_cons.2 ((List.mem_cons.1 h).imp_right ih)

/-- A walk is made where the order names one. -/
theorem walk_mem_secondTasks {order : List SecondTask} (h : .walk ∈ secondTasks order) : .walk ∈ order := by
  rcases List.mem_append.1 h with h | h
  · exact mem_of_mem_dedupTasks h
  · exact absurd (List.mem_filter.1 h).1 (by decide)

/-! ### A second with no setup installed (R153) -/

/-- The energy state with the two samples taken (R88). -/
def Energy.taken (e : Energy) (storage solar : Int) : Energy :=
  { e with vs := clampInput 6000 storage, vsol := clampInput 30000 solar, sampled := true }

/-- With no setup a second's tests take the sample and walk over nothing. -/
theorem Part.foldl_secondTask_none (storage solar : Int) (ts : List SecondTask) {a b : Part} (hnone : a.setup = none)
    (hb : b = ts.foldl (Part.secondTask storage solar) a) :
    b = { a with energy := b.energy, stopMark := b.stopMark, walkOwed := b.walkOwed }
      ∧ b.energy = if .sample ∈ ts then a.energy.taken storage solar else a.energy := by
  induction ts generalizing a with
  | nil =>
    obtain rfl : b = a := hb
    exact ⟨rfl, rfl⟩
  | cons t ts ih =>
    have hskip : t ≠ .sample → t ≠ .walk → Part.secondTask storage solar a t = a := fun h1 h2 => by
      unfold Part.secondTask
      simp only [hnone]
      cases t with
      | sample => exact absurd rfl h1
      | walk => exact absurd rfl h2
      | _ => rfl
    have hstep : ∃ e m w, Part.secondTask storage solar a t = { a with energy := e, stopMark := m, walkOwed := w }
        ∧ e = if t = .sample then a.energy.taken storage solar else a.energy := by
      by_cases h1 : t = .sample
      · subst h1
        refine ⟨_, a.stopMark, true, ?_, rfl⟩
        simp only [Part.secondTask, hnone, Part.takeSample]
        rfl
      by_cases h2 : t = .walk
      · subst h2
        have hwalk : Part.secondTask storage solar a .walk = a.walkIfOwed := by simp only [Part.secondTask, hnone]
        rw [hwalk, if_neg nofun]
        unfold Part.walkIfOwed
        split
        · refine ⟨_, none, false, ?_, rfl⟩
          unfold Part.walk
          simp only [hnone]
        · exact ⟨_, a.stopMark, a.walkOwed, rfl, rfl⟩
      · rw [hskip h1 h2, if_neg h1]
        exact ⟨_, a.stopMark, a.walkOwed, rfl, rfl⟩
    obtain ⟨e, m, w, h, he⟩ := hstep
    rw [List.foldl_cons, h] at hb
    obtain ⟨hframe, henergy⟩ := ih (a := { a with energy := e, stopMark := m, walkOwed := w }) hnone hb
    refine ⟨hframe, henergy.trans ?_⟩
    show (if _ then e.taken storage solar else e) = _
    rw [he]
    by_cases h1 : t = .sample
    · simp only [h1, if_true, List.mem_cons_self]
      split <;> rfl
    · have hmem : .sample ∈ t :: ts ↔ .sample ∈ ts := by simp [Ne.symm h1]
      simp only [h1, if_false, hmem]

theorem Part.takeSample_eq {g : Setup} {a : Part} (storage solar : Int) (hg : a.setup = some g) :
    a.takeSample storage solar
      = ({ a with
            energy := a.energy.sample g.globals (clampInput 6000 storage) (clampInput 30000 solar)
            walkOwed := true } : Part).levelChanged g a.energy.level := by
  unfold Part.takeSample
  rw [hg]

/-! ### A second in which no test of zones and sweeps acts -/

/-- At this part of a second nothing calls for an enqueue or a sweep, as the second's counts, its zones and its sample
stand. -/
structure Part.NothingDue (g : Setup) (vs : Nat) (a : Part) : Prop where
  notDue : a.clock.secondDue = false
  boundary : ¬g.Boundary a.clock.secondOfDay
  quietEnd : g.globals.quietStart = g.globals.quietEnd ∨ a.clock.secondOfDay ≠ g.globals.quietEnd
  sweepTime : g.globals.sweepTime ≠ some a.clock.secondOfDay
  surplus : a.energy.level = .surplus ∨ vs < risingVoltage g.globals .surplus
  hold : ∀ z x since, z ∈ g.zones → a.zone? z.index = some x → x.dirtySince = some since → 0 < z.hold →
    (a.clock.mono - since).toNat ≤ z.hold ∨ (z.cls = .routine ∧ g.QuietAt a.clock.secondOfDay)

/-- The part `b` that `a` becomes by tests that leave tiles, zones and pool. -/
def Part.Leaves (a b : Part) : Prop :=
  b = { a with
    energy := b.energy, selectors := b.selectors, ports := b.ports, walkOwed := b.walkOwed
    unit := { a.unit with causes := b.unit.causes } }

theorem Part.Leaves.trans {a b c : Part} (h : a.Leaves b) (h' : b.Leaves c) : a.Leaves c := by
  unfold Part.Leaves at h h' ⊢
  conv => lhs; rw [h', h]

theorem Part.Leaves.clock {a b : Part} (h : a.Leaves b) : b.clock = a.clock := by rw [show b = _ from h]

theorem Part.Leaves.zones {a b : Part} (h : a.Leaves b) : b.zones = a.zones := by rw [show b = _ from h]

theorem Part.Leaves.pool {a b : Part} (h : a.Leaves b) : b.pool = a.pool := by rw [show b = _ from h]

/-- The STARVED reports depend on nothing that such tests change, before them or after. -/
theorem Part.StarvedReported.of_leaves {g : Setup} {a b c d : Part} (hab : a.Leaves b) (h : b.StarvedReported c g)
    (hcd : c.Leaves d) : a.StarvedReported d g := by
  have hd : ∀ slot, d.job? slot = c.job? slot := fun slot => by
    unfold Part.job?
    rw [hcd.pool]
  intro slot
  rw [show b = _ from hab] at h
  rw [hd]
  exact h slot

/-- The maximum hold test finds nothing (R30). -/
theorem Part.NothingDue.holdAt {g : Setup} {vs : Nat} {a : Part} (h : a.NothingDue g vs) {z : ZoneCfg} (hz : z ∈ g.zones) :
    a.holdAt g z = a := by
  unfold Part.holdAt
  cases hx : a.zone? z.index with
  | none => rfl
  | some x =>
    simp only [Option.bind_some]
    cases hs : x.dirtySince with
    | none => rfl
    | some since =>
      refine if_neg fun ⟨hhold, _, hage, hquiet⟩ => ?_
      rcases h.hold z x since hz hx hs hhold with hle | ⟨hcls, hat⟩
      · exact absurd hage (Nat.not_lt.2 hle)
      · refine hquiet ⟨hcls, (Part.quiet_iff a g).2 ⟨hat, fun hdue => ?_⟩⟩
        rw [h.notDue] at hdue
        cases hdue

theorem Part.NothingDue.of_leaves {g : Setup} {vs : Nat} {a b : Part} (h : a.NothingDue g vs)
    (hclock : b.clock = a.clock) (hzones : b.zones = a.zones)
    (hlevel : b.energy.level = .surplus ∨ vs < risingVoltage g.globals .surplus) : b.NothingDue g vs := by
  obtain ⟨h1, h2, h3, h4, -, h6⟩ := h
  have hzone : ∀ n, b.zone? n = a.zone? n := Part.zone?_congr hzones
  exact ⟨by rwa [hclock], by rwa [hclock], by rwa [hclock], by rwa [hclock], hlevel, by simpa only [hclock, hzone] using h6⟩

/-- A test of a second in which nothing is due, but STARVED. -/
theorem Part.NothingDue.task {g : Setup} {storage solar : Int} {a b : Part} {t : SecondTask}
    (h : a.NothingDue g (clampInput 6000 storage)) (hg : a.setup = some g) (hwalk : t ≠ .walk) (hstarved : t ≠ .starved)
    (hb : b = Part.secondTaskWith g storage solar a t) :
    a.Leaves b ∧ (b.energy.level = .surplus ∨ clampInput 6000 storage < risingVoltage g.globals .surplus)
      ∧ (a.walkOwed = true ∨ t = .sample → b.walkOwed = true) := by
  have hmade := Part.testMade g storage solar t hg
  rw [← hb] at hmade
  have hsame : t ≠ .sample → b = a → a.Leaves b
      ∧ (b.energy.level = .surplus ∨ clampInput 6000 storage < risingVoltage g.globals .surplus)
      ∧ (a.walkOwed = true ∨ t = .sample → b.walkOwed = true) := by
    rintro hne rfl
    exact ⟨rfl, h.surplus, fun ho => ho.resolve_right hne⟩
  cases t with
  | walk => exact absurd rfl hwalk
  | starved => exact absurd rfl hstarved
  | epochZones => exact hsame nofun (hmade.2 h.boundary)
  | epochSweeps => exact hsame nofun (hmade.2 fun hn => h.boundary hn.1)
  | quietEnd => exact hsame nofun (hmade.2 h.quietEnd)
  | sweepTime => exact hsame nofun (hmade.2 h.sweepTime)
  | maximumHold =>
    refine hsame nofun (hb.trans ?_)
    exact List.foldlRecOn g.zones (Part.holdAt g) (motive := fun x => x = a) rfl fun x hx z hz => by
      rw [hx]
      exact h.holdAt hz
  | epochLead =>
    obtain ⟨hframe, -⟩ := hmade
    rw [hframe]
    exact ⟨rfl, h.surplus, fun ho => ho.resolve_right nofun⟩
  | polls =>
    have hframe : b = _ := hmade
    rw [hframe]
    exact ⟨rfl, h.surplus, fun ho => ho.resolve_right nofun⟩
  | staleness =>
    obtain ⟨hframe, -⟩ := hmade
    rw [hframe]
    exact ⟨rfl, h.surplus, fun ho => ho.resolve_right nofun⟩
  | sample =>
    have hlevelChanged : b = _ := hb.trans (Part.takeSample_eq storage solar hg)
    generalize he : a.energy.sample g.globals (clampInput 6000 storage) (clampInput 30000 solar) = e at hlevelChanged
    obtain ⟨hentered, hstill⟩ := selectLevel_surplus (g := g.globals) h.surplus
    have hlevel : selectLevel g.globals a.energy.level (clampInput 6000 storage) = e.level := congrArg Energy.level he
    rw [hlevel] at hentered hstill
    unfold Part.levelChanged at hlevelChanged
    by_cases hsame : e.level = a.energy.level
    · rw [if_pos hsame] at hlevelChanged
      subst hlevelChanged
      exact ⟨rfl, hstill, fun _ => rfl⟩
    · rw [if_neg hsame, Part.latch_eq] at hlevelChanged
      have hnot : e.level ≠ .surplus := fun hs => hsame (hs.trans (hentered hs).symm)
      have hb' := hlevelChanged.trans (if_neg hnot)
      subst hb'
      exact ⟨rfl, hstill, fun _ => rfl⟩

/-- So it stays through every test, and a walk once owed is owed until it is taken. -/
theorem Part.NothingDue.stays {g : Setup} {storage solar : Int} {a b : Part} {t : SecondTask}
    (h : a.NothingDue g (clampInput 6000 storage)) (hg : a.setup = some g) (hwalk : t ≠ .walk)
    (hb : b = Part.secondTaskWith g storage solar a t) :
    b.NothingDue g (clampInput 6000 storage) ∧ (a.walkOwed = true ∨ t = .sample → b.walkOwed = true) := by
  by_cases hs : t = .starved
  · subst hs
    obtain ⟨hframe, -⟩ := Part.starvedTest_made g a
    rw [show a.starvedTest g = b from hb.symm] at hframe
    refine ⟨h.of_leaves ?_ ?_ ?_, fun ho => ?_⟩
    · rw [hframe]
    · rw [hframe]
    · rw [hframe]
      exact h.surplus
    · rw [hframe]
      exact ho.resolve_right nofun
  · obtain ⟨hleaves, hlevel, howed⟩ := h.task hg hwalk hs hb
    exact ⟨h.of_leaves hleaves.clock hleaves.zones hlevel, howed⟩

/-- A second in which nothing is due leaves tiles, zones and pool, but for the STARVED reports, and owes its walk. -/
theorem Part.secondEvent_nothingDue {g : Setup} {storage solar : Int} {a b : Part} {order : List SecondTask}
    (hg : a.setup = some g) (hwalk : .walk ∉ order) (h : a.secondCounted.NothingDue g (clampInput 6000 storage))
    (hb : b = a.secondEvent storage solar order) :
    b = { a with
        clock := b.clock, energy := b.energy, selectors := b.selectors, ports := b.ports, pool := b.pool
        walkOwed := true, unit := { a.unit with causes := b.unit.causes } }
      ∧ a.secondCounted.StarvedReported b g := by
  have hnot : ∀ t, t ∈ secondTasks order → t ≠ .walk := fun t ht e => hwalk (walk_mem_secondTasks (e ▸ ht))
  obtain ⟨x, -, hbefore, hafter, hfixed⟩ := Part.secondEvent_around hg storage solar order (k := .starved) nofun
    (R := fun x y => x.NothingDue g (clampInput 6000 storage) → y.NothingDue g (clampInput 6000 storage) ∧ x.Leaves y)
    (fun _ h => ⟨h, rfl⟩)
    (fun _ _ _ h h' hn => ⟨(h' (h hn).1).1, (h hn).2.trans (h' (h hn).1).2⟩)
    fun x t ht hs hg hn => ⟨(hn.stays hg (hnot t ht) rfl).1, (hn.task hg (hnot t ht) hs rfl).1⟩
  obtain ⟨y, -, hbefore', hafter', -⟩ := Part.secondEvent_around hg storage solar order (k := .sample) nofun
    (R := fun x y => x.NothingDue g (clampInput 6000 storage) ∧ x.setup = some g →
      (y.NothingDue g (clampInput 6000 storage) ∧ y.setup = some g) ∧ (x.walkOwed = true → y.walkOwed = true))
    (fun _ h => ⟨h, id⟩)
    (fun _ _ _ h h' hn => ⟨(h' (h hn).1).1, fun hw => (h' (h hn).1).2 ((h hn).2 hw)⟩)
    fun x t ht _ hg ⟨hn, _⟩ => by
      obtain ⟨h1, h2⟩ := hn.stays (storage := storage) (solar := solar) hg (hnot t ht) rfl
      exact ⟨⟨h1, (Part.secondTaskWith_setup ..).trans hg⟩, fun hw => h2 (.inl hw)⟩
  rw [← hb] at hafter hafter' hfixed
  obtain ⟨hnx, hleavesx⟩ := hbefore h
  have hgx : x.setup = some g := by
    rw [show x = _ from hleavesx]
    exact hg
  obtain ⟨hny, -⟩ := hnx.stays (storage := storage) (solar := solar) hgx (t := .starved) nofun rfl
  obtain ⟨-, hleavesb⟩ := hafter hny
  obtain ⟨hframe, hreported, -⟩ := Part.starvedTest_made g x
  obtain ⟨⟨hnw, hgw⟩, -⟩ := hbefore' ⟨h, hg⟩
  obtain ⟨hnv, hsampled⟩ := hnw.stays (storage := storage) (solar := solar) hgw (t := .sample) nofun rfl
  obtain ⟨-, howed⟩ := hafter' ⟨hnv, (Part.secondTaskWith_setup ..).trans hgw⟩
  refine ⟨?_, hreported.of_leaves hleavesx hleavesb⟩
  have hclock : b.clock = a.secondCounted.clock := congrArg (fun x => x.2.1) hfixed
  have hframex : x = _ := hleavesx
  have hstarved : Part.secondTaskWith g storage solar x .starved = x.starvedTest g := rfl
  rw [hstarved] at hleavesb
  generalize x.starvedTest g = y at hframe hleavesb
  have hframeb : b = _ := hleavesb
  rw [← howed (hsampled (.inr rfl)), hclock, hleavesb.pool]
  conv => lhs; rw [hframeb, hframe, hframex]
  rfl

/-- The sampled figures (R88, R90, R91, R93). -/
theorem Energy.sample_eq (g : GlobalSettings) (e : Energy) (vs vsol : Nat) :
    (e.sample g vs vsol).vs = vs ∧ (e.sample g vs vsol).vsol = vsol ∧ (e.sample g vs vsol).sampled = true
      ∧ (e.sample g vs vsol).usable = usableEnergy g vs ∧ (e.sample g vs vsol).level = selectLevel g e.level vs
      ∧ ((e.sample g vs vsol).dark, (e.sample g vs vsol).runCount)
        = if (if e.dark then decide (vsol < g.lightThreshold) else decide (g.darkThreshold ≤ vsol)) then (e.dark, 0)
          else if e.runCount + 1 = (if e.dark then 60 else 120) then (!e.dark, 0) else (e.dark, e.runCount + 1) := by
  have hlight := Energy.advanceLight_light g { e with vs := vs, vsol := vsol, sampled := true, usable := usableEnergy g vs }
  unfold Energy.sample
  simp only
  refine ⟨?_, ?_, ?_, ?_, trivial, hlight⟩
  all_goals rw [Energy.advanceLight_eq]

/-- What a second's sample leaves of the energy state (R88 to R94) and of POLICY_CHANGED. -/
theorem Part.secondEvent_energy {g : Setup} {storage solar : Int} {a b : Part} {order : List SecondTask} (hg : a.setup = some g)
    (hb : b = a.secondEvent storage solar order) :
    b.energy = a.energy.sample g.globals (clampInput 6000 storage) (clampInput 30000 solar)
      ∧ (b.energy.level = a.energy.level → b.unit.detail? .policyChanged = a.unit.detail? .policyChanged)
      ∧ (b.energy.level ≠ a.energy.level → a.unit.causes.length = 13 →
        b.unit.detail? .policyChanged = some ((a.unit.detail? .policyChanged).getD b.energy.level.code)) := by
  obtain ⟨x, hx, hbefore, hafter, -⟩ := Part.secondEvent_around hg storage solar order (k := .sample) nofun
    (R := fun x y => y.sampleView = x.sampleView) (fun _ => rfl) (fun _ _ _ h h' => h'.trans h)
    fun x t _ ht _ => Part.sampleView_task g storage solar x ht
  have hgx : x.setup = some g := (congrArg Prod.fst hx).trans hg
  obtain ⟨causes, hw, hcauses⟩ := Part.takeSample_wakes storage solar x hgx rfl
  have hview : b.sampleView = _ := (hb ▸ hafter).trans hw.sampleView
  obtain ⟨henergy, hview⟩ := Prod.mk.inj hview
  obtain ⟨hdetail, -⟩ := Prod.mk.inj hview
  obtain ⟨hxenergy, hxview⟩ := Prod.mk.inj hbefore
  obtain ⟨hxdetail, hxlength⟩ := Prod.mk.inj hxview
  have hxenergy' : x.energy = a.energy := hxenergy
  have hxdetail' : x.unit.detail? .policyChanged = a.unit.detail? .policyChanged := hxdetail
  rw [hxenergy'] at henergy hcauses
  have henergy' : b.energy = a.energy.sample g.globals (clampInput 6000 storage) (clampInput 30000 solar) := henergy
  rw [← henergy'] at hcauses
  rw [hdetail]
  refine ⟨henergy', fun hsame => ?_, fun hne h13 => ?_⟩
  · rw [if_pos hsame] at hcauses
    exact (WindowUnit.detail?_congr hcauses _).trans hxdetail'
  · rw [if_neg hne] at hcauses
    refine (WindowUnit.detail?_congr hcauses _).trans ((Part.detail_latch x .policyChanged _ (hxlength.trans h13)).trans ?_)
    rw [hxdetail', PolicyLevel.rank_eq_code]

/-- The counts and the sampled inputs of a second, with a setup or without. -/
theorem Part.secondEvent_counts {storage solar : Int} {a b : Part} {order : List SecondTask}
    (hb : b = a.secondEvent storage solar order) :
    b.secondFixed = a.secondCounted.secondFixed ∧ b.energy.vs = clampInput 6000 storage
      ∧ b.energy.vsol = clampInput 30000 solar ∧ b.energy.sampled = true := by
  cases hg : a.setup with
  | none =>
    obtain ⟨hframe, henergy⟩ := Part.foldl_secondTask_none storage solar (secondTasks order) (a := a.secondCounted) hg hb
    rw [if_pos (mem_secondTasks (by decide) order)] at henergy
    rw [henergy]
    refine ⟨?_, rfl, rfl, rfl⟩
    rw [hframe]
    rfl
  | some g =>
    obtain ⟨-, -, -, -, hall⟩ := Part.secondEvent_around hg storage solar order (k := .sample) nofun
      (R := fun _ _ => True) (fun _ => trivial) (fun _ _ _ _ _ => trivial) fun _ _ _ _ _ => trivial
    obtain ⟨henergy, -⟩ := Part.secondEvent_energy hg hb
    obtain ⟨hvs, hvsol, hsampled, -⟩ :=
      Energy.sample_eq g.globals a.energy (clampInput 6000 storage) (clampInput 30000 solar)
    rw [henergy]
    exact ⟨hb ▸ hall, hvs, hvsol, hsampled⟩

end Sys2Proof.Machine

open Sys2Proof Sys2Proof.Machine

/-- Settles O47: the tests are made once each; the sample alone works on the energy state, and in a second with nothing due
only STARVED reports change the pool. -/
theorem secondCountsAndSamples : Obligations.SecondCountsAndSamples := by
  refine ⟨fun order => ⟨fun k hk => count_secondTasks hk order, fun hn => ⟨allSecondTasks.filter fun t => !order.contains t, ?_, ?_⟩⟩, ?_⟩
  · unfold secondTasks
    rw [dedupTasks_nodup [] order hn fun _ _ _ => List.not_mem_nil]
  · exact fun h => absurd (List.mem_filter.1 h).1 (by decide)
  intro s storage solar order hs hdue
  have hexec := exec_second hs hdue storage solar order
  have hfinish := State.wakes_finish s { s with part := s.part.secondEvent storage solar order }
  have hmemory := State.finish_memory s { s with part := s.part.secondEvent storage solar order }
  have hdone : CompletesWith (.second storage solar order) s { s with part := s.part.secondEvent storage solar order } :=
    .of_exec hexec
  have hsample : .sample ∈ secondTasks order := mem_secondTasks (by decide) order
  generalize hafter : s.part.secondEvent storage solar order = after at hexec hfinish hmemory hdone
  have henergy := hfinish.energy
  have hfixed := hfinish.fixed
  have hpolicy := hfinish.detail (k := .policyChanged) nofun nofun
  generalize State.finish s { s with part := after } = t at hexec hmemory henergy hfixed hpolicy
  obtain ⟨hclock, hvs, hvsol, hsampled⟩ := Part.secondEvent_counts hafter.symm
  have htenergy : t.part.energy = after.energy := henergy
  obtain ⟨htsetup, htfixed⟩ := Prod.mk.inj (hfixed.trans hclock)
  obtain ⟨htclock, htfixed⟩ := Prod.mk.inj htfixed
  obtain ⟨htrail, htfixed⟩ := Prod.mk.inj htfixed
  obtain ⟨htrun, -⟩ := Prod.mk.inj htfixed
  have hclockEnd : t.part.clock = s.part.clock.secondEnd := htclock
  refine ⟨t, s.part.energy, min 6000 storage.toNat, min 30000 solar.toNat, after, hexec, rfl, hdone, rfl, rfl, hmemory, htsetup,
    htrail, htrun, ?_, ?_, ?_, ?_, fun hnone => ?_, fun g hg => ?_⟩
  · rw [hclockEnd]
    unfold Clock.secondEnd
    simp only [Clock.nextSecond_eq, Config.daySeconds, Nat.reduceEqDiff]
  · rw [htenergy, hvs]
    rfl
  · rw [htenergy, hvsol]
    rfl
  · rw [htenergy, hsampled]
  · obtain ⟨hframe, hsample⟩ := Part.foldl_secondTask_none storage solar (secondTasks order) (a := s.part.secondCounted) hnone
      hafter.symm
    rw [if_pos (mem_secondTasks (by decide) order)] at hsample
    refine ⟨htenergy.trans hsample, ?_⟩
    rw [hclockEnd, htenergy]
    exact hframe
  obtain ⟨henergy, hsame, hchanged⟩ := Part.secondEvent_energy hg hafter.symm
  obtain ⟨-, -, -, husable, hlevel, hlight⟩ :=
    Energy.sample_eq g.globals s.part.energy (clampInput 6000 storage) (clampInput 30000 solar)
  rw [← henergy, ← htenergy] at husable hlevel hlight
  refine ⟨?_, ?_, husable, hlight, fun l h1 h2 h3 => hlevel.trans (selectLevel_up h1 h2 h3), fun hup => ⟨fun hold => ?_,
    fun hlow l h1 h2 h3 => hlevel.trans (selectLevel_down hup hlow h1 h2 h3)⟩, ?_, ?_⟩
  · rw [hclockEnd, ← hafter]
    exact Part.passes_secondTasks storage solar (secondTasks order) (part := s.part.secondCounted) hg
  · rintro reached rfl hwalk hboundary hquiet hsweep hsurplus hhold
    have hdue : s.part.secondCounted.NothingDue g (clampInput 6000 storage) := by
      rw [hclockEnd] at hboundary hquiet hsweep hhold
      exact ⟨rfl, hboundary, hquiet, hsweep, hsurplus, hhold⟩
    obtain ⟨hframe, hreported⟩ := Part.secondEvent_nothingDue hg hwalk hdue hafter.symm
    have hclock' : after.clock = t.part.clock := (congrArg (fun x => x.2.1) hfixed).symm
    rw [htenergy, ← hclock']
    refine ⟨hframe, ?_⟩
    rw [hclock', hclockEnd]
    exact hreported
  · exact hlevel.trans (selectLevel_stay hup hold)
  · intro h
    rw [htenergy] at h
    exact hpolicy.trans (hsame h)
  · intro h h13
    rw [htenergy] at h ⊢
    exact hpolicy.trans (hchanged h h13)

end

section
/-! PROOFS of the statements about the ports' messages: drives, frames, rows, closes, rests, wakes and readings (R82, R83,
R115, R116, R125 to R133, R136, R138). -/

namespace Sys2Proof.Machine

/-! ### Windows and frames (R131, R132) -/

theorem Window.rows_eq (w : Window) : w.rows = w.y1 + 1 - w.y0 := rfl

theorem Window.insideFrame_eq_true {w : Window} {f : Nat} (hf : w.frame = some f) (h : w.slots < w.y1 + 1 - w.y0) :
    w.insideFrame = true := by
  unfold Window.insideFrame Window.rows
  rw [hf, decide_eq_true h]
  rfl

/-- The state of a panel's running job is that job's. -/
theorem Part.stage?_of_running {a : Part} {p : PanelNo} {slot : Nat} {j : Job} {r : RunFields}
    (h : a.running? p = some (slot, j, r)) : a.stage? p = some j.state := by
  unfold Part.stage?
  rw [h]
  rfl

/-- A FRAME_START changes the window's record and the job's frame index (R132). -/
theorem Part.startFrame_eq {a : Part} {c : PanelCfg} {p : PanelNo} {w : Window} {slot : Nat} {j : Job} {r : RunFields}
    (hw : (a.port p).window = some w) (hr : a.running? p = some (slot, j, r)) :
    a.startFrame c p = { a with
      pool := a.pool.set slot (some { j with running := some { r with frame := some w.nextFrame } })
      ports := a.ports.set p ((a.port p).startFrame c w) } := by
  unfold Part.startFrame
  rw [hw]
  have hr' : (a.setPort p ((a.port p).startFrame c w)).running? p = some (slot, j, r) := hr
  show (a.setPort p ((a.port p).startFrame c w)).setFrame p w.nextFrame = _
  unfold Part.setFrame
  rw [hr']
  rfl

/-! ### Rows (R131) -/

theorem Part.slotRow_ports (a : Part) (g : Setup) (c : PanelCfg) (p : PanelNo) (w : Window) :
    (a.slotRow g c p w).1.ports = a.ports := by
  unfold Part.slotRow
  split
  · dsimp only
    split
    · rfl
    · split
      · rfl
      · rw [Part.latch_eq]
        rfl
  · rfl

/-- A slot but the last of a frame leaves the row sent, and nothing else (R131). -/
theorem Part.lineSlot_inside {a : Part} {g : Setup} {c : PanelCfg} {p : PanelNo} {w : Window} (busy : Bool)
    (h : w.slots + 1 < w.rows) :
    a.lineSlot g c p w busy = { (a.slotRow g c p w).1 with
      ports := a.ports.set p
        { a.port p with
          window := some { w with slots := w.slots + 1, settled := false }
          sent := some (.row (w.y0 + w.slots) (a.slotRow g c p w).2) } } := by
  have hports := Part.slotRow_ports a g c p w
  unfold Part.lineSlot Part.setPort Part.port Port.sendRow
  dsimp only
  rw [if_neg (Nat.not_le.2 h), hports, decide_eq_false (Nat.not_le.2 h)]
  rfl

/-! ### Readings (R82, R83) -/

/-- The largest index of a list whose band satisfies a test. -/
theorem lastBand_some {f : Nat → Band → Bool} {k : Nat} {b : Band} {bs : List Band} {i : Nat} (found : Option Nat)
    (hk : bs[k]? = some b) (hf : f (i + k) b = true)
    (hafter : ∀ m b', k < m → bs[m]? = some b' → f (i + m) b' = false) : lastBand f i found bs = some (i + k) := by
  have hrest : ∀ (cs : List Band) (i : Nat) (found : Option Nat), (∀ m b', cs[m]? = some b' → f (i + m) b' = false) →
      lastBand f i found cs = found := by
    intro cs
    induction cs with
    | nil => exact fun _ _ _ => rfl
    | cons c cs ih =>
      intro i found h
      unfold lastBand
      rw [if_neg (by rw [show f i c = false from h 0 c rfl]; exact Bool.false_ne_true)]
      exact ih (i + 1) found fun m b' hm => by
        rw [show i + 1 + m = i + (m + 1) by omega]
        exact h (m + 1) b' hm
  induction bs generalizing k i found with
  | nil => cases hk
  | cons c cs ih =>
    unfold lastBand
    cases k with
    | zero =>
      obtain rfl : c = b := Option.some.inj hk
      rw [if_pos (show f i c = true from hf)]
      refine hrest cs (i + 1) _ fun m b' hm => ?_
      rw [show i + 1 + m = i + (m + 1) by omega]
      exact hafter (m + 1) b' (by omega) hm
    | succ k =>
      have e : i + (k + 1) = i + 1 + k := by omega
      rw [e] at hf ⊢
      refine ih _ hk hf fun m b' hm hb => ?_
      rw [show i + 1 + m = i + (m + 1) by omega]
      exact hafter (m + 1) b' (by omega) hb

theorem lastBand_none {f : Nat → Band → Bool} {bs : List Band} {i : Nat} (found : Option Nat)
    (h : ∀ m b, bs[m]? = some b → f (i + m) b = false) : lastBand f i found bs = found := by
  induction bs generalizing i with
  | nil => rfl
  | cons c cs ih =>
    unfold lastBand
    rw [if_neg (by rw [show f i c = false from h 0 c rfl]; exact Bool.false_ne_true)]
    exact ih fun m b' hm => by
      rw [show i + 1 + m = i + (m + 1) by omega]
      exact h (m + 1) b' hm

section
variable {g : Setup} {sel : Nat} {T : Int}

/-- The up test finds the largest band above the current one whose lower bound lies H or more below the reading (R83). -/
theorem selectBand_up {k : Nat} {b : Band} (hk : sel < k) (hb : g.bands[k]? = some b)
    (hT : b.lower + (g.globals.bandHysteresis : Int) ≤ T)
    (hafter : ∀ m b', k < m → g.bands[m]? = some b' → T < b'.lower + (g.globals.bandHysteresis : Int)) :
    selectBand g sel T = k := by
  unfold selectBand
  dsimp only
  rw [lastBand_some none hb (by simp [hk, hT]) fun m b' hm hb' => ?_]
  · simp
  · have := hafter m b' hm hb'
    simp only [Nat.zero_add, Bool.and_eq_false_iff, decide_eq_false_iff_not]
    exact .inr (by omega)

theorem selectBand_noneUp
    (hno : ∀ m b', sel < m → g.bands[m]? = some b' → T < b'.lower + (g.globals.bandHysteresis : Int)) :
    selectBand g sel T = if T < (g.band sel).lower - (g.globals.bandHysteresis : Int) then
      (lastBand (fun j b => decide (j < sel) && decide (b.lower - (g.globals.bandHysteresis : Int) ≤ T)) 0 none g.bands).getD sel
      else sel := by
  unfold selectBand
  dsimp only
  rw [lastBand_none none fun m b' hb' => ?_]
  simp only [Nat.zero_add, Bool.and_eq_false_iff, decide_eq_false_iff_not]
  by_cases hm : sel < m
  · have := hno m b' hm hb'
    exact .inr (by omega)
  · exact .inl hm

/-- The down test finds the largest band below the current one whose lower bound lies at most H above the reading (R83). -/
theorem selectBand_down
    (hno : ∀ m b', sel < m → g.bands[m]? = some b' → T < b'.lower + (g.globals.bandHysteresis : Int))
    (hlow : T < (g.band sel).lower - (g.globals.bandHysteresis : Int)) {k : Nat} {b : Band} (hk : k < sel)
    (hb : g.bands[k]? = some b) (hT : b.lower - (g.globals.bandHysteresis : Int) ≤ T)
    (hbetween : ∀ m b', k < m → m < sel → g.bands[m]? = some b' → T < b'.lower - (g.globals.bandHysteresis : Int)) :
    selectBand g sel T = k := by
  rw [selectBand_noneUp hno, if_pos hlow, lastBand_some none hb (by simp [hk, hT]) fun m b' hm hb' => ?_]
  · simp
  · simp only [Nat.zero_add, Bool.and_eq_false_iff, decide_eq_false_iff_not]
    by_cases hs : m < sel
    · have := hbetween m b' hm hs hb'
      exact .inr (by omega)
    · exact .inl hs

end

/-! ### BUSY negated (R125) -/

theorem Port.limitKind?_some {x : Port} {l : Limit} (h : x.limit = some l) : x.limitKind? = some l.kind := by
  unfold Port.limitKind?
  rw [h]
  rfl

section
variable {a : Part} {p : PanelNo}

theorem Part.busyNegated_wake (h : (a.port p).limitKind? = some .wakeBusy) :
    a.busyNegated p
      = { a with
          ports := a.ports.set p { a.port p with busy := false, limit := some ⟨.identReply, 20000⟩ } } := by
  unfold Part.busyNegated
  rw [h]
  rfl

theorem Part.busyNegated_close (h : (a.port p).limitKind? = some .closeBusy) : a.busyNegated p = a.closeEnds p := by
  unfold Part.busyNegated
  rw [h]

theorem Part.busyNegated_frame {w : Window} (h : (a.port p).limitKind? = some .frameBusy) (hw : (a.port p).window = some w) :
    a.busyNegated p = { a with
      ports := a.ports.set p
        (if w.insideFrame then { a.port p with busy := false }
          else { a.port p with window := some { w with settled := true }, limit := none, busy := false }) } := by
  unfold Part.busyNegated
  rw [h]
  conv => lhs; rw [hw]
  rfl

theorem Part.busyNegated_noted (h : (a.port p).limitKind? = some .identReply ∨ (a.port p).limitKind? = none) :
    a.busyNegated p = { a with ports := a.ports.set p { a.port p with busy := false } } := by
  unfold Part.busyNegated
  rcases h with h | h <;> rw [h] <;> rfl

/-- A close that an accepted APPLY has carried over ends in REST (R138). -/
theorem Part.closeEnds_over (h : (a.port p).closingOver = true) :
    a.closeEnds p = { a with
      ports := a.ports.set p
        { a.port p with
          state := if (a.setup.bind fun g => g.panels.get p).isSome then .off else .unused
          busy := false, limit := none, closingOver := false
          lastRest := some ⟨a.clock.mono, a.clock.tick⟩
          sent := some .rest }
      walkOwed := true } := by
  have hcfg : a.panelCfg? p = a.setup.bind fun g => g.panels.get p := by
    unfold Part.panelCfg?
    cases a.setup <;> rfl
  unfold Part.closeEnds
  rw [h, if_pos rfl, hcfg]
  rfl

/-- Any other close ends in READY, and the port may rest (R129, R133). -/
theorem Part.closeEnds_ready (h : (a.port p).closingOver = false) :
    a.closeEnds p = { a with
      ports := a.ports.set p (a.rested p { a.port p with state := .ready, busy := false, limit := none })
      walkOwed := true } := by
  unfold Part.closeEnds
  rw [h, if_neg Bool.false_ne_true, Part.changePort_restAtOnce]
  have hport : { a.port p with state := .ready, busy := false, limit := none, closingOver := false }
      = { a.port p with state := .ready, busy := false, limit := none } := by rw [← h]
  exact congrArg (fun x => a.changePort p (a.rested p x)) hport

end

/-- An awaited TEMP reply (R82, R128, R129, R136). -/
theorem Part.tempArrives_eq {a : Part} {g : Setup} {c : PanelCfg} {p : PanelNo} {sel : Selector} {degrees : Int}
    (hg : a.setup = some g) (hc : g.panels.get p = some c) (hsel : a.selector? p = some sel) :
    a.tempArrives g p degrees = { a with
      ports := a.ports.set p (a.rested p { a.port p with tempOutstanding := false, attempts := 0 })
      walkOwed := a.walkOwed
        || (decide (c.restDelay = 0 ∧ (a.port p).state = .ready ∧ (a.port p).queryDue = false) && (a.running? p).isNone)
      selectors := a.selectors.set p (some
        { band := selectBand g sel.band (clampReading degrees), reading := some (clampReading degrees)
          reference := a.clock.mono, staleSteps := 0, stale := false, pollDue := false }) } := by
  have hcfg : a.panelCfg? p = some c := by
    unfold Part.panelCfg?
    rw [hg]
    exact hc
  generalize hread : ({ a with
    selectors := a.selectors.set p (some
      { band := selectBand g sel.band (clampReading degrees), reading := some (clampReading degrees)
        reference := a.clock.mono, staleSteps := 0, stale := false, pollDue := false }) } : Part) = b
  have htaken : a.tempArrives g p degrees
      = (b.setPort p { a.port p with tempOutstanding := false, attempts := 0 }).restAtOnce p := by
    unfold Part.tempArrives Part.takeReading
    rw [show (a.setPort p { a.port p with tempOutstanding := false, attempts := 0 }).selector? p = some sel from hsel, ← hread]
    rfl
  have hcfgb : b.panelCfg? p = some c := by
    rw [← hread]
    exact hcfg
  rw [htaken, Part.setPort_restAtOnce hcfgb, ← hread]
  have hidle : (decide (c.restDelay = 0) && ({ a.port p with tempOutstanding := false, attempts := 0 } : Port).idle)
      = decide (c.restDelay = 0 ∧ (a.port p).state = .ready ∧ (a.port p).queryDue = false) := by
    rw [Bool.eq_iff_iff, Bool.and_eq_true, Port.idle_iff, decide_eq_true_eq, decide_eq_true_eq]
    exact ⟨fun ⟨h1, h2, h3, _⟩ => ⟨h1, h2, h3⟩, fun ⟨h1, h2, h3⟩ => ⟨h1, h2, h3, rfl⟩⟩
  rw [hidle]
  rfl

end Sys2Proof.Machine

open Sys2Proof Sys2Proof.Machine

/-- Settles O52: the two events by the port's and the job's state. -/
theorem driveAndFramesStart : Obligations.DriveAndFramesStart := by
  intro s g c p slot j r hs hg hc hr
  have hstage := Part.stage?_of_running hr
  refine ⟨fun hj hrail hready hquery => ?_, fun w k hj hdriving hw hsettled hending hframe hk => ?_⟩
  · refine .of_partEvent (en := s.part.canDrive p) (f := fun x => x.withPanel p fun g _ => x.startDrive g p) hs.1 rfl ?_ ?_
    · unfold Part.canDrive
      rw [hrail, hready, hquery, hstage, hj]
      rfl
    · dsimp only
      rw [Part.withPanel_eq hg hc, Part.startDrive_eq hr hc]
  · have hnext : w.nextFrame = k ∧ w.insideFrame = false := by
      unfold Window.nextFrame
      rcases hframe with ⟨hf, rfl⟩ | ⟨f, hf, rfl, hslots⟩
      · rw [hf]
        exact ⟨rfl, Window.insideFrame_eq_false (.inl hf)⟩
      · rw [hf]
        exact ⟨rfl, Window.insideFrame_eq_false (.inr hslots)⟩
    obtain ⟨rfl, hinside⟩ := hnext
    refine .of_partEvent (en := s.part.mayStartFrame p) (f := fun x => x.withPanel p fun _ c => x.startFrame c p) hs.1 rfl ?_ ?_
    · unfold Part.mayStartFrame Window.mayStartFrame
      simp only [hdriving, hstage, hj, hw, hinside, hsettled, hending, hk]
      rfl
    · dsimp only
      rw [Part.withPanel_eq hg hc, Part.startFrame_eq hw hr]
      rfl

/-- Settles O53: what the row leaves, with the port's record of it. -/
theorem lineSlotSendsRow : Obligations.LineSlotSendsRow := by
  intro s g c p busy w f slot j r e hs hg hc hr hj he hw hf hslots
  obtain ⟨e', hsent, -⟩ := Part.rowSent (g := g) (c := c) (w := w) hr hj he
  refine ⟨_, e', _, hsent, ?_⟩
  have hdue : s.part.slotDue? p = some w := by
    unfold Part.slotDue?
    rw [hw]
    exact if_pos (Window.insideFrame_eq_true hf (by omega))
  refine .of_partEvent (en := true) (f := fun x => x.withPanel p fun g c => x.lineSlot g c p w busy) hs.1 ?_ rfl ?_
  · show execLineSlot p busy s = _
    unfold execLineSlot
    rw [hdue]
  · dsimp only
    rw [Part.withPanel_eq hg hc, Part.lineSlot_inside busy hslots]

/-- Settles O55: each event by the limit that runs and the port's state, with the rest that may follow at once. -/
theorem portsCloseAndRest : Obligations.PortsCloseAndRest := by
  intro s p busy x hs hx
  subst hx
  have hnegated : CompletesWith (.busyNegated p) s { s with part := s.part.busyNegated p } :=
    .of_partEvent (en := true) (f := fun x => x.busyNegated p) hs.1 rfl rfl rfl
  refine ⟨fun g c w hg hc hw hframe hsettled hjob => ?_, fun l hl => ⟨fun hk => ?_, fun hk hover => ?_, fun hk hover => ?_,
    fun w hk hw hframe => ?_⟩, fun h => ?_, fun g c hg hc hready hrun hquery htemp => ?_⟩
  · have hstage : s.part.stage? p ≠ some .driving := by
      unfold Part.stage?
      cases hr : s.part.running? p with
      | none => exact nofun
      | some x =>
        obtain ⟨slot, j, r⟩ := x
        exact fun h => hjob slot j r hr (Option.some.inj h)
    have hmay : s.part.mayClose p = true := by
      unfold Part.mayClose
      simp [hstage, hw, Window.insideFrame_eq_false hframe, hsettled]
    have hexec : ∀ u : Part, s.part.close c p busy = u → CompletesWith (.close p busy) s { s with part := u } := fun u hu =>
      .of_partEvent (f := fun x => x.withPanel p fun _ c => x.close c p busy) hs.1 rfl hmay
        (congrArg (fun u : Part => ({ s with part := u } : State)) ((Part.withPanel_eq hg hc _).trans hu))
    refine ⟨fun hstate => hexec _ ?_, fun hstate => hexec _ ?_⟩
    · unfold Part.close
      rw [if_neg hstate, Part.changePort_restAtOnce]
      rfl
    · unfold Part.close
      rw [if_pos hstate]
      unfold Port.closeInFault Port.startRetry
      cases hh : (s.part.port p).held <;> rfl
  · rw [← Part.busyNegated_wake ((Port.limitKind?_some hl).trans (congrArg some hk))]
    exact hnegated
  · rw [← Part.closeEnds_ready hover, ← Part.busyNegated_close ((Port.limitKind?_some hl).trans (congrArg some hk))]
    exact hnegated
  · rw [← Part.closeEnds_over hover, ← Part.busyNegated_close ((Port.limitKind?_some hl).trans (congrArg some hk))]
    exact hnegated
  · have h := Part.busyNegated_frame ((Port.limitKind?_some hl).trans (congrArg some hk)) hw
    rw [if_neg (by rw [Window.insideFrame_eq_false hframe]; exact Bool.false_ne_true)] at h
    rw [← h]
    exact hnegated
  · have h' : s.part.busyNegated p = { s.part with ports := s.part.ports.set p { s.part.port p with busy := false } } := by
      rcases h with h | ⟨l, hl, hk⟩ | ⟨l, w, f, hl, hk, hw, hf, hslots⟩
      · exact Part.busyNegated_noted (.inr (by unfold Port.limitKind?; rw [h]; rfl))
      · exact Part.busyNegated_noted (.inl ((Port.limitKind?_some hl).trans (congrArg some hk)))
      · rw [Part.busyNegated_frame ((Port.limitKind?_some hl).trans (congrArg some hk)) hw,
          if_pos (Window.insideFrame_eq_true hf hslots)]
    rw [← h']
    exact hnegated
  · refine .of_partEvent (en := s.part.restDelayRuns p) (f := fun x => x.changePort p ((x.port p).rest x.now)) hs.1 rfl ?_ rfl
    unfold Part.restDelayRuns
    rw [hrun, (Port.idle_iff _).2 ⟨hready, hquery, htemp⟩]
    rfl

/-- Settles O56: each command by the port's state. -/
theorem portsWake : Obligations.PortsWake := by
  intro s g c p busy x woken hs hg hc hx hwoken
  subst hx
  have hwake : ∀ y : Port, woken y = y.wake busy := hwoken
  refine ⟨fun h => ?_, fun hfault hretry => ⟨fun holdPassed hhold => ?_, fun hrest hhold => ?_⟩, fun hwaking => ?_,
    fun hready hquery => ?_⟩
  · rw [hwake]
    refine .of_partEvent (en := (s.part.port p).wakeDue)
      (f := fun x => x.withPanel p fun _ _ => x.changePort p ((x.port p).wake busy)) hs.1 rfl ?_ ?_
    · unfold Port.wakeDue
      rcases h with ⟨h1, h2⟩ | ⟨h1, h2⟩ <;> simp [h1, h2]
    · dsimp only
      rw [Part.withPanel_eq hg hc]
      rfl
  · rw [hwake]
    refine .of_partEvent (en := (s.part.port p).state == .fault && (s.part.port p).retry.isSome)
      (f := fun x => x.withPanel p fun _ c => x.retryExpires c p holdPassed busy) hs.1 rfl ?_ ?_
    · rw [hfault, hretry]
      rfl
    · dsimp only
      rw [Part.withPanel_eq hg hc]
      exact congrArg (fun u : Part => ({ s with part := u } : State)) (if_pos ((Port.restHoldOver_iff ..).2 hhold))
  · refine .of_partEvent (en := (s.part.port p).state == .fault && (s.part.port p).retry.isSome)
      (f := fun x => x.withPanel p fun _ c => x.retryExpires c p false busy) hs.1 rfl ?_ ?_
    · rw [hfault, hretry]
      rfl
    · dsimp only
      rw [Part.withPanel_eq hg hc]
      refine congrArg (fun u : Part => ({ s with part := u } : State)) (if_neg fun h => ?_)
      rcases (Port.restHoldOver_iff ..).1 h with h | h | h
      · exact Bool.false_ne_true h
      · rw [show (s.part.port p).lastRest = none from h] at hrest
        exact Bool.false_ne_true hrest
      · exact hhold h
  · refine .of_partEvent (en := (s.part.port p).state == .waking)
      (f := fun x => x.withPanel p fun g d => x.identArrives g d p c.width c.height) hs.1 rfl ?_ ?_
    · rw [hwaking]
      rfl
    · dsimp only
      rw [Part.withPanel_eq hg hc]
      exact congrArg (fun u : Part => ({ s with part := u } : State)) (if_pos ⟨rfl, rfl⟩)
  · refine .of_partEvent (en := (s.part.port p).state == .ready && (s.part.port p).queryDue)
      (f := fun x => x.setPort p (x.port p).query) hs.1 rfl ?_ rfl
    rw [hready, hquery]
    rfl

/-- Settles O57: the port's record and the reading, then the rest that may follow; the band by the two tests of R83. -/
theorem tempTakesReading : Obligations.TempTakesReading := by
  intro s g c p degrees T H sel cur hs hg hc hsel hout hcur hT hH
  subst hH
  have hband : g.band sel.band = cur := by
    unfold Setup.band
    rw [List.getD_eq_getElem?_getD, hcur]
    rfl
  have hT' : clampReading degrees = T := hT.symm
  refine ⟨selectBand g sel.band T, ?_, fun k b hk hb hle hafter => selectBand_up hk hb hle hafter, fun hno => ⟨fun hle => ?_,
    fun hlow k b hk hb hle hbetween => selectBand_down hno (by rw [hband]; exact hlow) hk hb hle hbetween⟩⟩
  · refine .of_partEvent (en := (s.part.port p).tempOutstanding)
      (f := fun x => x.withPanel p fun g _ => x.tempArrives g p degrees) hs.1 rfl hout ?_
    dsimp only
    rw [Part.withPanel_eq hg hc, Part.tempArrives_eq hg hc hsel, hT', hs.2, Bool.false_or]
  · rw [selectBand_noneUp hno, hband, if_neg (by omega)]

end

section
/-! PROOFS of the statements about the rail (R139 to R142). -/

namespace Sys2Proof.Machine

theorem Part.withSetup_eq {a : Part} {g : Setup} (hg : a.setup = some g) (f : Setup → Part) : a.withSetup f = f g := by
  unfold Part.withSetup
  rw [hg]

/-- A rail event under an installed setup. -/
theorem CompletesWith.of_railEvent {o : Instr} {s : State} {g : Setup} {en : Bool} {f : Part → Setup → Part} {b : Part}
    (hs : s.path.inReset = false) (hg : s.part.setup = some g)
    (hexec : exec o s = s.partEvent en fun x => x.withSetup fun g => f x g) (hen : en = true) (hb : f s.part g = b) :
    CompletesWith o s { s with part := b } :=
  .of_partEvent hs hexec hen
    (congrArg (fun u : Part => ({ s with part := u } : State)) ((Part.withSetup_eq hg fun g => f s.part g).trans hb))

/-- The end of the discharge or of the rail retry (R140 to R142). -/
theorem Part.railOff_eq (a : Part) (g : Setup) (elapsed : Nat) :
    a.railOff g elapsed = { a with
      rail := if a.railDemanded = true ∧ a.rail.minimumOff ≤ elapsed
        then { a.rail with state := .rising, timer := some g.globals.riseLimit }
        else { a.rail with state := .off, timer := none }
      walkOwed := true } := by
  unfold Part.railOff
  dsimp only
  by_cases h : a.railDemanded = true ∧ a.rail.minimumOff ≤ elapsed
  · rw [if_pos h]
    exact if_pos h
  · rw [if_neg h]
    exact if_neg h

/-! ### The drives that start as the rail comes up (R130, R140) -/

/-- A POISED job of panel `p` starts its drive as the rail comes UP. -/
def Part.StartsDrive (a : Part) (g : Setup) (p : PanelNo) (slot : Nat) (j : Job) (r : RunFields) (c : PanelCfg) : Prop :=
  a.running? p = some (slot, j, r) ∧ j.state = .poised ∧ g.panels.get p = some c ∧ (a.port p).state = .ready
    ∧ (a.port p).queryDue = false

/-- The part `b` that the drives of the panels of a list leave of `a`. -/
structure Part.Driven (g : Setup) (a : Part) (done : List PanelNo) (b : Part) : Prop where
  frame : b = { a with pool := b.pool, ports := b.ports }
  length : b.pool.length = a.pool.length
  started : ∀ p slot j r c, p ∈ done → a.StartsDrive g p slot j r c →
    b.port p = (a.port p).opened g c j r ∧ b.job? slot = some { j with state := .driving }
  port : ∀ p, (p ∈ done → ∀ slot j r c, ¬a.StartsDrive g p slot j r c) → b.port p = a.port p
  running : ∀ p, p ∉ done → b.running? p = a.running? p
  job : ∀ k, (∀ p j r c, p ∈ done → ¬a.StartsDrive g p k j r c) → b.job? k = a.job? k

theorem Part.Driven.refl (g : Setup) (a : Part) : Part.Driven g a [] a :=
  ⟨rfl, rfl, fun _ _ _ _ _ h => absurd h List.not_mem_nil, fun _ _ => rfl, fun _ _ => rfl, fun _ _ => rfl⟩

/-- No drive starts at a panel with no POISED job whose port is ready. -/
theorem Part.driveIfReady_none {a : Part} {g : Setup} {p : PanelNo} (h : ∀ slot j r c, ¬a.StartsDrive g p slot j r c) :
    a.driveIfReady g p = a := by
  unfold Part.driveIfReady
  split
  · next hcan =>
    unfold Part.canDrive at hcan
    simp only [Bool.and_eq_true, beq_iff_eq, Bool.not_eq_true'] at hcan
    obtain ⟨⟨⟨-, hready⟩, hquery⟩, hstage⟩ := hcan
    unfold Part.startDrive
    cases hr : a.running? p with
    | none => rfl
    | some x =>
      obtain ⟨slot, j, r⟩ := x
      rw [Part.stage?_of_running hr] at hstage
      cases hc : g.panels.get p with
      | none => rfl
      | some c => exact absurd ⟨hr, Option.some.inj hstage, hc, hready, hquery⟩ (h slot j r c)
  · rfl

theorem Part.Driven.step {g : Setup} {a b : Part} {done : List PanelNo} (h : Part.Driven g a done b) {q : PanelNo}
    (hq : q ∉ done) (hup : a.rail.state = .up) (howed : a.walkOwed = true) :
    Part.Driven g a (q :: done) (b.driveIfReady g q) := by
  have hport : b.port q = a.port q := h.port q fun hm => absurd hm hq
  have hrail : b.rail = a.rail := by rw [h.frame]
  have hsame : ∀ slot j r c, b.StartsDrive g q slot j r c ↔ a.StartsDrive g q slot j r c := fun slot j r c => by
    unfold Part.StartsDrive
    rw [h.running q hq, hport]
  by_cases hno : ∀ slot j r c, ¬a.StartsDrive g q slot j r c
  · rw [Part.driveIfReady_none fun slot j r c hs => hno slot j r c ((hsame ..).1 hs)]
    refine ⟨h.frame, h.length, fun p slot j r c hp hs => ?_, fun p hp => ?_,
      fun p hp => h.running p (fun hm => hp (List.mem_cons_of_mem _ hm)),
      fun k hk => h.job k fun p j r c hp => hk p j r c (List.mem_cons_of_mem _ hp)⟩
    · rcases List.mem_cons.1 hp with rfl | hp
      · exact absurd hs (hno slot j r c)
      · exact h.started p slot j r c hp hs
    · exact h.port p fun hm => hp (List.mem_cons_of_mem _ hm)
  · obtain ⟨slot, j, r, c, hs⟩ : ∃ slot j r c, a.StartsDrive g q slot j r c := by
      exact Classical.byContradiction fun hn => hno fun slot j r c hs => hn ⟨slot, j, r, c, hs⟩
    obtain ⟨hr, hj, hc, hready, hquery⟩ := id hs
    obtain ⟨hjob, -, hpanel, -⟩ := Part.running?_some ((h.running q hq).trans hr)
    have hstep := Part.driveIfReady_eq (starts := true) ((h.running q hq).trans hr) hj hc
      ⟨fun _ => ⟨by rw [hrail]; exact hup, by rw [hport]; exact hready, by rw [hport]; exact hquery⟩, fun _ => rfl⟩
    rw [if_pos rfl, hport] at hstep
    have hother : ∀ p slot' j' r' c', p ≠ q → a.StartsDrive g p slot' j' r' c' → slot' ≠ slot := by
      rintro p slot' j' r' c' hp ⟨hr', -⟩ rfl
      obtain ⟨hjob₁, -, hpanel₁, -⟩ := Part.running?_some hr
      obtain ⟨hjob₂, -, hpanel₂, -⟩ := Part.running?_some hr'
      obtain rfl := Option.some.inj (hjob₁.symm.trans hjob₂)
      exact hp (hpanel₂.symm.trans hpanel₁)
    rw [hstep]
    refine ⟨?_, ?_, fun p slot' j' r' c' hp hs' => ?_, fun p hp => ?_, fun p hp => ?_, fun k hk => ?_⟩
    · conv => lhs; rw [h.frame]
      rw [howed]
    · rw [List.length_set]
      exact h.length
    · by_cases hpq : p = q
      · subst hpq
        obtain ⟨hr', -, hc', -⟩ := hs'
        cases (hr.symm.trans hr')
        cases (hc.symm.trans hc')
        exact ⟨Quad.get_set_self .., Part.job?_setJob_self hjob _⟩
      · obtain ⟨h1, h2⟩ := h.started p slot' j' r' c' ((List.mem_cons.1 hp).resolve_left hpq) hs'
        exact ⟨(Quad.get_set_ne _ _ hpq).trans h1,
          (Part.job?_setJob_ne (a := b) (Ne.symm (hother p slot' j' r' c' hpq hs')) _).trans h2⟩
    · have hpq : p ≠ q := by
        rintro rfl
        exact hp List.mem_cons_self slot j r c hs
      exact (Quad.get_set_ne _ _ hpq).trans (h.port p fun hm => hp (List.mem_cons_of_mem _ hm))
    · have hpq : q ≠ p := fun e => hp (e ▸ List.mem_cons_self)
      refine (Part.running?_set (a := b) rfl (fun j' hj' => .inr ?_) fun j' hj' => .inr ?_).trans
        (h.running p fun hm => hp (List.mem_cons_of_mem _ hm))
      · rw [← Option.some.inj (hjob.symm.trans hj'), hpanel]
        exact hpq
      · rw [← Option.some.inj hj']
        exact fun e => hpq (hpanel.symm.trans e)
    · have hk' : slot ≠ k := by
        rintro rfl
        exact hk q j r c List.mem_cons_self hs
      exact (Part.job?_setJob_ne (a := b) hk' _).trans
        (h.job k fun p j r c hp => hk p j r c (List.mem_cons_of_mem _ hp))

theorem Part.Driven.foldl {g : Setup} {a : Part} (hup : a.rail.state = .up) (howed : a.walkOwed = true) :
    ∀ (ps done : List PanelNo) (b : Part), Part.Driven g a done b → ps.Nodup → (∀ p ∈ ps, p ∉ done) →
      ∃ all, (∀ p, p ∈ all ↔ p ∈ ps ∨ p ∈ done) ∧ Part.Driven g a all (ps.foldl (fun x p => x.driveIfReady g p) b) := by
  intro ps
  induction ps with
  | nil => exact fun done b h _ _ => ⟨done, by simp, h⟩
  | cons p ps ih =>
    intro done b h hn hdone
    obtain ⟨hp, hps⟩ := List.nodup_cons.1 hn
    obtain ⟨all, hall, hdriven⟩ := ih (p :: done) _ (h.step (hdone p List.mem_cons_self) hup howed) hps fun q hq hm =>
      (List.mem_cons.1 hm).elim (fun e => hp (e ▸ hq)) (hdone q (List.mem_cons_of_mem _ hq))
    refine ⟨all, fun q => ?_, hdriven⟩
    rw [hall, List.mem_cons, List.mem_cons, or_assoc, or_left_comm]

/-- Rail-good asserted with demand (R140): UP, and the drives that start. -/
theorem Part.railGood_demanded {a : Part} (g : Setup) (h : a.railDemanded = true) :
    ∃ all, (∀ p, p ∈ all)
      ∧ Part.Driven g { a with rail := { a.rail with state := .up, timer := none }, walkOwed := true } all (a.railGood g) := by
  obtain ⟨all, hall, hdriven⟩ := Part.Driven.foldl (g := g)
    (a := { a with rail := { a.rail with state := .up, timer := none }, walkOwed := true }) rfl rfl panelNos [] _
    (Part.Driven.refl ..) (by decide) fun _ _ => List.not_mem_nil
  refine ⟨all, fun p => (hall p).2 (.inl (mem_panelNos p)), ?_⟩
  have hkeeps : (a.changeRail { a.rail with state := .up, timer := none }).releaseRail g
      = { a with rail := { a.rail with state := .up, timer := none }, walkOwed := true } :=
    if_neg fun hn => Bool.false_ne_true (hn.2.symm.trans h)
  unfold Part.railGood
  rw [hkeeps]
  exact hdriven

/-- Rail-good asserted with no demand (R140, R141): LINGER, or with a linger time of 0 FALLING. -/
theorem Part.railGood_idle {a : Part} (g : Setup) (h : a.railDemanded = false) :
    a.railGood g = { a with
      rail := if g.globals.lingerTime = 0
        then { state := .falling, timer := some 50, lastNegation := some ⟨a.clock.mono, a.clock.tick⟩
               minimumOff := g.globals.minimumOff }
        else { a.rail with state := .linger, timer := some g.globals.lingerTime }
      walkOwed := true } := by
  have hreleases : (a.changeRail { a.rail with state := .up, timer := none }).releaseRail g = { a with
      rail := if g.globals.lingerTime = 0
        then { state := .falling, timer := some 50, lastNegation := some ⟨a.clock.mono, a.clock.tick⟩
               minimumOff := g.globals.minimumOff }
        else { a.rail with state := .linger, timer := some g.globals.lingerTime }
      walkOwed := true } := by
    unfold Part.releaseRail
    rw [if_pos ⟨rfl, h⟩]
    split <;> rfl
  unfold Part.railGood
  rw [hreleases]
  refine List.foldlRecOn panelNos (fun (x : Part) p => x.driveIfReady g p) (motive := fun x => x = _) rfl fun x hx p _ => ?_
  rw [hx]
  unfold Part.driveIfReady
  refine if_neg fun hcan => ?_
  unfold Part.canDrive at hcan
  simp only [Bool.and_eq_true, beq_iff_eq] at hcan
  obtain ⟨⟨⟨hup, -⟩, -⟩, -⟩ := hcan
  split at hup <;> cases hup

/-! ### Rail faults (R142) -/

/-- A rail fault changes the rail and the causes, and causes a walk. -/
theorem Part.faultRail_eq (a : Part) (g : Setup) (detail : Nat) :
    a.faultRail g detail = { a with
        rail := { state := .fault, timer := some (1000 * g.globals.railRetryInterval)
                  lastNegation := some ⟨a.clock.mono, a.clock.tick⟩, minimumOff := g.globals.minimumOff }
        walkOwed := true, unit := { a.unit with causes := (a.faultRail g detail).unit.causes } }
      ∧ a.Latched (a.faultRail g detail) .railFault detail := by
  refine ⟨?_, (Part.latched_latch (a.changeRail _) .railFault detail)⟩
  conv => lhs; unfold Part.faultRail; rw [Part.latch_eq]
  rfl

theorem Part.drivenWindow?_none {a : Part} {p : PanelNo} (h : (a.port p).state ≠ .driving) : a.drivenWindow? p = none :=
  if_neg fun hd => h hd.1

theorem Part.drivenWindow?_eq {a : Part} {p : PanelNo} {slot : Nat} {j : Job} {r : RunFields}
    (h : (a.port p).state = .driving) (hr : a.running? p = some (slot, j, r)) (hj : j.state = .driving) :
    a.drivenWindow? p = (a.port p).window :=
  if_pos ⟨h, (Part.stage?_of_running hr).trans (congrArg some hj)⟩

theorem Part.loseRailAt_none {a : Part} {p : PanelNo} (h : (a.port p).state ≠ .driving) : a.loseRailAt p = a := by
  unfold Part.loseRailAt
  rw [Part.drivenWindow?_none h]

theorem Part.betweenFrames?_none {a : Part} {p : PanelNo} (h : (a.port p).state ≠ .driving) : a.betweenFrames? p = none := by
  unfold Part.betweenFrames?
  rw [Part.drivenWindow?_none h]

theorem Part.betweenFrames?_inside {a : Part} {p : PanelNo} {w : Window} (hw : a.drivenWindow? p = some w)
    (hinside : w.insideFrame = true) : a.betweenFrames? p = none := by
  unfold Part.betweenFrames?
  rw [hw]
  exact if_pos hinside

theorem Part.betweenFrames?_between {a : Part} {p : PanelNo} {w : Window} (hw : a.drivenWindow? p = some w)
    (hbetween : w.insideFrame = false) : a.betweenFrames? p = a.running? p := by
  unfold Part.betweenFrames?
  rw [hw]
  exact if_neg (by rw [hbetween]; exact Bool.false_ne_true)

theorem Part.loseRailAt_inside {a : Part} {p : PanelNo} {w : Window} (hw : a.drivenWindow? p = some w)
    (hinside : w.insideFrame = true) : a.loseRailAt p = a.endFrameEarly p w := by
  unfold Part.loseRailAt
  rw [hw]
  exact if_pos hinside

theorem Part.loseRailAt_between {a : Part} {p : PanelNo} {w : Window} (hw : a.drivenWindow? p = some w)
    (hbetween : w.insideFrame = false) : a.loseRailAt p = a := by
  unfold Part.loseRailAt
  rw [hw]
  exact if_neg (by rw [hbetween]; exact Bool.false_ne_true)

/-- A search of the panels that one of them alone answers. -/
theorem filterMap_panelNos {α : Type} {f : PanelNo → Option α} {p : PanelNo} (h : ∀ q, q ≠ p → f q = none) :
    panelNos.filterMap f = (f p).toList := by
  have hnone : ∀ l : List PanelNo, p ∉ l → l.filterMap f = [] := fun l hl =>
    List.filterMap_eq_nil_iff.2 fun q hq => h q fun e => hl (e ▸ hq)
  have hall : ∀ l : List PanelNo, l.Nodup → p ∈ l → l.filterMap f = (f p).toList := by
    intro l
    induction l with
    | nil => exact fun _ hp => absurd hp List.not_mem_nil
    | cons q qs ih =>
      intro hn hp
      obtain ⟨hq, hqs⟩ := List.nodup_cons.1 hn
      by_cases e : q = p
      · subst e
        rw [List.filterMap_cons, hnone qs hq]
        cases f q <;> rfl
      · rw [List.filterMap_cons, h q e]
        exact ih hqs ((List.mem_cons.1 hp).resolve_left (Ne.symm e))
  exact hall panelNos (by decide) (mem_panelNos p)

theorem Part.port_loseRailAt_ne (a : Part) {p q : PanelNo} (h : q ≠ p) : (a.loseRailAt p).port q = a.port q := by
  unfold Part.loseRailAt
  split
  · split
    · unfold Part.endFrameEarly Part.stopFeed
      split <;> exact Quad.get_set_ne _ _ h
    · rfl
  · rfl

/-- The early end of a frame (R117): the port's window is being ended, and the engine is told. -/
theorem Part.endFrameEarly_eq {a : Part} {p : PanelNo} {w : Window} {e : Engine} (he : a.engine? p = some e) :
    a.endFrameEarly p w = { a with
      ports := a.ports.set p { a.port p with window := some { w with ending := true } }
      engines := a.engines.set p
        (some { e with feedStopped := true, request := if e.inFlight then none else e.request }) } := by
  unfold Part.endFrameEarly
  rw [Part.stopFeed_eq (part := a.setPort p _) (e := e) he]
  rfl

/-- A loss of rail-good (R142) at a part whose ports but one are not DRIVING. -/
theorem Part.railLost_eq {a : Part} {g : Setup} {p : PanelNo} (h : ∀ q, q ≠ p → (a.port q).state ≠ .driving) :
    a.railLost g = ((a.faultRail g 2).loseRailAt p).abortJobs g (a.betweenFrames? p).toList := by
  have hports : (a.faultRail g 2).ports = a.ports := by rw [(Part.faultRail_eq a g 2).1]
  have hport : ∀ q, (a.faultRail g 2).port q = a.port q := fun q => by
    unfold Part.port
    rw [hports]
  unfold Part.railLost
  rw [filterMap_panelNos fun q hq => Part.betweenFrames?_none (h q hq)]
  congr 1
  refine foldl_once (fun q hq => Part.loseRailAt_none ?_) (fun q hq => Part.loseRailAt_none ?_) panelNos (by decide) (mem_panelNos p)
  · rw [hport]
    exact h q hq
  · rw [Part.port_loseRailAt_ne _ hq, hport]
    exact h q hq

end Sys2Proof.Machine

open Sys2Proof Sys2Proof.Machine

/-- Settles O59: each event by the demand, and at rail-good one drive per POISED job whose port is ready. -/
theorem railRises : Obligations.RailRises := by
  intro s g demand moved hs hg hdemand hmoved
  have hiff : s.part.railDemanded = true ↔ demand := (Part.railDemanded_iff s.part).trans hdemand.symm
  have hnot : ¬demand → s.part.railDemanded = false := fun h => Bool.eq_false_iff.2 fun h' => h (hiff.1 h')
  simp only [hmoved]
  refine ⟨fun hoff hd => ?_, fun hrising => ⟨fun hd => ?_, fun hd => ?_⟩, fun o elapsed ho => ?_⟩
  · refine .of_railEvent (f := Part.raiseRail) hs.1 hg rfl ?_ rfl
    rw [hoff, hiff.2 hd]
    rfl
  · refine .of_railEvent (f := Part.railGood) hs.1 hg rfl ?_ (Part.railGood_idle g (hnot hd))
    rw [hrising]
    rfl
  · obtain ⟨all, hall, hdriven⟩ := Part.railGood_demanded g (hiff.2 hd)
    have hgood : CompletesWith .railGoodAsserted s { s with part := s.part.railGood g } := by
      refine .of_railEvent (f := Part.railGood) hs.1 hg rfl ?_ rfl
      rw [hrising]
      rfl
    generalize s.part.railGood g = u at hdriven hgood
    obtain ⟨hframe, hlength, hstarted, hport, -, hjob⟩ := hdriven
    refine ⟨{ s with part := u }, s.part.StartsDrive g, hgood, fun _ _ _ _ _ => Iff.rfl, ?_, hlength,
      fun p slot j r c hst => hstarted p slot j r c (hall p) hst, fun p hp => hport p fun _ => hp,
      fun k hk => hjob k fun p j r c _ => hk p j r c⟩
    exact congrArg (fun x : Part => ({ s with part := x } : State)) hframe
  · have hexec : CompletesWith o s { s with part := s.part.railOff g elapsed } := by
      rcases ho with ⟨rfl, hst, rfl⟩ | ⟨rfl, hst, rfl⟩
      · refine .of_railEvent (f := fun x g => x.railOff g 50) hs.1 hg rfl ?_ rfl
        rw [hst]
        rfl
      · refine .of_railEvent (f := fun x g => x.railOff g (x.rail.timer.getD 0)) hs.1 hg rfl ?_ rfl
        rw [hst]
        rfl
    rw [Part.railOff_eq] at hexec
    refine ⟨fun hd hmin => ?_, fun hno => ?_⟩
    · rwa [if_pos ⟨hiff.2 hd, hmin⟩] at hexec
    · rwa [if_neg fun h => hno.elim (fun hn => hn (hiff.1 h.1)) fun hlt => absurd h.2 (Nat.not_le.2 hlt)] at hexec

/-- Settles O60: each event by the rail's state, and a loss of rail-good by the one port that is DRIVING. -/
theorem railFalls : Obligations.RailFalls := by
  intro s g now faulted hs hg hnow hfaulted
  subst hnow
  have hfault : ∀ detail, s.part.faultRail g detail = { s.part with
      rail := faulted, walkOwed := true, unit := { s.part.unit with causes := (s.part.faultRail g detail).unit.causes } } :=
    fun detail => by
      rw [hfaulted]
      exact (Part.faultRail_eq s.part g detail).1
  have hlatched : ∀ detail, s.part.Latched (s.part.faultRail g detail) .railFault detail := fun detail =>
    (Part.faultRail_eq s.part g detail).2
  have hport : ∀ p, (s.part.faultRail g 2).port p = s.part.port p := fun p => by rw [hfault 2]; rfl
  have hrunning : ∀ p, (s.part.faultRail g 2).running? p = s.part.running? p := fun p => by rw [hfault 2]; rfl
  refine ⟨fun hst => ?_, fun hst => ?_, fun hst => ?_⟩
  · refine .of_railEvent (f := Part.lowerRail) hs.1 hg rfl ?_ rfl
    rw [hst]
    rfl
  · have hdone : CompletesWith .riseLimit s { s with part := s.part.faultRail g 1 } := by
      refine .of_railEvent (f := fun x g => x.faultRail g 1) hs.1 hg rfl ?_ rfl
      rw [hst]
      rfl
    exact ⟨_, hdone, congrArg (fun x : Part => ({ s with part := x } : State)) (hfault 1), hlatched 1⟩
  · have hdone : CompletesWith .railGoodNegated s { s with part := s.part.railLost g } := by
      refine .of_railEvent (f := Part.railLost) hs.1 hg rfl ?_ rfl
      rcases hst with hst | hst <;> rw [hst] <;> rfl
    refine ⟨fun hno => ?_, fun p slot j r w f e hother hdriving hr hj hw hf hslots he => ?_,
      fun p c slot j r w hother hdriving hc hr hj hw hframe => ?_⟩
    · have hlost : s.part.railLost g = s.part.faultRail g 2 := by
        rw [Part.railLost_eq (p := 0) fun q _ => hno q, Part.betweenFrames?_none (hno 0), Part.loseRailAt_none]
        · rfl
        · rw [hport]
          exact hno 0
      rw [hlost] at hdone
      exact ⟨_, hdone, congrArg (fun x : Part => ({ s with part := x } : State)) (hfault 2), hlatched 2⟩
    · have hlost : s.part.railLost g = (s.part.faultRail g 2).endFrameEarly p w := by
        have hinside := Window.insideFrame_eq_true hf hslots
        rw [Part.railLost_eq hother, Part.betweenFrames?_inside ((Part.drivenWindow?_eq hdriving hr hj).trans hw) hinside]
        exact Part.loseRailAt_inside ((Part.drivenWindow?_eq (by rw [hport]; exact hdriving) (by rw [hrunning]; exact hr) hj).trans
          (by rw [hport]; exact hw)) hinside
      have hends := Part.endFrameEarly_eq (a := s.part.faultRail g 2) (p := p) (w := w) (e := e) (by rw [hfault 2]; exact he)
      rw [hport] at hends
      have hcauses : ((s.part.faultRail g 2).endFrameEarly p w).unit.causes = (s.part.faultRail g 2).unit.causes := by
        rw [hends]
      rw [hlost] at hdone
      refine ⟨_, hdone, congrArg (fun x : Part => ({ s with part := x } : State)) ?_, (hlatched 2).congr hcauses⟩
      rw [hcauses]
      conv => lhs; rw [hends, hfault 2]
    · have hbetween := Window.insideFrame_eq_false hframe
      have hpanel : j.panel = p := by
        obtain ⟨-, -, hpanel, -⟩ := Part.running?_some hr
        exact hpanel
      have hlost : s.part.railLost g = (s.part.faultRail g 2).abortJob g slot j r := by
        rw [Part.railLost_eq hother, Part.betweenFrames?_between ((Part.drivenWindow?_eq hdriving hr hj).trans hw) hbetween, hr,
          Part.loseRailAt_between ((Part.drivenWindow?_eq (by rw [hport]; exact hdriving) (by rw [hrunning]; exact hr) hj).trans
            (by rw [hport]; exact hw)) hbetween]
        rfl
      have hcfg : (s.part.faultRail g 2).panelCfg? j.panel = some c := by
        rw [hfault 2, hpanel]
        unfold Part.panelCfg?
        rw [hg]
        exact hc
      obtain ⟨cut, haborted⟩ := Part.aborted (s.part.faultRail g 2) g slot j r hcfg
      rw [hlost] at hdone
      exact ⟨_, cut, _, hdone, hfault 2, hlatched 2, haborted⟩

end

section
/-! PROOFS of the statement about the faults of the ports (R125, R127, R134 to R136, R138). -/

namespace Sys2Proof.Machine

/-! ### A port's record and the abort of its job do not meet -/

section
variable (a : Part) (g : Setup) (p : PanelNo) (y : Port)

theorem Part.setPort_self (h : a.port p = y) : a.setPort p y = a := by
  unfold Part.setPort
  rw [← h]
  unfold Part.port
  rw [Quad.set_get_self]

theorem Part.setPort_latch (k : Cause) (n : Nat) : (a.setPort p y).latch k n = (a.latch k n).setPort p y := by
  have hdetail : (a.setPort p y).unit.detail? k = a.unit.detail? k := rfl
  unfold Part.latch
  rw [hdetail]
  cases a.unit.detail? k <;> rfl

theorem Part.setPort_settled (j : Job) (f : Nat → Nat → Tile → Tile) :
    (a.setPort p y).settled g j f = (a.settled g j f).setPort p y := by
  have hfollowed : ((a.setPort p y).mapTiles g j.panel j.rect f).followTiles
      = ((a.mapTiles g j.panel j.rect f).followTiles).setPort p y := by
    unfold Part.mapTiles
    cases g.panels.get j.panel <;> rfl
  unfold Part.settled
  rw [hfollowed]
  generalize (a.mapTiles g j.panel j.rect f).followTiles = b
  have htiles : (b.setPort p y).tilesIn g j.panel j.rect = b.tilesIn g j.panel j.rect := rfl
  unfold Part.latchLoose
  rw [htiles]
  split
  · exact Part.setPort_latch ..
  · rfl

theorem Part.setPort_releaseRail : (a.setPort p y).releaseRail g = (a.releaseRail g).setPort p y := by
  have hrail : (a.setPort p y).rail = a.rail := rfl
  have hdemand : (a.setPort p y).railDemanded = a.railDemanded := rfl
  unfold Part.releaseRail
  rw [hrail, hdemand]
  split
  · split <;> rfl
  · rfl

theorem Part.setPort_slotsFreed (h : a.walkOwed = true) : (a.setPort p y).slotsFreed g = (a.slotsFreed g).setPort p y := by
  have hwithin : a.setPort p y = a.within (a.setPort p y) := by
    unfold Part.within Part.setPort
    rw [← h]
  rw [hwithin, Part.within_slotsFreed]
  conv => rhs; rw [Part.slotsFreed_within a g h]
  rfl

theorem Part.setPort_checkHalted : (a.setPort p y).checkHalted = a.checkHalted.setPort p y := by
  have hunit : (a.setPort p y).unit = a.unit := rfl
  have hcount : (a.setPort p y).runningCount = a.runningCount := rfl
  unfold Part.checkHalted
  rw [hunit, hcount]
  split
  · exact congrArg Part.oweWalk (Part.setPort_latch { a with unit := { a.unit with runState := .stopped } } p y .halted 0)
  · rfl

theorem Part.setPort_abortZones (x : RunningJob) :
    Part.abortZones g (a.setPort p y) x = (Part.abortZones g a x).setPort p y := by
  have hcleared : (a.setPort p y).clearRunning x.2.1 = (a.clearRunning x.2.1).setPort p y := by
    unfold Part.clearRunning
    cases x.2.1.scope <;> rfl
  unfold Part.abortZones
  rw [hcleared]
  generalize a.clearRunning x.2.1 = b
  induction g.concerned x.2.1 generalizing b with
  | nil => rfl
  | cons z zs ih => exact ih (b.abortZoneAt z)

end

/-- A port that is not READY does not rest. -/
theorem Port.restsAtOnce_of_not_ready {x : Port} (h : x.state ≠ .ready) (c : PanelCfg) (now : Stamp) :
    x.restsAtOnce c now = x := if_neg fun hn => h hn.2.1

/-- The abort of a job whose port is not READY leaves the port's record alone, whatever it is. -/
theorem Part.setPort_abortJob {a : Part} {g : Setup} {c : PanelCfg} {slot : Nat} {j : Job} {r : RunFields} {y : Port}
    (hc : a.panelCfg? j.panel = some c) (hport : (a.port j.panel).state ≠ .ready) (hy : y.state ≠ .ready) :
    (a.setPort j.panel y).abortJob g slot j r = (a.abortJob g slot j r).setPort j.panel y := by
  have hcut : Part.cutJob g (a.setPort j.panel y) (slot, j, r) = (Part.cutJob g a (slot, j, r)).setPort j.panel y := by
    refine (Part.ended_eq (a.setPort j.panel y) g slot j r hc _).trans ?_
    rw [show Part.cutJob g a (slot, j, r) = _ from Part.ended_eq a g slot j r hc _, Part.setPort_settled]
    unfold Part.without
    rw [Part.port_setPort_self, Port.restsAtOnce_of_not_ready hy, Port.restsAtOnce_of_not_ready hport]
    unfold Part.setPort
    rw [Quad.set_set, Quad.set_set]
  have howed : ((Part.cutJob g a (slot, j, r)).releaseRail g).walkOwed = true := by
    rw [show Part.cutJob g a (slot, j, r) = _ from Part.ended_eq a g slot j r hc _]
    unfold Part.releaseRail
    split
    · split <;> rfl
    · rfl
  show (Part.abortZones g (((Part.cutJob g (a.setPort j.panel y) (slot, j, r)).releaseRail g).slotsFreed g) (slot, j, r)).checkHalted
    = _
  rw [hcut, Part.setPort_releaseRail, Part.setPort_slotsFreed _ _ _ _ howed, Part.setPort_abortZones, Part.setPort_checkHalted]
  rfl

/-- So it keeps the record the port has. -/
theorem Part.port_abortJob {a : Part} {g : Setup} {c : PanelCfg} {slot : Nat} {j : Job} {r : RunFields}
    (hc : a.panelCfg? j.panel = some c) (hport : (a.port j.panel).state ≠ .ready) :
    (a.abortJob g slot j r).port j.panel = a.port j.panel := by
  have h := Part.setPort_abortJob (slot := slot) (r := r) (g := g) hc hport hport
  rw [Part.setPort_self a _ _ rfl] at h
  rw [h]
  exact Part.port_setPort_self ..

/-! ### The fault of a port (R134 to R136) -/

/-- The record of a port at a fault. -/
theorem Port.faulted_eq (x : Port) (cause : FaultCause) :
    x.faulted cause = { x with
      state := .fault, cause := cause, held := decide (cause = .geometry) || decide (3 ≤ x.attempts)
      tempOutstanding := false, queryDue := false, closingOver := false, retry := none
      limit := if x.window.isSome = true ∧ x.limit.map (·.kind) = some .frameBusy ∧ cause ≠ .busyStuck then x.limit
        else none } := by
  have hheld : (cause == .geometry) = decide (cause = .geometry) := by cases cause <;> rfl
  unfold Port.faulted
  rw [hheld]
  cases hw : x.window with
  | none => simp
  | some w =>
    cases hl : x.limit with
    | none => simp
    | some l => simp

/-- The record of a port between frames at a fault (R134 to R136): with no window, or where BUSY is stuck, no CLOSE is owed and
the retry timer starts unless the port is held. -/
def Port.faultClosed (x : Port) (c : PanelCfg) (cause : FaultCause) : Port :=
  if x.window = none ∨ cause = .busyStuck then
    { x.faulted cause with
      window := none, limit := none, retry := if (x.faulted cause).held then none else some c.retryInterval
      sent := if x.window.isSome then some .close else x.sent }
  else x.faulted cause

theorem Port.faultClosed_state (x : Port) (c : PanelCfg) (cause : FaultCause) : (x.faultClosed c cause).state = .fault := by
  unfold Port.faultClosed
  split <;> rfl

/-- The retry timer starts at a port with no window and no limit (R136). -/
theorem Port.startRetry_eq {y : Port} (c : PanelCfg) (hwindow : y.window = none) (hlimit : y.limit = none)
    (hretry : y.retry = none) :
    y.startRetry c = { y with window := none, limit := none, retry := if y.held then none else some c.retryInterval } := by
  cases y with
  | mk state cause held =>
    subst hwindow
    subst hlimit
    subst hretry
    cases held <;> rfl

theorem Port.closeInFault_eq (x : Port) (c : PanelCfg) :
    x.closeInFault c = { x with
      window := none, limit := none, sent := some .close
      retry := if x.held then x.retry else some c.retryInterval } := by
  cases x with
  | mk state cause held => cases held <;> rfl

theorem Port.startRetry_faulted {x : Port} (c : PanelCfg) (cause : FaultCause) (h : x.window = none) :
    (x.faulted cause).startRetry c = x.faultClosed c cause := by
  have hlimit : (x.faulted cause).limit = none := by
    rw [Port.faulted_eq, h]
    rfl
  have hwindow : (x.faulted cause).window = none := h
  rw [Port.startRetry_eq c hwindow hlimit rfl]
  refine Eq.trans ?_ (if_pos (.inl h)).symm
  rw [h]
  rfl

theorem Port.closeInFault_faulted {x : Port} (c : PanelCfg) {w : Window} (h : x.window = some w) :
    (x.faulted .busyStuck).closeInFault c = x.faultClosed c .busyStuck := by
  refine (Port.startRetry_eq (y := { x.faulted .busyStuck with window := none, limit := none, sent := some .close }) c rfl rfl
    rfl).trans (Eq.trans ?_ (if_pos (.inr rfl)).symm)
  rw [h]
  rfl

/-- The part with a port's fault noted: its record, PORT_FAULT and a walk caused. -/
def Part.portFaulted (a : Part) (p : PanelNo) (cause : FaultCause) : Part :=
  (a.changePort p ((a.port p).faulted cause)).latch .portFault p.val

section
variable (a : Part) (p : PanelNo) (cause : FaultCause)

theorem Part.portFaulted_eq :
    a.portFaulted p cause = { a with
        ports := a.ports.set p ((a.port p).faulted cause), walkOwed := true
        unit := { a.unit with causes := (a.portFaulted p cause).unit.causes } }
      ∧ a.Latched (a.portFaulted p cause) .portFault p.val := by
  refine ⟨?_, Part.latched_latch (a.changePort p ((a.port p).faulted cause)) .portFault p.val⟩
  conv => lhs; unfold Part.portFaulted; rw [Part.latch_eq]
  rfl

theorem Part.portFaulted_port : (a.portFaulted p cause).port p = (a.port p).faulted cause := by
  rw [(Part.portFaulted_eq a p cause).1]
  exact Quad.get_set_self ..

theorem Part.portFaulted_setPort (y : Port) :
    (a.portFaulted p cause).setPort p y = { a with
      ports := a.ports.set p y, walkOwed := true
      unit := { a.unit with causes := ((a.portFaulted p cause).setPort p y).unit.causes } } := by
  conv => lhs; unfold Part.setPort; rw [(Part.portFaulted_eq a p cause).1]
  simp only [Quad.set_set]
  rfl

end

section
variable {a : Part} {g : Setup} {c : PanelCfg} {p : PanelNo} {cause : FaultCause}

/-- A fault of a port between frames whose panel has no job that it ends (R135). -/
theorem Part.faultPort_leaves (hbetween : (a.port p).betweenFrames)
    (hjob : ∀ slot j r, a.running? p = some (slot, j, r) → j.state = .capturing ∨ j.state = .committing) :
    a.faultPort g c p cause = (a.portFaulted p cause).setPort p ((a.port p).faultClosed c cause) := by
  have hstage : a.stage? p ≠ some .driving ∧ a.stage? p ≠ some .poised := by
    unfold Part.stage?
    cases hr : a.running? p with
    | none => exact ⟨nofun, nofun⟩
    | some x =>
      obtain ⟨slot, j, r⟩ := x
      rcases hjob slot j r hr with h | h <;> simp [h]
  unfold Part.faultPort
  rw [show (a.changePort p ((a.port p).faulted cause)).latch .portFault p.val = a.portFaulted p cause from rfl]
  cases hw : (a.port p).window with
  | none =>
    dsimp only
    rw [if_neg hstage.2, Part.portFaulted_port, Port.startRetry_faulted c cause hw]
  | some w =>
    dsimp only
    rw [Window.insideFrame_eq_false (hbetween w hw), if_neg Bool.false_ne_true, if_neg (not_or.2 hstage), Part.portFaulted_port]
    split
    · next h => rw [h, Port.closeInFault_faulted c hw]
    · next h =>
      unfold Port.faultClosed
      rw [if_neg (not_or.2 ⟨by rw [hw]; exact nofun, h⟩), Part.setPort_self _ _ _ (Part.portFaulted_port ..)]

/-- A fault of a port between frames whose panel's job is POISED, or DRIVING in an open window, aborts it (R135). -/
theorem Part.faultPort_aborts {slot : Nat} {j : Job} {r : RunFields} (hbetween : (a.port p).betweenFrames)
    (hc : a.panelCfg? p = some c) (hr : a.running? p = some (slot, j, r))
    (hj : j.state = .poised ∨ (j.state = .driving ∧ (a.port p).window.isSome = true)) :
    a.faultPort g c p cause = ((a.portFaulted p cause).setPort p ((a.port p).faultClosed c cause)).abortJob g slot j r := by
  obtain ⟨-, -, rfl, -⟩ := Part.running?_some hr
  have hport := Part.portFaulted_port a j.panel cause
  have hcfg : (a.portFaulted j.panel cause).panelCfg? j.panel = some c := by
    rw [(Part.portFaulted_eq a j.panel cause).1]
    exact hc
  have hruns : (a.portFaulted j.panel cause).abortRunning g j.panel = (a.portFaulted j.panel cause).abortJob g slot j r := by
    unfold Part.abortRunning
    rw [show (a.portFaulted j.panel cause).running? j.panel = some (slot, j, r) by
      rw [(Part.portFaulted_eq a j.panel cause).1]
      exact hr]
  have hnot : ((a.portFaulted j.panel cause).port j.panel).state ≠ .ready := by
    rw [hport]
    exact nofun
  have hended := Part.port_abortJob (slot := slot) (r := r) (g := g) hcfg hnot
  rw [hport] at hended
  rw [Part.setPort_abortJob hcfg hnot (by rw [Port.faultClosed_state]; exact nofun)]
  have hstage := Part.stage?_of_running hr
  unfold Part.faultPort
  rw [show (a.changePort j.panel ((a.port j.panel).faulted cause)).latch .portFault j.panel.val
    = a.portFaulted j.panel cause from rfl]
  dsimp only
  rw [hruns, hstage]
  cases hw : (a.port j.panel).window with
  | none =>
    have hpoised : j.state = .poised := hj.resolve_right fun h => by
      rw [hw] at h
      cases h.2
    dsimp only
    rw [if_pos (congrArg some hpoised), hended, Port.startRetry_faulted c cause hw]
  | some w =>
    dsimp only
    have hends : some j.state = some .driving ∨ some j.state = some .poised :=
      hj.elim (fun h => .inr (congrArg some h)) fun h => .inl (congrArg some h.1)
    rw [Window.insideFrame_eq_false (hbetween w hw), if_neg Bool.false_ne_true, if_pos hends, hended]
    split
    · next h => rw [h, Port.closeInFault_faulted c hw]
    · next h =>
      unfold Port.faultClosed
      rw [if_neg (not_or.2 ⟨by rw [hw]; exact nofun, h⟩), Part.setPort_self _ _ _ hended]

/-- A fault of a port inside a frame of a DRIVING job ends the frame early (R117, R135). -/
theorem Part.faultPort_inside {slot : Nat} {j : Job} {r : RunFields} {w : Window} (hr : a.running? p = some (slot, j, r))
    (hj : j.state = .driving) (hw : (a.port p).window = some w) (hinside : w.insideFrame = true) :
    a.faultPort g c p cause = (a.portFaulted p cause).endFrameEarly p w := by
  unfold Part.faultPort
  rw [show (a.changePort p ((a.port p).faulted cause)).latch .portFault p.val = a.portFaulted p cause from rfl, hw]
  dsimp only
  rw [if_pos hinside, if_pos ((Part.stage?_of_running hr).trans (congrArg some hj))]

end

theorem Port.runs_of {x : Port} {k : LimitKind} (h : ∃ l, x.limit = some l ∧ l.kind = k) : x.runs k = true := by
  obtain ⟨l, hl, rfl⟩ := h
  unfold Port.runs
  rw [hl]
  exact beq_self_eq_true _

theorem Port.frameLimitDue_of {x : Port} (h : ∃ l, x.limit = some l ∧ l.kind = .frameBusy) (hbetween : x.betweenFrames) :
    x.frameLimitDue = true := by
  unfold Port.frameLimitDue
  rw [Port.runs_of h]
  cases hw : x.window with
  | none => rfl
  | some w =>
    dsimp only
    rw [Window.insideFrame_eq_false (hbetween w hw)]
    rfl

/-- What a fault's command does where its condition holds. -/
theorem CompletesWith.of_fault {s : State} {g : Setup} {c : PanelCfg} {p : PanelNo} {o : Instr} {cause : FaultCause}
    (hs : s.path.inReset = false) (hg : s.part.setup = some g) (hc : g.panels.get p = some c)
    (h : (s.part.port p).FaultedBy p c o cause) :
    CompletesWith o s { s with part := s.part.faultPort g c p cause } := by
  have hpart : ∀ {f : Setup → PanelCfg → Part} {b : Part}, f g c = b →
      ({ s with part := s.part.withPanel p f } : State) = { s with part := b } := fun hb => by
    rw [Part.withPanel_eq hg hc, hb]
  rcases h with ⟨rfl, rfl, hl⟩ | ⟨rfl, rfl, hl⟩ | ⟨rfl, rfl, htemp⟩ | ⟨rfl, rfl, hl⟩ | ⟨rfl, rfl, hstate, hbetween, hl⟩
    | ⟨width, height, rfl, rfl, hstate, hsize⟩
  · exact .of_partEvent (f := fun x => x.withPanel p fun g c => x.faultPort g c p .busyStuck) hs rfl (Port.runs_of hl) (hpart rfl)
  · exact .of_partEvent (f := fun x => x.withPanel p fun g c => x.faultPort g c p .noReply) hs rfl (Port.runs_of hl) (hpart rfl)
  · exact .of_partEvent (f := fun x => x.withPanel p fun g c => x.faultPort g c p .noReply) hs rfl htemp (hpart rfl)
  · refine .of_partEvent (f := fun x => x.closeBusyPasses p) hs rfl (Port.runs_of hl) ?_
    simp only [Part.closeBusyPasses, hg, hc]
  · exact .of_partEvent (en := (s.part.port p).frameLimitDue) (f := fun x => x.withPanel p fun g c => x.frameBusyPasses g c p)
      hs rfl (Port.frameLimitDue_of hl hbetween) (hpart (if_neg hstate))
  · exact .of_partEvent (f := fun x => x.withPanel p fun g d => x.identArrives g d p width height) hs rfl
      (beq_iff_eq.2 hstate) (hpart (if_neg fun hsame => hsize.elim (fun h => h hsame.1) fun h => h hsame.2))

end Sys2Proof.Machine

open Sys2Proof Sys2Proof.Machine

/-- Settles O58: the fault by the port's window and the running job's state. -/
theorem portLimitsFault : Obligations.PortLimitsFault := by
  intro s g p x hs hg hx
  subst hx
  refine ⟨fun c o cause held faulted closed hc ho hheld hfaulted hclosed => ?_, fun c hc hstate hbetween hl => ?_,
    fun hc hl => ?_⟩
  · have hdone := CompletesWith.of_fault hs.1 hg hc ho
    have hfaulted' : faulted = (s.part.port p).faulted cause := by
      rw [hfaulted, hheld]
      exact (Port.faulted_eq ..).symm
    have hclosed' : closed = (s.part.port p).faultClosed c cause := by
      have hheld' : held = ((s.part.port p).faulted cause).held :=
        hheld.trans (congrArg (fun y : Port => y.held) (Port.faulted_eq ..)).symm
      rw [hclosed, hheld', hfaulted']
      rfl
    subst hclosed'
    have hframe := Part.portFaulted_setPort s.part p cause ((s.part.port p).faultClosed c cause)
    have hnoted := (Part.portFaulted_eq s.part p cause).2
    refine ⟨fun hbetween hjob => ?_, fun slot j r hbetween hr hj => ?_, fun slot j r e w f hr hj he hw hf hslots => ?_⟩
    · rw [Part.faultPort_leaves hbetween hjob] at hdone
      exact ⟨_, hdone, congrArg (fun x : Part => ({ s with part := x } : State)) hframe, hnoted⟩
    · have hcfg : s.part.panelCfg? p = some c := by
        unfold Part.panelCfg?
        rw [hg]
        exact hc
      rw [Part.faultPort_aborts hbetween hcfg hr hj] at hdone
      obtain ⟨-, -, hpanel, -⟩ := Part.running?_some hr
      obtain ⟨cut, haborted⟩ := Part.aborted ((s.part.portFaulted p cause).setPort p ((s.part.port p).faultClosed c cause)) g slot j
        r (by rw [hframe, hpanel]; exact hcfg)
      exact ⟨_, cut, _, hdone, hframe, hnoted, haborted⟩
    · rw [Part.faultPort_inside hr hj hw (Window.insideFrame_eq_true hf hslots)] at hdone
      have hends := Part.endFrameEarly_eq (a := s.part.portFaulted p cause) (p := p) (w := w) (e := e)
        (by rw [(Part.portFaulted_eq s.part p cause).1]; exact he)
      rw [Part.portFaulted_port, ← hfaulted'] at hends
      have hcauses : ((s.part.portFaulted p cause).endFrameEarly p w).unit.causes = (s.part.portFaulted p cause).unit.causes := by
        rw [hends]
      refine ⟨_, hdone, congrArg (fun x : Part => ({ s with part := x } : State)) ?_, hnoted.congr hcauses⟩
      rw [hcauses]
      conv => lhs; rw [hends, (Part.portFaulted_eq s.part p cause).1]
      simp only [Quad.set_set]
  · rw [← Port.closeInFault_eq]
    refine .of_partEvent (en := (s.part.port p).frameLimitDue) (f := fun x => x.withPanel p fun g c => x.frameBusyPasses g c p)
      hs.1 rfl (Port.frameLimitDue_of hl hbetween) ?_
    dsimp only
    rw [Part.withPanel_eq hg hc]
    exact congrArg (fun x : Part => ({ s with part := x } : State)) (if_pos hstate)
  · refine .of_partEvent (f := fun x => x.closeBusyPasses p) hs.1 rfl (Port.runs_of hl) ?_
    have hpasses : s.part.closeBusyPasses p
        = s.part.changePort p { s.part.port p with state := .unused, limit := none, closingOver := false } := by
      simp only [Part.closeBusyPasses, hg, hc]
    exact congrArg (fun x : Part => ({ s with part := x } : State)) hpasses

end

section
/-! PROOFS of the statement about the last line slot of a frame (R54, R115 to R120, R132, R137, R141, R142). -/

namespace Sys2Proof.Machine

/-! ### The row and the port's record of it (R131, R132) -/

/-- What a slot's row leaves of the part (R115, R116): the panel's engine and the causes may change. -/
theorem Part.RowSent.frame {a b : Part} {g : Setup} {c : PanelCfg} {p : PanelNo} {w : Window} {j : Job} {r : RunFields}
    {e e' : Engine} {codes : List DriveCode} (h : a.RowSent b g c p w j r e e' codes) (he : a.engine? p = some e) :
    b = { a with engines := a.engines.set p (some e'), unit := { a.unit with causes := b.unit.causes } } := by
  obtain ⟨hnull, hrow, hunderrun⟩ := h
  by_cases h0 : w.ending = true ∨ a.rail.state ≠ .up
  · obtain ⟨rfl, rfl, -⟩ := hnull h0
    have hset : b.engines.set p (some e') = b.engines := by
      rw [← he]
      exact Quad.set_get_self ..
    rw [hset]
  · obtain ⟨hending, hup⟩ := not_or.1 h0
    have hending' : w.ending = false := Bool.eq_false_iff.2 hending
    have hup' : a.rail.state = .up := Decidable.not_not.1 hup
    cases hb : e.buffer with
    | cons pair rest =>
      obtain ⟨hframe, -⟩ := hrow pair rest hending' hup' hb
      rw [hframe]
    | nil =>
      obtain ⟨left, hframe, -⟩ := hunderrun hending' hup' hb
      exact hframe

/-- The port's record once the last row of a frame has been sent: it watches BUSY (R132). -/
def Port.rowsOver (x : Port) (w : Window) (codes : List DriveCode) (busy : Bool) : Port :=
  { x with
    window := some { w with slots := w.slots + 1, settled := !busy }
    limit := if busy then x.limit else none
    busy := busy
    sent := some (.row (w.y0 + w.slots) codes) }

/-- The last slot of a frame (R131, R132). -/
theorem Part.lineSlot_last {a : Part} {g : Setup} {c : PanelCfg} {p : PanelNo} {w : Window} (busy : Bool)
    (h : w.slots + 1 = w.rows) :
    a.lineSlot g c p w busy
      = Part.frameSent { (a.slotRow g c p w).1 with
          ports := a.ports.set p ((a.port p).rowsOver w (a.slotRow g c p w).2 busy) } g c p w := by
  have hports := Part.slotRow_ports a g c p w
  have hle : w.rows ≤ w.slots + 1 := Nat.le_of_eq h.symm
  unfold Part.lineSlot Part.setPort Part.port Port.sendRow
  dsimp only
  rw [if_pos hle, hports, decide_eq_true hle]
  cases busy <;> rfl

/-! ### The commit begins (R118, R141) -/

theorem Rect.NextGroup.not_noneLeft {b : Rect} {P : Nat → Nat → Prop} {y0 x0 row tx n : Nat} (h : b.NextGroup P y0 x0 row tx n)
    (hx : b.tx0 ≤ x0) : ¬b.NoneLeft P y0 x0 := by
  obtain ⟨hpos, -, hrow, hright, hleft, hafter, hall, -, -⟩ := h
  exact fun hnone => hnone row tx (hleft hx) (by omega) hrow (by omega) (hall tx (Nat.le_refl _) (by omega))

/-- The end of a demand on the rail owes a walk where the rail's state changes (R46, R141). -/
theorem Part.releaseRail_walkOwed {a : Part} (g : Setup) (h : a.walkOwed = false) :
    (a.releaseRail g).walkOwed = true ↔ (a.releaseRail g).rail.state ≠ a.rail.state := by
  unfold Part.releaseRail
  split
  · next hup =>
    rw [hup.1]
    split
    · exact ⟨fun _ => nofun, fun _ => rfl⟩
    · exact ⟨fun _ => nofun, fun _ => rfl⟩
  · rw [h]
    exact ⟨nofun, fun hne => absurd rfl hne⟩

/-- The commit copy goes on or the job retires (R119, R120). -/
theorem Part.continueCommit_spec {a : Part} {g : Setup} {c : PanelCfg} {p : PanelNo} (slot : Nat) (j : Job) (r : RunFields)
    (e : Engine) {y0 x0 : Nat} {copied : Nat → Nat → Prop}
    (hcopied : ∀ x y, copied x y ↔ e.toCopy j.rect r.mode x (y / 32) = true) :
    (¬j.rect.NoneLeft copied y0 x0 → ∃ row tx n, j.rect.NextGroup copied y0 x0 row tx n
      ∧ a.continueCommit g c p slot j r e y0 x0 = { a with
          engines := a.engines.set p (some { e with
            commit := some ⟨row, tx, n, false⟩
            request := some
              { kind := .commitRead, panel := p, row := row, tx := tx, tiles := n
                addr := c.stageBase + row * c.stride + 8 * tx, data := [] } }) })
    ∧ (j.rect.tx0 ≤ x0 → j.rect.NoneLeft copied y0 x0 → a.continueCommit g c p slot j r e y0 x0 = a.retireJob g slot j r e) := by
  obtain rfl : copied = fun x y => e.toCopy j.rect r.mode x (y / 32) = true :=
    funext fun x => funext fun y => propext (hcopied x y)
  obtain ⟨hsome, hnone⟩ := Engine.nextCommit_spec e c p j.rect r.mode y0 x0
  unfold Part.continueCommit
  cases hnext : e.nextCommit c p j.rect r.mode y0 x0 with
  | none => exact ⟨fun h => absurd (hnone hnext) h, fun _ _ => rfl⟩
  | some e' =>
    obtain ⟨row, tx, n, hgroup, rfl⟩ := hsome e' hnext
    exact ⟨fun _ => ⟨row, tx, n, hgroup, rfl⟩, fun hx h => absurd h (hgroup.not_noneLeft hx)⟩

/-! ### The abort that follows a frame that was being ended (R54) -/

/-- The ports and the selectors. -/
def Part.portView (a : Part) : Quad Port × Quad (Option Selector) := (a.ports, a.selectors)

theorem Part.portView_checkHalted (a : Part) : a.checkHalted.portView = a.portView := by
  unfold Part.checkHalted
  split
  · rw [Part.latch_eq]
    rfl
  · rfl

theorem Part.portView_abortZones (g : Setup) (a : Part) (x : RunningJob) : (Part.abortZones g a x).portView = a.portView := by
  unfold Part.abortZones
  rw [Part.clearRunning_eq, Part.foldl_abortZoneAt_frame]
  rfl

theorem Part.portView_slotsFreed {a : Part} (g : Setup) (h : a.walkOwed = true) : (a.slotsFreed g).portView = a.portView := by
  rw [Part.slotsFreed_within a g h]
  rfl

theorem Part.portView_releaseRail (a : Part) (g : Setup) : (a.releaseRail g).portView = a.portView := by
  rw [Part.releaseRail_frame]
  rfl

theorem Part.releaseRail_owed {a : Part} (g : Setup) (h : a.walkOwed = true) : (a.releaseRail g).walkOwed = true := by
  unfold Part.releaseRail
  split
  · split <;> rfl
  · exact h

/-- The abort of a job leaves ports and selectors but for the rest of the job's port. -/
theorem Part.portView_abortJob {a : Part} (g : Setup) {c : PanelCfg} (slot : Nat) (j : Job) (r : RunFields)
    (hc : a.panelCfg? j.panel = some c) :
    (a.abortJob g slot j r).portView
      = (a.ports.set j.panel ((a.port j.panel).restsAtOnce c ⟨a.clock.mono, a.clock.tick⟩), a.selectors) := by
  have hcut : Part.cutJob g a (slot, j, r) = _ := Part.ended_eq a g slot j r hc _
  have howed : ((Part.cutJob g a (slot, j, r)).releaseRail g).walkOwed = true :=
    Part.releaseRail_owed g (by rw [hcut]; rfl)
  calc (a.abortJob g slot j r).portView
      = (Part.abortZones g (((Part.cutJob g a (slot, j, r)).releaseRail g).slotsFreed g) (slot, j, r)).portView :=
        Part.portView_checkHalted _
    _ = (((Part.cutJob g a (slot, j, r)).releaseRail g).slotsFreed g).portView := Part.portView_abortZones ..
    _ = ((Part.cutJob g a (slot, j, r)).releaseRail g).portView := Part.portView_slotsFreed g howed
    _ = (Part.cutJob g a (slot, j, r)).portView := Part.portView_releaseRail ..
    _ = _ := by
      rw [hcut]
      rfl

/-- A rest does not touch a RESTORE_PORT that waits. -/
theorem Port.restsAtOnce_restoreWaits (x : Port) (c : PanelCfg) (now : Stamp) :
    (x.restsAtOnce c now).restoreWaits = x.restoreWaits := by
  unfold Port.restsAtOnce
  split <;> rfl

/-- What follows a frame that was being ended (R135, R137, R142). -/
theorem Part.frameSent_ending {a : Part} {g : Setup} {c : PanelCfg} {p : PanelNo} {w : Window} {slot : Nat} {j : Job}
    {r : RunFields} (hc : a.panelCfg? p = some c) (hr : a.running? p = some (slot, j, r)) (hw : w.ending = true) :
    a.frameSent g c p w = if (a.port p).restoreWaits then
        { a.abortJob g slot j r with
          ports := (a.abortJob g slot j r).ports.set p (a.restored p ((a.abortJob g slot j r).port p)), walkOwed := true }
      else a.abortJob g slot j r := by
  obtain ⟨-, -, rfl, -⟩ := Part.running?_some hr
  obtain ⟨hports, hselectors⟩ := Prod.mk.inj (Part.portView_abortJob g slot j r hc)
  have hruns : a.abortRunning g j.panel = a.abortJob g slot j r := by
    unfold Part.abortRunning
    rw [hr]
  have hwaits : ((a.abortJob g slot j r).port j.panel).restoreWaits = (a.port j.panel).restoreWaits := by
    unfold Part.port at hports ⊢
    rw [hports, Quad.get_set_self, Port.restsAtOnce_restoreWaits]
  have hrestored : ∀ x, (a.abortJob g slot j r).restored j.panel x = a.restored j.panel x := fun x => by
    unfold Part.restored
    rw [Part.selector?_congr hselectors]
  unfold Part.frameSent
  rw [if_pos hw]
  dsimp only
  rw [hruns, hwaits]
  split
  · rw [Part.restore_eq, hrestored]
    rfl
  · rfl

/-- What follows the last frame of a job (R118). -/
theorem Part.frameSent_last {a : Part} {g : Setup} {c : PanelCfg} {p : PanelNo} {w : Window} {f slot : Nat} {j : Job}
    {r : RunFields} {e : Engine} (hr : a.running? p = some (slot, j, r)) (hj : j.state = .driving) (he : a.engine? p = some e)
    (hw : w.ending = false) (hf : w.frame = some f) (hlast : w.frames ≤ f + 1) :
    a.frameSent g c p w = a.beginCommit g c p slot j { r with frame := none } e := by
  have hnext : ¬w.nextFrame < w.frames := by
    unfold Window.nextFrame
    rw [hf]
    exact Nat.not_lt.2 hlast
  unfold Part.frameSent
  rw [hw, if_neg Bool.false_ne_true, if_neg hnext, hr, he]
  exact if_pos hj

theorem Part.frameSent_between {a : Part} {g : Setup} {c : PanelCfg} {p : PanelNo} {w : Window} {f : Nat}
    (hw : w.ending = false) (hf : w.frame = some f) (hnext : f + 1 < w.frames) : a.frameSent g c p w = a := by
  unfold Part.frameSent
  rw [hw, if_neg Bool.false_ne_true]
  refine if_pos ?_
  unfold Window.nextFrame
  rw [hf]
  exact hnext

end Sys2Proof.Machine

open Sys2Proof Sys2Proof.Machine

/-- Settles O54: the row and the port's record, then what the end of the frame calls for. -/
theorem lineSlotEndsFrame : Obligations.LineSlotEndsFrame := by
  intro s g c p busy w f slot j r e hs hg hc hr hj he hw hf hslots
  obtain ⟨e', hsent, he'⟩ := Part.rowSent (g := g) (c := c) (w := w) hr hj he
  have hdue : s.part.slotDue? p = some w := by
    unfold Part.slotDue?
    rw [hw]
    exact if_pos (Window.insideFrame_eq_true hf (by omega))
  have hframe := hsent.frame he
  have hlast := Part.lineSlot_last (a := s.part) (g := g) (c := c) (p := p) (w := w) busy hslots
  generalize (s.part.slotRow g c p w).2 = codes at hsent hlast
  generalize (s.part.slotRow g c p w).1 = sent at hsent hframe he' hlast
  generalize hposted : ({ sent with
    ports := s.part.ports.set p ((s.part.port p).rowsOver w codes busy) } : Part) = posted at hlast
  have hexec : ∀ u, posted.frameSent g c p w = u → CompletesWith (.lineSlot p busy) s { s with part := u } := fun u hu => by
    refine .of_partEvent (en := true) (f := fun x => x.withPanel p fun g c => x.lineSlot g c p w busy) hs.1 ?_ rfl ?_
    · show execLineSlot p busy s = _
      unfold execLineSlot
      rw [hdue]
    · rw [Part.withPanel_eq hg hc, hlast, hu]
  have hpostedframe : posted = { s.part with
      engines := s.part.engines.set p (some e'), ports := s.part.ports.set p ((s.part.port p).rowsOver w codes busy)
      unit := { s.part.unit with causes := posted.unit.causes } } := by
    rw [← hposted]
    conv => lhs; rw [hframe]
  have hrunning : posted.running? p = some (slot, j, r) := by rw [hpostedframe]; exact hr
  have hengine : posted.engine? p = some e' := by rw [hpostedframe]; exact Quad.get_set_self ..
  have hcfg : posted.panelCfg? p = some c := by
    rw [hpostedframe]
    unfold Part.panelCfg?
    rw [hg]
    exact hc
  refine ⟨sent, posted, e', codes, hsent, hposted.symm, fun hending hnext => hexec _ (Part.frameSent_between hending hf hnext),
    fun hending hlastFrame => ?_, fun hending => ?_⟩
  · generalize hrun : ({ r with frame := none } : RunFields) = run
    generalize hcommitting : ({ j with state := .committing, running := some run } : Job) = committing
    generalize hemptied : ({ e' with
      buffer := [], fill := none, feed := none, request := none, discard := e'.inFlight } : Engine) = emptied
    generalize hbegun : ((posted.setJob slot committing).setEngine p (some emptied)).releaseRail g = begun
    have hbegins : posted.frameSent g c p w
        = begun.continueCommit g c p slot committing run emptied (32 * j.rect.ty0) j.rect.tx0 := by
      rw [Part.frameSent_last hrunning hj hengine hending hf hlastFrame, ← hbegun, ← hemptied, ← hcommitting, ← hrun]
      rfl
    have hbegunframe : begun = { posted with
        pool := s.part.pool.set slot (some committing), engines := s.part.engines.set p (some emptied)
        rail := begun.rail, walkOwed := begun.walkOwed } := by
      have hpool : posted.pool = s.part.pool := by rw [hpostedframe]
      have hengines : posted.engines = s.part.engines.set p (some e') := by rw [hpostedframe]
      rw [← hbegun]
      conv => lhs; rw [Part.releaseRail_frame]
      unfold Part.setJob Part.setEngine
      simp only [hpool, hengines, Quad.set_set]
    have hcommittingRect : committing.rect = j.rect := by rw [← hcommitting]
    have hmode : run.mode = r.mode := by rw [← hrun]
    obtain ⟨hgoes, hretires⟩ := Part.continueCommit_spec (a := begun) (g := g) (c := c) (p := p) slot committing run emptied
      (y0 := 32 * j.rect.ty0) (x0 := j.rect.tx0) (copied := fun x y => e'.toCopy j.rect r.mode x (y / 32) = true)
      fun x y => by rw [hcommittingRect, hmode, ← hemptied]; exact Iff.rfl
    rw [hcommittingRect] at hgoes hretires
    refine ⟨begun, committing, run, emptied, _, rfl, hcommitting.symm, rfl, hbegunframe, ?_, ?_, fun _ _ => Iff.rfl, fun hsome => ?_,
      fun hnone => ?_⟩
    · rw [← hbegun]
      refine Part.railReleased g ?_ ?_ (fun k hk => ?_) fun q hq => ?_
      · show posted.rail = _
        rw [hpostedframe]
      · show posted.clock = _
        rw [hpostedframe]
      · refine (Part.job?_setJob_ne (a := posted) (Ne.symm hk) committing).trans ?_
        rw [hpostedframe]
        rfl
      · obtain ⟨hjob, -⟩ := Part.running?_some hrunning
        obtain rfl := Option.some.inj ((Part.job?_setJob_self hjob committing).symm.trans hq)
        rw [← hcommitting]
        exact ⟨nofun, nofun⟩
    · rw [← hbegun]
      have howed := Part.releaseRail_walkOwed (a := (posted.setJob slot committing).setEngine p (some emptied)) g
        (by show posted.walkOwed = false; rw [hpostedframe]; exact hs.2)
      have hrail : ((posted.setJob slot committing).setEngine p (some emptied)).rail = s.part.rail := by
        show posted.rail = _
        rw [hpostedframe]
      rw [hrail] at howed
      exact howed
    · obtain ⟨row, tx, n, hgroup, hcommit⟩ := hgoes hsome
      refine ⟨row, tx, n, hgroup, hexec _ (hbegins.trans (hcommit.trans ?_))⟩
      have hengines : begun.engines = s.part.engines.set p (some emptied) := by rw [hbegunframe]
      rw [hengines, Quad.set_set]
    · obtain ⟨ended, retired, hretired⟩ := Part.commitRetired begun g slot committing run emptied (c := c) (by
        rw [hbegunframe, ← hcommitting]
        obtain ⟨-, -, hpanel, -⟩ := Part.running?_some hr
        show posted.panelCfg? j.panel = _
        rw [hpanel]
        exact hcfg)
      exact ⟨ended, retired, _, hexec _ (hbegins.trans (hretires (Nat.le_refl _) hnone)), hretired⟩
  · have hpanel : j.panel = p := by
      obtain ⟨-, -, hpanel, -⟩ := Part.running?_some hr
      exact hpanel
    obtain ⟨cut, haborted⟩ := Part.aborted posted g slot j r (by rw [hpanel]; exact hcfg)
    refine ⟨cut, _, haborted, ?_⟩
    have hwaits : (posted.port p).restoreWaits = (s.part.port p).restoreWaits := by
      rw [hpostedframe]
      show ((s.part.ports.set p _).get p).restoreWaits = _
      rw [Quad.get_set_self]
      rfl
    have hrestored : ∀ x, posted.restored p x = s.part.restored p x := fun x => by
      rw [hpostedframe]
      rfl
    have hdone := hexec _ (Part.frameSent_ending hcfg hrunning hending)
    rw [hwaits, hrestored] at hdone
    exact hdone

end

section
/-! PROOFS of the statements about the bursts of captures, feeds and commits (R108 to R119). -/

namespace Sys2Proof.Machine

/-! ### The end of a burst whose data is still wanted (R108) -/

theorem State.landBurst_eq (s : State) (b : Burst) : s.landBurst b = { s with
    memory := if b.kind.writes then s.memory.writeRun b.addr b.data else s.memory
    path := { s.path with burst := none } } := by
  unfold State.landBurst State.endBurst
  cases b.kind.writes <;> rfl

section
variable {s : State} {b : Burst} {g : Setup} {c : PanelCfg} {slot : Nat} {j : Job} {r : RunFields} {e : Engine}

theorem State.Serves.liveJob (h : s.Serves b g c slot j r e) : s.part.liveJob? b = some (slot, j, r, e) := by
  obtain ⟨-, -, -, -, hr, he, hflight, hdiscard⟩ := h
  unfold Part.liveJob?
  rw [hr, he]
  simp only [hflight, hdiscard]
  rfl

theorem State.Serves.panelCfg (h : s.Serves b g c slot j r e) : s.part.panelCfg? b.panel = some c := by
  obtain ⟨-, -, hg, hc, -⟩ := h
  unfold Part.panelCfg?
  rw [hg]
  exact hc

theorem CompletesWith.of_captureBurst (h : s.Serves b g c slot j r e) (hk : b.kind.isCapture = true) {a : Part}
    (ha : s.part.captureBurst b (Memory.readRun s.memory b.addr (8 * b.tiles)) = a) :
    CompletesWith .captureBurstEnd s { s with
      memory := if b.kind.writes then s.memory.writeRun b.addr b.data else s.memory
      path := { s.path with burst := none }, part := a } := by
  obtain ⟨hs, hb, -⟩ := h
  refine .of_event (en := b.kind.isCapture) (f := State.captureBurstEnd b) hs.1 ?_ hk ?_
  · show execCaptureBurstEnd s = _
    unfold execCaptureBurstEnd
    rw [hb]
  · rw [← ha]
    unfold State.captureBurstEnd
    rw [State.landBurst_eq]
    rfl

theorem CompletesWith.of_feedBurst {s : State} {b : Burst} (hs : s.Ready) (hb : s.path.burst = some b)
    (hk : b.kind = .feedShown ∨ b.kind = .feedStage) {a : Part}
    (ha : s.part.feedBurstEnded b (Memory.readRun s.memory b.addr (8 * b.tiles)) = a) :
    CompletesWith .feedBurstEnd s { s with path := { s.path with burst := none }, part := a } := by
  refine .of_event (en := b.kind.isFeed) (f := State.feedBurstEnd b) hs.1 ?_ (by rcases hk with h | h <;> rw [h] <;> rfl) ?_
  · show execFeedBurstEnd s = _
    unfold execFeedBurstEnd
    rw [hb]
  · rw [← ha]
    unfold State.feedBurstEnd
    rw [State.landBurst_eq, if_neg (by rcases hk with h | h <;> rw [h] <;> exact Bool.false_ne_true)]
    rfl

theorem CompletesWith.of_commitWrite (h : s.Serves b g c slot j r e) (hk : b.kind = .commitWrite) {a : Part}
    (ha : s.part.commitWrite b = a) :
    CompletesWith .commitWriteEnd s { s with
      memory := s.memory.writeRun b.addr b.data, path := { s.path with burst := none }, part := a } := by
  obtain ⟨hs, hb, -⟩ := h
  refine .of_event (en := b.kind == .commitWrite) (f := State.commitWriteEnd b) hs.1 ?_ (beq_iff_eq.2 hk) ?_
  · show execCommitWriteEnd s = _
    unfold execCommitWriteEnd
    rw [hb]
  · rw [← ha]
    unfold State.commitWriteEnd
    rw [State.landBurst_eq, hk]
    rfl

theorem State.Serves.captureBurst (h : s.Serves b g c slot j r e) (data : List Byte) :
    s.part.captureBurst b data = if b.endsCapture j then s.part.captureEnd g c b.panel slot j r { e with inFlight := false }
      else s.part.setEngine b.panel (some (e.captureNext c j r.mode b data)) := by
  obtain ⟨-, -, hg, -⟩ := id h
  unfold Part.captureBurst
  simp only [hg, h.panelCfg, h.liveJob]

/-- A capture burst that does not end the capture goes on with the engine's next (R109, R110). -/
theorem State.Serves.captureGoes (h : s.Serves b g c slot j r e) (hk : b.kind.isCapture = true)
    (hends : b.endsCapture j = false) :
    CompletesWith .captureBurstEnd s { s with
      memory := if b.kind.writes then s.memory.writeRun b.addr b.data else s.memory
      path := { s.path with burst := none }
      part := s.part.setEngine b.panel
        (some (e.captureNext c j r.mode b (Memory.readRun s.memory b.addr (8 * b.tiles)))) } :=
  .of_captureBurst h hk ((h.captureBurst _).trans (if_neg (by rw [hends]; exact Bool.false_ne_true)))

theorem State.Serves.feedBurst (h : s.Serves b g c slot j r e) (data : List Byte) :
    s.part.feedBurstEnded b data
      = s.part.setEngine b.panel (some (e.feedEnded c b.panel j r.mode (g.frameCount r) b data)) := by
  obtain ⟨-, -, hg, -⟩ := id h
  unfold Part.feedBurstEnded
  simp only [hg, h.panelCfg, h.liveJob, Setup.frames_eq_frameCount]

theorem State.Serves.commitWrite (h : s.Serves b g c slot j r e) :
    s.part.commitWrite b
      = s.part.continueCommit g c b.panel slot j r { e with inFlight := false } b.row (b.tx + b.tiles) := by
  obtain ⟨-, -, hg, -⟩ := id h
  unfold Part.commitWrite
  simp only [hg, h.panelCfg, h.liveJob]

end

/-! ### The changed counts (R109) -/

theorem Engine.countChanges_eq (r : Rect) (ty n : Nat) :
    ∀ (tx : Nat) (target shown : List Byte) (e : Engine), Engine.countChanges r ty n tx target shown e
      = { e with context := (Engine.countChanges r ty n tx target shown e).context } := by
  induction n with
  | zero => exact fun _ _ _ _ => rfl
  | succ n ih =>
    intro tx target shown e
    unfold Engine.countChanges
    rw [ih]
    rfl

/-- The changed counts of a group's tiles, by the eight bytes of each (R109). -/
theorem Engine.countChanges_entry (r : Rect) (ty : Nat) (hty : r.ty0 ≤ ty ∧ ty ≤ r.ty1) (n : Nat) :
    ∀ (tx : Nat) (target shown : List Byte) (e : Engine), r.tx0 ≤ tx → tx + n ≤ r.tx1 + 1 →
      e.context.length = r.cols * r.rows → ∀ x y, r.contains x y = true →
        (Engine.countChanges r ty n tx target shown e).entry r x y
          = if y = ty ∧ tx ≤ x ∧ x < tx + n then
              { e.entry r x y with
                changed := (e.entry r x y).changed
                  + changedPixels ((target.drop (8 * (x - tx))).take 8) ((shown.drop (8 * (x - tx))).take 8) }
            else e.entry r x y := by
  induction n with
  | zero =>
    intro tx target shown e _ _ _ x y _
    rw [if_neg (by omega)]
    rfl
  | succ n ih =>
    intro tx target shown e h0 h1 hl x y hxy
    have hc : r.contains tx ty = true := by simp [Rect.contains]; omega
    have hdrop : ∀ l : List Byte, tx < x → (l.drop 8).drop (8 * (x - (tx + 1))) = l.drop (8 * (x - tx)) := fun l h => by
      rw [List.drop_drop]
      congr 1
      omega
    unfold Engine.countChanges
    rw [ih (tx + 1) _ _ _ (by omega) (by omega) (by simpa [Engine.updateEntry] using hl) x y hxy,
      Engine.entry_updateEntry _ hl hc hxy]
    by_cases hhere : x = tx ∧ y = ty
    · obtain ⟨rfl, rfl⟩ := hhere
      rw [if_neg (c := y = y ∧ x + 1 ≤ x ∧ x < x + 1 + n) (by omega), if_pos ⟨rfl, rfl⟩,
        if_pos (c := y = y ∧ x ≤ x ∧ x < x + (n + 1)) (by omega), Nat.sub_self]
      rfl
    · rw [if_neg hhere]
      by_cases hlater : y = ty ∧ tx + 1 ≤ x ∧ x < tx + 1 + n
      · rw [if_pos hlater, if_pos (by omega), hdrop _ (by omega), hdrop _ (by omega)]
      · rw [if_neg hlater, if_neg (by omega)]

/-! ### Feed bursts (R113) -/

section
variable (e : Engine) (c : PanelCfg) (p : PanelNo) (j : Job) (mode : DriveMode) (frames : Nat) (b : Burst) (data : List Byte)
  (pair : RowPair)

/-- A burst that no running job wants any more is discarded (R108, R112). -/
theorem Part.feedBurstEnded_abandoned {a : Part} (h : a.liveJob? b = none) :
    a.feedBurstEnded b data = a.discardEnded b.panel := by
  unfold Part.feedBurstEnded
  rw [h]
  cases a.setup <;> cases a.panelCfg? b.panel <;> rfl

theorem Part.liveJob?_none {a : Part} (he : a.engine? b.panel = some e) (h : e.inFlight = false ∨ e.discard = true) :
    a.liveJob? b = none := by
  unfold Part.liveJob?
  rw [he]
  cases a.running? b.panel with
  | none => rfl
  | some x =>
    refine if_neg ?_
    rcases h with h | h <;> rw [h] <;> simp

end

end Sys2Proof.Machine

open Sys2Proof Sys2Proof.Machine

/-- Settles O38: each burst's successor by its kind. -/
theorem captureBurstsFollow : Obligations.CaptureBurstsFollow := by
  intro s b g c slot j r e h
  refine ⟨fun hk => ?_, fun hk hleft hright htop hbottom hlength => ?_, fun hk hmore => ?_⟩
  · have hends : b.endsCapture j = false := by unfold Burst.endsCapture; rw [hk]; rfl
    have hdone := h.captureGoes (by rw [hk]; rfl) hends
    unfold Engine.captureNext at hdone
    simp only [hk] at hdone
    cases hm : r.mode with
    | part => rw [hm] at hdone; exact hdone
    | full => rw [hm] at hdone; exact hdone
  · have hends : b.endsCapture j = false := by unfold Burst.endsCapture; rw [hk]; rfl
    have hdone := h.captureGoes (by rw [hk]; rfl) hends
    unfold Engine.captureNext at hdone
    simp only [hk] at hdone
    refine ⟨_, hdone, Engine.countChanges_eq .., fun tx ty hin => ?_⟩
    exact Engine.countChanges_entry j.rect (b.row / 32) ⟨htop, hbottom⟩ b.tiles b.tx _ _
      { e with
        inFlight := false, request := some (groupBurst c .captureStage b.panel b.row b.tx b.tiles b.data) }
      hleft hright hlength tx ty hin
  · have hends : b.endsCapture j = false := by
      have hnot : ¬(j.rect.tx1 < b.tx + b.tiles ∧ 32 * j.rect.ty1 + 31 ≤ b.row) := by omega
      unfold Burst.endsCapture Rect.lastRow
      rw [hk]
      simpa using hnot
    have hdone := h.captureGoes (by rw [hk]; rfl) hends
    unfold Engine.captureNext at hdone
    simp only [hk] at hdone
    by_cases hrow : b.tx + b.tiles ≤ j.rect.tx1
    · rw [if_pos hrow] at hdone
      exact ⟨b.row, b.tx + b.tiles, (if_pos hrow).symm, hdone⟩
    · rw [if_neg hrow] at hdone
      exact ⟨b.row + 1, j.rect.tx0, (if_neg hrow).symm, hdone⟩

/-- Settles O40: each burst's successor by its kind, and an abandoned burst by the engine's marks. -/
theorem feedBurstsFollow : Obligations.FeedBurstsFollow := by
  refine ⟨fun s b g c slot j r e pair data h hfill hgoing hdata => ?_, fun s b e hs hb hk he => ?_⟩
  · subst hdata
    obtain ⟨hs, hb, -⟩ := id h
    refine ⟨fun hk => .of_feedBurst hs hb (.inl hk) ?_, fun hk hmore => .of_feedBurst hs hb (.inr hk) ?_, fun hk hover => ?_⟩
    · rw [h.feedBurst]
      unfold Engine.feedEnded
      simp only [hfill, hk, hgoing]
      rfl
    · rw [h.feedBurst]
      unfold Engine.feedEnded
      simp only [hfill, hk, hgoing, if_pos hmore]
      cases hm : r.mode <;> rfl
    · refine ⟨_, .of_feedBurst hs hb (.inr hk) (h.feedBurst _), ?_⟩
      unfold Engine.feedEnded
      simp only [hfill, hk, if_neg (Nat.not_le.2 hover)]
      exact Engine.fillsNext ..
  · refine ⟨fun hflight => ?_, fun hflight hdiscard => ?_⟩
    · refine .of_feedBurst hs hb hk ?_
      rw [Part.feedBurstEnded_abandoned b _ (Part.liveJob?_none e b he (.inl hflight))]
      exact Part.discardEnded_eq_self fun x hx => by
        rw [← Option.some.inj (he.symm.trans hx), hflight]
        rfl
    · refine .of_feedBurst hs hb hk ?_
      rw [Part.feedBurstEnded_abandoned b _ (Part.liveJob?_none e b he (.inr hdiscard))]
      unfold Part.discardEnded
      rw [he]
      exact if_pos (by rw [hflight, hdiscard]; rfl)

/-- Settles O41: a read's write, and the next group of maximal width after a write. -/
theorem commitBurstsFollow : Obligations.CommitBurstsFollow := by
  intro s b g c slot j r e h
  refine ⟨fun hk => ?_, fun hk hsome => ?_⟩
  · obtain ⟨hs, hb, -⟩ := id h
    refine .of_event (en := b.kind == .commitRead) (f := State.commitReadEnd b) hs.1 ?_ (beq_iff_eq.2 hk) ?_
    · show execCommitReadEnd s = _
      unfold execCommitReadEnd
      rw [hb]
    · unfold State.commitReadEnd Part.commitRead
      simp only [h.panelCfg, h.liveJob]
      rw [State.landBurst_eq, hk]
      rfl
  · have hdone := CompletesWith.of_commitWrite h hk h.commitWrite
    obtain ⟨hgoes, -⟩ := Part.continueCommit_spec (a := s.part) (g := g) (c := c) (p := b.panel) slot j r
      { e with inFlight := false } (y0 := b.row) (x0 := b.tx + b.tiles)
      (copied := fun x y => e.toCopy j.rect r.mode x (y / 32) = true) fun _ _ => Iff.rfl
    obtain ⟨row, tx, w, hgroup, hnext⟩ := hgoes hsome
    rw [hnext] at hdone
    exact ⟨row, tx, w, hgroup, hdone⟩

end

section
/-! PROOFS of the statement about the end of a capture (R50, R99, R100, R110, R113, R130, R140). -/

namespace Sys2Proof.Machine

/-! ### A running job under another record -/

/-- A search finds in a changed slot the new record where it found the old one there. -/
theorem findJob_replaced {f : Job → Bool} {pool : List (Option Job)} {i k : Nat} {j x : Job}
    (h : findJob f i pool = some (i + k, j)) (hx : f x = true) : findJob f i (pool.set k (some x)) = some (i + k, x) := by
  induction pool generalizing i k with
  | nil => cases h
  | cons y ys ih =>
    have hlater : findJob f (i + 1) ys = some (i + k, j) → ∃ n, k = n + 1 ∧
        findJob f (i + 1) (ys.set n (some x)) = some (i + k, x) := fun hrest => by
      obtain ⟨hle, -⟩ := findJob_some hrest
      obtain ⟨n, rfl⟩ : ∃ n, k = n + 1 := ⟨k - 1, by omega⟩
      have hn : i + 1 + n = i + (n + 1) := by omega
      rw [← hn] at hrest ⊢
      exact ⟨n, rfl, ih hrest⟩
    cases y with
    | none =>
      obtain ⟨n, rfl, hrest⟩ := hlater h
      exact hrest
    | some y =>
      unfold findJob at h
      split at h
      · have hk : k = 0 := by
          obtain ⟨h', -⟩ := Prod.mk.inj (Option.some.inj h)
          omega
        subst hk
        exact if_pos hx
      · next hy =>
        obtain ⟨n, rfl, hrest⟩ := hlater h
        exact (if_neg hy).trans hrest

/-- A panel's running job under another record of the same panel. -/
theorem Part.running?_replaced {a b : Part} {p : PanelNo} {slot : Nat} {j x : Job} {r run : RunFields}
    (h : a.running? p = some (slot, j, r)) (hpool : b.pool = a.pool.set slot (some x)) (hstate : x.state ≠ .queued)
    (hpanel : x.panel = p) (hrun : x.running = some run) : b.running? p = some (slot, x, run) := by
  have hfound : findJob (fun j => j.state != .queued && j.panel == p) 0 a.pool = some (0 + slot, j) := by
    unfold Part.running? at h
    split at h
    · next k q hf =>
      split at h
      · cases h
        rw [Nat.zero_add]
        exact hf
      · cases h
    · cases h
  have hnew := findJob_replaced hfound (x := x) (by simp [hstate, hpanel])
  rw [Nat.zero_add] at hnew
  unfold Part.running?
  rw [hpool, hnew]
  simp only [hrun]

/-! ### A retirement with no zone HELD and no settle timer stopped (R32, R33) -/

section
variable (a : Part) (g : Setup)

theorem Part.retryHeld_quiet (h : ∀ z ∈ a.zones, z.held = none) (zs : List ZoneCfg) : a.retryHeld g zs = a := by
  induction zs with
  | nil => rfl
  | cons z zs ih =>
    have hnone : (a.zone? z.index).bind (·.held) = none := by
      cases hz : a.zone? z.index with
      | none => rfl
      | some y => exact h y (Part.zone?_some hz).1
    unfold Part.retryHeld
    rw [hnone]
    exact ih

/-- The retire trigger does nothing at a zone whose settle timer runs, nor at one without a record (R33). -/
theorem Part.retireTriggerAt_quiet (h : ∀ z ∈ a.zones, z.timer.isSome = true) (z : ZoneCfg) :
    Part.retireTriggerAt g a z = a := by
  unfold Part.retireTriggerAt Part.timerStopped
  cases hz : a.zone? z.index with
  | some y =>
    have htimer := h y (Part.zone?_some hz).1
    exact if_neg (by cases ht : y.timer <;> simp_all)
  | none =>
    have henqueue : ∀ o, a.enqueue g z o = a := fun o => by
      unfold Part.enqueue Part.zoneDirty
      rw [hz]
      rfl
    simp only [if_true]
    unfold Part.expire
    split
    · exact henqueue _
    · exact henqueue _
    · split
      · rfl
      · exact henqueue _
    · rw [hz]

theorem Part.retireZones_quiet (h : ∀ z ∈ a.zones, z.timer.isSome = true) (j : Job) :
    a.retireZones g j = a.withoutRunning j := by
  have hrunning : ∀ z ∈ (a.withoutRunning j).zones, z.timer.isSome = true := fun z hz => by
    obtain ⟨y, hy, rfl⟩ := List.mem_map.1 hz
    have htimer := h y hy
    split <;> exact htimer
  have hfold : ∀ zs : List ZoneCfg, zs.foldl (Part.retireTriggerAt g) (a.withoutRunning j) = a.withoutRunning j := by
    intro zs
    induction zs with
    | nil => rfl
    | cons z zs ih => rw [List.foldl_cons, Part.retireTriggerAt_quiet _ g hrunning, ih]
  unfold Part.retireZones
  rw [Part.clearRunning_eq]
  exact hfold _

theorem Part.settled_zones (j : Job) (f : Nat → Nat → Tile → Tile) :
    (a.settled g j f).zones = a.zones.map (Zone.follow (a.settled g j f).tiles a.clock.mono) := by
  rw [Part.settled_tiles]
  unfold Part.settled
  rw [(Part.latchLoose_frame _ g j).1]
  unfold Part.followTiles
  rw [Part.mapTiles_eq]

/-- Settling tiles makes no zone HELD and stops no settle timer (R17). -/
theorem Part.ZonesQuiet.settled {a : Part} (h : a.ZonesQuiet) (g : Setup) (j : Job) (f : Nat → Nat → Tile → Tile) :
    (a.settled g j f).ZonesQuiet := by
  intro z hz
  rw [Part.settled_zones] at hz
  obtain ⟨y, hy, rfl⟩ := List.mem_map.1 hz
  obtain ⟨hheld, htimer⟩ := h y hy
  refine ⟨?_, htimer⟩
  show (if dirtyTiles _ _ = 0 then none else y.held) = none
  rw [hheld, ite_self]

/-- The end of a job whose tiles are settled, with no zone HELD and no settle timer stopped: the zones it concerns have no
running job, and nothing else happens (R32, R33). -/
theorem Part.retires_quiet {a b : Part} (h : a.ZonesQuiet) (g : Setup) (j : Job) (f : Nat → Nat → Tile → Tile)
    (hz : b.zones = (a.settled g j f).zones) (ht : b.tiles = (a.settled g j f).tiles) :
    (b.slotsFreed g).retireZones g j = { b with zones := ((b.slotsFreed g).retireZones g j).zones }
      ∧ ∀ n y, a.zone? n = some y →
        ((b.slotsFreed g).retireZones g j).zone? n
          = some { y.counted ((b.slotsFreed g).retireZones g j).tiles a.clock.mono with
              runningJob := if j.scope = .zone n then none else y.runningJob } := by
  have hquiet : b.ZonesQuiet := fun z hz' => h.settled g j f z (hz ▸ hz')
  have hdone : (b.slotsFreed g).retireZones g j = b.withoutRunning j := by
    have hfreed : b.slotsFreed g = b := Part.retryHeld_quiet b g (fun z hz' => (hquiet z hz').1) _
    rw [hfreed]
    exact Part.retireZones_quiet b g (fun z hz' => (hquiet z hz').2) j
  rw [hdone]
  refine ⟨rfl, fun n y hy => ?_⟩
  have hzone : b.zone? n = some (y.counted (a.settled g j f).tiles a.clock.mono) := by
    rw [Part.zone?_congr hz, Part.zone?_settled, hy]
    rfl
  have htiles : (b.withoutRunning j).tiles = (a.settled g j f).tiles := ht
  rw [Part.zone?_withoutRunning, hzone, htiles]
  rfl

end

/-! ### The causes that the end of a job may latch (R23, R32, R33, R50, R59) -/

theorem Part.wakes_expire (a : Part) (g : Setup) (z : ZoneCfg) (o o' : Origin) : a.Wakes (a.expire g z o o') := by
  unfold Part.expire
  split
  · exact Part.wakes_enqueue ..
  · exact Part.wakes_enqueue ..
  · split
    · exact .refl a
    · exact Part.wakes_enqueue ..
  · split
    · split
      · exact Part.Wakes.trans (b := a.updateZone z.index fun y => { y with epochWait := false }) (.of_same rfl rfl rfl)
          (Part.wakes_enqueue ..)
      · exact .refl a
    · exact .refl a

theorem Part.wakes_retireZones (a : Part) (g : Setup) (j : Job) : a.Wakes (a.retireZones g j) := by
  unfold Part.retireZones
  rw [Part.clearRunning_eq]
  refine Part.Wakes.trans (b := a.withoutRunning j) (.of_same rfl rfl rfl) (.foldl (fun a z => ?_) _ _)
  unfold Part.retireTriggerAt
  split
  · exact Part.wakes_expire ..
  · exact .refl a

theorem Part.detail_checkHalted (a : Part) {k : Cause} (hk : k ≠ .halted) :
    a.checkHalted.unit.detail? k = a.unit.detail? k := by
  unfold Part.checkHalted
  split
  · exact Part.detail_latch_ne { a with unit := { a.unit with runState := .stopped } } 0 hk
  · rfl

/-- The tiles of a null job at its retirement (R50). -/
def Tile.settledNull (x : Tile) : Tile := { x with state := if x.redirty then .dirty else .clean, redirty := false }

/-- A null retirement latches no URGENT_SHOWN (R50), and places nothing where no zone is HELD and no timer stopped. -/
theorem Part.nullRetired_quiet (a : Part) (g : Setup) {c : PanelCfg} (slot : Nat) (j : Job) (r : RunFields)
    (hc : a.panelCfg? j.panel = some c) :
    ∃ ended retired, a.NullRetired ended retired (a.retireNull g slot j r) g c slot j r
      ∧ (a.retireNull g slot j r).unit.detail? .urgentShown = a.unit.detail? .urgentShown
      ∧ (a.ZonesQuiet → retired = { ended with zones := retired.zones }
          ∧ ∀ n y, a.zone? n = some y → retired.zone? n = some { y.counted retired.tiles a.clock.mono with
              runningJob := if j.scope = .zone n then none else y.runningJob }) := by
  have hended := Part.ended_eq a g slot j r hc fun _ _ => Tile.settledNull
  have hnull : a.retireNull g slot j r
      = (((((a.settled g j fun _ _ => Tile.settledNull).endJob slot j r).restIfIdle j.panel).slotsFreed g).retireZones g
          j).checkHalted := rfl
  rw [hended] at hnull
  have hsettled := Part.settledBy a g j fun _ _ => Tile.settledNull
  obtain ⟨-, hcauses⟩ := Part.settled_frame a g j fun _ _ => Tile.settledNull
  have hquiet := fun h : a.ZonesQuiet => Part.retires_quiet (b := a.without (a.settled g j fun _ _ => Tile.settledNull) c slot j r)
    h g j (fun _ _ => Tile.settledNull) rfl rfl
  generalize (a.settled g j fun _ _ => Tile.settledNull) = x at hnull hsettled hcauses hquiet
  refine ⟨a.without x c slot j r, ((a.without x c slot j r).slotsFreed g).retireZones g j,
    ⟨rfl, hsettled.congr rfl rfl rfl, Part.retires _ g j, ?_⟩, ?_, hquiet⟩
  · rw [hnull]
    exact Part.halted _
  · obtain ⟨-, -, hdetail, -⟩ := (Part.wakes_retryHeld g g.zones (a.without x c slot j r)).trans (Part.wakes_retireZones _ g j)
    rw [hnull, Part.detail_checkHalted _ (by decide)]
    exact (hdetail .urgentShown (by decide) (by decide)).trans (hcauses .urgentShown (by decide))

/-! ### The capture end of a job with pixels to change (R99, R100) -/

section
variable {a : Part} {g : Setup} {c : PanelCfg} {p : PanelNo} {slot : Nat} {j : Job} {r : RunFields} {e : Engine}

/-- The cost formula of the capture end (R97, R99). -/
theorem jobCost_eq (g : GlobalSettings) (c : PanelCfg) (n frames : Nat) (x : RailState) :
    jobCost g c n frames x.boosts
      = ceilDiv (ceilDiv (n * frames * c.pixelCost) 1000 + frames * c.frameCost
          + (if x = .off ∨ x = .falling ∨ x = .fault then g.boost else 0)) 1000 := by
  unfold jobCost
  cases x <;> rfl

/-- The part once the actual cost has taken the place of the estimate (R99, R100). -/
def Part.charged (a : Part) (slot : Nat) (j : Job) (r : RunFields) (cost : Nat) : Part :=
  { a with
    pool := a.pool.set slot (some { j with state := .poised, running := some { r with cost := cost } })
    committed := a.committed - r.cost + cost }

theorem Part.captureEnd_eq {n cost : Nat} (hwork : r.mode = .full ∨ 0 < e.changedTotal)
    (hn : n = if r.mode = .part then min e.changedTotal r.estimatePixels else r.estimatePixels)
    (hcost : cost = jobCost g.globals c n (g.frameCount r) a.rail.state.boosts) :
    a.captureEnd g c p slot j r e
      = if (a.port p).state = .fault then
          (a.charged slot j r cost).abortJob g slot { j with state := .poised, running := some { r with cost := cost } }
            { r with cost := cost }
        else
          (((a.charged slot j r cost).setEngine p
            (some (Engine.startFill { e with feed := some (0, 32 * j.rect.ty0), inFlight := false } c p j r.mode
              (g.frameCount r)))).demandRail g).driveIfReady g p := by
  subst hcost
  have hnull : ¬(r.mode = .part ∧ e.changedTotal = 0) := by
    rintro ⟨hpart, hzero⟩
    rcases hwork with h | h
    · rw [hpart] at h
      cases h
    · omega
  have hframes := Setup.frames_eq_frameCount g r
  unfold Part.captureEnd
  rw [if_neg hnull, hn, ← hframes]
  obtain ⟨mode, band, estimate, old, frame, carried⟩ := r
  cases mode <;> rfl

/-- A job that has become POISED at a port not in FAULT demands the rail and may start its drive (R130, R140). -/
theorem Part.poised_drives (hr : a.running? p = some (slot, j, r)) (hc : g.panels.get p = some c) (howed : a.walkOwed = false)
    {cost : Nat} (e' : Engine) {starts : Bool} (hs : starts = true ↔ (a.rail.wanted g).state = .up
      ∧ (a.port p).state = .ready ∧ (a.port p).queryDue = false) :
    (((a.charged slot j r cost).setEngine p (some e')).demandRail g).driveIfReady g p
      = { a with
          pool := a.pool.set slot
            (some { j with state := if starts then .driving else .poised, running := some { r with cost := cost } })
          committed := a.committed - r.cost + cost
          engines := a.engines.set p (some e')
          ports := if starts then a.ports.set p ((a.port p).opened g c j r) else a.ports
          rail := a.rail.wanted g
          walkOwed := starts || decide ((a.rail.wanted g).state ≠ a.rail.state) } := by
  obtain ⟨-, -, hpanel, -⟩ := Part.running?_some hr
  have hdemand : ((a.charged slot j r cost).setEngine p (some e')).demandRail g = { a with
      pool := a.pool.set slot (some { j with state := .poised, running := some { r with cost := cost } })
      committed := a.committed - r.cost + cost
      engines := a.engines.set p (some e')
      rail := a.rail.wanted g
      walkOwed := decide ((a.rail.wanted g).state ≠ a.rail.state) } := by
    rw [Part.demandRail_eq]
    unfold Part.charged Part.setEngine
    dsimp only
    rw [howed, Bool.false_or]
  rw [hdemand]
  have hrunning : Part.running? { a with
      pool := a.pool.set slot (some { j with state := .poised, running := some { r with cost := cost } })
      committed := a.committed - r.cost + cost
      engines := a.engines.set p (some e')
      rail := a.rail.wanted g
      walkOwed := decide ((a.rail.wanted g).state ≠ a.rail.state) } p
        = some (slot, { j with state := .poised, running := some { r with cost := cost } }, { r with cost := cost }) :=
    Part.running?_replaced hr rfl (by simp) hpanel rfl
  rw [Part.driveIfReady_eq hrunning rfl hc hs]
  cases starts
  · simp
  · rw [if_pos rfl, List.set_set]
    rfl

end

end Sys2Proof.Machine

open Sys2Proof Sys2Proof.Machine

/-- Settles O39: the null retirement, or the job charged with its actual cost and then aborted, POISED or DRIVING. -/
theorem captureEnds : Obligations.CaptureEnds := by
  intro s b g c slot j r e wrote h hk hright hbottom hwrote
  obtain ⟨hs, -, hg, hc, hr, -⟩ := id h
  obtain ⟨-, -, hpanel, -⟩ := Part.running?_some hr
  have hcfg : ∀ x : Machine.Part, x.setup = some g → x.panelCfg? j.panel = some c := fun x hx => by
    unfold Part.panelCfg?
    rw [hx, hpanel]
    exact hc
  have hends : b.endsCapture j = true := by
    unfold Burst.endsCapture Rect.lastRow
    rw [hk]
    simpa using And.intro hright hbottom
  have hdone : ∀ a, s.part.captureEnd g c b.panel slot j r { e with inFlight := false } = a →
      CompletesWith .captureBurstEnd s (wrote a) := fun a ha => by
    have hburst := CompletesWith.of_captureBurst h (by rw [hk]; rfl) ((h.captureBurst _).trans ((if_pos hends).trans ha))
    rw [hwrote]
    rw [if_pos (by rw [hk]; rfl)] at hburst
    exact hburst
  refine ⟨fun n cost run hwork hn hcost hrun => ?_, fun hpart hzero => ?_⟩
  · subst hrun
    have hend := Part.captureEnd_eq (a := s.part) (p := b.panel) (slot := slot) (j := j) (e := { e with inFlight := false })
      hwork hn (hcost.trans (jobCost_eq g.globals c n (g.frameCount r) s.part.rail.state).symm)
    refine ⟨fun hfine rail starts hrail hstarts => ?_, fun hfault => ?_⟩
    · subst hrail
      rw [if_neg hfine] at hend
      exact ⟨_, Engine.fillsNext .., hdone _ (hend.trans (Part.poised_drives hr hc hs.2 _ hstarts))⟩
    · rw [if_pos hfault] at hend
      obtain ⟨cut, hcut⟩ := Part.aborted (s.part.charged slot j r cost) g slot
        { j with state := .poised, running := some { r with cost := cost } } { r with cost := cost } (hcfg _ hg)
      refine ⟨s.part.charged slot j r cost, cut, _, hdone _ hend, rfl, ?_⟩
      exact hcut
  · obtain ⟨ended, retired, hnull, hshown, hquiet⟩ := Part.nullRetired_quiet s.part g slot j r (hcfg _ hg)
    exact ⟨ended, retired, _, hdone _ (if_pos ⟨hpart, hzero⟩), hnull, hshown, hquiet⟩

end

section
/-! PROOFS. The refutation of the statement about the end of a commit (R119, R120): of a rectangle whose last tile column lies
left of its first no tile is left to be copied, and yet the engine goes on with a further group, because the search of
`Engine.groupFrom` begins at the column after the group written, whether the rectangle has that column or not. -/

namespace Sys2Proof.Machine

/-- A panel of two by two tiles. -/
def smallPanel : PanelCfg := ⟨10, 64, 64, 16, 0x40000, 0x50000, 0x60000, 100, 100, 30, 60, 5, 20, 40, 38, 180⟩

/-- The settings that a sign memory of zeros clamps to, and one panel with no zones. -/
def zonelessSetup : Setup := ⟨(readGlobals []).1, [], ⟨some smallPanel, none, none, none⟩, []⟩

def emptyRun : RunFields := ⟨.full, 0, 5, 1024, none, []⟩

/-- A COMMITTING job over the tile columns from 1 to 0: a rectangle with no tile. -/
def emptyJob : Job :=
  ⟨0, .zone 0, ⟨1, 0, 0, 0⟩, .routine, .settle, false, 0, 0, .committing, some emptyRun, false, false⟩

/-- The engine whose burst is in progress, with one context entry, copied in a FULL job. -/
def copyingEngine : Engine := ⟨0, [⟨0, false, false, false⟩], 0, 0, none, none, [], false, none, none, true, false⟩

/-- A SHOWN write of no tile at the left edge of the panel. -/
def emptyWrite : Burst := ⟨.commitWrite, 0, 0, 0, 0, 0x60000, []⟩

/-- The part STOPPED with the empty job in slot 0 and its write burst in progress. -/
def committingEmpty : State :=
  { State.reset with
    path := { Path.reset with inReset := false, burst := some emptyWrite }
    part := { Part.reset with
      unit := { WindowUnit.reset with runState := .stopped }
      setup := some zonelessSetup
      pool := some emptyJob :: List.replicate 31 none
      runningCount := 1
      committed := 5
      engines := ⟨some copyingEngine, none, none, none⟩ } }

theorem committingEmpty_serves : committingEmpty.Serves emptyWrite zonelessSetup smallPanel 0 emptyJob emptyRun copyingEngine :=
  ⟨by decide, rfl, rfl, rfl, rfl, rfl, rfl, rfl⟩

theorem committingEmpty_noneLeft (copied : Nat → Nat → Prop) : emptyJob.rect.NoneLeft copied 0 0 := by
  intro _ x hleft hright
  have h1 : 1 ≤ x := hleft
  have h0 : x ≤ 0 := hright
  omega

/-- The engine goes on with the group of column 0, which lies outside the rectangle, and the job stays. -/
theorem committingEmpty_goes_on : ∃ e',
    CompletesWith .commitWriteEnd committingEmpty { committingEmpty with
      memory := committingEmpty.memory.writeRun 0x60000 [], path := { committingEmpty.path with burst := none }
      part := committingEmpty.part.setEngine 0 (some e') } :=
  ⟨_, .of_commitWrite committingEmpty_serves rfl (committingEmpty_serves.commitWrite.trans rfl)⟩

/-- What a part keeps that a job has left which no zone, no urgency and no halt concerns. -/
theorem Part.CommitRetired.runningCount_of_plain {before ended retired after : Part} {c : PanelCfg} {slot : Nat} {j : Job}
    {r : RunFields} {e : Engine} {g : Setup} (h : before.CommitRetired ended retired after g c slot j r e) (hz : g.zones = [])
    (hcls : j.cls ≠ .urgent ∧ j.urgentCarried = false) (hrun : before.unit.runState = .stopped) :
    after.unit.runState = .stopped ∧ after.runningCount = before.runningCount - 1 := by
  obtain ⟨hended, -, -, -, ⟨mid, hheld, hpasses⟩, shown, ⟨-, hshown⟩, -, hhalted⟩ := h
  have hconcerned : g.zonesConcerned j = [] := by
    unfold Setup.zonesConcerned Setup.zone?
    rw [hz]
    cases j.scope <;> rfl
  rw [hz] at hheld
  rw [hconcerned] at hpasses
  have hmid : mid = ended := hheld
  have hretired : retired = mid.withoutRunning j := hpasses
  have hplain := hshown (.inr hcls)
  have hstate : shown.unit.runState = .stopped := by
    rw [hplain, hretired, hmid, hended]
    exact hrun
  have hafter := hhalted fun hh => by
    rw [hstate] at hh
    exact absurd hh.1 (by decide)
  refine ⟨by rw [hafter, hstate], ?_⟩
  rw [hafter, hplain, hretired, hmid, hended]
  rfl

end Sys2Proof.Machine

open Sys2Proof Sys2Proof.Machine

/-- Refutes O42: a job whose rectangle has no tile does not retire at the end of a SHOWN write at column 0, but goes on with a
group of a column outside the rectangle. -/
theorem not_commitEndRetires : ¬ Obligations.CommitEndRetires := by
  intro h
  obtain ⟨ended, retired, after, ⟨t, ht, -, -, -, hstopped⟩, hretires, -⟩ :=
    h committingEmpty emptyWrite zonelessSetup smallPanel 0 emptyJob emptyRun copyingEngine committingEmpty_serves rfl
      (committingEmpty_noneLeft _)
  obtain ⟨e', t', ht', -, -, hquiet, -⟩ := committingEmpty_goes_on
  obtain rfl : t = t' := by
    rw [ht] at ht'
    cases ht'
    rfl
  obtain ⟨hstate, hcount⟩ := hretires.runningCount_of_plain rfl ⟨by decide, rfl⟩ rfl
  have hstays : t.part.runningCount = 1 := (hquiet rfl).runningCount
  have hleaves : t.part.runningCount = after.runningCount := (hstopped (by rw [hstate]; decide)).runningCount
  have hone : committingEmpty.part.runningCount = 1 := rfl
  omega

end

section
/-! PROOFS of the statement about the setup reads and the postings (R149, R162, R166). -/

namespace Sys2Proof.Machine

/-! ### Fields of a block of bytes (R159) -/

theorem leNat_leBytes (n v : Nat) : leNat (leBytes n v) = v % 256 ^ n := by
  induction n generalizing v with
  | zero => exact (Nat.mod_one v).symm
  | succ n ih =>
    rw [leBytes, leNat, ih, Nat.pow_succ', Nat.mod_mul, BitVec.toNat_ofNat]

theorem leBytes_length (n v : Nat) : (leBytes n v).length = n := by
  induction n generalizing v with
  | zero => rfl
  | succ n ih => rw [leBytes, List.length_cons, ih]

/-- A field that lies inside one piece of a block is read from that piece. -/
theorem blockField_within (xs ys zs : List Byte) {i n : Nat} (h : i + n ≤ ys.length) :
    blockField (xs ++ (ys ++ zs)) (xs.length + i) n = blockField ys i n := by
  unfold blockField
  rw [← List.drop_drop, List.drop_left, List.drop_append_of_le_length (by omega),
    List.take_append_of_le_length (by rw [List.length_drop]; omega)]

theorem blockField_all (ys : List Byte) : blockField ys 0 ys.length = leNat ys := by
  unfold blockField
  rw [List.drop_zero, List.take_length]

/-! ### The fields of the status block (R166) -/

/-- The fields of the block before its panels, in the order of their offsets. -/
def Part.blockFields (part : Part) : List (List Byte) :=
  [leBytes 1 part.unit.runState.code, leBytes 1 part.unit.setupResult.code, leBytes 1 part.unit.setupCause.code,
    leBytes 1 part.unit.setupIndex, leBytes 2 part.unit.fieldsClamped, leBytes 1 part.flagByte, leBytes 1 part.energy.level.code,
    leBytes 4 part.energy.usable, leBytes 4 part.committed, leBytes 2 part.energy.vs, leBytes 2 part.energy.vsol,
    leBytes 1 part.queue.length, [part.unit.lastOrder], [part.unit.lastResult], [0], leBytes 2 part.unit.ordersTaken.toNat,
    leBytes 2 part.clock.dayCount, leBytes 4 part.clock.secondOfDay, leBytes 2 (latchedWord part.unit.causes), leBytes 2 0]
    ++ shortCauses.map (fun k => leBytes 2 (part.unit.postedDetail k)) ++ [leBytes 4 (part.unit.postedDetail .epochLead)]

/-- The bytes that each of these fields takes. -/
def blockWidths : List Nat :=
  [1, 1, 1, 1, 2, 1, 1, 4, 4, 2, 2, 1, 1, 1, 1, 2, 2, 4, 2, 2] ++ List.replicate 12 2 ++ [4]

theorem Part.blockFields_widths (part : Part) : part.blockFields.map List.length = blockWidths := by
  unfold Part.blockFields shortCauses blockWidths
  simp only [List.map_append, List.map_cons, List.map_nil, leBytes_length]
  rfl

theorem Part.statusBlock_eq (part : Part) :
    part.statusBlock = part.blockFields.flatten ++ panelNos.flatMap part.panelBytes := by
  unfold Part.statusBlock Part.blockFields
  dsimp only
  have hdetails : shortCauses.flatMap (fun k => leBytes 2 (part.unit.postedDetail k))
      = (shortCauses.map fun k => leBytes 2 (part.unit.postedDetail k)).flatten := List.flatMap_def
  rw [hdetails]
  generalize shortCauses.map (fun k => leBytes 2 (part.unit.postedDetail k)) = details
  simp only [List.flatten_append, List.flatten_cons, List.flatten_nil, List.append_nil, List.append_assoc,
    List.cons_append, List.nil_append]

/-- A field of the block read at its offset, the sum of the widths before it. -/
theorem Part.blockField_at {part : Part} {k n offset : Nat} {y : List Byte} (hy : part.blockFields[k]? = some y)
    (hn : y.length = n) (ho : (blockWidths.take k).sum = offset) : blockField part.statusBlock offset n = leNat y := by
  obtain ⟨hk, rfl⟩ := List.getElem?_eq_some_iff.1 hy
  have hsplit : part.blockFields.flatten = (part.blockFields.take k).flatten
      ++ (part.blockFields[k] ++ (part.blockFields.drop (k + 1)).flatten) := by
    rw [← List.flatten_cons, ← List.flatten_append, List.getElem_cons_drop, List.take_append_drop]
  have hlength : (part.blockFields.take k).flatten.length = offset := by
    rw [List.length_flatten, List.map_take, Part.blockFields_widths]
    exact ho
  rw [Part.statusBlock_eq, hsplit, List.append_assoc, List.append_assoc, ← Nat.add_zero offset, ← hlength, ← hn,
    blockField_within _ _ _ (Nat.le_of_eq (Nat.zero_add _)), blockField_all]

/-- A number of the block, modulo its bytes (R159). -/
theorem Part.blockNumber_at {part : Part} {k n v offset : Nat} (hy : part.blockFields[k]? = some (leBytes n v))
    (ho : (blockWidths.take k).sum = offset) :
    blockField part.statusBlock offset n = v % 256 ^ n :=
  (Part.blockField_at hy (leBytes_length n v) ho).trans (leNat_leBytes n v)

/-- A code of one byte of the block. -/
theorem Part.blockCode_at {part : Part} {k v offset : Nat} (hy : part.blockFields[k]? = some (leBytes 1 v)) (hv : v < 256)
    (ho : (blockWidths.take k).sum = offset) : blockField part.statusBlock offset 1 = v :=
  (Part.blockNumber_at hy ho).trans (Nat.mod_eq_of_lt hv)

theorem Part.queue_length (part : Part) :
    part.queue.length = part.pool.countP fun x => (x.map (·.state)) == some .queued := by
  have hcount : ∀ (i : Nat) (pool : List (Option Job)),
      (queuedJobs i pool).length = pool.countP fun x => (x.map (·.state)) == some .queued := by
    intro i pool
    induction pool generalizing i with
    | nil => rfl
    | cons x xs ih =>
      cases x with
      | none =>
        rw [queuedJobs, ih, List.countP_cons_of_neg (by simp)]
      | some j =>
        by_cases hj : j.state = .queued
        · rw [queuedJobs, if_pos hj, List.length_cons, ih, List.countP_cons_of_pos (by simp [hj])]
        · rw [queuedJobs, if_neg hj, ih, List.countP_cons_of_neg (by simp [hj])]
  rw [part.queue_perm.length_eq, hcount]

/-- The bits of the latched causes (R166). -/
theorem latchedWord_testBit (cs : List (Option Nat)) (i : Nat) : (latchedWord cs).testBit i = ((cs[i]?).join).isSome := by
  induction cs generalizing i with
  | nil => simp [latchedWord]
  | cons c cs ih =>
    cases i with
    | zero => cases c <;> simp [latchedWord, Nat.testBit_zero, Nat.add_mod]
    | succ i =>
      have hhalf : latchedWord (c :: cs) / 2 = latchedWord cs := by
        rw [latchedWord]
        cases c <;> simp
        omega
      rw [Nat.testBit_succ, hhalf, ih, List.getElem?_cons_succ]

theorem Part.flagByte_eq (part : Part) :
    part.flagByte = (if part.unit.setupEdited then 1 else 0) + (if part.energy.dark then 2 else 0)
      + (if part.unit.attn then 4 else 0) := by
  unfold Part.flagByte
  cases part.unit.setupEdited <;> cases part.energy.dark <;> cases part.unit.attn <;> rfl

theorem Part.flagByte_lt (part : Part) : part.flagByte < 256 := by
  rw [Part.flagByte_eq]
  split <;> split <;> split <;> omega

/-! ### The bytes of a panel (R166) -/

theorem Part.jobBytes_length (part : Part) (p : PanelNo) : (part.jobBytes p).length = 4 := by
  unfold Part.jobBytes
  cases part.running? p <;> rfl

theorem Part.panelBytes_length (part : Part) (p : PanelNo) : (part.panelBytes p).length = 16 := by
  unfold Part.panelBytes
  split <;> simp [Part.jobBytes_length]

/-- A field of a panel's bytes in the block. -/
theorem Part.blockField_panel (part : Part) (p : PanelNo) {i n : Nat} (h : i + n ≤ 16) :
    blockField part.statusBlock (0x40 + 16 * p.val + i) n = blockField (part.panelBytes p) i n := by
  have hwithin : i + n ≤ (part.panelBytes p).length := by rw [Part.panelBytes_length]; exact h
  have hhead : part.blockFields.flatten.length = 64 := by
    rw [List.length_flatten, Part.blockFields_widths]
    rfl
  have hsplit : ∃ xs zs, panelNos.flatMap part.panelBytes = xs ++ (part.panelBytes p ++ zs) ∧ xs.length = 16 * p.val := by
    have hlength := part.panelBytes_length
    match p with
    | 0 => exact ⟨[], part.panelBytes 1 ++ part.panelBytes 2 ++ part.panelBytes 3, by simp [panelNos], by simp⟩
    | 1 => exact ⟨part.panelBytes 0, part.panelBytes 2 ++ part.panelBytes 3, by simp [panelNos], by simp [hlength]⟩
    | 2 => exact ⟨part.panelBytes 0 ++ part.panelBytes 1, part.panelBytes 3, by simp [panelNos], by simp [hlength]⟩
    | 3 =>
      exact ⟨part.panelBytes 0 ++ part.panelBytes 1 ++ part.panelBytes 2, [], by simp [panelNos], by simp [hlength] <;> rfl⟩
  obtain ⟨xs, zs, hpanels, hxs⟩ := hsplit
  rw [Part.statusBlock_eq, hpanels, ← List.append_assoc]
  have hoffset : 0x40 + 16 * p.val = (part.blockFields.flatten ++ xs).length := by rw [List.length_append, hhead, hxs]
  rw [hoffset]
  exact blockField_within _ _ _ hwithin

/-- The bytes of a running job in a panel's. -/
theorem Part.jobPosted (part : Part) (p : PanelNo) :
    (part.running? p = none →
      blockField (part.jobBytes p) 0 1 = 0xFF ∧ blockField (part.jobBytes p) 1 1 = 0xFF ∧ blockField (part.jobBytes p) 2 1 = 0
        ∧ blockField (part.jobBytes p) 3 1 = 0xFF)
    ∧ ∀ slot j r, part.running? p = some (slot, j, r) →
      blockField (part.jobBytes p) 0 1 = j.scope.code % 256 ∧ blockField (part.jobBytes p) 1 1 = j.origin.code
        ∧ blockField (part.jobBytes p) 2 1 = j.state.stageCode
        ∧ ∀ n, (match j.state, r.frame with
            | .driving, some f => BitVec.ofNat 8 f
            | _, _ => (0xFF : Byte)).toNat = n → blockField (part.jobBytes p) 3 1 = n := by
  unfold Part.jobBytes
  refine ⟨fun h => ?_, fun slot j r h => ?_⟩
  · rw [h]
    exact ⟨rfl, rfl, rfl, rfl⟩
  · rw [h]
    refine ⟨rfl, ?_, ?_, fun n hn => hn⟩
    · show (BitVec.ofNat 8 j.origin.code).toNat + 256 * 0 = _
      cases j.origin <;> rfl
    · show (BitVec.ofNat 8 j.state.stageCode).toNat + 256 * 0 = _
      cases j.state <;> rfl

/-- The bytes of an enabled panel. -/
theorem Part.panelBytes_enabled {part : Part} {p : PanelNo} {c : PanelCfg} {sel : Selector} (hc : part.panelCfg? p = some c)
    (hs : part.selector? p = some sel) :
    part.panelBytes p =
      [BitVec.ofNat 8 (part.port p).state.code, BitVec.ofNat 8 (part.port p).cause.code, BitVec.ofNat 8 sel.band,
        (sel.reading.map signedByte).getD 0x80, BitVec.ofNat 8 sel.stale.toNat] ++ (part.jobBytes p ++ List.replicate 7 0) := by
  unfold Part.panelBytes
  rw [hc, hs]
  exact List.append_assoc ..

theorem Part.panelBytes_disabled {part : Part} {p : PanelNo} (hc : part.panelCfg? p = none) :
    part.panelBytes p = [0, 0, 0, 0x80, 0, 0xFF, 0xFF, 0, 0xFF] ++ List.replicate 7 0 := by
  unfold Part.panelBytes
  rw [hc]

/-- The last seven bytes of a panel are 0. -/
theorem Part.panelBytes_tail (part : Part) (p : PanelNo) : blockField (part.panelBytes p) 9 7 = 0 := by
  have hlast : ∀ xs : List Byte, xs.length = 9 → blockField (xs ++ List.replicate 7 0) 9 7 = 0 := fun xs h => by
    have hfield := blockField_within xs (List.replicate 7 0) [] (i := 0) (n := 7) (by simp)
    rw [List.append_nil, h] at hfield
    exact hfield
  unfold Part.panelBytes
  split
  · exact hlast _ (by rw [List.length_append, Part.jobBytes_length]; rfl)
  · rfl

/-- A panel's bytes as posted (R166). -/
theorem Part.panelPosted (part : Part) (p : PanelNo) : part.PanelPosted p part.statusBlock := by
  have hfield := fun (i n : Nat) (h : i + n ≤ 16) => part.blockField_panel p h
  have hfirst := hfield 0 1 (by omega)
  rw [Nat.add_zero] at hfirst
  unfold Part.PanelPosted
  dsimp only
  rw [hfirst, hfield 1 1 (by omega), hfield 2 1 (by omega), hfield 3 1 (by omega), hfield 4 1 (by omega),
    hfield 5 1 (by omega), hfield 6 1 (by omega), hfield 7 1 (by omega), hfield 8 1 (by omega), hfield 9 7 (by omega)]
  refine ⟨fun c sel hc hs => ?_, fun hc => ?_, part.panelBytes_tail p⟩
  · have hjob : ∀ i n, i + n ≤ 4 → blockField (part.panelBytes p) (5 + i) n = blockField (part.jobBytes p) i n :=
      fun i n h => by
        rw [Part.panelBytes_enabled hc hs]
        exact blockField_within _ _ _ (by rw [Part.jobBytes_length]; exact h)
    rw [hjob 0 1 (by omega), hjob 1 1 (by omega), hjob 2 1 (by omega), hjob 3 1 (by omega), Part.panelBytes_enabled hc hs]
    obtain ⟨hidle, hrunning⟩ := part.jobPosted p
    refine ⟨?_, ?_, rfl, ?_, ?_, hidle, fun slot j r hr => ?_⟩
    · show (BitVec.ofNat 8 (part.port p).state.code).toNat + 256 * 0 = _
      cases (part.port p).state <;> rfl
    · show (BitVec.ofNat 8 (part.port p).cause.code).toNat + 256 * 0 = _
      cases (part.port p).cause <;> rfl
    · show ((sel.reading.map signedByte).getD 0x80).toNat + 256 * 0 = _
      cases sel.reading with
      | none => rfl
      | some t => exact BitVec.toNat_ofInt t
    · show (BitVec.ofNat 8 sel.stale.toNat).toNat + 256 * 0 = _
      cases sel.stale <;> rfl
    · obtain ⟨hscope, horigin, hstage, hframe⟩ := hrunning slot j r hr
      refine ⟨hscope.trans ?_, horigin, hstage.trans ?_, hframe _ ?_⟩
      · cases j.scope with
        | zone n => rfl
        | panel q => exact Nat.mod_eq_of_lt (by have := q.isLt; show 0x80 + q.val < 256; omega)
      · cases j.state <;> rfl
      · cases j.state <;> cases r.frame <;> rfl
  · rw [Part.panelBytes_disabled hc]
    exact ⟨rfl, rfl, rfl, rfl, rfl, rfl, rfl, rfl, rfl⟩

/-- The block composed from the part (R166). -/
theorem Part.postedAs (part : Part) : part.PostedAs part.statusBlock := by
  have hdetail : ∀ k : Cause, k ≠ .epochLead →
      blockField part.statusBlock (0x24 + 2 * k.bit) 2 = ((part.unit.detail? k).getD 0) % 65536 := fun k hk =>
    Part.blockNumber_at (k := 20 + k.bit) (v := part.unit.postedDetail k)
      (by
        cases k with
        | epochLead => exact absurd rfl hk
        | _ => rfl)
      (by
        cases k with
        | epochLead => exact absurd rfl hk
        | _ => rfl)
  refine ⟨?_, Part.blockCode_at (k := 0) rfl (by cases part.unit.runState <;> decide) rfl,
    Part.blockCode_at (k := 1) rfl (by cases part.unit.setupResult <;> decide) rfl,
    Part.blockCode_at (k := 2) rfl (by cases part.unit.setupCause <;> decide) rfl,
    Part.blockNumber_at (k := 3) rfl rfl, Part.blockNumber_at (k := 4) rfl rfl,
    (Part.blockCode_at (k := 5) rfl part.flagByte_lt rfl).trans part.flagByte_eq,
    Part.blockCode_at (k := 6) rfl (by cases part.energy.level <;> decide) rfl,
    Part.blockNumber_at (k := 7) rfl rfl, Part.blockNumber_at (k := 8) rfl rfl, Part.blockNumber_at (k := 9) rfl rfl,
    Part.blockNumber_at (k := 10) rfl rfl, ?_, Part.blockField_at (k := 12) rfl rfl rfl,
    Part.blockField_at (k := 13) rfl rfl rfl, Part.blockField_at (k := 14) rfl rfl rfl, ?_,
    Part.blockNumber_at (k := 16) rfl rfl, Part.blockNumber_at (k := 17) rfl rfl, fun k => ?_,
    Part.blockNumber_at (k := 19) (v := 0) rfl rfl, hdetail, Part.blockNumber_at (k := 32) rfl rfl, part.panelPosted⟩
  · rw [Part.statusBlock_eq, List.length_append, List.length_flatten, Part.blockFields_widths, List.length_flatMap]
    simp [panelNos, Part.panelBytes_length, blockWidths]
  · rw [← Part.queue_length]
    exact Part.blockNumber_at (k := 11) rfl rfl
  · exact (Part.blockNumber_at (k := 15) rfl rfl).trans (Nat.mod_eq_of_lt part.unit.ordersTaken.isLt)
  · have hword : blockField part.statusBlock 0x20 2 = latchedWord part.unit.causes % 2 ^ 16 := Part.blockNumber_at (k := 18) rfl rfl
    have hbit : k.bit < 16 := by cases k <;> decide
    rw [hword, Nat.testBit_mod_two_pow, latchedWord_testBit, decide_eq_true hbit]
    rfl

/-! ### Grants to the Window Unit (R146) -/

/-- With no burst, no host transaction and no panel's request the Window Unit's levels are served. -/
theorem State.advancePath_unit {s : State} (hb : s.path.burst = none) (hh : s.path.host = none)
    (hr : ∀ p, s.part.requestLevel? p = none) : s.advancePath = s.grantUnit := by
  have hnext : ∀ l, s.nextPanel? l = none := fun l => by
    unfold State.nextPanel?
    exact List.find?_eq_none.2 fun p _ => by rw [hr p]; exact Bool.false_ne_true
  have hgrant : ∀ ls : List PanelNo, s.grantFrom ls = s.grantUnit := fun ls => by
    induction ls with
    | nil => rfl
    | cons l ls ih =>
      unfold State.grantFrom
      rw [hnext l]
      exact ih
  unfold State.advancePath
  rw [hb, hh]
  exact hgrant _

/-! ### A window of the sign memory (R162) -/

/-- A byte of a window of the memory is the memory's at the place it was moved from. -/
theorem Memory.read_window (m : Memory) (lo n to' k : Nat) (h : k < n) :
    Memory.read (m.window lo n to') (to' + k) = Memory.read m (lo + k) := by
  induction m with
  | nil => rfl
  | cons c m ih =>
    obtain ⟨a, v⟩ := c
    unfold Memory.window at ih ⊢
    by_cases hin : lo ≤ a ∧ a < lo + n
    · rw [List.filter_cons_of_pos (by simpa using hin), List.map_cons, Memory.read, Memory.read, ih]
      by_cases ha : a = lo + k
      · rw [if_pos ha, if_pos (by omega)]
      · rw [if_neg ha, if_neg (by omega)]
    · rw [List.filter_cons_of_neg (by simpa using hin), Memory.read, if_neg (by omega)]
      exact ih

end Sys2Proof.Machine

open Sys2Proof Sys2Proof.Machine

/-- Settles O43: the two grants of the Window Unit, the end of a setup read and the end of a posting. -/
theorem setupReadsAndPostings : Obligations.SetupReadsAndPostings := by
  refine ⟨fun s hb hh hr => ⟨fun i hi => ?_, fun hnone hwaiting => ⟨_, Part.postedAs s.part, ?_⟩⟩, fun s b hs hb => ⟨?_, ?_⟩⟩
  · rw [State.advancePath_unit hb hh hr]
    unfold State.grantUnit
    rw [hi]
    rfl
  · rw [State.advancePath_unit hb hh hr]
    unfold State.grantUnit
    rw [hnone]
    exact if_pos hwaiting
  · intro hk happlying hrow
    refine ⟨s.memory.window b.addr Config.burstBytes (setupReadOffset b.row),
      .of_event (en := b.kind == .setupRead) (f := State.setupReadEnd b) hs.1 ?_ (beq_iff_eq.2 hk) ?_,
      fun k hlt => Memory.read_window s.memory b.addr Config.burstBytes (setupReadOffset b.row) k hlt⟩
    · show execSetupReadEnd s = _
      unfold execSetupReadEnd
      rw [hb]
    · have hmore : b.row + 1 < Config.setupReads := Nat.add_lt_add_right hrow 1
      unfold State.setupReadEnd Part.setupReadDone
      rw [if_pos happlying]
      dsimp only
      rw [if_pos hmore]
      rfl
  · intro hk
    have hdone : CompletesWith .statusPostEnd s
        { s with memory := s.memory.writeRun b.addr b.data, path := { s.path with burst := none } } := by
      refine .of_event (en := b.kind == .statusPost) (f := fun x => x.landBurst b) hs.1 ?_ (beq_iff_eq.2 hk) ?_
      · show execStatusPostEnd s = _
        unfold execStatusPostEnd
        rw [hb]
      · dsimp only
        rw [State.landBurst_eq, hk]
        rfl
    obtain ⟨t, ht, -, -, hquiet, -⟩ := hdone
    have hagree := hquiet hs.2
    have hmemory : t.memory = s.memory.writeRun b.addr b.data := hagree.memory
    refine ⟨t, ht, fun i hi => ?_, fun a ha => ?_, ?_⟩
    · rw [hmemory, Memory.read_writeRun_in _ _ _ _ hi, List.getD_eq_getElem?_getD, List.getElem?_eq_getElem hi, Option.getD_some]
    · rw [hmemory, Memory.read_writeRun_out _ _ _ _ ha]
    · rw [hmemory]
      exact hagree

end

section
/-! PROOFS of the statement about the walk (R46 to R49, R64 to R66, R97 to R103). -/

namespace Sys2Proof.Machine

/-! ### Zone records that stay, and stay not HELD (R32) -/

/-- The part `b` has the zone records of `a`, one by one, and makes none HELD. -/
def Part.ZonesKept (a b : Part) : Prop :=
  ∃ f : Zone → Zone, b.zones = a.zones.map f ∧ ∀ y, (f y).index = y.index ∧ (y.held = none → (f y).held = none)

theorem Part.ZonesKept.of_eq {a b : Part} (h : b.zones = a.zones) : Part.ZonesKept a b :=
  ⟨id, by rw [h, List.map_id], fun _ => ⟨rfl, id⟩⟩

theorem Part.ZonesKept.trans {a b c : Part} (h : Part.ZonesKept a b) (h' : Part.ZonesKept b c) : Part.ZonesKept a c := by
  obtain ⟨f, hf, hkeep⟩ := h
  obtain ⟨k, hk, hkeep'⟩ := h'
  refine ⟨k ∘ f, by rw [hk, hf, List.map_map], fun y => ⟨(hkeep' (f y)).1.trans (hkeep y).1, fun h => ?_⟩⟩
  exact (hkeep' (f y)).2 ((hkeep y).2 h)

theorem Part.ZonesKept.updateZone (a : Part) (n : Nat) {f : Zone → Zone} (hi : ∀ y, (f y).index = y.index)
    (hh : ∀ y, y.held = none → (f y).held = none) : Part.ZonesKept a (a.updateZone n f) := by
  refine ⟨fun z => if z.index = n then f z else z, rfl, fun y => ?_⟩
  dsimp only
  split
  · exact ⟨hi y, hh y⟩
  · exact ⟨rfl, id⟩

theorem Part.ZonesKept.followTiles (a : Part) : Part.ZonesKept a a.followTiles := by
  refine ⟨_, rfl, fun y => ⟨rfl, fun h => ?_⟩⟩
  show (if _ = 0 then none else y.held) = none
  rw [h, ite_self]

theorem Part.ZonesKept.noneHeld {a b : Part} (h : Part.ZonesKept a b) (ha : a.NoneHeld) : b.NoneHeld := by
  obtain ⟨f, hf, hkeep⟩ := h
  intro z hz
  rw [hf] at hz
  obtain ⟨y, hy, rfl⟩ := List.mem_map.1 hz
  exact (hkeep y).2 (ha y hy)

/-- No zone record comes into being. -/
theorem Part.ZonesKept.zone? {a b : Part} (h : Part.ZonesKept a b) {n : Nat} {y : Zone} (hy : b.zone? n = some y) :
    ∃ z, a.zone? n = some z := by
  obtain ⟨f, hf, hkeep⟩ := h
  unfold Part.zone? at hy ⊢
  rw [hf, find_map_zone _ _ _ fun z => (hkeep z).1] at hy
  obtain ⟨z, hz, -⟩ := Option.map_eq_some_iff.1 hy
  exact ⟨z, hz⟩

theorem Part.ZonesKept.withdraw (xs : List (Nat × Job)) (a : Part) : Part.ZonesKept a (xs.foldl Part.withdraw a) := by
  induction xs generalizing a with
  | nil => exact .of_eq rfl
  | cons x xs ih =>
    refine .trans ?_ (ih _)
    unfold Part.withdraw
    split
    · exact .trans (b := a.freeSlot x.1) (.of_eq rfl) (.updateZone _ _ (fun _ => rfl) fun _ => id)
    · exact .of_eq rfl

theorem Part.ZonesKept.runZone (a : Part) (slot : Nat) (j : Job) : Part.ZonesKept a (a.runZone slot j) := by
  unfold Part.runZone
  split
  · exact .updateZone _ _ (fun _ => rfl) fun _ => id
  · exact .of_eq rfl

/-- The record of a job at its admission (R48, R49). -/
def Part.admittedJob (a : Part) (g : Setup) (c : PanelCfg) (j : Job) (mode : DriveMode) (band cost : Nat) : Job :=
  { j with
    state := .capturing
    fullRequest := j.fullRequest || (a.withdrawnBy j).any fun x => x.2.fullRequest
    urgentCarried := j.urgentCarried || (a.withdrawnBy j).any fun x => x.2.cls == .urgent
    running := some
      ⟨mode, band, cost, a.estimatePixels g j mode, none,
        ((a.tilesIn g j.panel j.rect).filter fun x => x.2.state == .dirty || x.2.state == .queued).map
          fun x => g.tileIndex j.panel c x.1.1 x.1.2⟩ }

theorem Part.admitJob_zones (a : Part) (g : Setup) (c : PanelCfg) (slot : Nat) (j : Job) (mode : DriveMode) (band cost : Nat) :
    ∃ b : Part, b.zones = ((a.withdrawnBy j).foldl Part.withdraw a).zones
      ∧ (a.admitJob g c slot j mode band cost).zones
        = ((b.mapTiles g j.panel j.rect fun _ _ t => { t with state := .active, redirty := false }).followTiles.runZone
            slot j).zones := by
  refine ⟨{ ((a.withdrawnBy j).foldl Part.withdraw a).setJob slot (a.admittedJob g c j mode band cost) with
    committed := a.committed + cost, runningCount := a.runningCount + 1 }, rfl, ?_⟩
  unfold Part.admitJob
  dsimp only
  split
  · exact rfl
  · exact rfl

theorem Part.ZonesKept.admitJob (a : Part) (g : Setup) (c : PanelCfg) (slot : Nat) (j : Job) (mode : DriveMode)
    (band cost : Nat) : Part.ZonesKept a (a.admitJob g c slot j mode band cost) := by
  obtain ⟨b, hb, hzones⟩ := Part.admitJob_zones a g c slot j mode band cost
  have hmapped : Part.ZonesKept a (b.mapTiles g j.panel j.rect fun _ _ t => { t with state := .active, redirty := false }) :=
    .trans (Part.ZonesKept.withdraw (a.withdrawnBy j) a) (.of_eq (by rw [Part.mapTiles_eq]; exact hb))
  exact .trans (.trans hmapped (.trans (.followTiles _) (.runZone _ slot j))) (.of_eq hzones)

/-! ### The queue of one job, and of a job with those it withdraws (R38) -/

/-- A part with no QUEUED job has an empty queue. -/
theorem Part.queue_nil {a : Part} (h : ∀ k q, a.job? k = some q → q.state ≠ .queued) : a.queue = [] := by
  refine List.eq_nil_iff_forall_not_mem.2 fun ⟨k, q⟩ hx => ?_
  obtain ⟨hk, hq⟩ := Part.mem_queue.1 hx
  exact h k q hk hq

/-- A QUEUED job that stands before every other is the first of the queue, and stands there once. -/
theorem Part.queue_first {a : Part} {slot : Nat} {j : Job} (hj : a.job? slot = some j) (hq : j.state = .queued)
    (hfirst : ∀ k q, k ≠ slot → a.job? k = some q → a.StandsBefore j q) :
    ∃ rest, a.queue = (slot, j) :: rest ∧ ∀ x ∈ rest, x.1 ≠ slot := by
  obtain ⟨hmem, hnodup, hsorted⟩ := a.queueIs
  have hin : (slot, j) ∈ a.queue := (hmem slot j).2 ⟨hj, hq⟩
  cases hqueue : a.queue with
  | nil =>
    rw [hqueue] at hin
    cases hin
  | cons x rest =>
    rw [hqueue] at hin hnodup hsorted hmem
    obtain ⟨hout, -⟩ := List.nodup_cons.1 hnodup
    rcases List.mem_cons.1 hin with rfl | htail
    · exact ⟨rest, rfl, fun y hy he => hout (List.mem_map.2 ⟨y, hy, he⟩)⟩
    · have hne : x.1 ≠ slot := fun he => hout (List.mem_map.2 ⟨_, htail, he.symm⟩)
      obtain ⟨hx, -⟩ := (hmem x.1 x.2).1 List.mem_cons_self
      exact absurd (hfirst x.1 x.2 hne hx) ((List.pairwise_cons.1 hsorted).1 _ htail)

/-- A walk over jobs that have all left the queue. -/
theorem Part.walkFrom_gone {a : Part} (g : Setup) {rest : List (Nat × Job)} (h : ∀ x ∈ rest, a.job? x.1 = none) :
    a.walkFrom g rest = { a with stopMark := none } := by
  induction rest with
  | nil => rfl
  | cons x rest ih =>
    rw [Part.walkFrom, h x List.mem_cons_self]
    exact ih fun y hy => h y (List.mem_cons_of_mem _ hy)

/-- The walk at a job that is not passed over: it is admitted where it fits, and else ends the walk (R47). -/
theorem Part.walkFrom_tested {a : Part} {g : Setup} {c : PanelCfg} {slot : Nat} {j y : Job} {sel : Selector}
    {mode : DriveMode} {pixels cost : Nat} {rest : List (Nat × Job)} (hj : a.job? slot = some j) (hq : j.state = .queued)
    (hc : g.panels.get j.panel = some c) (hs : a.selector? j.panel = some sel) (hp : ¬a.PassedOver g j)
    (hm : a.ModeIs g c j mode) (hk : a.CostIs g c j mode sel.band pixels cost) :
    (a.Fits g j cost →
        a.walkFrom g ((slot, y) :: rest) = (a.admitJob g c slot j mode sel.band cost).walkFrom g rest)
      ∧ (¬a.Fits g j cost → a.walkFrom g ((slot, y) :: rest) = { a with stopMark := some slot }) := by
  have hskip : ¬(j.state ≠ .queued ∨ a.skips g j = true) := by
    rintro (h | h)
    · exact h hq
    · exact hp ((a.skips_iff g j).1 h)
  rw [← a.fits_iff]
  refine ⟨fun hf => ?_, fun hf => ?_⟩
  all_goals
    rw [Part.walkFrom, hj]
    dsimp only
    rw [hc, hs]
    dsimp only
    rw [if_neg hskip, hm.eq hc, hk.estimate_eq.2]
  · exact if_pos hf
  · exact if_neg hf

theorem Part.starvedTest_nil {a : Part} (g : Setup) (h : ∀ k q, a.job? k = some q → q.state ≠ .queued) :
    a.starvedTest g = a := by
  unfold Part.starvedTest
  rw [Part.queue_nil h]
  rfl

theorem Part.walk_running {a : Part} {g : Setup} (hg : a.setup = some g) (hr : a.unit.runState = .running) :
    a.walk = ({ a with walkOwed := false }.admitAll g a.queue).starvedTest g := by
  unfold Part.walk
  rw [hg]
  dsimp only
  rw [if_pos hr]

/-- Two pools of one length with the same jobs are one. -/
theorem Part.pool_ext {a b : Part} (hl : a.pool.length = b.pool.length) (h : ∀ k, a.job? k = b.job? k) : a.pool = b.pool := by
  refine List.ext_getElem hl fun k h1 h2 => ?_
  have hk := h k
  unfold Part.job? at hk
  rwa [List.getElem?_eq_getElem h1, List.getElem?_eq_getElem h2] at hk

/-! ### The walks over a queue whose first job fits and takes the others over, or does not fit -/

/-- The jobs that an admission leaves, where it withdraws every other job (R49): the admitted one alone. -/
theorem Part.Admitted.job?_alone {a b : Part} {g : Setup} {c : PanelCfg} {slot : Nat} {j : Job} {mode : DriveMode}
    {band pixels cost : Nat} (h : a.Admitted b g c slot j mode band pixels cost)
    (hothers : ∀ k q, k ≠ slot → a.job? k = some q → a.Withdraws j k q) {k : Nat} (hk : k ≠ slot) : b.job? k = none := by
  obtain ⟨-, -, -, -, -, -, -, -, -, -, hgone, hstays, -⟩ := h
  cases hq : a.job? k with
  | some q => exact hgone k ⟨q, hothers k q hk hq⟩
  | none =>
    refine (hstays k hk fun q hw => ?_).trans hq
    obtain ⟨-, hjob, -⟩ := hw
    rw [hq] at hjob
    cases hjob

theorem Part.Admitted.none_queued {a b : Part} {g : Setup} {c : PanelCfg} {slot : Nat} {j : Job} {mode : DriveMode}
    {band pixels cost : Nat} (h : a.Admitted b g c slot j mode band pixels cost)
    (hothers : ∀ k q, k ≠ slot → a.job? k = some q → a.Withdraws j k q) :
    ∀ k q, b.job? k = some q → q.state ≠ .queued := by
  intro k q hq
  by_cases hk : k = slot
  · obtain ⟨r, full, urgent, -, -, -, -, -, -, -, -, -, hrunning, -⟩ := h
    subst hk
    rw [hrunning] at hq
    cases hq
    nofun
  · rw [h.job?_alone hothers hk] at hq
    cases hq

theorem Part.running?_none_of_queued {a : Part} (h : ∀ k q, a.job? k = some q → q.state = .queued) (p : PanelNo) :
    a.running? p = none := by
  cases hr : a.running? p with
  | none => rfl
  | some x =>
    obtain ⟨slot, j, r⟩ := x
    obtain ⟨hj, hstate, -⟩ := Part.running?_some hr
    exact absurd (h slot j hj) hstate

section
variable {x : Part} {g : Setup} {c : PanelCfg} {slot : Nat} {j : Job} {sel : Selector} {mode : DriveMode} {pixels cost : Nat}

/-- The first job of the queue is tested (R47). -/
theorem Part.not_passedOver (hqueued : ∀ k q, x.job? k = some q → q.state = .queued)
    (hlimit : x.runningCount < g.globals.runningLimit) (hport : (x.port j.panel).state ≠ .fault) : ¬x.PassedOver g j := by
  rintro (h | h | h)
  · omega
  · exact h (Part.running?_none_of_queued hqueued _)
  · exact hport h

/-- The walks of a step at whose end the first job of the queue fits and takes over every other job (R46 to R49). -/
theorem Part.takeWalks_admits (howed : x.walkOwed = true) (hrun : x.unit.runState = .running) (hg : x.setup = some g)
    (hc : g.panels.get j.panel = some c) (hs : x.selector? j.panel = some sel) (hj : x.job? slot = some j)
    (hq : j.state = .queued) (hothers : ∀ k q, k ≠ slot → x.job? k = some q → x.Withdraws j k q ∧ x.StandsBefore j q)
    (hheld : x.NoneHeld ∨ ∀ k, k ≠ slot → x.job? k = none) (hlimit : x.runningCount < g.globals.runningLimit)
    (hport : (x.port j.panel).state ≠ .fault) (hm : x.ModeIs g c j mode) (hk : x.CostIs g c j mode sel.band pixels cost)
    (hf : x.Fits g j cost) :
    ∃ mid, Part.Admitted { x with walkOwed := false } mid g c slot j mode sel.band pixels cost
      ∧ Part.ZonesKept x mid ∧ x.takeWalks 8 = { mid with walkOwed := false, stopMark := none } := by
  have hqueued : ∀ k q, x.job? k = some q → q.state = .queued := fun k q hx => by
    by_cases hk' : k = slot
    · subst hk'
      rw [hj] at hx
      cases hx
      exact hq
    · obtain ⟨⟨-, -, hstate, -⟩, -⟩ := hothers k q hk' hx
      exact hstate
  have hpassed : ¬Part.PassedOver { x with walkOwed := false } g j :=
    Part.not_passedOver (x := { x with walkOwed := false }) hqueued hlimit hport
  have hadmitted : Part.Admitted { x with walkOwed := false } _ g c slot j mode sel.band pixels cost :=
    Part.admitted sel.band cost hj (Part.CostIs.estimate_eq (part := { x with walkOwed := false }) hk).1
  have hkept : Part.ZonesKept x _ :=
    Part.ZonesKept.admitJob { x with walkOwed := false } g c slot j mode sel.band cost
  obtain ⟨rest, hqueue, hrest⟩ := Part.queue_first hj hq fun k q hne hx => (hothers k q hne hx).2
  obtain ⟨htested, -⟩ := Part.walkFrom_tested (a := { x with walkOwed := false }) (y := j) (rest := rest) hj hq hc hs hpassed hm hk
  have hwalk := htested hf
  generalize Part.admitJob { x with walkOwed := false } g c slot j mode sel.band cost = mid at hadmitted hkept hwalk
  have hwithdraws : ∀ k q, k ≠ slot → Part.job? { x with walkOwed := false } k = some q →
      Part.Withdraws { x with walkOwed := false } j k q := fun k q hne hx => (hothers k q hne hx).1
  have hgone : ∀ z ∈ rest, mid.job? z.1 = none := fun z hz => hadmitted.job?_alone hwithdraws (hrest z hz)
  have hidle := hadmitted.none_queued hwithdraws
  have htaken : Part.walkFrom { x with walkOwed := false } g x.queue = { mid with stopMark := none } := by
    rw [hqueue, hwalk]
    exact Part.walkFrom_gone g hgone
  have hfirst : x.walk = (if mid.walkOwed = true then Part.slotsFreed { mid with stopMark := none } g
      else { mid with stopMark := none }).starvedTest g := by
    rw [Part.walk_running hg hrun]
    unfold Part.admitAll
    rw [htaken]
  refine ⟨mid, hadmitted, hkept, ?_⟩
  obtain ⟨-, -, -, -, -, -, -, hframe, howes, -⟩ := hadmitted
  have hstep : x.takeWalks 8 = Part.takeWalks 7 x.walk := if_pos howed
  rw [hstep]
  cases hw : mid.walkOwed with
  | false =>
    rw [hw, if_neg Bool.false_ne_true, Part.starvedTest_nil (a := { mid with walkOwed := false, stopMark := none }) g hidle]
      at hfirst
    rw [hfirst, Part.takeWalks_of_not_owed rfl]
  | true =>
    have hnone : mid.NoneHeld := by
      obtain ⟨k, q, hwd⟩ := (howes.1 hw).resolve_left Bool.false_ne_true
      rcases hheld with h | h
      · exact hkept.noneHeld h
      · obtain ⟨⟨p, hscope⟩, hjob, -, -, n, hn⟩ := hwd
        by_cases hne : k = slot
        · subst hne
          rw [hj.symm.trans hjob |> Option.some.inj] at hscope
          rw [hscope] at hn
          cases hn
        · exact absurd (hjob.symm.trans (h k hne)) nofun
    have hfreed : Part.slotsFreed { mid with walkOwed := true, stopMark := none } g = { mid with walkOwed := true, stopMark := none } :=
      Part.retryHeld_quiet { mid with walkOwed := true, stopMark := none } g hnone _
    rw [hw, if_pos rfl, hfreed, Part.starvedTest_nil (a := { mid with walkOwed := true, stopMark := none }) g hidle] at hfirst
    have hsecond : Part.walk { mid with walkOwed := true, stopMark := none } = { mid with walkOwed := false, stopMark := none } := by
      have hsetup : mid.setup = some g := by rw [hframe]; exact hg
      have hstate : mid.unit.runState = .running := by rw [hframe]; exact hrun
      rw [Part.walk_running (a := { mid with walkOwed := true, stopMark := none }) hsetup hstate,
        Part.queue_nil (a := { mid with walkOwed := true, stopMark := none }) hidle]
      exact Part.starvedTest_nil (a := { mid with walkOwed := false, stopMark := none }) g hidle
    have hagain : Part.takeWalks 7 { mid with walkOwed := true, stopMark := none } = Part.takeWalks 6 (Part.walk { mid with walkOwed := true, stopMark := none }) :=
      rfl
    rw [hfirst, hagain, hsecond, Part.takeWalks_of_not_owed rfl]

/-- The walk of a step at whose end the only job of the queue does not fit (R47, R102, R103). -/
theorem Part.takeWalks_stops (howed : x.walkOwed = true) (hrun : x.unit.runState = .running) (hg : x.setup = some g)
    (hc : g.panels.get j.panel = some c) (hs : x.selector? j.panel = some sel) (hj : x.job? slot = some j)
    (hq : j.state = .queued) (hothers : ∀ k, k ≠ slot → x.job? k = none) (hlimit : x.runningCount < g.globals.runningLimit)
    (hport : (x.port j.panel).state ≠ .fault) (hm : x.ModeIs g c j mode) (hk : x.CostIs g c j mode sel.band pixels cost)
    (hf : ¬x.Fits g j cost) :
    x.takeWalks 8 = Part.starvedAt g { x with walkOwed := false, stopMark := some slot } (slot, j) := by
  have honly : ∀ k q, k ≠ slot → x.job? k ≠ some q := fun k q hne hx => by
    rw [hothers k hne] at hx
    cases hx
  have hqueued : ∀ k q, x.job? k = some q → q.state = .queued := fun k q hx => by
    by_cases hk' : k = slot
    · subst hk'
      rw [hj] at hx
      cases hx
      exact hq
    · exact absurd hx (honly k q hk')
  have hpassed : ¬Part.PassedOver { x with walkOwed := false } g j :=
    Part.not_passedOver (x := { x with walkOwed := false }) hqueued hlimit hport
  have hqueue : ∀ b : Part, b.pool = x.pool → b.queue = [(slot, j)] := fun b hb => by
    have hjobs : ∀ k, b.job? k = x.job? k := fun k => by unfold Part.job?; rw [hb]
    obtain ⟨rest, hrest, hne⟩ := Part.queue_first ((hjobs slot).trans hj) hq fun k q hk' hx =>
      absurd ((hjobs k).symm.trans hx) (honly k q hk')
    have hnil : rest = [] := List.eq_nil_iff_forall_not_mem.2 fun z hz => by
      obtain ⟨hz', -⟩ := Part.mem_queue.1 (show (z.1, z.2) ∈ b.queue by rw [hrest]; exact List.mem_cons_of_mem _ hz)
      exact honly z.1 z.2 (hne z hz) ((hjobs z.1).symm.trans hz')
    rw [hrest, hnil]
  obtain ⟨-, htested⟩ := Part.walkFrom_tested (a := { x with walkOwed := false }) (y := j) (rest := []) hj hq hc hs hpassed hm hk
  have hwalk : x.walk = Part.starvedAt g { x with walkOwed := false, stopMark := some slot } (slot, j) := by
    rw [Part.walk_running hg hrun, hqueue x rfl]
    unfold Part.admitAll
    rw [htested hf]
    show Part.starvedTest { x with walkOwed := false, stopMark := some slot } g = _
    unfold Part.starvedTest
    rw [hqueue { x with walkOwed := false, stopMark := some slot } rfl]
    rfl
  have hstep : x.takeWalks 8 = Part.takeWalks 7 x.walk := if_pos howed
  have hdone : (Part.starvedAt g { x with walkOwed := false, stopMark := some slot } (slot, j)).walkOwed = false := by
    unfold Part.starvedAt
    split
    · rfl
    · split
      · rw [Part.latch_eq]
        rfl
      · rfl
  rw [hstep, hwalk, Part.takeWalks_of_not_owed hdone]

end

end Sys2Proof.Machine
end

section
/-! PROOFS of the statement about the walk, continued: a RUN, what it leaves, and the first burst of an admitted job. -/

namespace Sys2Proof.Machine

/-! ### Engines apart from their requests (R146) -/

theorem enginesOutsidePath_set (q : Quad (Option Engine)) (p : PanelNo) (e : Engine) :
    enginesOutsidePath (q.set p (some e)) = (enginesOutsidePath q).set p (some e.outsidePath) := by
  refine Quad.ext_get fun k => ?_
  unfold enginesOutsidePath
  rw [Quad.get_ofPanels, Quad.get_set, Quad.get_set, Quad.get_ofPanels]
  split <;> rfl

/-- The agreement does not look at the requests of a panel's new engine. -/
theorem State.AgreesOutsidePath.of_engine {t u v : State} {p : PanelNo} {q : Quad (Option Engine)} {e e' : Engine}
    (h : t.AgreesOutsidePath u) (he : e.outsidePath = e'.outsidePath)
    (hu : u = { v with part := { v.part with engines := q.set p (some e) } }) :
    t.AgreesOutsidePath { v with part := { v.part with engines := q.set p (some e') } } := by
  have hengines : enginesOutsidePath (q.set p (some e)) = enginesOutsidePath (q.set p (some e')) := by
    rw [enginesOutsidePath_set, enginesOutsidePath_set, he]
  refine Eq.trans h ?_
  rw [hu]
  unfold State.outsidePath Part.outsidePath
  dsimp only
  rw [hengines]

/-- A panel without a request has none under the same setup and engine. -/
theorem Part.requestLevel?_none_congr {a b : Part} {p : PanelNo} (h : a.requestLevel? p = none) (hs : b.setup = a.setup)
    (he : b.engine? p = a.engine? p) : b.requestLevel? p = none := by
  unfold Part.requestLevel? at h ⊢
  rw [hs, he]
  split at h
  · next g q _ _ =>
    cases hk : q.kind <;> rw [hk] at h <;> cases h
  · rfl

/-! ### The first burst of an admitted job (R110, R146) -/

section
variable {b u : State} {w : Part} {p : PanelNo} {e : Engine} {q : Burst}

/-- At the end of a step after whose walks one panel alone has a request, a TARGET read, that read begins where the memory
port is free. -/
theorem State.finish_grants_capture (hw : u.part.takeWalks 8 = w) (hb : u.path.burst = none) (hh : u.path.host = none)
    {g : Setup} (hg : w.setup = some g) (he : w.engine? p = some e) (hf : e.inFlight = false) (hr : e.request = some q)
    (hk : q.kind = .captureTarget) (hothers : ∀ k, k ≠ p → w.requestLevel? k = none) :
    (State.finish b u).path.burst = some q
      ∧ ((State.finish b u).part.engine? p).map (·.cursor) = some (if w.opensRow p q then q.row + 1 else e.cursor) := by
  have hpresented : e.presented? = some q := Engine.presented?_eq_some.2 ⟨hf, hr⟩
  have hlevel : w.requestLevel? p = some 2 := by
    unfold Part.requestLevel?
    rw [hg, he]
    simp only [Option.bind_some, hpresented, hk]
  obtain ⟨v, hv⟩ : ∃ v, v = State.beforePath b u := ⟨_, rfl⟩
  have hrequest : ∀ k, v.part.requestLevel? k = w.requestLevel? k := fun k => by rw [hv, ← hw]; rfl
  have hengine : ∀ k, v.part.engine? k = w.engine? k := fun k => by rw [hv, ← hw]; rfl
  have hopens : v.part.opensRow p q = w.opensRow p q := by rw [hv, ← hw]; rfl
  have honly : ∀ l k, v.part.requestLevel? k = some l → k = p ∧ l = 2 := fun l k hkl => by
    rw [hrequest] at hkl
    by_cases hkp : k = p
    · subst hkp
      exact ⟨rfl, Option.some.inj (hkl.symm.trans hlevel)⟩
    · rw [hothers k hkp] at hkl
      cases hkl
  have hgrant : v.advancePath = v.grantPanel 2 p := by
    refine State.advancePath_grants (by rw [hv]; exact hb) (by rw [hv]; exact hh)
      (State.nextPanel?_eq ((hrequest p).trans hlevel) fun k hk2 => Nat.le_of_eq (by rw [(honly 2 k hk2).1])) fun l hl => ?_
    refine Option.eq_none_iff_forall_ne_some.2 fun k hkl => ?_
    rw [(honly l k (State.nextPanel?_eq_some hkl).1).2] at hl
    exact absurd hl (Nat.lt_irrefl _)
  have hgranted : v.grantPanel 2 p = { v with
      path := { v.path with burst := some q, lastServed := v.path.lastServed.set 2 p }
      part := v.part.setEngine p (some { e with
        request := none, inFlight := true, cursor := if w.opensRow p q then q.row + 1 else e.cursor }) } := by
    unfold State.grantPanel
    rw [hengine, he]
    simp only [Option.bind_some, hpresented, hopens]
  rw [State.finish_eq, ← hv, hgrant, hgranted]
  refine ⟨rfl, ?_⟩
  unfold Part.engine? Part.setEngine
  rw [Quad.get_set_self]
  rfl

end

/-! ### The STARVED test of the job of the stop mark (R102, R103) -/

theorem Part.starvedAt_marked {a : Part} (g : Setup) {slot : Nat} {j : Job} (hmark : a.stopMark = some slot)
    (hj : a.job? slot = some j) (hq : j.state = .queued) (starves : Bool)
    (hs : starves = true ↔ j.cls = .urgent ∧ j.starvedReported = false
      ∧ g.globals.starvationLimit < (a.clock.mono - j.enqueued).toNat) :
    Part.starvedAt g a (slot, j)
      = if starves then (a.setJob slot { j with starvedReported := true }).latch .starved j.scope.code else a := by
  have hheld : a.heldBack slot j = true := by
    unfold Part.heldBack
    rw [hmark]
    dsimp only
    rw [hj]
    simp [hq]
  unfold Part.starvedAt
  dsimp only
  rw [hj]
  dsimp only
  refine ite_congr (propext ?_) (fun _ => rfl) fun _ => rfl
  rw [hs]
  exact ⟨fun ⟨_, hurgent, _, hage, hnew⟩ => ⟨hurgent, hnew, hage⟩, fun ⟨hurgent, hnew, hage⟩ => ⟨hq, hurgent, hheld, hage, hnew⟩⟩

theorem Part.pool_set_self {a : Part} {slot : Nat} {j : Job} (h : a.job? slot = some j) : a.pool.set slot (some j) = a.pool := by
  refine List.ext_getElem (List.length_set ..) fun k h1 h2 => ?_
  rw [List.getElem_set]
  split
  · next hk =>
    subst hk
    exact (Part.getElem_of_job? h h2).symm
  · rfl

/-! ### RUN (R47) -/

/-- The part once RUN has been taken, before the walk that it causes. -/
def Part.runTaken (a : Part) : Part :=
  { a with
    walkOwed := true
    unit := { a.unit with
      runState := .running, ordersTaken := a.unit.ordersTaken + 1, lastOrder := 2, lastResult := 1 } }

theorem exec_run {s : State} (hs : s.Ready) (h : s.part.unit.runState = .stopped) :
    CompletesWith .run s { s with part := s.part.runTaken } := by
  refine .of_order (f := Part.orderRun) (code := 2) (en := true) (a := ⟨(s.part.setRunState .running).oweWalk, .done⟩) hs rfl
    rfl ?_ rfl
  unfold Part.orderRun
  rw [h]

section
variable {s : State} {g : Setup} {c : PanelCfg} {slot : Nat} {j : Job} {sel : Selector} {mode : DriveMode} {pixels cost : Nat}

/-- What a RUN leaves whose walk admits the first job of the queue, with what the admission does to the records left to
`Part.Admitted` (R48, R49). -/
theorem State.run_admits (hs : s.Ready) (hstopped : s.part.unit.runState = .stopped) (hg : s.part.setup = some g)
    (hc : g.panels.get j.panel = some c) (hsel : s.part.selector? j.panel = some sel) (hj : s.part.job? slot = some j)
    (hq : j.state = .queued) (hothers : ∀ k q, k ≠ slot → s.part.job? k = some q → s.part.Withdraws j k q ∧ s.part.StandsBefore j q)
    (hheld : s.part.NoneHeld ∨ ∀ k, k ≠ slot → s.part.job? k = none) (hlimit : s.part.runningCount < g.globals.runningLimit)
    (hport : (s.part.port j.panel).state ≠ .fault) (hm : s.part.ModeIs g c j mode)
    (hk : s.part.CostIs g c j mode sel.band pixels cost) (hf : s.part.Fits g j cost) :
    ∃ t mid, exec .run s = .next t
      ∧ Part.Admitted { s.part.runTaken with walkOwed := false } mid g c slot j mode sel.band pixels cost
      ∧ Part.ZonesKept s.part mid ∧ t.part.tiles = mid.tiles ∧ t.part.zones = mid.zones ∧ t.part.pool = mid.pool
      ∧ t.AgreesOutsidePath { s with part := { s.part with
          tiles := t.part.tiles, zones := t.part.zones, pool := t.part.pool
          committed := s.part.committed + cost
          runningCount := s.part.runningCount + 1
          stopMark := none
          engines := s.part.engines.set j.panel (some (Engine.begun c slot j).outsidePath)
          ports := s.part.ports.set j.panel (s.part.port j.panel).demandWake
          unit := { s.part.unit with
            runState := .running, ordersTaken := s.part.unit.ordersTaken + 1, lastOrder := 2, lastResult := 1 } } }
      ∧ (s.path.burst = none → s.path.host = none → (∀ q, s.part.requestLevel? q = none) →
          t.path.burst = (Engine.begun c slot j).request
            ∧ (t.part.engine? j.panel).map (·.cursor) = some (32 * j.rect.ty0 + 1)) := by
  obtain ⟨mid, hadmitted, hkept, hwalks⟩ := Part.takeWalks_admits (x := s.part.runTaken) rfl rfl hg hc hsel hj hq hothers hheld
    hlimit hport hm hk hf
  obtain ⟨t, ht, hfinish, -⟩ := exec_run hs hstopped
  have halone : ∀ k, k ≠ slot → mid.job? k = none := fun k hk' =>
    hadmitted.job?_alone (fun k q hne hx => (hothers k q hne hx).1) hk'
  obtain ⟨r, full, urgent, -, -, -, -, hframe, -, -, -, -, hrunning, -⟩ := id hadmitted
  have hleft : { mid with walkOwed := false, stopMark := none } = { s.part with
      walkOwed := false, tiles := mid.tiles, zones := mid.zones, pool := mid.pool
      committed := s.part.committed + cost
      runningCount := s.part.runningCount + 1
      stopMark := none
      engines := s.part.engines.set j.panel (some (Engine.begun c slot j))
      ports := s.part.ports.set j.panel (s.part.port j.panel).demandWake
      unit := { s.part.unit with
        runState := .running, ordersTaken := s.part.unit.ordersTaken + 1, lastOrder := 2, lastResult := 1 } } := by
    conv => lhs; rw [hframe]
    rfl
  have hagree : t.AgreesOutsidePath { s with part := { mid with walkOwed := false, stopMark := none } } := by
    rw [hfinish, ← hwalks]
    exact State.finish_agreesOutsidePath_walks s _
  have htiles : t.part.tiles = mid.tiles := hagree.tiles
  have hzones : t.part.zones = mid.zones := hagree.zones
  have hpool : t.part.pool = mid.pool := hagree.pool
  refine ⟨t, mid, ht, hadmitted, hkept, htiles, hzones, hpool, ?_, fun hb hh hnone => ?_⟩
  · have hsame := hagree.of_engine (p := j.panel) (q := s.part.engines) (e := Engine.begun c slot j)
      (e' := (Engine.begun c slot j).outsidePath) (v := { s with part := { s.part with
        walkOwed := false, tiles := mid.tiles, zones := mid.zones, pool := mid.pool
        committed := s.part.committed + cost
        runningCount := s.part.runningCount + 1
        stopMark := none
        ports := s.part.ports.set j.panel (s.part.port j.panel).demandWake
        unit := { s.part.unit with
          runState := .running, ordersTaken := s.part.unit.ordersTaken + 1, lastOrder := 2, lastResult := 1 } } }) rfl
      (congrArg (fun a : Part => ({ s with part := a } : State)) hleft)
    rw [htiles, hzones, hpool]
    exact hsame
  · have hengine : Part.engine? { mid with walkOwed := false, stopMark := none } j.panel = some (Engine.begun c slot j) := by
      rw [hleft]
      exact Quad.get_set_self ..
    have hothersNone : ∀ k, k ≠ j.panel → Part.requestLevel? { mid with walkOwed := false, stopMark := none } k = none :=
      fun k hne => by
        rw [hleft]
        exact Part.requestLevel?_none_congr (hnone k) rfl (Quad.get_set_ne _ _ hne)
    have hsetup : mid.setup = some g := by rw [hframe]; exact hg
    obtain ⟨hburst, hcursor⟩ := State.finish_grants_capture (b := s) (u := { s with part := s.part.runTaken }) hwalks hb hh
      (g := g) hsetup hengine rfl rfl rfl hothersNone
    have hrun : mid.running? j.panel = some (slot, { j with
        state := .capturing, fullRequest := full, urgentCarried := urgent, running := some r }, r) := by
      obtain ⟨⟨k, q⟩, hfound⟩ := Option.isSome_iff_exists.1 (findJob_isSome (i := 0)
        (f := fun q : Job => q.state != .queued && q.panel == j.panel) hrunning (by simp))
      obtain ⟨-, hkq, -⟩ := findJob_some hfound
      have hkslot : k = slot := by
        refine Decidable.byContradiction fun hne => ?_
        have hnone' := halone k hne
        unfold Part.job? at hnone'
        rw [Nat.sub_zero, hnone'] at hkq
        cases hkq
      subst hkslot
      have hq' : q = { j with state := .capturing, fullRequest := full, urgentCarried := urgent, running := some r } :=
        Option.some.inj (hkq.symm.trans hrunning)
      unfold Part.running?
      rw [hfound, hq']
    have hopens : Part.opensRow { mid with walkOwed := false, stopMark := none } j.panel
        { kind := .captureTarget, panel := j.panel, row := 32 * j.rect.ty0, tx := j.rect.tx0
          tiles := min 16 (j.rect.tx1 + 1 - j.rect.tx0)
          addr := c.targetBase + 32 * j.rect.ty0 * c.stride + 8 * j.rect.tx0, data := [] } = true := by
      unfold Part.opensRow
      rw [show Part.running? { mid with walkOwed := false, stopMark := none } j.panel = _ from hrun]
      simp
    rw [hfinish]
    refine ⟨hburst, hcursor.trans ?_⟩
    rw [if_pos hopens]

/-- What a RUN leaves whose walk stops at the only job of the queue (R47, R102, R103). -/
theorem State.run_stops (hs : s.Ready) (hstopped : s.part.unit.runState = .stopped) (hg : s.part.setup = some g)
    (hc : g.panels.get j.panel = some c) (hsel : s.part.selector? j.panel = some sel) (hj : s.part.job? slot = some j)
    (hq : j.state = .queued) (hothers : ∀ k, k ≠ slot → s.part.job? k = none)
    (hlimit : s.part.runningCount < g.globals.runningLimit) (hport : (s.part.port j.panel).state ≠ .fault)
    (hm : s.part.ModeIs g c j mode) (hk : s.part.CostIs g c j mode sel.band pixels cost) (hf : ¬s.part.Fits g j cost)
    {starves : Bool} (hst : starves = true ↔ j.cls = .urgent ∧ j.starvedReported = false
      ∧ g.globals.starvationLimit < (s.part.clock.mono - j.enqueued).toNat) :
    ∃ t, exec .run s = .next t
      ∧ t.AgreesOutsidePath { s with part := { s.part with
          pool := s.part.pool.set slot (some { j with starvedReported := j.starvedReported || starves })
          stopMark := some slot
          unit := { s.part.unit with
            causes := t.part.unit.causes, runState := .running
            ordersTaken := s.part.unit.ordersTaken + 1, lastOrder := 2, lastResult := 1 } } }
      ∧ (starves = false → t.part.unit.causes = s.part.unit.causes)
      ∧ (starves = true → s.part.Latched t.part .starved j.scope.code) := by
  have hwalks := Part.takeWalks_stops (x := s.part.runTaken) rfl rfl hg hc hsel hj hq hothers hlimit hport hm hk hf
  obtain ⟨t, ht, hfinish, -⟩ := exec_run hs hstopped
  obtain ⟨a, ha⟩ : ∃ a : Part, a = { s.part.runTaken with walkOwed := false, stopMark := some slot } := ⟨_, rfl⟩
  have hmarked : Part.starvedAt g a (slot, j)
      = if starves then (a.setJob slot { j with starvedReported := true }).latch .starved j.scope.code else a :=
    Part.starvedAt_marked g (by rw [ha]) (by rw [ha]; exact hj) hq starves (by rw [ha]; exact hst)
  have hagree : t.AgreesOutsidePath { s with part := Part.starvedAt g a (slot, j) } := by
    rw [hfinish, ha, ← hwalks]
    exact State.finish_agreesOutsidePath_walks s _
  have hcauses : t.part.unit.causes = (Part.starvedAt g a (slot, j)).unit.causes := hagree.causes
  refine ⟨t, ht, ?_, fun hno => ?_, fun hyes => ?_⟩
  · have hleft : Part.starvedAt g a (slot, j) = { s.part with
        walkOwed := false
        pool := s.part.pool.set slot (some { j with starvedReported := j.starvedReported || starves })
        stopMark := some slot
        unit := { s.part.unit with
          causes := t.part.unit.causes, runState := .running
          ordersTaken := s.part.unit.ordersTaken + 1, lastOrder := 2, lastResult := 1 } } := by
      rw [hcauses, hmarked, ha]
      cases starves with
      | false =>
        rw [Bool.or_false, Part.pool_set_self hj]
        rfl
      | true =>
        rw [if_pos rfl, Bool.or_true]
        conv => lhs; rw [Part.latch_eq]
        rfl
    rw [hleft] at hagree
    exact hagree
  · rw [hcauses, hmarked, hno, if_neg Bool.false_ne_true, ha]
    rfl
  · have hlatched := Part.latched_latch (a.setJob slot { j with starvedReported := true }) .starved j.scope.code
    have hbefore : (a.setJob slot { j with starvedReported := true }).unit.causes = s.part.unit.causes := by rw [ha]; rfl
    rw [hyes, if_pos rfl] at hmarked
    rw [hmarked] at hcauses
    unfold Part.Latched at hlatched ⊢
    rw [hbefore] at hlatched
    obtain ⟨hown, hother⟩ := hlatched
    refine ⟨fun h13 => ?_, fun k hk' => ?_⟩
    · rw [WindowUnit.detail?_congr hcauses, hown h13, WindowUnit.detail?_congr hbefore]
    · rw [WindowUnit.detail?_congr hcauses, hother k hk', WindowUnit.detail?_congr hbefore]

end

end Sys2Proof.Machine

open Sys2Proof Sys2Proof.Machine

/-- Settles O50: the walk of a RUN whose first job fits or ends it, and the walks of every step. -/
theorem walkAdmitsWhatFits : Obligations.WalkAdmitsWhatFits := by
  refine ⟨?_, ?_, ?_⟩
  · intro s g c slot j n z sel mode frames pixels cost hs hstopped hg hc hsel hj hq hscope hz hothers hlimit hport hmode hframes
      hpixels hcost
    have hm : s.part.ModeIs g c j mode := by
      unfold Part.ModeIs
      rw [hscope]
      dsimp only
      rw [hmode, hz]
      simp only [Option.some.injEq, exists_eq_left', forall_eq']
      exact Iff.rfl
    have hk : s.part.CostIs g c j mode sel.band pixels cost := ⟨hpixels, frames, hframes, hcost⟩
    have hspend : ∀ x, x ≤ s.part.spendable g ↔ x ≤ s.part.energy.usable
        - (if s.part.energy.dark then g.globals.holdbackNight else g.globals.holdbackDay) - s.part.committed := fun x => Iff.rfl
    by_cases hf : s.part.Fits g j cost
    · obtain ⟨t, mid, ht, hadmitted, hkept, htiles, hzones, hpool, hagree, hburst⟩ := State.run_admits hs hstopped hg hc hsel hj hq
        (fun k q hne hx => absurd ((hothers k hne).symm.trans hx) nofun) (.inr hothers) hlimit hport hm hk hf
      obtain ⟨r, full, urgent, hr, hcarried, hfull, hurgent, -, -, hlength, -, hstays, hrunning, hactive, hzone⟩ := hadmitted
      have hnone : ∀ k q, ¬Part.Withdraws { s.part.runTaken with walkOwed := false } j k q := by
        rintro k q ⟨⟨p, hp⟩, -⟩
        rw [hscope] at hp
        cases hp
      have hfull' : full = j.fullRequest := by
        rw [Bool.eq_iff_iff, hfull]
        exact ⟨fun h => h.resolve_right fun ⟨k, q, hw, _⟩ => hnone k q hw, .inl⟩
      have hurgent' : urgent = j.urgentCarried := by
        rw [Bool.eq_iff_iff, hurgent]
        exact ⟨fun h => h.resolve_right fun ⟨k, q, hw, _⟩ => hnone k q hw, .inl⟩
      have hmid : mid.pool = s.part.pool.set slot (some { j with state := .capturing, running := some r }) := by
        refine Part.pool_ext (b := { s.part with
          pool := s.part.pool.set slot (some { j with state := .capturing, running := some r }) })
          (hlength.trans (List.length_set ..).symm) fun k => ?_
        by_cases hkslot : k = slot
        · subst hkslot
          rw [hrunning, hfull', hurgent']
          exact (Part.job?_setJob_self hj _).symm
        · rw [hstays k hkslot (hnone k)]
          exact (Part.job?_setJob_ne (Ne.symm hkslot) _).symm
      refine ⟨t, ht, fun _ _ => ⟨r, hr, hcarried, ?_, fun p tx ty x hx => ?_, fun y hy => ?_, hburst⟩, fun hno => ?_⟩
      · rw [hpool, hmid] at hagree
        exact hagree
      · rw [Part.tileAt?_congr htiles]
        exact hactive p tx ty x hx
      · rw [Part.zone?_congr hzones] at hy
        obtain ⟨x, hx⟩ := hkept.zone? hy
        obtain ⟨queued, hafter, hown, -⟩ := hzone n x hx
        rw [hafter] at hy
        cases hy
        rw [htiles]
        refine ⟨hown (.inl hscope), if_pos hscope, congrArg (dirtyTiles mid.tiles) ?_⟩
        exact Part.zone?_index hx
      · exfalso
        obtain ⟨hadmits, hfits⟩ := (s.part.fits_iff g j cost).2 hf
        rcases hno with h | h
        · rw [hadmits] at h
          cases h
        · exact absurd ((hspend cost).1 hfits) (Nat.not_le.2 h)
    · obtain ⟨t, ht, hagree, hquiet, hlatched⟩ := State.run_stops (starves := decide (j.cls = .urgent ∧ j.starvedReported = false
        ∧ g.globals.starvationLimit < (s.part.clock.mono - j.enqueued).toNat)) hs hstopped hg hc hsel hj hq hothers hlimit hport hm
        hk hf decide_eq_true_iff
      rw [hscope] at hlatched
      exact ⟨t, ht, fun hadmits hfits => absurd ((s.part.fits_iff g j cost).1 ⟨hadmits, hfits⟩) hf,
        fun _ => ⟨_, decide_eq_true_iff, hagree, hquiet, hlatched⟩⟩
  · intro s g p c slot j sel mode full urgent frames pixels cost withdrawn hs hstopped hg hc hsel hj hq hpanel hscope hrect
      hwithdrawn hthose hheld hlimit hport hfull hurgent hmode hframes hpixels hcost hadmits hfits
    subst hpanel
    have hwithdraws : ∀ k q, s.part.Withdraws j k q ↔ withdrawn k q := fun k q => by
      refine ⟨fun hw => ?_, fun hw => ?_⟩
      · obtain ⟨-, hjob, -, -, n, hn⟩ := hw
        refine (hwithdrawn k q).2 ⟨fun hkslot => ?_, hjob⟩
        subst hkslot
        rw [Option.some.inj (hj.symm.trans hjob), hn] at hscope
        cases hscope
      · obtain ⟨hqueued, hqpanel, hzone, -⟩ := hthose k q hw
        exact ⟨⟨_, hscope⟩, ((hwithdrawn k q).1 hw).2, hqueued, hqpanel, hzone⟩
    have hm : s.part.ModeIs g c j mode := by
      unfold Part.ModeIs
      rw [hscope]
      dsimp only
      rw [hmode, hfull]
      simp only [hwithdraws, or_assoc]
      exact Iff.rfl
    have hwhole : ∀ {tx ty x}, s.part.tileAt? g j.panel tx ty = some x → j.rect.contains tx ty = true := fun hx => by
      rw [hrect]
      exact Part.contains_whole hc hx
    obtain ⟨t, mid, ht, hadmitted, hkept, htiles, hzones, hpool, hagree, -⟩ := State.run_admits (pixels := pixels) hs hstopped hg
      hc hsel hj hq (fun k q hne hx => by
        have hw := (hwithdrawn k q).2 ⟨hne, hx⟩
        exact ⟨(hwithdraws k q).2 hw, (hthose k q hw).2.2.2⟩) (.inl hheld) hlimit hport hm ⟨hpixels, frames, hframes, hcost⟩
      ((s.part.fits_iff g j cost).1 ⟨hadmits, hfits⟩)
    have halone : ∀ k, k ≠ slot → mid.job? k = none := fun k hne => hadmitted.job?_alone (fun k q hne hx =>
      (hwithdraws k q).2 ((hwithdrawn k q).2 ⟨hne, hx⟩)) hne
    obtain ⟨r, full', urgent', hr, hcarried, hfull', hurgent', -, -, -, -, -, hrunning, hactive, hzone⟩ := hadmitted
    have hfullIs : full' = full := by
      rw [Bool.eq_iff_iff, hfull', hfull]
      exact or_congr Iff.rfl (exists_congr fun k => exists_congr fun q => and_congr (hwithdraws k q) Iff.rfl)
    have hurgentIs : urgent' = urgent := by
      rw [Bool.eq_iff_iff, hurgent', hurgent]
      exact or_congr Iff.rfl (exists_congr fun k => exists_congr fun q => and_congr (hwithdraws k q) Iff.rfl)
    subst hfullIs hurgentIs
    refine ⟨t, r, ht, hr, fun i => (hcarried i).trans ?_, fun k => ?_, ?_, fun q tx ty x hx => ?_, fun n y hy => ?_⟩
    · exact ⟨fun ⟨tx, ty, x, _, hx, hstate, hi⟩ => ⟨tx, ty, x, hx, hstate, hi⟩,
        fun ⟨tx, ty, x, hx, hstate, hi⟩ => ⟨tx, ty, x, hwhole hx, hx, hstate, hi⟩⟩
    · rw [Part.job?_congr hpool]
      split
      · next hkslot =>
        subst hkslot
        exact hrunning
      · next hkslot => exact halone k hkslot
    · have hgroup : j.rect.tx0 = 0 := by rw [hrect]
      unfold Engine.begun Engine.outsidePath at hagree
      dsimp only at hagree
      rw [hgroup] at hagree
      exact hagree
    · rw [Part.tileAt?_congr htiles, hactive q tx ty x hx]
      by_cases hqp : q = j.panel
      · subst hqp
        rw [if_pos ⟨rfl, hwhole hx⟩, if_pos rfl]
      · rw [if_neg fun h => hqp h.1, if_neg hqp]
    · obtain ⟨queued, hafter, hnone, hstays⟩ := hzone n y hy
      have hother : j.scope ≠ .zone n := by rw [hscope]; nofun
      refine ⟨_, (Part.zone?_congr hzones n).trans hafter, ?_, rfl, rfl, if_neg hother, fun ⟨k, q, hw, hn⟩ => ?_, fun hno => ?_⟩
      · rw [htiles]
        exact congrArg (dirtyTiles mid.tiles) (show y.index = n from Part.zone?_index hy)
      · exact hnone (.inr ⟨k, q, (hwithdraws k q).2 hw, hn⟩)
      · exact hstays hother fun k q hw => hno k q ((hwithdraws k q).1 hw)
  · intro c s u h
    obtain ⟨t, ht, hfinish, -⟩ := h
    refine ⟨t, u.part.takeWalks 8, ht, Part.walksOver 8 u.part, ?_⟩
    rw [hfinish]
    exact State.finish_agreesOutsidePath_walks s u

end

section
/-! PROOFS of the statement about the decision of an APPLY (R14, R16, R74, R76, R81, R94, R95, R138, R163, R164). -/

namespace Sys2Proof.Machine

theorem Part.Latched.of_causes {a a' b b' : Part} {k : Cause} {n : Nat} (h : a.Latched b k n)
    (ha : a'.unit.causes = a.unit.causes) (hb : b'.unit.causes = b.unit.causes) : a'.Latched b' k n := by
  obtain ⟨hown, hother⟩ := h
  unfold Part.Latched
  rw [ha, WindowUnit.detail?_congr ha, WindowUnit.detail?_congr hb]
  refine ⟨hown, fun q hq => ?_⟩
  rw [WindowUnit.detail?_congr ha, WindowUnit.detail?_congr hb]
  exact hother q hq

/-! ### What the surplus sweep test may change (R76) -/

/-- `b` is `a` but for the tiles, the zones, the queue, a walk owed and the attention causes. -/
def Part.SweepFrame (a b : Part) : Prop :=
  b = { a with
    tiles := b.tiles, zones := b.zones, pool := b.pool, sequence := b.sequence, walkOwed := b.walkOwed
    unit := { a.unit with causes := b.unit.causes } }

theorem Part.SweepFrame.eq {a b : Part} (h : a.SweepFrame b) : b = { a with
    tiles := b.tiles, zones := b.zones, pool := b.pool, sequence := b.sequence, walkOwed := b.walkOwed
    unit := { a.unit with causes := b.unit.causes } } := h

theorem Part.SweepFrame.refl (a : Part) : a.SweepFrame a := rfl

theorem Part.SweepFrame.trans {a b c : Part} (h : a.SweepFrame b) (h' : b.SweepFrame c) : a.SweepFrame c := by
  unfold Part.SweepFrame at *
  rw [h']
  conv => lhs; rw [h]

theorem Part.SweepFrame.foldl {α : Type} {f : Part → α → Part} (hf : ∀ (a : Part) x, a.SweepFrame (f a x)) (xs : List α)
    (a : Part) : a.SweepFrame (xs.foldl f a) := by
  induction xs generalizing a with
  | nil => exact .refl a
  | cons x xs ih => exact (hf a x).trans (ih _)

theorem Part.sweepFrame_latch (a : Part) (k : Cause) (n : Nat) : a.SweepFrame (a.latch k n) := by
  unfold Part.SweepFrame Part.latch
  split <;> rfl

theorem Part.sweepFrame_mapTiles (a : Part) (g : Setup) (p : PanelNo) (r : Rect) (f : Nat → Nat → Tile → Tile) :
    a.SweepFrame (a.mapTiles g p r f).followTiles := by
  have h : a.SweepFrame (a.mapTiles g p r f) := by
    unfold Part.SweepFrame Part.mapTiles
    split <;> rfl
  exact h.trans rfl

theorem Part.sweepFrame_mergeRequest (a : Part) (slot : Nat) (j : Job) (r : Rect) (cls : RefreshClass) (full : Bool) :
    a.SweepFrame (a.mergeRequest slot j r cls full) := by
  unfold Part.mergeRequest
  dsimp only
  split <;> rfl

theorem Part.sweepFrame_requestSweep (a : Part) (g : Setup) (p : PanelNo) (c : PanelCfg) (o : Origin) :
    a.SweepFrame (a.requestSweep g p c o) := by
  unfold Part.requestSweep
  split
  · next placed hplaced =>
    unfold Part.requestPanel at hplaced
    split at hplaced
    · cases hplaced
      exact (Part.sweepFrame_mergeRequest ..).trans (Part.sweepFrame_mapTiles ..)
    · split at hplaced
      · next slot _ =>
        cases hplaced
        have h : a.SweepFrame (a.placeJob slot p (.panel p) c.whole .sweep o true) := rfl
        exact h.trans (Part.sweepFrame_mapTiles ..)
      · cases hplaced
  · exact Part.sweepFrame_latch ..

theorem Part.sweepFrame_surplusTest (a : Part) (g : Setup) : a.SweepFrame (a.surplusTest g) := by
  refine .foldl (fun a p => ?_) _ a
  unfold Part.surplusAt
  split
  · exact .refl a
  · split
    · exact Part.sweepFrame_requestSweep ..
    · exact .refl a

/-! ### A change of level (R94) -/

/-- A part that notes its level where it is not the one `before` (R94). -/
def Part.noteLevel (a : Part) (before : PolicyLevel) : Part :=
  if a.energy.level = before then a else (a.latch .policyChanged a.energy.level.rank).oweWalk

theorem Part.sweepFrame_noteLevel (a : Part) (before : PolicyLevel) : a.SweepFrame (a.noteLevel before) := by
  unfold Part.noteLevel
  split
  · exact .refl a
  · exact (Part.sweepFrame_latch ..).trans rfl

theorem Part.noteLevel_eq {a : Part} (before : PolicyLevel) (h : a.walkOwed = true) :
    a.noteLevel before = { a with unit := { a.unit with causes := (a.noteLevel before).unit.causes } } := by
  unfold Part.noteLevel
  split
  · rfl
  · unfold Part.oweWalk
    conv => lhs; rw [Part.latch_eq, ← h]

theorem Part.noteLevel_same {a : Part} {before : PolicyLevel} (h : a.energy.level = before) : a.noteLevel before = a :=
  if_pos h

theorem Part.noteLevel_latched {a : Part} {before : PolicyLevel} (h : a.energy.level ≠ before) :
    a.Latched (a.noteLevel before) .policyChanged a.energy.level.code := by
  unfold Part.noteLevel
  rw [if_neg h, ← PolicyLevel.rank_eq_code]
  exact (Part.latched_latch ..).of_causes rfl rfl

theorem Part.noteLevel_causes_length (a : Part) (before : PolicyLevel) :
    (a.noteLevel before).unit.causes.length = a.unit.causes.length := by
  unfold Part.noteLevel
  split
  · rfl
  · exact Part.latch_causes_length ..

theorem Part.levelChanged_eq (a : Part) (g : Setup) (before : PolicyLevel) :
    a.levelChanged g before
      = if a.energy.level = .surplus ∧ before ≠ .surplus then (a.noteLevel before).surplusTest g else a.noteLevel before := by
  unfold Part.levelChanged Part.noteLevel
  by_cases h : a.energy.level = before
  · rw [if_pos h, if_pos h, if_neg fun ⟨hs, hb⟩ => hb (h ▸ hs)]
  · rw [if_neg h, if_neg h]
    by_cases hs : a.energy.level = .surplus
    · rw [if_pos hs, if_pos ⟨hs, fun hb => h (hs.trans hb.symm)⟩]
    · rw [if_neg hs, if_neg fun ⟨h, _⟩ => hs h]

/-! ### The panels preserved (R14) -/

theorem preservedPanel_iff {a : Part} {new : Setup} {p : PanelNo} {c : PanelCfg} (hc : new.panels.get p = some c) :
    preservedPanel a.setup new p = true ↔ ∃ old was, a.PreservedBy p c old was := by
  have hsame (was : PanelCfg) : was.preserves c = true ↔ was.width = c.width ∧ was.height = c.height
      ∧ was.stride = c.stride ∧ was.targetBase = c.targetBase ∧ was.shownBase = c.shownBase ∧ was.stageBase = c.stageBase := by
    simp only [PanelCfg.preserves, Bool.and_eq_true, beq_iff_eq, and_assoc]
  constructor
  · intro h
    cases hold : a.setup with
    | none => rw [hold] at h; cases h
    | some old =>
      rw [hold] at h
      obtain ⟨was, hwas, hkept⟩ := preservedPanel_eq hc h
      exact ⟨old, was, hold, hwas, (hsame was).1 hkept⟩
  · rintro ⟨old, was, hold, hwas, hkept⟩
    unfold preservedPanel
    rw [hold]
    dsimp only
    rw [hwas, hc]
    exact (hsame was).2 hkept

theorem preservedPanel_disabled {new : Setup} {p : PanelNo} (old : Option Setup) (hc : new.panels.get p = none) :
    preservedPanel old new p = false := by
  unfold preservedPanel
  rw [hc]
  split
  · rfl
  · split
    · next h => cases h
    · rfl

/-! ### The rebuilt tile table (R14) -/

theorem Setup.zoneTiles_getElem? (g : Setup) (p : PanelNo) (cols : Nat) (ts : List Tile) (i k : Nat) :
    (g.zoneTiles p cols i ts)[k]?
      = ts[k]?.map fun t => { t with zone := g.zoneAt p ((i + k) % cols) ((i + k) / cols) } := by
  induction ts generalizing i k with
  | nil => rfl
  | cons t ts ih =>
    rw [Setup.zoneTiles]
    cases k with
    | zero => rfl
    | succ k => rw [List.getElem?_cons_succ, List.getElem?_cons_succ, ih, Nat.add_right_comm i 1 k, Nat.add_assoc]

/-- The records of a list of all panels that belong to one of them begin at its first record (R7). -/
theorem Setup.flatMap_firstTile {g : Setup} {F : PanelNo → List Tile} (h : ∀ p, (F p).length = g.tilesOf p) (p : PanelNo) :
    ∃ xs zs, panelNos.flatMap F = xs ++ (F p ++ zs) ∧ xs.length = g.firstTile p := by
  match p with
  | 0 => exact ⟨[], F 1 ++ F 2 ++ F 3, by simp [panelNos], by simp [Setup.firstTile, panelNos]⟩
  | 1 => exact ⟨F 0, F 2 ++ F 3, by simp [panelNos], by simp [Setup.firstTile, panelNos, h]⟩
  | 2 => exact ⟨F 0 ++ F 1, F 3, by simp [panelNos], by simp [Setup.firstTile, panelNos, h]⟩
  | 3 => exact ⟨F 0 ++ F 1 ++ F 2, [], by simp [panelNos], by simp [Setup.firstTile, panelNos, h, Nat.add_assoc]⟩

theorem PanelCfg.tile_lt (c : PanelCfg) {tx ty : Nat} (hx : tx < c.cols) (hy : ty < c.rows) :
    ty * c.cols + tx < c.tileCount := by
  calc ty * c.cols + tx < ty * c.cols + c.cols := Nat.add_lt_add_left hx _
    _ = (ty + 1) * c.cols := (Nat.succ_mul ..).symm
    _ ≤ c.rows * c.cols := Nat.mul_le_mul_right _ hy
    _ = c.tileCount := Nat.mul_comm ..

/-- A tile's record in the rebuilt table: the panel's base record with its zone computed anew (R12, R14). -/
theorem Part.rebuilt_tileAt? {a b : Part} (h : a.TilesSound) {g : Setup} (hb : b.tiles = panelNos.flatMap (a.rebuildPanel g))
    {p : PanelNo} {c : PanelCfg} (hc : g.panels.get p = some c) {tx ty : Nat} (hx : tx < c.cols) (hy : ty < c.rows) :
    b.tileAt? g p tx ty = (a.baseRecords g p c)[ty * c.cols + tx]?.map fun t => { t with zone := g.zoneAt p tx ty } := by
  obtain ⟨xs, zs, hsplit, hlength⟩ := Setup.flatMap_firstTile (fun q => (Part.rebuildPanel_sound h g q).1) p
  have hwithin : ty * c.cols + tx < (a.rebuildPanel g p).length := by
    rw [(Part.rebuildPanel_sound h g p).1, Setup.tilesOf_eq hc]
    exact c.tile_lt hx hy
  have hmod : (0 + (ty * c.cols + tx)) % c.cols = tx := by
    rw [Nat.zero_add, Nat.mul_comm, Nat.mul_add_mod, Nat.mod_eq_of_lt hx]
  have hdiv : (0 + (ty * c.cols + tx)) / c.cols = ty := by
    rw [Nat.zero_add, Nat.mul_comm, Nat.mul_add_div (Nat.zero_lt_of_lt hx), Nat.div_eq_of_lt hx, Nat.add_zero]
  unfold Part.tileAt?
  rw [hc]
  dsimp only
  rw [if_pos ⟨hx, hy⟩, hb, hsplit, Setup.tileIndex, Nat.add_assoc, ← hlength, List.getElem?_append_right (Nat.le_add_right ..),
    Nat.add_sub_cancel_left, List.getElem?_append_left hwithin, Part.rebuildPanel_eq a hc, Setup.zoneTiles_getElem?, hmod, hdiv]

/-- The base record of a tile of a preserved panel is its record carried over (R14). -/
theorem Part.baseRecords_preserved {a : Part} {g : Setup} {p : PanelNo} {c : PanelCfg} (hc : g.panels.get p = some c)
    {old : Setup} {was : PanelCfg} (h : a.PreservedBy p c old was) {tx ty : Nat} (hx : tx < c.cols) (hy : ty < c.rows) :
    (a.baseRecords g p c)[ty * c.cols + tx]? = (a.tileAt? old p tx ty).map Tile.carry := by
  have hkept : preservedPanel (some old) g p = true := h.1 ▸ (preservedPanel_iff hc).2 ⟨old, was, h⟩
  obtain ⟨hold, hwas, hw, hh, -⟩ := h
  have hcols : was.cols = c.cols := congrArg (· / 32) hw
  have hrows : was.rows = c.rows := congrArg (· / 32) hh
  unfold Part.baseRecords Part.tileAt?
  rw [hold, hwas]
  dsimp only
  rw [if_pos hkept, if_pos ⟨hcols ▸ hx, hrows ▸ hy⟩, Setup.tileIndex, hcols, List.getElem?_map,
    List.getElem?_take_of_lt (c.tile_lt hx hy), List.getElem?_drop, Nat.add_assoc]

/-- The base record of a tile of any other panel is fresh (R14). -/
theorem Part.baseRecords_fresh {a : Part} {g : Setup} {p : PanelNo} {c : PanelCfg} (hc : g.panels.get p = some c)
    (h : ∀ old was, ¬a.PreservedBy p c old was) {k : Nat} (hk : k < c.tileCount) :
    (a.baseRecords g p c)[k]? = some Tile.fresh := by
  have hnot : ¬preservedPanel a.setup g p = true := fun hp => by
    obtain ⟨old, was, hby⟩ := (preservedPanel_iff hc).1 hp
    exact h old was hby
  unfold Part.baseRecords
  split
  · next old hold =>
    rw [hold] at hnot
    rw [if_neg hnot, List.getElem?_replicate, if_pos hk]
  · rw [List.getElem?_replicate, if_pos hk]

/-- What R14 says of one tile's record after acceptance. -/
theorem Part.rebuilt_tile {a b : Part} (h : a.TilesSound) {g : Setup} (hb : b.tiles = panelNos.flatMap (a.rebuildPanel g))
    {p : PanelNo} {c : PanelCfg} (hc : g.panels.get p = some c) {tx ty : Nat} (hx : tx < c.cols) (hy : ty < c.rows) :
    ∃ y, b.tileAt? g p tx ty = some y ∧ y.redirty = false ∧ y.zone = g.zoneAt p tx ty
      ∧ (∀ old was w, a.PreservedBy p c old was → a.tileAt? old p tx ty = some w →
          y.debt = w.debt ∧ y.untrusted = w.untrusted ∧ y.state = if w.state = .clean then .clean else .dirty)
      ∧ ((∀ old was, ¬a.PreservedBy p c old was) → y.debt = 0 ∧ y.untrusted = true ∧ y.state = .dirty) := by
  have hat := Part.rebuilt_tileAt? h hb hc hx hy
  have hk := c.tile_lt hx hy
  have hlength : ty * c.cols + tx < (a.baseRecords g p c).length := by
    rw [Part.baseRecords_length h hc]
    exact hk
  by_cases hp : ∃ old was, a.PreservedBy p c old was
  · obtain ⟨old, was, hby⟩ := hp
    have hbase := Part.baseRecords_preserved hc hby hx hy
    rw [List.getElem?_eq_getElem hlength] at hbase
    obtain ⟨w, hw, hcarry⟩ := Option.map_eq_some_iff.1 hbase.symm
    rw [List.getElem?_eq_getElem hlength, ← hcarry] at hat
    refine ⟨_, hat, rfl, rfl, fun old' was' w' hby' hw' => ?_, fun hnot => absurd hby (hnot old was)⟩
    obtain rfl : old' = old := Option.some.inj (hby'.1.symm.trans hby.1)
    obtain rfl : w' = w := Option.some.inj (hw'.symm.trans hw)
    exact ⟨rfl, rfl, rfl⟩
  · have hnot : ∀ old was, ¬a.PreservedBy p c old was := fun old was hby => hp ⟨old, was, hby⟩
    rw [Part.baseRecords_fresh hc hnot hk] at hat
    exact ⟨_, hat, rfl, rfl, fun old was _ hby => absurd hby (hnot old was), fun _ => ⟨rfl, rfl, rfl⟩⟩

theorem Setup.tileTotal_eq (g : Setup) :
    g.tileTotal = (panelNos.map fun p => ((g.panels.get p).map fun c => (c.width / 32) * (c.height / 32)).getD 0).sum := by
  refine congrArg List.sum (List.map_congr_left fun p _ => ?_)
  unfold Setup.tilesOf
  cases g.panels.get p <;> rfl

/-! ### The ports and the energy state (R95, R138) -/

/-- A port after acceptance but for what its state found asks (R138). -/
def Port.cleared (y : Port) (enabled : Bool) : Port :=
  { y with
    cause := .none, held := false, attempts := 0, wakePending := false, retryWake := false
    tempOutstanding := false, queryDue := false, limit := none, retry := none, window := none
    closingOver := false, restoreWaits := false
    state := if enabled then .off else .unused }

theorem Port.apply_of_awake {y : Port} (h : y.state = .waking ∨ y.state = .ready) (enabled : Bool) (now : Stamp) :
    y.apply enabled now = { y.cleared enabled with lastRest := some now, sent := some .rest } := by
  unfold Port.apply
  rcases h with h | h <;> rw [h] <;> rfl

theorem Port.apply_of_closing {y : Port} (h : y.state = .closing) (enabled : Bool) (now : Stamp) :
    y.apply enabled now = { y.cleared enabled with state := .closing, limit := y.limit, closingOver := true } := by
  unfold Port.apply
  rw [h]
  rfl

theorem Port.apply_of_down {y : Port} (h : y.state = .off ∨ y.state = .fault) (enabled : Bool) (now : Stamp) :
    y.apply enabled now = y.cleared enabled := by
  unfold Port.apply
  rcases h with h | h <;> rw [h] <;> rfl

theorem Port.apply_of_unused {y : Port} (h : y.state = .unused) (enabled : Bool) (now : Stamp) :
    y.apply enabled now = { y.cleared enabled with lastRest := none } := by
  unfold Port.apply
  rw [h]
  rfl

theorem Energy.apply_frame (e : Energy) (g : GlobalSettings) :
    e.apply g = { e with usable := (e.apply g).usable, level := (e.apply g).level } := by
  unfold Energy.apply
  split <;> rfl

theorem Energy.apply_sampled {e : Energy} (h : e.sampled = true) (g : GlobalSettings) :
    e.apply g = { e with usable := usableEnergy g e.vs, level := selectLevel g e.level e.vs } := if_pos h

theorem Energy.apply_unsampled {e : Energy} (h : e.sampled = false) (g : GlobalSettings) :
    e.apply g = { e with usable := 0 } := if_neg (h ▸ Bool.false_ne_true)

/-! ### The decision (R163, R164) -/

/-- The part under an accepted setup before its change of level (R164). -/
def Part.rebuilt (part : Part) (x : ReadSetup) : Part :=
  { part with
    setup := some x.setup
    pool := List.replicate Config.slots none
    sequence := 0
    runningCount := 0
    committed := 0
    engines := Quad.all none
    tiles := panelNos.flatMap (part.rebuildPanel x.setup)
    zones := x.setup.zones.map (ZoneCfg.build (panelNos.flatMap (part.rebuildPanel x.setup)) part.clock.mono)
    selectors := Quad.ofPanels fun p =>
      (x.setup.panels.get p).map fun _ => ⟨0, none, part.clock.mono, 0, false, false⟩
    ports := Quad.ofPanels fun p => (part.port p).apply (x.setup.panels.get p).isSome part.now
    lastSweep := Quad.ofPanels fun p => if preservedPanel part.setup x.setup p then part.lastSweep.get p else none
    energy := part.energy.apply x.setup.globals
    stopMark := none
    walkOwed := true
    unit := { part.unit with mask := x.mask, fieldsClamped := x.clamps, setupData := [], setupRequest := none } }

theorem Part.rebuilt_selector? (a : Part) (x : ReadSetup) (p : PanelNo) :
    (a.rebuilt x).selector? p = if (x.panels.get p).isSome then some ⟨0, none, a.clock.mono, 0, false, false⟩ else none := by
  refine (Quad.get_ofPanels _ p).trans ?_
  change Option.map _ (x.panels.get p) = _
  cases x.panels.get p <;> rfl

theorem Part.rebuilt_port (a : Part) (x : ReadSetup) (p : PanelNo) :
    (a.rebuilt x).port p = (a.port p).apply (x.panels.get p).isSome ⟨a.clock.mono, a.clock.tick⟩ :=
  Quad.get_ofPanels _ p

theorem Part.rebuilt_lastSweep (a : Part) (x : ReadSetup) (p : PanelNo) :
    (a.rebuilt x).lastSweep.get p = if preservedPanel a.setup x.setup p then a.lastSweep.get p else none :=
  Quad.get_ofPanels _ p

theorem Part.acceptSetup_eq (a : Part) (x : ReadSetup) {swept : Part}
    (h : (a.rebuilt x).levelChanged x.setup a.energy.level = swept) :
    a.acceptSetup x = Part.latch { swept with
      unit := { swept.unit with
        runState := .stopped, setupEdited := false, setupResult := .accepted, setupCause := .none, setupIndex := 0 } }
      .setupResult 1 := by
  rw [← h]
  rfl

/-- The end of the 21st setup read decides the APPLY. -/
theorem exec_setupReadEnd {s : State} {b : Burst} (hs : s.Ready) (hb : s.path.burst = some b) (hk : b.kind = .setupRead)
    (hrow : b.row = 20) (happlying : s.part.unit.runState = .applying) :
    CompletesWith .setupReadEnd s { s with
      path := { s.path with burst := none }
      part := s.part.decideApply (s.part.unit.setupData ++ s.memory.window b.addr 128 0xD80) } := by
  refine .of_event (en := b.kind == .setupRead) (f := State.setupReadEnd b) hs.1 ?_ (beq_iff_eq.2 hk) ?_
  · show execSetupReadEnd s = _
    unfold execSetupReadEnd
    rw [hb]
  · unfold State.setupReadEnd Part.setupReadDone
    rw [if_pos happlying, hrow]
    rfl

theorem Part.rejectSetup_latched (a : Part) (cause : SetupCause) (index clamps : Nat) :
    a.Latched (a.rejectSetup cause index clamps) .setupResult 2 := by
  unfold Part.rejectSetup
  refine Part.Latched.of_causes (b' := Part.latch _ _ _) (Part.latched_latch ..) ?_ rfl
  rfl

theorem State.walkedOver_of_none {u : State} (h : u.part.stopMark = none) : u.walkedOver = u := by
  unfold State.walkedOver
  rw [h, ite_self, ← h]

/-- A rejected APPLY (R164). -/
theorem State.apply_rejected {s t : State} {cause : SetupCause} {index clamps : Nat}
    (h : t.AgreesOutsidePath { s with
      path := { s.path with burst := none }, part := s.part.rejectSetup cause index clamps }) :
    s.part.Latched t.part .setupResult 2
      ∧ t.AgreesOutsidePath
          { s with
            part := { s.part with
              unit := { s.part.unit with
                runState := s.part.unit.leftState, setupResult := .rejected, setupCause := cause, setupIndex := index
                fieldsClamped := clamps, setupData := [], causes := t.part.unit.causes } } } := by
  have hcauses : t.part.unit.causes = (s.part.rejectSetup cause index clamps).unit.causes := h.causes
  refine ⟨(Part.rejectSetup_latched ..).congr hcauses, h.trans ?_⟩
  rw [hcauses]
  unfold Part.rejectSetup
  conv => lhs; rw [Part.latch_eq]
  rfl

/-- An accepted APPLY (R164), from the part that its change of level leaves. -/
theorem State.apply_accepted {s t : State} {x : ReadSetup} {swept : Part}
    (hswept : (s.part.rebuilt x).levelChanged x.setup s.part.energy.level = swept)
    (hframe : (s.part.rebuilt x).SweepFrame swept)
    (h : t.AgreesOutsidePath (State.walkedOver { s with
      path := { s.path with burst := none }, part := s.part.acceptSetup x })) :
    swept.Latched t.part .setupResult 1
      ∧ t.AgreesOutsidePath
          { s with
            part := { swept with
              unit := { s.part.unit with
                runState := .stopped, setupEdited := false, setupResult := .accepted, setupCause := .none
                setupIndex := 0, fieldsClamped := x.clamps, mask := x.mask, setupData := []
                causes := t.part.unit.causes } } } := by
  have hcauses : t.part.unit.causes = (s.part.acceptSetup x).unit.causes := h.causes
  have haccept := Part.acceptSetup_eq s.part x hswept
  have hmark : swept.stopMark = none := congrArg (fun a : Part => a.stopMark) hframe.eq
  have hunit : swept.unit = { (s.part.rebuilt x).unit with causes := swept.unit.causes } :=
    congrArg (fun a : Part => a.unit) hframe.eq
  have hleft : s.part.acceptSetup x = { swept with
      unit := { s.part.unit with
        runState := .stopped, setupEdited := false, setupResult := .accepted, setupCause := .none
        setupIndex := 0, fieldsClamped := x.clamps, mask := x.mask, setupData := [], setupRequest := none
        causes := (s.part.acceptSetup x).unit.causes } } := by
    conv => lhs; rw [haccept, Part.latch_eq, ← haccept, hunit]
    rfl
  have hlatched : swept.Latched (s.part.acceptSetup x) .setupResult 1 := by
    rw [haccept]
    refine Part.Latched.of_causes (b' := Part.latch _ _ _) (Part.latched_latch ..) ?_ rfl
    rfl
  refine ⟨hlatched.congr hcauses, ?_⟩
  rw [State.walkedOver_of_none (by rw [hleft]; exact hmark), hleft] at h
  rw [hcauses]
  exact h

theorem Part.decideApply_rejects {a : Part} {d : Memory} {cause : SetupCause} {index clamps : Nat}
    (h : (a.unit.editMark = true ∧ cause = .editedDuringApply ∧ index = 0 ∧ clamps = 0)
      ∨ (a.unit.editMark = false ∧ (readSetup d).failure a.unit.base = some (cause, index) ∧ clamps = (readSetup d).clamps)) :
    a.decideApply d = a.rejectSetup cause index clamps := by
  unfold Part.decideApply
  rcases h with ⟨hmark, rfl, rfl, rfl⟩ | ⟨hmark, hfails, hclamps⟩
  · exact if_pos hmark
  · rw [hmark, if_neg Bool.false_ne_true, hclamps]
    dsimp only
    rw [hfails]

theorem Part.decideApply_accepts {a : Part} {d : Memory} (hmark : a.unit.editMark = false)
    (hpasses : (readSetup d).failure a.unit.base = none) : a.decideApply d = a.acceptSetup (readSetup d) := by
  unfold Part.decideApply
  rw [hmark, if_neg Bool.false_ne_true]
  dsimp only
  rw [hpasses]

/-- A rejection causes no walk (R46). -/
theorem Part.rejectSetup_walkOwed (a : Part) (cause : SetupCause) (index clamps : Nat) :
    (a.rejectSetup cause index clamps).walkOwed = a.walkOwed := by
  unfold Part.rejectSetup
  rw [Part.latch_eq]

theorem Part.acceptSetup_runState (a : Part) (x : ReadSetup) : (a.acceptSetup x).unit.runState = .stopped := by
  rw [Part.acceptSetup_eq a x rfl, Part.latch_eq]

/-- An accepted APPLY with its change of level: what is built, what the surplus sweep test leaves of it, and the answer. -/
theorem State.apply_swept {s t : State} {x : ReadSetup} {built : Part}
    (hb : built = (s.part.rebuilt x).noteLevel s.part.energy.level)
    (h : t.AgreesOutsidePath (State.walkedOver { s with
      path := { s.path with burst := none }, part := s.part.acceptSetup x })) :
    ∃ swept : Part,
      (built.energy.level = .surplus ∧ s.part.energy.level ≠ .surplus →
        Passes (SurplusTaken x.setup) panelNos built swept)
      ∧ (built.energy.level ≠ .surplus ∨ s.part.energy.level = .surplus → swept = built)
      ∧ swept.Latched t.part .setupResult 1
      ∧ t.AgreesOutsidePath
          { s with
            part := { swept with
              unit := { s.part.unit with
                runState := .stopped, setupEdited := false, setupResult := .accepted, setupCause := .none
                setupIndex := 0, fieldsClamped := x.clamps, mask := x.mask, setupData := []
                causes := t.part.unit.causes } } } := by
  have hnoted : (s.part.rebuilt x).SweepFrame built := hb ▸ Part.sweepFrame_noteLevel ..
  have henergy : built.energy = (s.part.rebuilt x).energy := (congrArg (fun a : Part => a.energy) hnoted.eq).trans rfl
  have hchanged := Part.levelChanged_eq (s.part.rebuilt x) x.setup s.part.energy.level
  rw [← henergy, ← hb] at hchanged
  by_cases hentry : built.energy.level = .surplus ∧ s.part.energy.level ≠ .surplus
  · rw [if_pos hentry] at hchanged
    obtain ⟨hlatched, hagree⟩ := State.apply_accepted hchanged (hnoted.trans (Part.sweepFrame_surplusTest ..)) h
    exact ⟨_, fun _ => .foldl (f := Part.surplusAt x.setup) (fun p a => Part.surplusTaken x.setup p a) panelNos built,
      fun hno => hno.elim (absurd hentry.1) (fun he => absurd he hentry.2), hlatched, hagree⟩
  · rw [if_neg hentry] at hchanged
    obtain ⟨hlatched, hagree⟩ := State.apply_accepted hchanged hnoted h
    exact ⟨_, fun he => absurd he hentry, fun _ => rfl, hlatched, hagree⟩

end Sys2Proof.Machine

open Sys2Proof Sys2Proof.Machine

/-- Settles O44: the decision of an APPLY, rejected without effect or accepted with all that follows. -/
theorem applyDecided : Obligations.ApplyDecided := by
  intro s b d hs hb hk hrow happlying h13 htiles hd
  have hdone := exec_setupReadEnd hs hb hk hrow happlying
  rw [← hd] at hdone
  refine ⟨readSetup d, (readSetup d).failure s.part.unit.base, readSetup_readAs d, ReadSetup.firstFails .., ?_, ?_⟩
  · intro cause index clamps hcase
    rw [Part.decideApply_rejects hcase] at hdone
    obtain ⟨t, ht, -, -, hquiet, -⟩ := hdone
    exact ⟨t, ht, State.apply_rejected (hquiet ((Part.rejectSetup_walkOwed ..).trans hs.2))⟩
  · rintro g e now hmark hpasses rfl rfl rfl
    rw [Part.decideApply_accepts hmark hpasses] at hdone
    obtain ⟨t, ht, -, -, -, hover⟩ := hdone
    have hstopped : (s.part.acceptSetup (readSetup d)).unit.runState ≠ .running := by
      rw [Part.acceptSetup_runState]
      nofun
    have hagree := hover hstopped
    obtain ⟨x, hx⟩ : ∃ x, readSetup d = x := ⟨_, rfl⟩
    rw [hx] at hagree ⊢
    have hframe : (s.part.rebuilt x).noteLevel s.part.energy.level = _ := Part.noteLevel_eq s.part.energy.level rfl
    obtain ⟨built, hbuilt⟩ : ∃ built, built = (s.part.rebuilt x).noteLevel s.part.energy.level := ⟨_, rfl⟩
    obtain ⟨swept, htests, hsame, hlatched, hleft⟩ := State.apply_swept hbuilt hagree
    rw [← hbuilt] at hframe
    have henergy : built.energy = s.part.energy.apply x.globals := congrArg (fun a : Part => a.energy) hframe
    have htable : built.tiles = panelNos.flatMap (s.part.rebuildPanel x.setup) := congrArg (fun a : Part => a.tiles) hframe
    have hlast : built.lastSweep = (s.part.rebuilt x).lastSweep := (congrArg (fun a : Part => a.lastSweep) hframe).trans rfl
    have hports : built.ports = (s.part.rebuilt x).ports := (congrArg (fun a : Part => a.ports) hframe).trans rfl
    have hselectors : built.selectors = (s.part.rebuilt x).selectors := (congrArg (fun a : Part => a.selectors) hframe).trans rfl
    have hzones : built.zones = (s.part.rebuilt x).zones := (congrArg (fun a : Part => a.zones) hframe).trans rfl
    refine ⟨t, built, swept, ht, ?_, htests, hsame, hlatched, hleft, ?_, fun hun => ?_, fun hsampled => ?_, ?_, fun hlevel => ?_,
      fun hlevel => ?_, fun p => ?_, ?_, fun p c old was hc hby => ?_, fun p hnot => ?_, ?_, ?_, ?_⟩
    · rw [hframe]
      rfl
    · rw [henergy]
      exact Energy.apply_frame ..
    · rw [henergy, Energy.apply_unsampled hun]
      exact ⟨rfl, rfl⟩
    · rw [henergy, Energy.apply_sampled hsampled]
      exact ⟨rfl, fun l hrank hv habove => selectLevel_up hrank hv habove,
        fun hup => ⟨fun hold => selectLevel_stay hup hold,
          fun hlow l hrank hv hbetween => selectLevel_down hup hlow hrank hv hbetween⟩⟩
    · rw [hbuilt, Part.noteLevel_causes_length]
      exact h13
    · have hnone : (s.part.rebuilt x).noteLevel s.part.energy.level = s.part.rebuilt x :=
        Part.noteLevel_same (by rw [henergy] at hlevel; exact hlevel)
      rw [hbuilt, hnone]
      rfl
    · rw [henergy] at hlevel ⊢
      rw [hbuilt]
      exact (Part.noteLevel_latched (a := s.part.rebuilt x) hlevel).of_causes rfl rfl
    · unfold Part.selector?
      rw [hselectors]
      exact Part.rebuilt_selector? ..
    · rintro p y cleared rfl rfl
      have hport : built.port p = (s.part.port p).apply (x.panels.get p).isSome ⟨s.part.clock.mono, s.part.clock.tick⟩ := by
        unfold Part.port
        rw [hports]
        exact Part.rebuilt_port ..
      rw [hport]
      exact ⟨fun h => Port.apply_of_awake h .., fun h => Port.apply_of_closing h .., fun h => Port.apply_of_down h ..,
        fun h => Port.apply_of_unused h ..⟩
    · rw [hlast, Part.rebuilt_lastSweep, if_pos ((preservedPanel_iff hc).2 ⟨old, was, hby⟩)]
    · rw [hlast, Part.rebuilt_lastSweep]
      refine if_neg fun hp => ?_
      cases hc : x.panels.get p with
      | none => exact absurd hp (by rw [preservedPanel_disabled (new := x.setup) _ hc]; nofun)
      | some c =>
        obtain ⟨old, was, hby⟩ := (preservedPanel_iff (new := x.setup) hc).1 hp
        exact hnot c old was hc hby
    · exact fun p c tx ty hc hx hy => Part.rebuilt_tile htiles htable hc hx hy
    · rw [htable, (Part.rebuilt_tilesSound htiles x.setup).1, Setup.tileTotal_eq]
      rfl
    · rw [hzones, htable]
      rfl

end
